-- ==== Sys2Proof/Word.lean ====
section
/-! DEFINITION. The word types of the part: bytes, 32-bit and 64-bit values, word addresses (spec/04 R62),
masks with one bit a thread, and one value a lane. -/

namespace Sys2Proof

/-- One byte of memory. -/
abbrev Byte := BitVec 8

/-- A g register's value in one lane (spec/05 R89). -/
abbrev W32 := BitVec 32

/-- A k register, an address, a code word (spec/05 R89, spec/04 R62). -/
abbrev W64 := BitVec 64

/-- A set of the 32 threads of a warp: bit t stands for thread t (spec/05 R93). -/
abbrev Mask := BitVec 32

/-- A word address, as the context record keeps it: 54 bits (spec/05 R93). -/
abbrev WAddr := BitVec 54

/-- One value for each of the 32 lanes of a warp. -/
abbrev Lanes (α : Type) := Vector α 32

/-- A completion flag's number, a barrier's, a core's, a region's: plain counts. -/
abbrev Id := Nat

end Sys2Proof
end

