-- ==== Sys2Proof/Config.lean ====
section
/-! DEFINITION. What an implementation fixes, and the free values: constants without a body that stand for a value the
spec leaves open. Nothing can be proved of them, so a statement holds whatever they are. The counts of R8 stand here too. -/

namespace Sys2Proof.Config

/-- Compute dies of the package (spec/01 R8). -/
def dies : Nat := 16

/-- Cores of a die (spec/01 R8). -/
def coresPerDie : Nat := 24

/-- Active warps of a core (spec/05 R102). -/
def activeWarps : Nat := 64

/-- Entries of a core's Deckle (spec/15 R244). -/
def deckleEntries : Nat := 64

/-- Tag-table entries of a core (spec/02 R28). -/
def coreTags : Nat := 4096

/-- Scratchpad bytes of a core (spec/01 R8). -/
def coreSpad : Nat := 524288

/-- Register-file lines of a core (spec/01 R8). -/
def coreLines : Nat := 8192

/-- The stepping of this part: 1 is 3.A, 2 is 3.B, which the manual describes (spec/00 R1). -/
def stepping : Nat := 2

/-- Early reads (spec/04 R70, DESIGN CHOICE, log 7): at the n-th free choice, the lanes that see the new value. -/
opaque earlyLanes : Nat → Mask

/-- An open yes-or-no choice of the hardware at the n-th free choice (log 5). -/
opaque freeBool : Nat → Bool

/-- An open 64-bit value at the n-th free choice (log 5). -/
opaque freeWord : Nat → W64

/-- An open choice among numbered candidates at the n-th free choice (log 5). -/
opaque freeNat : Nat → Nat

/-- The bits the SFU delivers for a bounded function of R146, by function code (the A3 opcode), operand type (0 F32, 1 F64)
and operand bits. One fixed function of the input (spec/07 R147); its value is free within the stated bound (log 6). -/
opaque sfuBits : Nat → Nat → W64 → W64

/-- Which of the 64 pseudo-channels of its home slice holds a 64-byte line, modulo 64 (spec/01 R8, log 46): the spec does not say. -/
opaque pseudoChannel : Nat → Nat

/-- The die a host port lies on (spec/20 R332, DESIGN CHOICE, log 9): the spec does not say which. -/
opaque hostPortDie : Nat → Nat

end Sys2Proof.Config
end

