-- ==== Sys2Proof/Syntax.lean ====
section
/-! DEFINITION. The instructions: one constructor for each row of spec/opcode_table.json. The words of the part keep the
fields of their class (spec/04 R74, R79, spec/10 R204); the steps of the other agents carry what the spec leaves open or
what comes from outside (which core, which slot, which bytes). -/

namespace Sys2Proof

/-- Type codes of R46, in the order of the 4-bit A3 code. -/
inductive Ty where
  | ui32 | s32 | ui64 | s64 | f32 | f64 | f16 | bf16 | f16x2 | bf16x2 | ui16x2 | s16x2 | ui8x4 | s8x4 | b32 | b64
  deriving DecidableEq, Repr

/-- Class A3 (spec/04 R79): three-operand words. Register fields hold the 7-bit numbers of R89. -/
structure A3 where
  dist : BitVec 3
  ty : Ty
  d : BitVec 7
  a : BitVec 7
  b : BitVec 7
  c : BitVec 7
  rnd : BitVec 2
  sat : Bool
  na : Bool
  nb : Bool
  nc : Bool
  la : Bool
  lb : Bool
  lc : Bool
  flag : BitVec 2
  aux : BitVec 7
  deriving DecidableEq, Repr

/-- Class AI (spec/04 R79): immediate words. The type is one of the seven with an AI code (R46). -/
structure AI where
  dist : BitVec 3
  ty : Ty
  d : BitVec 7
  a : BitVec 7
  la : Bool
  imm : BitVec 32
  deriving DecidableEq, Repr

/-- The slot opcodes of a paired word (spec/04 R81). -/
inductive SlotOp where
  | iadd | isub | imul | imin | imax | and | or | xor | shl | shr | sar | mov | fadd | fmul | fmin | fmax | not
  deriving DecidableEq, Repr

/-- One slot of a paired word less its opcode (spec/04 R74). -/
structure SlotArgs where
  d : BitVec 7
  s : BitVec 7
  lr : Bool
  ty : BitVec 2
  z : BitVec 6
  deriving DecidableEq, Repr

/-- One non-empty slot. -/
structure Slot where
  op : SlotOp
  args : SlotArgs
  deriving DecidableEq, Repr

/-- A paired word (spec/04 R74), named by the opcode of its first non-empty slot: `own` is that slot, slot X when `onX`
(else slot X is empty and it is slot Y); `other` is slot Y when `onX` and slot Y is not empty. -/
structure Ap where
  dist : BitVec 3
  own : SlotArgs
  onX : Bool
  other : Option Slot
  deriving DecidableEq, Repr

/-- Class M (spec/04 R79): memory and swizzle words. -/
structure MW where
  dist : BitVec 3
  size : BitVec 3
  space : BitVec 2
  scope : BitVec 3
  data : BitVec 7
  base : BitVec 7
  x : BitVec 7
  flag : BitVec 2
  lb : Bool
  lx : Bool
  ld : Bool
  off : BitVec 18
  deriving DecidableEq, Repr

/-- Class E (spec/04 R79): engine and view words. -/
structure EW where
  dist : BitVec 3
  va : BitVec 4
  vb : BitVec 4
  vc : BitVec 4
  slot : BitVec 3
  flag : BitVec 2
  variant : BitVec 2
  r1 : BitVec 7
  r2 : BitVec 7
  imm : BitVec 19
  deriving DecidableEq, Repr

/-- Class X (spec/04 R79, spec/06 R120): control words. -/
structure XW where
  dist : BitVec 3
  pred : BitVec 3
  neg : Bool
  t : BitVec 24
  f : BitVec 24
  deriving DecidableEq, Repr

/-- Class S (spec/10 R204): system words; `hi` is 51:45, `mid` 44:38, `lane` 35:31, `z` 30:12, `csr` 11:0. -/
structure SW where
  dist : BitVec 3
  hi : BitVec 7
  mid : BitVec 7
  flag : BitVec 2
  lane : BitVec 5
  z : BitVec 19
  csr : BitVec 12
  deriving DecidableEq, Repr

/-- A segment header (spec/04 R65): class H. `z` is the field of zeros, 32:0. -/
structure Header where
  length : BitVec 6
  wait : BitVec 12
  raiseA : BitVec 4
  raiseB : BitVec 4
  energy : BitVec 2
  z : BitVec 33
  deriving DecidableEq, Repr

/-- A warp: the sequence number of its launch, its gang's index in the launch, its index in the gang. -/
structure WarpId where
  seq : Nat
  gang : Nat
  wid : Nat
  deriving DecidableEq, Repr

/-- A gang: the sequence number of its launch and its index there (spec/02 R28, R37). -/
structure GangId where
  seq : Nat
  gang : Nat
  deriving DecidableEq, Repr

/-- What a directory answers about an object (spec/13 R220, R221): length, the directory's mode (0 local, 1 direct,
2 cached, 3 counted) and the physical address of its first page at the home; or unknown; or the home is unreachable. -/
inductive DirAnswer where
  | found (length : Nat) (mode : Nat) (base : Nat)
  | unknown
  | unreachable
  deriving DecidableEq, Repr

/-- What arrives on the fabric (spec/20 R313, R318, R319): a peer's acknowledgement of one of this device's packets; a packet of a peer to
this device: a write of bytes, an atomic of R164 (its M opcode, its operand, its swap value), or a load of so many bytes; a home's
acknowledgement of a token given up; or what another agent has stored to a peer's memory (log 33). -/
inductive Packet where
  | ack (peer : Nat) (die : Nat) (seq : Nat)
  | write (peer : Nat) (die : Nat) (seq : Nat) (pa : Nat) (bytes : List Byte)
  | atomic (peer : Nat) (die : Nat) (seq : Nat) (pa : Nat) (op : Nat) (size : Nat) (x d : W64)
  | load (peer : Nat) (die : Nat) (seq : Nat) (pa : Nat) (count : Nat)
  | tokenAck (peer : Nat) (region : Nat)
  | stored (peer : Nat) (pa : Nat) (bytes : List Byte)
  deriving DecidableEq, Repr

/-- An Ethernet message as a port receives it (spec/20 R325 to R327). -/
structure EthMsg where
  port : Nat
  resource : Nat
  reliable : Bool
  duplicate : Bool
  bytes : List Byte
  deriving DecidableEq, Repr

/-- One segment of an object image (spec/03 R49): its words, header first. -/
structure ImageSeg where
  words : List W64
  entry : Bool
  deriving DecidableEq, Repr

/-- What the loader writes at a place of a data section (spec/03 R57, R59): the loaded address of the byte that lies so many
bytes from the object's base, that address counted in words, or the object's handle. -/
inductive RelocValue where
  | place (fromBase : Nat)
  | wordPlace (fromBase : Nat)
  | handle
  deriving DecidableEq, Repr

/-- What a translation makes of a word (spec/22 R354, log 50): its distance on this part, and the words that take its place where this
part has removed its opcode or forbids its pairing. -/
structure MovedWord where
  dist : Nat
  instead : List W64
  deriving DecidableEq, Repr

/-- A relocation of a data section (spec/03 R57): in the read-write section or the read-only one, at an offset of it, so many
bytes wide. -/
structure Reloc where
  writable : Bool
  offset : Nat
  width : Nat
  value : RelocValue
  deriving DecidableEq, Repr

/-- An LMS signature of the sets that spec/22 R352 names: the leaf, the nonce, the 34 chain values and the 20 nodes of the path. -/
structure LmsSig where
  leaf : Nat
  nonce : List Byte
  chains : List (List Byte)
  path : List (List Byte)
  deriving DecidableEq, Repr

/-- A signed image (spec/22 R352): its bytes, where its signature block lies among them, and what the block holds (log 10). -/
structure Signed where
  bytes : List Byte
  blockAt : Nat
  blockLen : Nat
  digest : List Byte
  sigR : Nat
  sigS : Nat
  lms : LmsSig
  deriving DecidableEq, Repr

/-- The owner's keys in the root core's fuses (spec/22 R352): the ECDSA point, and the identifier and root of the LMS tree. -/
structure OwnerKeys where
  ecdsa : Nat × Nat
  lmsId : List Byte
  lmsRoot : List Byte
  deriving DecidableEq, Repr

/-- The firmware that comes up with the power (spec/22 R352, R358): the management pair's image, the command processor's and the
service cores'. -/
structure Firmware where
  pair : Signed
  proc : Signed
  service : Signed
  deriving DecidableEq, Repr

/-- An object image as the root core reads it (spec/22 R352, log 11): the signed bytes, the segments of the code section,
the two data sections, the relocations that the loader writes into them, the recorded stepping (0 any, 1 3.A, 2 3.B), the emulate
list, by A3 opcode, and what a translation for this part makes of its words, segment by segment and piece by piece, where the root core
translates it (R354, log 50). -/
structure Image where
  signed : Signed
  segs : List ImageSeg
  ro : List Byte
  rw : List Byte
  relocs : List Reloc
  stepping : Nat
  emulate : List Nat
  moved : Option (List (List (List MovedWord)))
  deriving DecidableEq, Repr

/-- The register fields of the physical function, a submission page, a landing window and a ring block that have no
behaviour of their own when written (spec/22 R337, R338, R349, spec/20 R325, R332). -/
inductive RegField where
  | action (v : BitVec 2)
  | rgn (v : BitVec 16)
  | loadpa (v : W64)
  | loadlen (v : BitVec 32)
  | loadrgn (v : BitVec 16)
  | loadva (v : W64)
  | unloadh (v : W64)
  | sel (port : Nat) (region : Nat) (stream : Nat) (v : W64)
  | term (port : Nat) (v : BitVec 32)
  | windowBase (region : Nat) (w : Nat) (v : W64)
  | windowCtl (region : Nat) (w : Nat) (pages : BitVec 32) (en wr rd : Bool)
  | ringWord (ring : Nat) (word : Nat) (v : W64)
  deriving DecidableEq, Repr

/-- What a host's TDISP or SPDM message over DOE asks of a port (spec/20 R331). -/
inductive Tdisp where
  | run (region : Nat) (stream : Nat)
  | stop
  | attest
  deriving DecidableEq, Repr

/-- The instructions of the part: words first, class by class, then the steps of the other agents. -/
inductive Instr where
  | iadd (f : A3)
  | isub (f : A3)
  | imul (f : A3)
  | imulh (f : A3)
  | imad (f : A3)
  | imadw (f : A3)
  | imin (f : A3)
  | imax (f : A3)
  | iabs (f : A3)
  | ineg (f : A3)
  | lea (f : A3)
  | iclamp (f : A3)
  | iabsd (f : A3)
  | idot4 (f : A3)
  | and (f : A3)
  | or (f : A3)
  | xor (f : A3)
  | andn (f : A3)
  | not (f : A3)
  | shl (f : A3)
  | shr (f : A3)
  | sar (f : A3)
  | rot (f : A3)
  | funsh (f : A3)
  | bfx (f : A3)
  | bfi (f : A3)
  | popc (f : A3)
  | clz (f : A3)
  | ctz (f : A3)
  | brev (f : A3)
  | bswp (f : A3)
  | prmt (f : A3)
  | icmp (f : A3)
  | fcmp (f : A3)
  | sel (f : A3)
  | mov (f : A3)
  | pset (f : A3)
  | pmov (f : A3)
  | fadd (f : A3)
  | fsub (f : A3)
  | fmul (f : A3)
  | ffma (f : A3)
  | fmin (f : A3)
  | fmax (f : A3)
  | frnd (f : A3)
  | fcvt (f : A3)
  | fclass (f : A3)
  | fscale (f : A3)
  | fdot2 (f : A3)
  | qnt (f : A3)
  | dqnt (f : A3)
  | f2i (f : A3)
  | i2f (f : A3)
  | rcp (f : A3)
  | rsq (f : A3)
  | sqrt (f : A3)
  | exp2 (f : A3)
  | log2 (f : A3)
  | sinpi (f : A3)
  | cospi (f : A3)
  | tanh (f : A3)
  | fdiv (f : A3)
  | shfl (f : A3)
  | vote (f : A3)
  | redux (f : A3)
  | scan (f : A3)
  | matchLanes (f : A3)
  | xpose (f : A3)
  | iaddAp (p : Ap)
  | isubAp (p : Ap)
  | imulAp (p : Ap)
  | iminAp (p : Ap)
  | imaxAp (p : Ap)
  | andAp (p : Ap)
  | orAp (p : Ap)
  | xorAp (p : Ap)
  | shlAp (p : Ap)
  | shrAp (p : Ap)
  | sarAp (p : Ap)
  | movAp (p : Ap)
  | faddAp (p : Ap)
  | fmulAp (p : Ap)
  | fminAp (p : Ap)
  | fmaxAp (p : Ap)
  | notAp (p : Ap)
  | iaddi (f : AI)
  | imuli (f : AI)
  | andi (f : AI)
  | ori (f : AI)
  | xori (f : AI)
  | shli (f : AI)
  | shri (f : AI)
  | sari (f : AI)
  | movi (f : AI)
  | movhi (f : AI)
  | icmpi (f : AI)
  | faddi (f : AI)
  | fmuli (f : AI)
  | imini (f : AI)
  | imaxi (f : AI)
  | leai (f : AI)
  | ld (f : MW)
  | st (f : MW)
  | ldx (f : MW)
  | stx (f : MW)
  | atomAdd (f : MW)
  | atomMin (f : MW)
  | atomMax (f : MW)
  | atomAnd (f : MW)
  | atomOr (f : MW)
  | atomXor (f : MW)
  | atomXchg (f : MW)
  | atomCas (f : MW)
  | atomFadd (f : MW)
  | pref (f : MW)
  | ldfe (f : MW)
  | stfe (f : MW)
  | splook (f : MW)
  | sptag (f : MW)
  | spinv (f : MW)
  | cwait (f : XW)
  | twait (f : XW)
  | barInit (f : XW)
  | barArrive (f : XW)
  | barWait (f : XW)
  | gbar (f : XW)
  | ldp (f : MW)
  | stp (f : MW)
  | ldn (f : MW)
  | stn (f : MW)
  | peq (f : MW)
  | padd (f : MW)
  | pname (f : MW)
  | pres (f : MW)
  | cpl (f : MW)
  | rgnext (f : MW)
  | rgrel (f : MW)
  | vdef (f : EW)
  | vset (f : EW)
  | vget (f : EW)
  | vld (f : EW)
  | vst (f : EW)
  | vret (f : EW)
  | vmeet (f : EW)
  | cpv (f : EW)
  | cpr (f : EW)
  | gath (f : EW)
  | mmt (f : EW)
  | mmv (f : EW)
  | mstat (f : EW)
  | mclr (f : EW)
  | xred (f : EW)
  | xgath (f : EW)
  | xbcast (f : EW)
  | tkacq (f : EW)
  | tkrel (f : EW)
  | tkqry (f : EW)
  | goto (f : XW)
  | brc (f : XW)
  | brx (f : XW)
  | call (f : XW)
  | ret (f : XW)
  | exit (f : XW)
  | yield (f : XW)
  | contx (f : XW)
  | meet (f : XW)
  | pb (f : XW)
  | cont (f : XW)
  /-- `NOP`, and the paired word with both slots empty, which has no effect either (spec/04 R74). -/
  | nop (f : XW) (paired : Bool)
  | trap (f : XW)
  | deact (f : XW)
  | ctxld (f : SW)
  | ctxst (f : SW)
  | tret (f : SW)
  | csrr (f : SW)
  | csrw (f : SW)
  | tlbi (f : SW)
  | pbind (f : SW)
  | punbind (f : SW)
  | pevict (f : SW)
  | mprgw (f : SW)
  | keyset (f : SW)
  | segmentBoundary (w : WarpId)
  | choose (core : Nat) (pair : Nat)
  | preemptRequest (w : WarpId)
  | operationComplete (w : WarpId) (op : Nat)
  | registerFillReturn (w : WarpId) (n : Nat)
  | registerFillTimeout (w : WarpId) (n : Nat)
  | lineSpill (w : WarpId) (n : Nat)
  | lineBudgetWake (w : WarpId)
  | contextPage (w : WarpId) (present : Bool)
  | warpActivate (core : Nat) (slot : Nat)
  | warpWake (w : WarpId)
  | warpRetire (w : WarpId)
  | gangBirth (seq : Nat) (core : Nat)
  | gangRetire (g : GangId)
  | gangSpill (g : GangId)
  | gangRestore (g : GangId) (core : Nat)
  | continuationGather (seq : Nat) (core : Nat) (picks : List Nat)
  | continuationResume (w : WarpId)
  | continuationStallKill (seq : Nat)
  | callAreaGrant (w : WarpId) (slot : Nat)
  | coreWithdraw (core : Nat)
  | partitionSwap (die : Nat) (save : Bool)
  | pageNotPresent (w : WarpId) (frame : Nat)
  | objectAbsent (space : Nat) (table : W64) (slot : Nat) (answer : DirAnswer)
  | serviceEvict (space : Nat) (table : W64) (slot : Nat)
  | migration (root : Nat) (va : W64) (frame : Nat)
  | l1Writeback (core : Nat) (line : Nat)
  | pkgWriteHomeApply (write : Nat)
  | pkgWriteDieApply (write : Nat) (die : Nat)
  | fabricPacketReceive (p : Packet)
  | fabricResendTimeout (peer : Nat) (die : Nat) (seq : Nat) (link : Nat)
  | peerLost (peer : Nat)
  | tokenGrant (peer : Nat) (region : Nat) (exclusive : Bool)
  | tokenRefuse (peer : Nat) (region : Nat)
  | tokenRecall (peer : Nat) (region : Nat) (toShared : Bool)
  | chunkApply (op : Nat) (chunk : Nat)
  | chunkDelivery (op : Nat) (chunk : Nat)
  | chunkReceive (op : Nat) (chunk : Nat) (crcOk : Bool)
  | engineOperationComplete (op : Nat)
  | tileRowStart (op : Nat)
  | tileRowComplete (op : Nat)
  | matrixWaitRelease (w : WarpId)
  | collectiveMatch (op : Nat) (contributions : List (Nat × List W64)) (agree : Bool)
  | energyRefill
  | messageLand (m : EthMsg)
  | ringEnable (ring : Nat)
  | hostLandingWrite (port : Nat) (region : Nat) (stream : Nat) (offset : Nat) (bytes : List Byte)
  | hostLandingRead (port : Nat) (region : Nat) (stream : Nat) (offset : Nat) (count : Nat)
  | submit (port : Nat) (region : Nat) (stream : Nat) (offset : Nat) (bytes : List Byte)
  | launchStart (seq : Nat)
  | waitConditionPoll (seq : Nat) (cond : Nat)
  | waitConditionUpdate (seq : Nat) (cond : Nat)
  | cpCause
  | regionReset
  | regionKill
  | regionRevive
  | functionLevelReset (port : Nat) (vf : Option (Nat × Nat))
  | regionTableWrite (r : Nat) (v : W64)
  | objectLoad (image : Image)
  | objectUnload
  | leaseRenew (port : Nat)
  | leaseRoleWrite (port : Nat) (role : Nat)
  | leaseExpiry (port : Nat)
  | registerWrite (field : RegField)
  | serviceCoreRestart (core : Nat) (stops : Bool)
  | scrub (line : Nat) (errors : Nat) (pair : Option Nat)
  | strataUpdate (temps : List Nat) (power : Nat)
  | powerOn (self : Nat) (host0 host1 : Nat) (fuses : Option OwnerKeys) (firmware : Firmware)
  | thermalLimit (die : Nat)
  | peerRestore (peer : Nat)
  | linkFailure (link : Nat) (cut : List Nat)
  | coreReturnToService (core : Nat)
  | powerDown (orderly : Bool)
  | thermalLimitClear (die : Nat)
  | tdispMessage (port : Nat) (m : Tdisp)
  deriving DecidableEq, Repr

end Sys2Proof
end

