-- ==== Sys2Proof/Machine/Bits.lean ====
section
/-! DEFINITION. Bit fields, sign extension, lanes and sorted association lists: the plain helpers of the machine. -/

namespace Sys2Proof.Machine

/-- Bits hi:lo of a number. -/
def fld (n hi lo : Nat) : Nat := (n >>> lo) % 2 ^ (hi + 1 - lo)

/-- Bits hi:lo of a word, as a bit vector of that width. -/
def slice {w : Nat} (x : BitVec w) (lo len : Nat) : BitVec len := x.extractLsb' lo len

/-- Bit i of a word. -/
def bitAt {w : Nat} (x : BitVec w) (i : Nat) : Bool := x.getLsbD i

/-- A word with one bit replaced. -/
def setBit {w : Nat} (x : BitVec w) (i : Nat) (b : Bool) : BitVec w :=
  if b then x ||| BitVec.ofNat w (2 ^ i) else x &&& ~~~(BitVec.ofNat w (2 ^ i))

/-- One value a lane, from the lane's number. -/
def lanesOf {α : Type} (f : Nat → α) : Lanes α := Vector.ofFn fun i => f i.val

/-- A lane's value; a lane number past 31 names lane 31. -/
def lane {α : Type} (v : Lanes α) (l : Nat) : α := if h : l < 32 then v[l] else v[31]

/-- A lane's value replaced. -/
def setLane {α : Type} (v : Lanes α) (l : Nat) (x : α) : Lanes α := lanesOf fun i => if i = l then x else lane v i

/-- The lanes 0 to 31 in ascending order. -/
def laneNums : List Nat := List.range 32

/-- The lanes of a mask in ascending order. -/
def lanesIn (m : Mask) : List Nat := laneNums.filter fun l => m.getLsbD l

/-- The mask of the lanes that satisfy a test. -/
def maskOf (f : Nat → Bool) : Mask := laneNums.foldl (fun m l => if f l then m ||| BitVec.ofNat 32 (2 ^ l) else m) 0

/-- All 32 lanes. -/
def allLanes : Mask := BitVec.allOnes 32

/-- The lowest lane of a mask, 0 when it is empty. -/
def lowLane (m : Mask) : Nat := (lanesIn m).headD 0

/-- How many lanes a mask holds. -/
def laneCount (m : Mask) : Nat := (lanesIn m).length

/-- Sign extension of the low w bits of a number to an integer. -/
def sext (w n : Nat) : Int :=
  let m := n % 2 ^ w
  if m < 2 ^ (w - 1) then (m : Int) else (m : Int) - (2 : Int) ^ w

/-- An integer modulo 2^w. -/
def wrap (w : Nat) (v : Int) : Nat := (v % (2 : Int) ^ w).toNat

/-- A 64-bit word from an integer, modulo 2^64. -/
def w64 (v : Int) : W64 := BitVec.ofNat 64 (wrap 64 v)

/-- An integer clamped to a range. -/
def clampInt (lo hi v : Int) : Int := if v < lo then lo else if hi < v then hi else v

/-- The low half of a 64-bit word. -/
def lo32 (x : W64) : W32 := x.setWidth 32

/-- The high half of a 64-bit word. -/
def hi32 (x : W64) : W32 := (x >>> 32).setWidth 32

/-- Two 32-bit halves joined, low half first. -/
def join32 (lo hi : W32) : W64 := hi ++ lo

/-- The bytes of a number in little-endian order (spec/03 R57). -/
def bytesOf (count n : Nat) : List Byte := (List.range count).map fun i => BitVec.ofNat 8 (n >>> (8 * i))

/-- The number little-endian bytes spell. -/
def ofBytes : List Byte → Nat
  | [] => 0
  | b :: bs => b.toNat + 256 * ofBytes bs

/-- A value put into a list before the first one it may stand before. -/
def insertBy {α : Type} (le : α → α → Bool) (x : α) : List α → List α
  | [] => [x]
  | y :: ys => if le x y then x :: y :: ys else y :: insertBy le x ys

/-- A list in the order of a relation; values that tie keep their order. -/
def sortBy {α : Type} (le : α → α → Bool) (xs : List α) : List α := xs.foldr (insertBy le) []

/-- A number rounded up to a multiple, as a count of multiples. -/
def ceilDiv (a b : Nat) : Nat := if b = 0 then 0 else (a + b - 1) / b

/-! Lists as small tables. -/

/-- The element at a place replaced. -/
def setNth {α : Type} (l : List α) (i : Nat) (x : α) : List α := l.set i x

/-- The element at a place changed. -/
def modNth {α : Type} (l : List α) (i : Nat) (f : α → α) : List α := l.modify i f

/-- Whether two byte ranges [a, a + n) and [b, b + m) share a byte. -/
def overlap (a n b m : Nat) : Bool := decide (a < b + m) && decide (b < a + n)

/-! Sorted association lists: keys strictly rise. -/

/-- A sorted association list. -/
abbrev AList (α : Type) := List (Nat × α)

/-- The value at a key, if listed. -/
def AList.find {α : Type} : AList α → Nat → Option α
  | [], _ => none
  | (k, v) :: rest, a => if k = a then some v else if a < k then none else AList.find rest a

/-- A value put at a key; the keys stay in rising order. -/
def AList.put {α : Type} : AList α → Nat → α → AList α
  | [], a, x => [(a, x)]
  | (k, v) :: rest, a, x =>
    if a < k then (a, x) :: (k, v) :: rest
    else if a = k then (a, x) :: rest
    else (k, v) :: AList.put rest a x

/-- A key taken out. -/
def AList.drop {α : Type} : AList α → Nat → AList α
  | [], _ => []
  | (k, v) :: rest, a =>
    if a < k then (k, v) :: rest
    else if a = k then rest
    else (k, v) :: AList.drop rest a

/-- The keys rise strictly. -/
def AList.sorted {α : Type} : AList α → Bool
  | [] => true
  | [_] => true
  | (a, _) :: (b, y) :: rest => decide (a < b) && AList.sorted ((b, y) :: rest)

/-- What a byte of memory that nothing has written reads as (log 1). -/
def unwritten : Byte := 0

/-- Bytes by address: sorted, and no entry equals what an unlisted address reads as. -/
abbrev ByteMap := AList Byte

/-- The byte at an address. -/
def ByteMap.read (m : ByteMap) (a : Nat) : Byte := (AList.find m a).getD unwritten

/-- A byte written: writing what an unlisted address reads as takes the entry out. -/
def ByteMap.write (m : ByteMap) (a : Nat) (b : Byte) : ByteMap :=
  if b = unwritten then AList.drop m a else AList.put m a b

/-- Bytes read from consecutive addresses. -/
def ByteMap.readMany (m : ByteMap) (a n : Nat) : List Byte := (List.range n).map fun i => ByteMap.read m (a + i)

/-- Bytes written to consecutive addresses. -/
def ByteMap.writeMany : ByteMap → Nat → List Byte → ByteMap
  | m, _, [] => m
  | m, a, b :: bs => ByteMap.writeMany (ByteMap.write m a b) (a + 1) bs

/-- The canonical form of a byte map. -/
def ByteMap.wf (m : ByteMap) : Bool := AList.sorted m && m.all fun e => decide (e.2 ≠ unwritten)

end Sys2Proof.Machine
end

