-- ==== Sys2Proof/Machine/Cause.lean ====
section
/-! DEFINITION. The causes of the part, by name, with their codes (spec/10 R196 and the cause tables of each chapter). -/

namespace Sys2Proof.Machine

/-- A cause (spec/10 R196, spec/08 R177, spec/13 R237, spec/15 R255, spec/16 R272, spec/18 R307, spec/20 R333). -/
inductive Cause where
  | illegalOpcode | illegalEncoding | illegalPairing | illegalPrefix | illegalSegment | privileged
  | nonuniformOperand | illegalConvergence | badRegister
  | pageNotPresent | protection | sealedWrite | misaligned | noncanonical | contextPage | scratchBounds | tagRange
  | tokenAbsent | peerUnreachable | tokenMode | peerLost | ringMisuse
  | objectAbsent | objectUnknown | pointerBounds | offsetBeyondObject | stalePointer | nameMalformed | bindTableFull
  | viewBounds | viewMalformed | viewIntent
  | mtxShape | mtxFormat | mtxFault | mtxChecksum
  | copyFault | copyShape | gatherIndex | collSetup | collFault
  | preempt | budgetWait | doubleFault | continuationGbar | continuationOff | callDepth | callEmpty | barrierMisuse
  | trapPoolEmpty
  | software (n : BitVec 4)
  | checkMismatch | uncorrectableMemory | launchKilled | regionReset
  deriving DecidableEq, Repr

/-- The 9-bit cause code. -/
def causeCode : Cause → Nat
  | .illegalOpcode => 0x010 | .illegalEncoding => 0x011 | .illegalPairing => 0x012 | .illegalPrefix => 0x013
  | .illegalSegment => 0x014 | .privileged => 0x015 | .nonuniformOperand => 0x016 | .illegalConvergence => 0x017
  | .badRegister => 0x018
  | .pageNotPresent => 0x080 | .protection => 0x081 | .sealedWrite => 0x082 | .misaligned => 0x083
  | .noncanonical => 0x084 | .contextPage => 0x085 | .scratchBounds => 0x086 | .tagRange => 0x087
  | .tokenAbsent => 0x0C0 | .peerUnreachable => 0x0C1 | .tokenMode => 0x0C2 | .peerLost => 0x0C3 | .ringMisuse => 0x0C4
  | .objectAbsent => 0x100 | .objectUnknown => 0x101 | .pointerBounds => 0x102 | .offsetBeyondObject => 0x103
  | .stalePointer => 0x104 | .nameMalformed => 0x105 | .bindTableFull => 0x106
  | .viewBounds => 0x140 | .viewMalformed => 0x141 | .viewIntent => 0x142
  | .mtxShape => 0x180 | .mtxFormat => 0x181 | .mtxFault => 0x182 | .mtxChecksum => 0x1A0
  | .copyFault => 0x1B0 | .copyShape => 0x1B1 | .gatherIndex => 0x1B2 | .collSetup => 0x1B3 | .collFault => 0x1B4
  | .preempt => 0x1C0 | .budgetWait => 0x1C1 | .doubleFault => 0x1C2 | .continuationGbar => 0x1C3
  | .continuationOff => 0x1C4 | .callDepth => 0x1C5 | .callEmpty => 0x1C6 | .barrierMisuse => 0x1C7
  | .trapPoolEmpty => 0x1C8
  | .software n => 0x1D0 + n.toNat
  | .checkMismatch => 0x1E0 | .uncorrectableMemory => 0x1E1 | .launchKilled => 0x1E2 | .regionReset => 0x1E3

/-- Where a cause goes (spec/10 R196). -/
inductive Route where
  | handler | serviceCore | commandProcessor | never
  deriving DecidableEq, Repr

/-- The route of a cause (spec/10 R196). The service core's rows go to the handler or to the command processor when the
service core cannot resolve them; what raises them decides that. -/
def causeRoute : Cause → Route
  | .pageNotPresent | .contextPage | .objectAbsent => .serviceCore
  | .peerLost | .mtxChecksum | .doubleFault | .trapPoolEmpty | .checkMismatch | .uncorrectableMemory => .commandProcessor
  | .budgetWait | .launchKilled | .regionReset => .never
  | .illegalOpcode | .illegalEncoding | .illegalPairing | .illegalPrefix | .illegalSegment | .privileged
  | .nonuniformOperand | .illegalConvergence | .badRegister | .protection | .sealedWrite | .misaligned | .noncanonical
  | .scratchBounds | .tagRange | .tokenAbsent | .peerUnreachable | .tokenMode | .ringMisuse | .objectUnknown
  | .pointerBounds | .offsetBeyondObject | .stalePointer | .nameMalformed | .bindTableFull | .viewBounds
  | .viewMalformed | .viewIntent | .mtxShape | .mtxFormat | .mtxFault | .copyFault | .copyShape | .gatherIndex
  | .collSetup | .collFault | .preempt | .continuationGbar | .continuationOff | .callDepth | .callEmpty
  | .barrierMisuse | .software _ => .handler

end Sys2Proof.Machine
end

