-- ==== Sys2Proof/Machine/Fields.lean ====
section
/-! DEFINITION. The field rules of each word (spec/04 R71, R74 to R79, R85 rows 2 to 6, and each instruction's own table):
which fields it uses, what they may hold, and which decode cause a misuse raises. -/

namespace Sys2Proof.Machine

/-- What the checks of R85 rows 3 and 4 found in a word: an encoding misuse, a used register field of 127; the g registers the
word reads (spec/05 R97, R103); and the registers and predicates it reads and writes, by number: g0 to g95, k0 to k23 from 96 on, p0 to p7
from 128 on (spec/04 R68). -/
structure Chk where
  enc : Bool
  bad : Bool
  reads : List Nat
  srcs : List Nat
  dsts : List Nat
  deriving DecidableEq, Repr

/-- Nothing found. -/
def chkOk : Chk := ⟨false, false, [], [], []⟩

/-- An encoding misuse when the condition holds. -/
def encIf (b : Bool) : Chk := ⟨b, false, [], [], []⟩

/-- A register field as it is: its misuse, and the registers it reads. -/
def chkUse (enc bad : Bool) (ns : List Nat) : Chk := ⟨enc, bad, ns.filter (decide <| · < 96), ns, []⟩

/-- The same, and the registers it writes. -/
def chkDef (enc bad : Bool) (ns : List Nat) : Chk := ⟨enc, bad, [], [], ns⟩

/-- Registers that a word reads according to the state it meets. -/
def chkMay (ns : List Nat) : Chk := ⟨false, false, [], ns, []⟩

/-- Registers read, with nothing found. -/
def chkReads (ns : List Nat) : Chk := chkUse false false ns

/-- Both checks' findings. -/
def both (x y : Chk) : Chk := ⟨x.enc || y.enc, x.bad || y.bad, x.reads ++ y.reads, x.srcs ++ y.srcs, x.dsts ++ y.dsts⟩

/-- The findings of several checks. -/
def chkAll : List Chk → Chk
  | [] => chkOk
  | c :: cs => both c (chkAll cs)

/-- Whether a register field names a g register. -/
def isG (r : BitVec 7) : Bool := decide (r.toNat < 96)

/-- Whether a register field names a k register. -/
def isK (r : BitVec 7) : Bool := decide (96 ≤ r.toNat) && decide (r.toNat < 120)

/-- The types of 64-bit operands (spec/03 R46). -/
def tyIs64 : Ty → Bool
  | .ui64 | .s64 | .f64 | .b64 => true
  | .ui32 | .s32 | .f32 | .f16 | .bf16 | .f16x2 | .bf16x2 | .ui16x2 | .s16x2 | .ui8x4 | .s8x4 | .b32 => false

/-- What a register field stands for in a word. -/
inductive Opd where
  /-- Unused: must be zero (R78). -/
  | none
  /-- A 32-bit source: any readable register. -/
  | src32
  /-- A 64-bit source (R109): an even g, a k register, `zero` or a special register. -/
  | src64
  /-- A 32-bit destination: a g or k register or `zero`. -/
  | dst32
  /-- A 64-bit destination: an even g, a k register or `zero`. -/
  | dst64
  /-- A pair source that is a g pair, a k register or `zero` (R159, R227). -/
  | pair
  /-- A quad source: g with n a multiple of 4, or `zero`. -/
  | quad
  /-- A quad destination without `zero` (R227). -/
  | quadDst
  /-- A quad destination or `zero` (R159). -/
  | quadDst0
  /-- A base register of the global or the context space (R159). -/
  | base
  /-- A base register of the scratchpad (R159). -/
  | spBase
  /-- A predicate in 2:0, 6:3 zero, that the word reads. -/
  | pred
  /-- The same of one that the word writes. -/
  | predDst
  /-- A condition in 6:3 up to the limit, a predicate in 2:0 (R52). -/
  | cond (limit : Nat)
  /-- Checked elsewhere. -/
  | other
  deriving DecidableEq, Repr

/-- The registers that a field names: as many g registers from one on, or a k register. -/
def regSpan (r : BitVec 7) (count : Nat) : List Nat :=
  if isG r then (List.range count).map (r.toNat + ·) else if isK r then [r.toNat] else []

/-- The number of a predicate. -/
def predNo (p : Nat) : Nat := 128 + p % 8

/-- The check of a register field (R78, R89, R109, R159); 127 in a used register field is BAD_REGISTER. -/
def chkReg (k : Opd) (r : BitVec 7) : Chk :=
  let n := r.toNat
  match k with
  | .none => encIf (n != 0)
  | .src32 => chkUse false (n == 127) (regSpan r 1)
  | .src64 => chkUse (n < 96 && n % 2 == 1) (n == 127) (regSpan r 2)
  | .dst32 => chkDef (121 ≤ n && n ≤ 126) (n == 127) (regSpan r 1)
  | .dst64 => chkDef ((121 ≤ n && n ≤ 126) || (n < 96 && n % 2 == 1)) (n == 127) (regSpan r 2)
  | .pair => chkUse ((121 ≤ n && n ≤ 126) || (n < 96 && n % 2 == 1)) (n == 127) (regSpan r 2)
  | .quad => chkUse ((n < 96 && n % 4 != 0) || (96 ≤ n && n < 127 && n != 120)) (n == 127) (regSpan r 4)
  | .quadDst => chkDef ((n < 96 && n % 4 != 0) || (96 ≤ n && n < 127)) (n == 127) (regSpan r 4)
  | .quadDst0 => chkDef ((n < 96 && n % 4 != 0) || (96 ≤ n && n < 127 && n != 120)) (n == 127) (regSpan r 4)
  | .base => chkUse ((n < 96 && n % 2 == 1) || (120 ≤ n && n < 125)) (n == 127) (regSpan r 2)
  | .spBase => chkUse (120 ≤ n && n < 127) (n == 127) (regSpan r 1)
  | .pred => chkUse (8 ≤ n) false [predNo n]
  | .predDst => chkDef (8 ≤ n) false [predNo n]
  | .cond limit => chkDef (limit < n / 8) false [predNo n]
  | .other => chkOk

/-- Whether a field of this kind is a source that a last-read bit may mark. -/
def opdReads : Opd → Bool
  | .src32 | .src64 | .pair | .quad | .base | .spBase => true
  | .none | .dst32 | .dst64 | .quadDst | .quadDst0 | .pred | .predDst | .cond _ | .other => false

/-- The check of a register field with its last-read bit (R78): only a g source may carry it. -/
def chkSrc (k : Opd) (r : BitVec 7) (lr : Bool) : Chk := both (chkReg k r) (encIf (lr && !(opdReads k && isG r)))

/-- Which fields an A3 word uses beyond its registers. -/
structure A3Use where
  d : Opd := .none
  a : Opd := .none
  b : Opd := .none
  c : Opd := .none
  rnd : Bool := false
  sat : Bool := false
  na : Bool := false
  nb : Bool := false
  nc : Bool := false
  aux : Bool := false
  sfu : Bool := false
  deriving DecidableEq, Repr

/-- The check of an A3 word (R79, R71, R78): its type is listed, its used fields hold what they may, the rest is zero. -/
def chkA3 (u : A3Use) (types : List Ty) (extraOk : Bool) (f : A3) : Chk :=
  chkAll [encIf (!types.contains f.ty), chkReg u.d f.d, chkSrc u.a f.a f.la, chkSrc u.b f.b f.lb, chkSrc u.c f.c f.lc,
    encIf (!u.rnd && f.rnd != 0), encIf (!u.sat && f.sat), encIf (!u.na && f.na), encIf (!u.nb && f.nb),
    encIf (!u.nc && f.nc), encIf (!u.aux && f.aux != 0),
    encIf (if u.sfu then f.flag == 0 || f.flag == 3 else f.flag != 0), encIf (!extraOk)]

/-- A source of the word's type. -/
def srcT (t : Ty) : Opd := if tyIs64 t then .src64 else .src32

/-- A destination of the word's type. -/
def dstT (t : Ty) : Opd := if tyIs64 t then .dst64 else .dst32

/-- The four scalar integer types (R113). -/
def scalarTypes : List Ty := [.ui32, .s32, .ui64, .s64]
/-- The eight integer types (R113). -/
def intTypes : List Ty := [.ui32, .s32, .ui64, .s64, .ui16x2, .s16x2, .ui8x4, .s8x4]
/-- The signed types of IABS and INEG (R113). -/
def signedTypes : List Ty := [.s32, .s64, .s16x2, .s8x4]
/-- The bit types (R115). -/
def bitTypes : List Ty := [.b32, .b64]
/-- The six floating-point operand types (R136). -/
def floatTypes : List Ty := [.f32, .f64, .f16, .bf16, .f16x2, .bf16x2]
/-- The four scalar floating-point types. -/
def scalarFloats : List Ty := [.f32, .f64, .f16, .bf16]

/-- The type an A3 aux field's source code names (R139). -/
def tyOfCode (n : Nat) : Ty :=
  match n with
  | 0 => .ui32 | 1 => .s32 | 2 => .ui64 | 3 => .s64 | 4 => .f32 | 5 => .f64 | 6 => .f16 | 7 => .bf16 | 8 => .f16x2
  | 9 => .bf16x2 | 10 => .ui16x2 | 11 => .s16x2 | 12 => .ui8x4 | 13 => .s8x4 | 14 => .b32 | _ => .b64

/-- The 4-bit A3 code of a type (R46). -/
def tyCode : Ty → BitVec 4
  | .ui32 => 0 | .s32 => 1 | .ui64 => 2 | .s64 => 3 | .f32 => 4 | .f64 => 5 | .f16 => 6 | .bf16 => 7 | .f16x2 => 8
  | .bf16x2 => 9 | .ui16x2 => 10 | .s16x2 => 11 | .ui8x4 => 12 | .s8x4 => 13 | .b32 => 14 | .b64 => 15

/-- The source type a conversion names in aux[3:0] (R139). -/
def auxTy (f : A3) : Ty := tyOfCode (f.aux.toNat % 16)

/-- Two sources, one destination, all of the word's type. -/
def useBin (f : A3) : A3Use := { d := dstT f.ty, a := srcT f.ty, b := srcT f.ty }

/-- One source, one destination of the word's type. -/
def useUn (f : A3) : A3Use := { d := dstT f.ty, a := srcT f.ty }

/-- Three sources, one destination of the word's type. -/
def useTri (f : A3) : A3Use := { d := dstT f.ty, a := srcT f.ty, b := srcT f.ty, c := srcT f.ty }

/-- A shift: b is 32 bits wide (R115). -/
def useShift (f : A3) : A3Use := { d := dstT f.ty, a := srcT f.ty, b := .src32 }

/-- The types an operation of REDUX and SCAN lists (R151). -/
def reduxTypes (op : Nat) : List Ty :=
  match op with
  | 0 => [.ui32, .s32, .ui64, .s64, .f32]
  | 1 | 2 => [.ui32, .s32, .f32]
  | 3 | 4 | 5 => [.b32]
  | _ => []

/-- The check of REDUX and SCAN (R151). -/
def chkRedux (scan : Bool) (f : A3) : Chk :=
  let op := f.aux.toNat % 8
  chkA3 { d := dstT f.ty, a := srcT f.ty, rnd := op == 0 && f.ty == .f32, aux := true } (reduxTypes op)
    (decide (f.aux.toNat < 16) && (scan || decide (f.aux.toNat < 8))) f

/-- The check of a one-operand SFU word (R146). -/
def chkSfu (types : List Ty) (rnd : Bool) (f : A3) : Chk :=
  chkA3 { d := dstT f.ty, a := srcT f.ty, rnd := rnd, sfu := true } types true f

/-- The check of FADD, FSUB, FMUL (R137). -/
def chkFbin (f : A3) : Chk :=
  chkA3 { useBin f with rnd := true, sat := true, na := true, nb := true } floatTypes true f

/-- The check of FMIN and FMAX (R137). -/
def chkFminmax (f : A3) : Chk := chkA3 { useBin f with sat := true, na := true, nb := true } floatTypes true f

/-- The check of FCVT (R139). -/
def chkFcvt (f : A3) : Chk :=
  let s := auxTy f
  if f.ty == .f16x2 || f.ty == .bf16x2 then
    chkA3 { d := .dst32, a := .src32, b := .src32, rnd := true, aux := true } floatTypes
      (decide (f.aux.toNat < 16) && s == .f32) f
  else
    chkA3 { d := dstT f.ty, a := srcT s, rnd := true, aux := true } scalarFloats
      (decide (f.aux.toNat < 16) && scalarFloats.contains s) f

/-- The check of PMOV (R117): packing with aux zero, unpacking otherwise. -/
def chkPmov (f : A3) : Chk :=
  if f.aux == 0 then both (chkReads ((List.range 7).map predNo)) (chkA3 { d := .dst32 } [.ui32] (f.d != 120) f)
  else
    both (chkDef false false (((List.range 7).filter fun i => bitAt f.aux i).map predNo))
      (chkA3 { d := .other, a := .src32, aux := true } [.ui32] (f.d == 120) f)

/-- The check of VOTE (R150). -/
def chkVote (f : A3) : Chk :=
  chkA3 { d := if f.aux == 2 then .dst32 else .predDst, a := .pred, na := true, aux := true } [.ui32]
    (decide (f.aux.toNat < 3)) f

/-- The check of an AI word (R79, R118). -/
def chkAI (types : List Ty) (d a : Opd) (extraOk : Bool) (f : AI) : Chk :=
  chkAll [encIf (!types.contains f.ty), chkReg d f.d, chkSrc a f.a f.la, encIf (!extraOk)]

/-- Immediate shifts take n = imm[5:0] (R118). -/
def immShiftOk (f : AI) : Bool := decide (f.imm.toNat < 64)

/-- The types an AP slot lists by its 2-bit code 0 U32, 1 S32, 2 F32, 3 B32 (R81). -/
def slotTypes : SlotOp → List Nat
  | .iadd | .isub | .imul | .imin | .imax => [0, 1]
  | .and | .or | .xor | .not => [3]
  | .shl => [0, 1, 3]
  | .shr => [0, 3]
  | .sar => [1]
  | .mov => [0, 1, 2, 3]
  | .fadd | .fmul | .fmin | .fmax => [2]

/-- The check of one slot (R74, R78). -/
def chkSlot (s : Slot) : Chk :=
  chkAll [encIf (!(slotTypes s.op).contains s.args.ty.toNat), encIf (s.args.z != 0), chkReg .dst32 s.args.d,
    chkReads (regSpan s.args.d 1), chkSrc .src32 s.args.s s.args.lr]

/-- The two slots of a paired word, slot X first. -/
def apSlots (op : SlotOp) (p : Ap) : List Slot :=
  { op := op, args := p.own } :: (match p.other with | some s => [s] | none => [])

/-- The check of a paired word's slots; a word named by slot Y holds one slot only. -/
def chkAp (op : SlotOp) (p : Ap) : Chk :=
  both (chkAll ((apSlots op p).map chkSlot)) (encIf (!p.onX && p.other.isSome))

/-- The bank of a g register field (R75). -/
def bankOf (r : BitVec 7) : Option Nat := if isG r then some (r.toNat % 4) else none

/-- The bank rules of R75: no two writes to one bank, no bank read more than twice. -/
def pairingOk (op : SlotOp) (p : Ap) : Bool :=
  let slots := apSlots op p
  let writes := slots.filterMap fun s => bankOf s.args.d
  let reads := slots.flatMap fun s => [bankOf s.args.d, bankOf s.args.s].filterMap id
  decide (writes.eraseDups.length = writes.length) && (List.range 4).all fun b => decide (reads.count b ≤ 2)

/-- Which fields an M word uses. -/
structure MUse where
  sizes : List Nat := [0]
  spaces : List Nat := [0]
  scopes : Bool := false
  data : Opd := .none
  base : Opd := .none
  x : Opd := .none
  flag : Bool := true
  off : Bool := false
  deriving DecidableEq, Repr

/-- The check of an M word (R79, R159, R162). Scratchpad and context accesses carry scope 0. -/
def chkM (u : MUse) (extraOk : Bool) (f : MW) : Chk :=
  chkAll [encIf (!u.sizes.contains f.size.toNat), encIf (!u.spaces.contains f.space.toNat),
    encIf (if u.scopes then decide (4 ≤ f.scope.toNat) else f.scope != 0),
    chkSrc u.data f.data f.ld, chkSrc u.base f.base f.lb, chkSrc u.x f.x f.lx,
    encIf (if u.flag then f.flag == 3 else f.flag != 0), encIf (!u.off && f.off != 0), encIf (!extraOk)]

/-- The base register's kind by space (R159). -/
def baseOf (f : MW) : Opd := if f.space == 1 then .spBase else .base

/-- The data destination of a load by size (R159, R163). -/
def loadDst (f : MW) : Opd := if f.size == 4 then .quadDst0 else if f.size == 3 then .dst64 else .dst32

/-- The data source of a store by size (R159, R163). -/
def storeSrc (f : MW) : Opd := if f.size == 4 then .quad else if f.size == 3 then .pair else .src32

/-- The check of LD, LDX, ST, STX (R163). -/
def chkLdSt (store indexed : Bool) (f : MW) : Chk :=
  chkM { sizes := [0, 1, 2, 3, 4], spaces := [0, 1, 2], scopes := true, data := if store then storeSrc f else loadDst f,
         base := baseOf f, x := if indexed then .src32 else .none, off := true } (f.space == 0 || f.scope == 0) f

/-- The check of the atomics (R164), whose data register is also read; the context space takes none (R200). -/
def chkAtom (f : MW) : Chk :=
  both (chkReads (regSpan f.data (if f.size == 3 then 2 else 1)))
    (chkM { sizes := [2, 3], spaces := [0, 1], scopes := true, data := if f.size == 3 then .dst64 else .dst32,
            base := baseOf f, x := if f.size == 3 then .pair else .src32, off := true } (f.space == 0 || f.scope == 0) f)

/-- The check of LDFE and STFE (R167). -/
def chkFe (store : Bool) (f : MW) : Chk :=
  both (chkM { sizes := [2, 3, 4], spaces := [1], data := if store then storeSrc f else loadDst f, base := .spBase,
               x := .other, off := true } (decide (f.x.toNat ≤ if store then 0 else 1)) f) chkOk

/-- The check of the tag-table words (R168). -/
def chkTag (install : Bool) (f : MW) : Chk :=
  chkM { data := .dst32, base := .pair, x := if install then .src32 else .none } true f

/-- The check of LDP, STP, LDN, STN (R227). -/
def chkName (data : Opd) (f : MW) : Chk :=
  chkM { sizes := [5], scopes := true, data := data, base := .base, off := true } true f

/-- The check of CPL (R263). -/
def chkCpl (f : MW) : Chk :=
  chkM { sizes := [2, 3, 4], spaces := [0, 1], scopes := true, data := baseOf f, base := .base, x := .other, off := true }
    (f.data != 126 && decide (f.x.toNat / 16 % 4 = 0) && (decide (64 ≤ f.x.toNat) || f.x == 0)) f

/-- The check of PEQ (R227): a and b are pairs or quads by offset bits 0 and 1. -/
def chkPeq (f : MW) : Chk :=
  chkM { data := .predDst, base := if bitAt f.off 0 then .quad else .pair, x := if bitAt f.off 1 then .quad else .pair,
         off := true } (decide (f.off.toNat < 4)) f

/-- Which fields an E word uses. -/
structure EUse where
  va : Bool := false
  vb : Bool := false
  vc : Bool := false
  slot : Bool := false
  flags : List Nat := [0, 1, 2]
  variants : List Nat := [0]
  r1 : Opd := .none
  r2 : Opd := .none
  deriving DecidableEq, Repr

/-- The check of an E word (R79, R246). -/
def chkE (u : EUse) (immOk : Bool) (f : EW) : Chk :=
  chkAll [encIf (!u.va && f.va != 0), encIf (!u.vb && f.vb != 0), encIf (!u.vc && f.vc != 0),
    encIf (!u.slot && f.slot != 0), encIf (!u.flags.contains f.flag.toNat), encIf (!u.variants.contains f.variant.toNat),
    chkReg u.r1 f.r1, chkReg u.r2 f.r2, encIf (!immOk)]

/-- The bound-barrier fields of CPV, CPR and GATH (R258): bits 18:7 zero, a barrier only with BIND. -/
def bindOk (f : EW) : Bool := decide (f.imm.toNat < 128) && (bitAt f.imm 4 || decide (f.imm.toNat % 16 = 0))

/-- The scale-view fields of MMT and MMV (R291). -/
def scaleOk (f : EW) : Bool :=
  decide (f.imm.toNat < 1024) && (!bitAt f.imm 8 || decide (fld f.imm.toNat 7 4 = 0)) &&
    (!bitAt f.imm 9 || decide (fld f.imm.toNat 3 0 = 0))

/-- A g register of any width or `zero` (R250). -/
def gOrZero (r : BitVec 7) : Bool := isG r || r == 120 || r == 127

/-- The registers that VLD and VST may take indices from, whatever the rank of the view (spec/03 R51). -/
def viewIndexRegs (r : BitVec 7) : List Nat := (regSpan r 4).filter fun n => decide (n < 96)

/-- k0 to k22 as a peer group's first register (R322). -/
def groupReg (r : BitVec 7) : Bool := decide (96 ≤ r.toNat) && decide (r.toNat ≤ 118)

/-- The check of an X word whose unused fields are zero (R120): `p`, `t` say the predicate and T are used, `lowMask` the
bits of F that are. -/
def chkX (p t : Bool) (lowMask : BitVec 24) (f : XW) : Chk :=
  chkAll [encIf (!p && (f.pred != 0 || f.neg)), encIf (!t && f.t != 0), encIf (f.f &&& ~~~lowMask != 0),
    chkReads (if p then [predNo f.pred.toNat] else [])]

/-- A register field of an X word's F. -/
def xReg (f : XW) (lo : Nat) : BitVec 7 := slice f.f lo 7

/-- The check of CONT and CONTX (R120, R129). -/
def chkCont (f : XW) : Chk :=
  let first := (xReg f 10).toNat
  let count := fld f.f.toNat 9 6
  chkAll [chkX false true 0xFFFFC0 f, chkReg .src32 (xReg f 17), chkReads (regSpan (xReg f 10) count),
    encIf (decide (count = 15) || decide (96 ≤ first) || decide (96 < first + count) ||
      (decide (count = 0) && decide (first ≠ 0)))]

/-- The check of TWAIT (R170). -/
def chkTwait (f : XW) : Chk :=
  let reg := xReg f 14
  if bitAt f.f 21 then both (chkX false true 0xFFC000 f) (encIf (reg != 0))
  else both (chkX false false 0xFFC000 f) (chkReg .src64 reg)

/-- The check of BAR.ARRIVE (R172). -/
def chkArrive (f : XW) : Chk :=
  let reg := xReg f 12
  if bitAt f.f 19 then both (chkX false true 0xFFF000 f) (encIf (reg != 0))
  else both (chkX false false 0xFFF000 f) (chkUse (reg != 127 && !(isK reg || reg == 120)) (reg == 127) (if isK reg then [reg.toNat] else []))

/-- The check of an S word (R204). -/
def chkS (hi mid : Opd) (flags : List Nat) (laneOk csrOk : Bool) (f : SW) : Chk :=
  chkAll [chkReg hi f.hi, chkReg mid f.mid, encIf (!flags.contains f.flag.toNat), encIf (!laneOk), encIf (f.z != 0),
    encIf (!csrOk)]

/-- The check of CTXLD and CTXST (R205): SEL names an interrupted register, the other field one of the same width. -/
def chkCtx (store : Bool) (f : SW) : Chk :=
  let g := isG f.mid
  let widthOk := f.hi == 127 || (if g then isG f.hi || (!store && f.hi == 120) else decide (f.hi.toNat ≤ 120))
  let kind : Opd := if store then (if g then .src32 else .pair) else if g then .dst32 else .dst64
  both (chkS kind .other (if store then [0] else [1, 2]) (f.lane == 0) (f.csr == 0) f)
    (encIf (decide (120 ≤ f.mid.toNat) || !widthOk))

/-- The CSR numbers of R92. -/
def csrValid (n : Nat) : Bool := (1 ≤ n && n ≤ 6) || (0x10 ≤ n && n ≤ 0x1F) || (0x20 ≤ n && n ≤ 0x23)

/-- CSR and LANE of CSRR and CSRW (R206): LANE only with fpst. -/
def csrOk (f : SW) : Bool := csrValid f.csr.toNat && (f.csr == 5 || f.lane == 0)

/-- The findings of R85 rows 3 and 4 in a word, but for the flag select against the header (R71). KEYSET's key registers start at a
multiple of 8 up to 88; another number than 127 there is ILLEGAL_ENCODING (DESIGN CHOICE, log 53). -/
def fieldChk : Instr → Chk
  | .iadd f | .isub f | .imul f => chkA3 { useBin f with sat := true } intTypes true f
  | .imulh f => chkA3 (useBin f) scalarTypes true f
  | .imad f => chkA3 { useTri f with sat := true } scalarTypes true f
  | .imadw f => chkA3 { d := .dst64, a := .src32, b := .src32, c := .src64, sat := true } [.ui32, .s32] true f
  | .imin f | .imax f | .iabsd f => chkA3 (useBin f) intTypes true f
  | .iabs f | .ineg f => chkA3 { useUn f with sat := true } signedTypes true f
  | .lea f => chkA3 { d := dstT f.ty, a := srcT f.ty, b := .src32, aux := true } [.ui32, .ui64, .s64]
      (decide (f.aux.toNat < if f.ty == .ui32 then 32 else 64)) f
  | .iclamp f => chkA3 (useTri f) scalarTypes true f
  | .idot4 _ => chkOk
  | .and f | .or f | .xor f | .andn f => chkA3 (useBin f) bitTypes true f
  | .not f | .brev f | .bswp f | .mov f => chkA3 (useUn f) bitTypes true f
  | .shl f => chkA3 (useShift f) [.ui32, .s32, .b32, .ui64, .s64, .b64] true f
  | .shr f => chkA3 (useShift f) [.ui32, .b32, .ui64, .b64] true f
  | .sar f => chkA3 (useShift f) [.s32, .s64] true f
  | .rot f => chkA3 (useShift f) bitTypes true f
  | .funsh f | .bfi f | .prmt f => chkA3 (useTri f) [.b32] true f
  | .bfx f => chkA3 (useTri f) [.ui32, .s32] true f
  | .popc f | .clz f | .ctz f => chkA3 { d := .dst32, a := srcT f.ty } bitTypes true f
  | .icmp f => chkA3 { d := .cond 5, a := srcT f.ty, b := srcT f.ty } scalarTypes true f
  | .fcmp f => chkA3 { d := .cond 13, a := srcT f.ty, b := srcT f.ty, na := true, nb := true } scalarFloats true f
  | .sel f => chkA3 { useBin f with c := .pred } bitTypes true f
  | .pset f => chkA3 { d := .predDst, a := .pred, b := .pred, aux := true } [.ui32] (decide (f.aux.toNat < 16)) f
  | .pmov f => chkPmov f
  | .fadd f | .fsub f | .fmul f => chkFbin f
  | .ffma f => chkA3 { useTri f with rnd := true, sat := true, na := true, nb := true, nc := true } floatTypes true f
  | .fmin f | .fmax f => chkFminmax f
  | .frnd f => chkA3 { useUn f with rnd := true } floatTypes true f
  | .fcvt f => chkFcvt f
  | .fclass f => chkA3 { d := .dst32, a := srcT f.ty } scalarFloats true f
  | .fscale f => chkA3 { d := dstT f.ty, a := srcT f.ty, b := .src32, rnd := true, sat := true } scalarFloats true f
  | .fdot2 f => chkA3 { useTri f with rnd := true, sat := true, na := true, nb := true, nc := true } [.f16x2, .bf16x2] true f
  | .qnt f => chkA3 { d := .dst32, a := .src32, b := .src32, na := true, aux := true } [.f32] (decide (f.aux.toNat < 8)) f
  | .dqnt f => chkA3 { d := .dst32, a := .src32, b := .src32, rnd := true, aux := true } [.f32]
      (decide (f.aux.toNat < 8)) f
  | .f2i f => chkA3 { d := dstT f.ty, a := srcT (auxTy f), rnd := true, aux := true } scalarTypes
      (decide (f.aux.toNat < 16) && scalarFloats.contains (auxTy f)) f
  | .i2f f => chkA3 { d := dstT f.ty, a := srcT (auxTy f), rnd := true, aux := true } scalarFloats
      (decide (f.aux.toNat < 16) && scalarTypes.contains (auxTy f)) f
  | .rcp f | .rsq f => chkSfu [.f32, .f64] false f
  | .sqrt f => chkSfu [.f32, .f64] true f
  | .exp2 f | .log2 f | .sinpi f | .cospi f | .tanh f => chkSfu [.f32] false f
  | .fdiv f => chkA3 { useBin f with rnd := true, sfu := true } [.f32, .f64] true f
  | .shfl f => chkA3 { d := dstT f.ty, a := srcT f.ty, b := .src32, c := .predDst, aux := true } bitTypes
      (decide (f.aux.toNat < 32) && decide (f.aux.toNat / 4 ≤ 4)) f
  | .vote f => chkVote f
  | .redux f => chkRedux false f
  | .scan f => chkRedux true f
  | .matchLanes f => chkA3 { d := .dst32, a := srcT f.ty, c := .predDst } bitTypes true f
  | .xpose f => both (chkReads (regSpan f.d 8)) <| both (chkDef false false (regSpan f.d 8)) <| chkA3 { d := .other } [.b32, .ui16x2, .ui8x4] (decide (f.d.toNat % 8 = 0) && decide (f.d.toNat ≤ 88)) f
  | .iaddAp p => chkAp .iadd p | .isubAp p => chkAp .isub p | .imulAp p => chkAp .imul p | .iminAp p => chkAp .imin p
  | .imaxAp p => chkAp .imax p | .andAp p => chkAp .and p | .orAp p => chkAp .or p | .xorAp p => chkAp .xor p
  | .shlAp p => chkAp .shl p | .shrAp p => chkAp .shr p | .sarAp p => chkAp .sar p | .movAp p => chkAp .mov p
  | .faddAp p => chkAp .fadd p | .fmulAp p => chkAp .fmul p | .fminAp p => chkAp .fmin p | .fmaxAp p => chkAp .fmax p
  | .notAp p => chkAp .not p
  | .iaddi f | .imuli f => chkAI scalarTypes (dstT f.ty) (srcT f.ty) true f
  | .andi f | .ori f | .xori f => chkAI [.b32, .ui64] (dstT f.ty) (srcT f.ty) true f
  | .shli f => chkAI [.ui32, .s32, .b32, .ui64, .s64] (dstT f.ty) (srcT f.ty) (immShiftOk f) f
  | .shri f => chkAI [.ui32, .b32, .ui64] (dstT f.ty) (srcT f.ty) (immShiftOk f) f
  | .sari f => chkAI [.s32, .s64] (dstT f.ty) (srcT f.ty) (immShiftOk f) f
  | .movi f => chkAI [.ui32, .s32, .f32, .b32, .f16x2, .ui64, .s64] (dstT f.ty) .none true f
  | .movhi f => chkAI [.ui64, .s64] .dst64 .none (f.d != 120) f
  | .icmpi f => chkAI scalarTypes (.cond 5) (srcT f.ty) true f
  | .faddi f | .fmuli f => chkAI [.f32, .f16x2] .dst32 .src32 true f
  | .imini f | .imaxi f => chkAI scalarTypes (dstT f.ty) (srcT f.ty) true f
  | .leai f => chkAI [.ui32, .ui64] (dstT f.ty) (srcT f.ty) true f
  | .ld f => chkLdSt false false f | .st f => chkLdSt true false f
  | .ldx f => chkLdSt false true f | .stx f => chkLdSt true true f
  | .atomAdd f | .atomMin f | .atomMax f | .atomAnd f | .atomOr f | .atomXor f | .atomXchg f | .atomCas f
  | .atomFadd f => chkAtom f
  | .pref f => chkM { scopes := true, base := .base, flag := false, off := true } true f
  | .ldfe f => chkFe false f | .stfe f => chkFe true f
  | .splook f | .spinv f => chkTag false f
  | .sptag f => chkTag true f
  | .cwait f => both (chkX false false 0xC0FFFF f) (encIf (decide (fld f.f.toNat 23 22 = 3)))
  | .twait f => chkTwait f
  | .barInit f => both (chkX false false 0xFFC000 f)
      (encIf (decide (fld f.f.toNat 19 14 = 0) || decide (34 ≤ fld f.f.toNat 19 14)))
  | .barArrive f => chkArrive f
  | .barWait f => chkX false false 0xF80000 f
  | .gbar f => chkX false false 0xF00000 f
  | .ldp f => chkName .dst64 f | .stp f => chkName .pair f | .ldn f => chkName .quadDst f | .stn f => chkName .quad f
  | .peq f => chkPeq f
  | .padd f => chkM { data := .dst64, base := .pair, x := .src64, off := true } true f
  | .pname f => chkM { data := .quadDst, base := .pair } true f
  | .pres f => chkM { data := .dst64, base := .quad } true f
  | .cpl f => chkCpl f
  | .rgnext f => chkM { sizes := [3], data := .dst64, base := .src32 } (f.data != 120) f
  | .rgrel f => chkM { sizes := [3], data := .src64, base := .src32 } true f
  | .vdef f => chkE { va := true, r1 := .base } true f
  | .vset f => chkE { va := true, flags := [0], r1 := if f.imm == 0 then .src64 else .src32 }
      (decide (f.imm.toNat ≤ 16)) f
  | .vget f => chkE { va := true, flags := [0], r1 := if f.imm == 0 then .dst64 else .dst32 }
      (decide (f.imm.toNat ≤ 17)) f
  | .vld f => both (both (chkMay (viewIndexRegs f.r2)) (chkE { va := true, r1 := .dst32, r2 := .src32 } (f.imm == 0) f))
      (encIf (!gOrZero f.r1 || !(isG f.r2 || f.r2 == 127)))
  | .vst f => both (both (chkMay (regSpan f.r1 2 ++ viewIndexRegs f.r2)) (chkE { va := true, r1 := .src32, r2 := .src32 } (f.imm == 0) f))
      (encIf (!gOrZero f.r1 || !(isG f.r2 || f.r2 == 127)))
  | .vret f => chkE { va := true } (f.imm == 0) f
  | .vmeet f => chkE { va := true, vb := true, flags := [0], r1 := .predDst } (f.imm == 0) f
  | .cpv f => chkE { va := true, vb := true } (bindOk f && decide (fld f.imm.toNat 6 5 = 0)) f
  | .cpr f => chkE { va := true, vb := true, variants := [0, 1, 2] } (bindOk f && decide (fld f.imm.toNat 6 5 ≠ 3)) f
  | .gath f => chkE { va := true, vb := true, vc := true } (bindOk f && decide (fld f.imm.toNat 6 5 = 0)) f
  | .mmt f | .mmv f => chkE { va := true, vb := true, vc := true, slot := true } (scaleOk f) f
  | .mstat f => chkE { flags := [0], r1 := .dst64 } (f.imm == 0) f
  | .mclr f => chkE { flags := [0] } (decide (f.imm.toNat < 64)) f
  | .xred f => both (chkReads [f.r1.toNat, f.r1.toNat + 1]) <| chkE { va := true, vb := true, variants := [0, 1, 2], r1 := .other }
      (groupReg f.r1 && decide (f.imm.toNat < 128) && decide (f.imm.toNat % 32 = 0) && decide (fld f.imm.toNat 6 5 ≠ 3)) f
  | .xgath f => both (chkReads [f.r1.toNat, f.r1.toNat + 1]) <| chkE { va := true, vb := true, r1 := .other } (groupReg f.r1 && f.imm == 0) f
  | .xbcast f => both (chkReads [f.r1.toNat, f.r1.toNat + 1]) <| chkE { va := true, r1 := .other } (groupReg f.r1 && decide (f.imm.toNat < 65536)) f
  | .tkacq f => chkE { variants := [0, 1], r1 := .src64 } (f.imm == 0) f
  | .tkrel f => chkE { r1 := .src64 } (f.imm == 0) f
  | .tkqry f => chkE { flags := [1, 2], r1 := .src64, r2 := .dst64 } (f.imm == 0) f
  | .goto f | .yield f | .meet f => chkX false true 0 f
  | .brc f => chkX true true 0xFFFFFF f
  | .brx f => both (chkX false false 0xFF f) (chkSrc .src64 (xReg f 0) (bitAt f.f 7))
  | .call f => chkX false true 0xFFFFFF f
  | .ret f | .exit f | .deact f => chkX false false 0 f
  | .contx f | .cont f => chkCont f
  | .pb f => both (chkX true false 0xFFF000 f) (encIf (decide (fld f.f.toNat 23 16 >>> fld f.f.toNat 15 12 ≠ 0)))
  | .nop f _ => chkX false false 0 f
  | .trap f => chkX false false 0xF f
  | .ctxld f => chkCtx false f
  | .ctxst f => chkCtx true f
  | .tret f => chkS .none .none [0] (f.lane == 0) (f.csr == 0) f
  | .csrr f => chkS .dst64 .none [0] true (csrOk f) f
  | .csrw f => chkS .none .src64 [0] true (csrOk f) f
  | .tlbi f => chkS .none (if f.lane == 1 then .none else .src64) [0] (decide (f.lane.toNat ≤ 1)) (f.csr == 0) f
  | .pbind f => chkS .dst64 .quad [1, 2] (f.lane == 0) (f.csr == 0) f
  | .punbind f => chkS .none .src64 [0] (f.lane == 0) (f.csr == 0) f
  | .pevict f => chkS .none .src64 [0, 1, 2] (f.lane == 0) (f.csr == 0) f
  | .mprgw f => chkS .none .src64 [0] (f.lane == 0) (f.csr == 0) f
  | .keyset f => both (chkUse false (f.mid == 127) (regSpan f.mid 8)) <|
      chkS .src32 .other [1, 2] (f.lane == 0 && (f.mid == 127 || (decide (f.mid.toNat % 8 = 0) && decide (f.mid.toNat ≤ 88))))
        (f.csr == 0) f
  | .segmentBoundary .. | .choose .. | .preemptRequest .. | .operationComplete .. | .registerFillReturn ..
  | .registerFillTimeout .. | .lineSpill .. | .lineBudgetWake .. | .contextPage .. | .warpActivate .. | .warpWake ..
  | .warpRetire .. | .gangBirth .. | .gangRetire .. | .gangSpill .. | .gangRestore .. | .continuationGather ..
  | .continuationResume .. | .continuationStallKill .. | .callAreaGrant .. | .coreWithdraw .. | .partitionSwap ..
  | .pageNotPresent .. | .objectAbsent .. | .serviceEvict .. | .migration .. | .l1Writeback .. | .pkgWriteHomeApply ..
  | .pkgWriteDieApply .. | .fabricPacketReceive .. | .fabricResendTimeout .. | .peerLost .. | .tokenGrant ..
  | .tokenRefuse .. | .tokenRecall .. | .chunkApply .. | .chunkDelivery .. | .chunkReceive ..
  | .engineOperationComplete .. | .tileRowStart .. | .tileRowComplete .. | .matrixWaitRelease .. | .collectiveMatch ..
  | .energyRefill | .messageLand .. | .ringEnable .. | .hostLandingWrite .. | .hostLandingRead .. | .submit ..
  | .launchStart .. | .waitConditionPoll .. | .waitConditionUpdate .. | .cpCause | .regionReset | .regionKill
  | .regionRevive | .functionLevelReset .. | .regionTableWrite .. | .objectLoad .. | .objectUnload | .leaseRenew ..
  | .leaseRoleWrite .. | .leaseExpiry .. | .registerWrite .. | .serviceCoreRestart .. | .scrub .. | .strataUpdate ..
  | .powerOn .. | .thermalLimit .. | .peerRestore .. | .linkFailure .. | .coreReturnToService .. | .powerDown ..
  | .thermalLimitClear .. | .tdispMessage .. => chkOk

/-- The flag select of a word that has one (R71). -/
def flagSel : Instr → BitVec 2
  | .rcp f | .rsq f | .sqrt f | .exp2 f | .log2 f | .sinpi f | .cospi f | .tanh f | .fdiv f => f.flag
  | .ld f | .st f | .ldx f | .stx f | .atomAdd f | .atomMin f | .atomMax f | .atomAnd f | .atomOr f | .atomXor f
  | .atomXchg f | .atomCas f | .atomFadd f | .pref f | .ldfe f | .stfe f | .splook f | .sptag f | .spinv f | .ldp f
  | .stp f | .ldn f | .stn f | .peq f | .padd f | .pname f | .pres f | .cpl f | .rgnext f | .rgrel f => f.flag
  | .vdef f | .vld f | .vst f | .vret f | .cpv f | .cpr f | .gath f | .mmt f | .mmv f | .xred f | .xgath f | .xbcast f
  | .tkacq f | .tkrel f | .tkqry f => f.flag
  | .ctxld f | .pbind f | .pevict f | .keyset f => f.flag
  | _ => 0

/-- The words that only trap mode may run (R85 row 1): class S, DEACT, the context space. -/
def isPrivileged : Instr → Bool
  | .deact _ | .ctxld _ | .ctxst _ | .tret _ | .csrr _ | .csrw _ | .tlbi _ | .pbind _ | .punbind _ | .pevict _
  | .mprgw _ | .keyset _ => true
  | .ld f | .st f | .ldx f | .stx f | .atomAdd f | .atomMin f | .atomMax f | .atomAnd f | .atomOr f | .atomXor f
  | .atomXchg f | .atomCas f | .atomFadd f | .pref f | .ldfe f | .stfe f | .splook f | .sptag f | .spinv f | .ldp f
  | .stp f | .ldn f | .stn f | .peq f | .padd f | .pname f | .pres f | .cpl f | .rgnext f | .rgrel f => f.space == 2
  | _ => false

/-- The bank rules of a paired word (R85 row 5). -/
def pairingBad : Instr → Bool
  | .iaddAp p => !pairingOk .iadd p | .isubAp p => !pairingOk .isub p | .imulAp p => !pairingOk .imul p
  | .iminAp p => !pairingOk .imin p | .imaxAp p => !pairingOk .imax p | .andAp p => !pairingOk .and p
  | .orAp p => !pairingOk .or p | .xorAp p => !pairingOk .xor p | .shlAp p => !pairingOk .shl p
  | .shrAp p => !pairingOk .shr p | .sarAp p => !pairingOk .sar p | .movAp p => !pairingOk .mov p
  | .faddAp p => !pairingOk .fadd p | .fmulAp p => !pairingOk .fmul p | .fminAp p => !pairingOk .fmin p
  | .fmaxAp p => !pairingOk .fmax p | .notAp p => !pairingOk .not p
  | _ => false

/-- N of a predicate block out of range (R85 row 6, R76). -/
def pbCountBad : Instr → Bool
  | .pb f => decide (fld f.f.toNat 15 12 = 0) || decide (9 ≤ fld f.f.toNat 15 12)
  | _ => false

/-- The flag a flag select raises under a header (R65, R71): 0 none, 1 RAISE_A, 2 RAISE_B. -/
def raisedFlag (raiseA raiseB : BitVec 4) (sel : BitVec 2) : Option Nat :=
  if sel == 1 then some raiseA.toNat else if sel == 2 then some raiseB.toNat else none

/-- A flag select that names a slot whose header field is 15 (R71). -/
def flagMisused (raiseA raiseB : BitVec 4) (sel : BitVec 2) : Bool :=
  (sel == 1 && raiseA == 15) || (sel == 2 && raiseB == 15)

/-- The decode cause of a word that is read on its own (R85 rows 2 to 6), but for what the header and the mode decide. -/
def staticCause (i : Instr) : Option Cause :=
  match i with
  | .idot4 _ => some .illegalOpcode
  | _ =>
    let c := fieldChk i
    if c.enc then some .illegalEncoding
    else if c.bad then some .badRegister
    else if pairingBad i then some .illegalPairing
    else if pbCountBad i then some .illegalPrefix
    else none

/-- The decode cause of a word under its segment's header, in or out of trap mode (R85 rows 1 to 6). -/
def decodeCause (raiseA raiseB : BitVec 4) (trapMode : Bool) (i : Instr) : Option Cause :=
  if isPrivileged i && !trapMode then some .privileged
  else match i with
    | .idot4 _ => some .illegalOpcode
    | _ => if flagMisused raiseA raiseB (flagSel i) then some .illegalEncoding else staticCause i

end Sys2Proof.Machine
end

