-- ==== Sys2Proof/Machine/State.lean ====
section
/-! DEFINITION. The state of the part as plain data: contexts, warps, gangs, cores, launches, memory, engines, fabric, ports,
command processor, service cores and management (INVENTORY.md lists each piece with its rule); why a step can stop; and the
machine right after a cold reset. -/

namespace Sys2Proof.Machine

/-- Why a step stops with a fault. -/
inductive Fault where
  /-- Raised by a translated access, a table walk or a read of the command processor whose physical address lies in none of
  the areas of spec/09 R179, spec/20 R325 and spec/22 R339: the address does not exist. Safe: the machine stops. -/
  | physicalHole (pa : Nat)
  deriving DecidableEq, Repr

/-- Why an instruction has no meaning. -/
inductive Refusal where
  /-- Raised by an arm of exec whose instruction has no meaning yet. Safe: nothing is claimed of it. -/
  | notModelled (mnemonic : String)
  deriving DecidableEq, Repr

/-! ### A context (spec/05) -/

/-- A g register: its lanes, its lane-live mask, whether its line is in the register file (spec/05 R94 to R97). -/
structure GReg where
  val : Lanes W32
  live : Mask
  resident : Bool
  deriving DecidableEq, Repr

/-- A view register: the eight words of its descriptor (spec/15 R239). -/
abbrev View := Vector W64 8

/-- A register or a predicate as a destination or a source. -/
inductive Reg where
  | g (n : Nat)
  | k (n : Nat)
  | p (n : Nat)
  deriving DecidableEq, Repr

/-- A result a word may read too early (spec/04 R68 to R70): the register, in which lanes, what it held before and in which
lanes it was live; how many clocks of distance are still to come, or the operation in flight that writes it. -/
structure Haz where
  reg : Reg
  lanes : Mask
  old : Lanes W64
  oldLive : Mask
  left : Nat
  op : Option Nat
  deriving DecidableEq, Repr

/-- Where one lane's access goes after translation. -/
inductive Place where
  /-- A byte address of global memory: its key in the memory map, its leaf's mode (spec/08 R157). -/
  | global (key : Nat) (mode : Nat)
  /-- An offset in the gang's scratchpad (spec/08 R166). -/
  | scratch (off : Nat)
  /-- An offset in the interrupted context's record (spec/10 R200). -/
  | record (off : Nat)
  /-- Nowhere: the walk, or the binding-table entry, met a poisoned line (spec/22 R355), and the access fails. -/
  | lost
  deriving DecidableEq, Repr

/-- One lane's access: the lane, its place, the data it stores or its operand, and the swap value of a compare. -/
structure Acc where
  lane : Nat
  place : Place
  data : Nat
  swap : Nat
  va : W64
  deriving DecidableEq, Repr

/-- What a memory word does at its place. -/
inductive MemFn where
  | load
  | store
  | atomic (op : Nat)
  | loadFull (clear : Bool)
  | storeFull
  deriving DecidableEq, Repr

/-- A destination that is written when an operation lands: the register, its width in registers, the lanes still its own,
and which 32-bit part of the result its first register takes. -/
structure Dst where
  reg : Reg
  count : Nat
  lanes : Mask
  part : Nat
  deriving DecidableEq, Repr

/-- A view as an access captured it (spec/15 R245): the descriptor, the register it came from, the number of that register's
definition, and whether the access writes through it. -/
structure Captured where
  view : View
  reg : Nat
  dno : Nat
  writes : Bool
  deriving DecidableEq, Repr

/-- What an operation in flight still has to do. -/
inductive OpKind where
  /-- A result known at issue: one value a lane, flags a lane (SFU, pointer words, tag words). -/
  | result (vals : Lanes Nat) (flags : Lanes (BitVec 5))
  /-- Memory accesses of one word: those not performed yet, and the values of the others. A view load or store also has the
  view it captured (spec/15 R250). -/
  | memory (fn : MemFn) (bytes : Nat) (scope : Nat) (accs : List Acc) (vals : Lanes Nat) (view : Option Captured)
  /-- A view's retirement (spec/15 R252), by the register and the number of its definition: the scope it releases at, and once
  what was written at a narrower one has been written back, the writes on their way that it waits for. -/
  | viewRetire (reg dno scope : Nat) (published : Option (List Nat))
  /-- The rings that the threads of an RGNEXT claim entries of, as it completes (spec/20 R329, spec/21 R335). -/
  | ringClaim (rings : Lanes Nat)
  /-- A ring release waiting for earlier loads (spec/20 R329): the rings and the first slots of the entries. -/
  | ringRelease (entries : List (Nat × Nat))
  /-- A key installed or removed (spec/20 R330). -/
  | keySet (group : Nat) (index : Nat) (remove : Bool) (key : List Byte)
  /-- An eviction (spec/13 R234): the slot of a binding table, and the generation that was named. -/
  | evict (space : Nat) (table : W64) (slot gen : Nat)
  deriving DecidableEq, Repr

/-- An operation in flight (spec/04 R72, spec/08 R161, spec/10 R199): its number in issue order, the word and its threads,
the flag it raised, the counter it is counted on (0 none, 1 ol, 2 os, 3 sp), its destinations, and what is left to do. -/
structure Op where
  id : Nat
  fpc : WAddr
  word : W64
  run : Mask
  flag : Option Nat
  counter : Nat
  dsts : List Dst
  kind : OpKind
  deriving DecidableEq, Repr

/-- What a group waits for (spec/02 R31, spec/05 R101): a page for a read or a write, objects by their names or through a pointer, by
their slots of a binding table. -/
inductive WaitFor where
  | none
  | flags
  | counter (which n : Nat)
  | timeline (which n : Nat)
  | barrier (b : Nat) (phase : Bool)
  | gridBarrier (n : Nat)
  | page (va : W64) (write : Bool)
  | object (space : Nat) (table : W64) (slots : List Nat) (byName : Bool)
  | fill (n : Nat)
  | lineBudget
  | energy
  | contextSlot
  | matrixPrevious
  | interruptionPoint
  | retirement
  | contextPage (va : W64)
  | earlier
  | pending (sel : Nat)
  | published (writes : List Nat)
  | quiet (root : Nat)
  deriving DecidableEq, Repr

/-- The part of the trap frame that the device computes at trap entry (spec/10 R195). -/
structure Frame where
  cause : Nat
  kind : Nat
  valid : Bool
  trapIdx : Nat
  fpc : WAddr
  run : Mask
  lanes : Mask
  addr : W64
  word : W64
  busyCf : BitVec 12
  info : W64
  deriving DecidableEq, Repr

/-- A cause held until a boundary (spec/10 R199). -/
structure Held where
  cause : Cause
  fpc : WAddr
  word : W64
  run : Mask
  lanes : Mask
  addr : W64
  info : W64
  deriving DecidableEq, Repr

/-- A group that waits at a grid barrier while other groups of its warp go on (spec/08 R175): the barrier, its threads, where
it goes on, and whether the phase has completed. -/
structure Suspended where
  bar : Nat
  lanes : Mask
  npc : WAddr
  segh : WAddr
  seg : Header
  blocks : List Mask
  released : Bool
  deriving DecidableEq, Repr

/-- A context: one of a warp, and in trap mode one more (spec/05 R89 to R93, spec/10 R193). -/
structure Ctx where
  pcs : Lanes WAddr
  mv : Mask
  meet : Lanes WAddr
  preds : Vector Mask 7
  active : Mask
  exited : Mask
  g : Vector GReg 96
  k : Vector W64 24
  views : Vector View 16
  viewDefs : Vector Nat 16
  passed : Lanes (BitVec 4)
  cf : Vector Nat 12
  spFlags : List Nat
  ol : Nat
  os : Nat
  sp : Nat
  segh : WAddr
  seg : Header
  inSeg : Bool
  midSeg : Bool
  npc : WAddr
  blocks : List Mask
  haz : List Haz
  csp : W64
  fpst : Lanes (BitVec 5)
  mst : W64
  mrow : W64
  nbv : BitVec 2
  deadread : Bool
  ops : List Op
  vrets : Nat
  wait : WaitFor
  met : Bool
  ctxp : W64
  suspended : List Suspended
  frame : Frame
  deriving DecidableEq, Repr

/-- The states of a warp (spec/05 R93, R101). -/
inductive WarpState where
  | unborn | dormant | active | parked | retired
  deriving DecidableEq, Repr

/-- The interrupted context of a warp in trap mode and what the handler did to it (spec/10 R193, R208, R209). -/
structure TrapInfo where
  idx : Nat
  intr : Ctx
  deact : Bool
  live0 : Option W64
  live1 : Option W64
  viewsWritten : List Nat
  callRecord : Option Nat
  deriving DecidableEq, Repr

/-- A cause a warp has at the command processor (spec/22 R346). -/
structure CpStop where
  cause : Cause
  info : W64
  addr : W64
  onMemoryWord : Bool
  deriving DecidableEq, Repr

/-- A warp (spec/02 R28 to R42, spec/05 R101 to R104); `badEntry` is the entry of a continuation warp that is no header of its
object (spec/02 R35); `evicting` the record page its deactivation waits for (spec/05 R98); `leaving`: it is being deactivated, and
lines with writes in flight, or accesses through its views, hold that up (spec/05 R101, spec/15 R245). -/
structure Warp where
  id : WarpId
  state : WarpState
  res : Bool
  ctx : Ctx
  trap : Option TrapInfo
  held : Option Held
  preempt : Bool
  stopped : Option CpStop
  slot : Nat
  hasSlot : Bool
  callSlot : Option Nat
  core : Nat
  pair : Nat
  actSlot : Nat
  skip : Nat
  lastIssue : Nat
  parkedAt : Nat
  check : Bool
  emitted : Mask
  yielded : Bool
  reviews : List Nat
  fromSlots : List Nat
  badEntry : Option WAddr
  evicting : Option W64
  leaving : Bool
  deriving DecidableEq, Repr

/-! ### Gangs, cores, launches (spec/01, 02, 08) -/

/-- A barrier register (spec/08 R171) and whether the transfer unit has arrived in this phase (R173). -/
structure Bar where
  phase : Bool
  ann : Bool
  members : Nat
  pending : Nat
  balance : Int
  arrived : Bool
  deriving DecidableEq, Repr

/-- A timeline counter (spec/01 R16): the highest number issued, and the numbers completed above the counter. -/
structure Timeline where
  value : Nat
  issued : Nat
  done : List Nat
  deriving DecidableEq, Repr

/-- A gang (spec/02 R28): its allocations, barrier registers and timeline counters; the context slots of its spill area (R33);
whether it was taken off a withdrawn core and so stays on its die (spec/05 R107); `spoilt`: the scratchpad bytes that were written from
uncorrectable data (spec/22 R346). -/
structure Gang where
  id : GangId
  core : Nat
  spilled : Bool
  born : Bool
  spadSize : Nat
  tagSize : Nat
  spad : ByteMap
  full : List Nat
  tags : List (W64 × W32)
  bars : Vector Bar 16
  tc : Vector Timeline 4
  spillSlots : List Nat
  keepDie : Bool
  spoilt : List Nat
  deriving DecidableEq, Repr

/-- A Deckle entry (spec/15 R244, R245): its warp, the view, whether a register names it. -/
structure DeckleEntry where
  idx : Nat
  owner : WarpId
  view : View
  named : Bool
  deriving DecidableEq, Repr

/-- What a pair's group scheduler chose last: the warp, and the clock it was chosen for (spec/05 R104). -/
structure Chosen where
  warp : WarpId
  clock : Nat
  deriving DecidableEq, Repr

/-- A core (spec/01 R8, spec/05 R102 to R107, spec/15 R244); `last` is the warp last chosen by a pair, `lastAt` the activation slot
last chosen by a pair at a priority (16 x pair + priority). -/
structure CoreState where
  deckle : List DeckleEntry
  last : AList Chosen
  lastAt : AList Nat
  withdrawn : Bool
  mismatches : List Nat
  deriving DecidableEq, Repr

/-- A region's effective values as a launch keeps them (spec/02 R21, R360). -/
structure Eff where
  prio : Nat
  faultDom : Nat
  resetScope : Nat
  qos : Nat
  check : Bool
  nbv : Nat
  irq : W64
  ptRoot : Nat
  bindTable : W64
  trapEntry : W64
  trapPool : W64
  trapCount : Nat
  keyBase : Nat
  keyCount : Nat
  ctxPool : W64
  deriving DecidableEq, Repr

/-- A wait-for condition (spec/02 R26) and whether it has been found to hold. -/
structure WaitCond where
  kind : Nat
  word : W64
  value : Nat
  holds : Bool
  deriving DecidableEq, Repr

/-- A staged continuation record (spec/02 R35, R36) and its release (spec/06 R130): the warp that emitted it and its core, the
stores in flight it waits for, whether they have been written back, and the package writes of that write-back. -/
structure Staged where
  entry : W32
  tag : W32
  args : List W32
  slot : Nat
  warp : WarpId
  core : Nat
  ops : List Nat
  published : Bool
  writes : List Nat
  deriving DecidableEq, Repr

/-- A page of a launch's spans copied before its first write (spec/22 R344): its number, the frame that the copy takes, its bytes. -/
structure Snapshot where
  page : Nat
  frame : Nat
  bytes : ByteMap
  deriving DecidableEq, Repr

/-- The states of an accepted launch (spec/22 R341). -/
inductive LaunchState where
  | accepted | started | complete | replayed | killed
  deriving DecidableEq, Repr

/-- A launch: its kept record (spec/02 R23), its Ream entry (spec/22 R341) and what runs; `snapFailed`: a snapshot of its spans had no
memory, or is lost (spec/22 R343). -/
structure Launch where
  seq : Nat
  region : Nat
  warps : Nat
  replayable : Bool
  contOk : Bool
  checkOn : Bool
  gbars : Nat
  object : W64
  entry : W64
  gangs : Nat
  argp : W64
  spad : Nat
  tags : Nat
  ctab : W64
  slots : List W64
  spans : List (W64 × Nat)
  waits : List WaitCond
  record : List W64
  eff : Eff
  compand : List (List (Nat × Nat))
  codeBase : W64
  hasCall : Bool
  state : LaunchState
  replays : Nat
  rpl : Bool
  src : Nat
  reason : Nat
  cause : Nat
  info : W64
  handed : Nat
  contCount : Nat
  staged : List Staged
  stageSlot : Nat
  stageUsed : Nat
  retiredWarps : List WarpId
  arrivals : List (Nat × List WarpId)
  reserved : Nat
  snapshots : List Snapshot
  snapFailed : Bool
  absent : List W64
  marked : List Nat
  deriving DecidableEq, Repr

/-! ### Memory (spec/08, 09, 20) -/

/-- A byte at a die point: its value, the home order number that produced it, whether it is to be written back, whether it has been
found uncorrectable (spec/22 R356); `sent`: the write with which an earlier or this value of it is on its way home (spec/20 R312); `via`:
the definitions of the views through which it was stored since it was last written back (spec/15 R252). -/
structure DieByte where
  val : Byte
  order : Nat
  dirty : Bool
  bad : Bool
  sent : Option Nat
  via : List Nat
  deriving DecidableEq, Repr

/-- A byte in a core's L1: its value, whether it is to be written back, whether it has been found uncorrectable (spec/22 R356); `sent`
and `via` as at a die point. -/
structure L1Byte where
  val : Byte
  dirty : Bool
  bad : Bool
  sent : Option Nat
  via : List Nat
  deriving DecidableEq, Repr

/-- A write in flight (spec/20 R310): the issuing die, its number, none (0) for one that is no package-scope write (R312), and its stamp,
its address, its bytes or the atomic that forms them at the home, where it was applied; the warp, and the operation and lane it belongs
to, if any; `gaps` are the
places among the bytes that it leaves alone (spec/16 R269), and `bad`: what it writes is poisoned (spec/22 R346). -/
structure PkgWrite where
  id : Nat
  die : Nat
  seq : Nat
  stamp : List Nat
  key : Nat
  bytes : List Byte
  atom : Option Nat
  x : Nat
  swap : Nat
  home : Bool
  order : Nat
  applied : BitVec 16
  warp : WarpId
  op : Option Nat
  lane : Nat
  gaps : List Nat
  bad : Bool
  deriving DecidableEq, Repr

/-- A translation kept by the caches of the package (spec/10 R207). -/
structure TlbEntry where
  root : Nat
  page : Nat
  pte : W64
  deriving DecidableEq, Repr

/-- The memory system. A key is a physical byte address of this device, or (peer + 1) x 2^44 + address at a peer or host;
2^66 more names the local copy of a mode-2 page, and `cached` holds the bytes of such copies that differ from the home's. `poison` lists
the poisoned lines of 64 bytes, each with those of its bytes that have not been written since (spec/22 R355); `sealed` the frames of
4 KiB that the root core has sealed (spec/22 R353). -/
structure Mem where
  home : ByteMap
  cached : AList Byte
  order : AList Nat
  die : AList DieByte
  l1 : AList L1Byte
  clocks : List (List Nat)
  issued : List Nat
  writes : List PkgWrite
  nextWrite : Nat
  tlb : List TlbEntry
  poison : List (Nat × BitVec 64)
  migration : List (Nat × Nat × Nat)
  sealed : List Nat
  deriving DecidableEq, Repr

/-! ### Engines (spec/16, 17, 18, 20) -/

/-- What an engine operation does. -/
inductive EngKind where
  | copy
  | reduce (op ty : Nat)
  | gather
  | laneCopy (bytes scope : Nat) (scratch : Bool) (pairs : List (Nat × W64 × W64))
  | matrix (slot : W64) (energy : Nat) (nbv : BitVec 2) (hasSw hasSa : Bool)
  | collReduce (op ty : Nat)
  | collGather
  | collCast (root : Nat)
  | tokenAcquire (peer region : Nat) (exclusive : Bool)
  | tokenRelease (peer region : Nat)
  | tokenQuery (peer region : Nat)
  deriving DecidableEq, Repr

/-- A tile row under way (spec/17 R281 to R288, spec/18 R296): the span it is in; whether that span's sums are formed a second time; the
values drained so far, row by row, once C has been read; its status bits; the operands of the span as far as they have been read: each
row's weights with whether a byte of them was of 243 to 255, each column's activations with their status, the scale codes of rows and
columns; whether an operand was uncorrectable; and whether C has been written. -/
structure RowWork where
  span : Nat
  again : Bool
  out : Option (List (Nat × Bool))
  status : W64
  weights : Option (List (List (Int × Bool)))
  acts : Option (List (List (Int × W64)))
  rowScales : Option (List Nat)
  colScales : Option (List Nat)
  bad : Bool
  written : Bool
  deriving DecidableEq, Repr

/-- An engine operation in flight; `tag` is a collective's tag, or the address of a token acquisition (spec/16 R256 to R266, spec/18 R293
to R299, spec/20 R318, R323). A token release also keeps the stores it waits for and the writes of its write-back (spec/20 R312), and
`settled`: the token has been given up as far as it has to be. `asked` is the token region, by peer and number, that an
access of it waits for, and `refused` lists those that a home has refused it (spec/13 R221). A collective has its number `nth` among those of its tag on its die, what it contributes once that is read,
and once it is matched the values it writes; of each value it is known whether it derives from uncorrectable data. A gather's matched
values are its indices. `fetched`: the chunks whose elements have been read while their writes were held (spec/15 R252, R253), with the
values. `returning`: a token release gives back the dirty lines of its region (spec/20 R318). -/
structure EngOp where
  id : Nat
  warp : WarpId
  gang : GangId
  core : Nat
  kind : EngKind
  tc : Nat
  num : Nat
  flag : Option Nat
  barrier : Option Nat
  views : List Captured
  fpc : WAddr
  word : W64
  run : Mask
  dst : Option Dst
  chunks : Nat
  applied : List Nat
  delivered : List Nat
  retried : List Nat
  stopped : Bool
  paused : Bool
  trapIdx : Option Nat
  row : Nat
  rowStarted : Bool
  work : RowWork
  tag : Nat
  size : Nat
  rank : Nat
  nth : Nat
  members : List (Nat × Nat)
  contrib : Option (List (W64 × Bool))
  matched : Option (List (W64 × Bool))
  waits : List Nat
  published : Bool
  writes : List Nat
  settled : Bool
  asked : Option (Nat × Nat)
  refused : List (Nat × Nat)
  fetched : List (Nat × List (W64 × Bool))
  returning : Bool
  deriving DecidableEq, Repr

/-! ### Fabric, ports, system (spec/20, 22) -/

/-- An outgoing packet not acknowledged (spec/20 R313): its stream and number, the operation it belongs to, if any, and what it does
at the peer: accesses of the operation, or a package write. -/
structure Sent where
  peer : Nat
  die : Nat
  seq : Nat
  resends : Nat
  warp : WarpId
  op : Option Nat
  fn : MemFn
  bytes : Nat
  accs : List Acc
  write : Option Nat
  deriving DecidableEq, Repr

/-- A token of a peer's 2 MiB region (spec/20 R316, R318): state 0 none, 1 shared, 2 exclusive; `pending`: a grant or an upgrade is
asked for; `giving`: a return or a downgrade is not yet acknowledged. -/
structure Token where
  peer : Nat
  region : Nat
  state : Nat
  sholds : Nat
  xholds : Nat
  pending : Bool
  giving : Bool
  service : Nat
  deriving DecidableEq, Repr

/-- A ring (spec/20 R325): the four written words of its block, its positions and counters; entries claimed and released. -/
structure Ring where
  w0 : W64
  w1 : W64
  w2 : W64
  seq : W64
  written : W64
  claim : W64
  free : W64
  lmsg : W64
  lbyte : W64
  fmsg : W64
  fbyte : W64
  omsg : W64
  obyte : W64
  tmsg : W64
  entries : List (Nat × Nat)
  claimed : List (Nat × Bool)
  deriving DecidableEq, Repr

/-- A landing window (spec/20 R332). -/
structure Window where
  base : W64
  pages : Nat
  en : Bool
  wr : Bool
  rd : Bool
  drops : W64
  deriving DecidableEq, Repr

/-- A submission page (spec/22 R338). -/
structure Page where
  accepts : W64
  rejects : W64
  lastSeq : W64
  sel : W64
  deriving DecidableEq, Repr

/-- The lease of a port (spec/22 R349, R350): its role, its term in microseconds, the clock of its last renewal, and whether the
port has expired with a takeover since a host last wrote its role. -/
structure Lease where
  role : Nat
  term : BitVec 32
  renewed : Nat
  expired : Bool
  deriving DecidableEq, Repr

/-- A TDISP interface of a port in the RUN state (spec/20 R331). -/
structure TdispRun where
  region : Nat
  stream : Nat
  deriving DecidableEq, Repr

/-- A Ream entry after its launch is gone, or of a launch that never ran (spec/22 R341), as its eight words. -/
abbrev ReamEntry := List W64

/-- A loaded object (spec/22 R352): its handle, its address space, its base, code words, entry segments and opcode lists. -/
structure Object where
  handle : W64
  root : Nat
  base : W64
  codeWords : Nat
  entries : List W64
  headers : List W64
  emulate : List Nat
  removed : List Nat
  hasCall : Bool
  frames : List Nat
  pages : Nat
  deriving DecidableEq, Repr

/-- Budgets of a region as read last (spec/02 R21, R360); `restart`: the energy counts start anew at the next read (spec/18
R301). -/
structure Budget where
  region : Nat
  parent : Option Nat
  lines : Nat
  ctx : Nat
  spad : Nat
  deckle : Nat
  energy : Nat
  counts : List Int
  restart : Bool
  deriving DecidableEq, Repr

/-- An interrupt (spec/02 R20, spec/22 R350): the port whose host it went to, or none while no host is active; its region, its event
class, its MSI-X vector. -/
structure Irq where
  port : Option Nat
  region : Nat
  cls : Nat
  vector : Nat
  deriving DecidableEq, Repr

/-- What a host's read was answered with (spec/20 R331, R332): bytes, a Completer Abort, Unsupported Request, or a rejection of a request
outside the bound IDE stream. -/
inductive HostAnswer where
  | data (bytes : List Byte)
  | completerAbort
  | unsupported
  | rejected
  deriving DecidableEq, Repr

/-- The command processor and the registers of the physical function (spec/22 R337 to R349). -/
structure Cp where
  table : AList W64
  go : Bool
  action : BitVec 2
  rgn : BitVec 16
  loadpa : W64
  loadlen : BitVec 32
  loadrgn : BitVec 16
  loadgo : Bool
  loadres : W64
  loadva : W64
  unloadh : W64
  unloadgo : Bool
  reamHead : Nat
  ream : AList ReamEntry
  pages : List ((Nat × Nat) × Page)
  leases : List Lease
  objects : List Object
  nextHandle : Nat
  budgets : List Budget
  queue : List (WarpId × CpStop)
  irqs : List Irq
  deriving DecidableEq, Repr

/-- An allocation a service core can make present (spec/08 R160; log 9): its space's root, first page, pages, leaf bits,
and for a cached object its home, its binding table and slot, and the pages that a store or an atomic has asked for (spec/20 R316). -/
structure Alloc where
  root : Nat
  page : Nat
  pages : Nat
  leaf : W64
  peer : Nat
  peerBase : Nat
  mode : Nat
  space : Nat
  table : W64
  slot : Nat
  exclusive : List Nat
  deriving DecidableEq, Repr

/-- A binding request at a service core (spec/13 R220): the space's page-table root, its table, the slot, the object. -/
structure BindWait where
  space : Nat
  table : W64
  slot : Nat
  home : Nat
  index : Nat
  deriving DecidableEq, Repr

/-- The cause of a failed binding for a warp that the binding parked (spec/13 R220): the word it parked, of a trap context or not, and
the object's home and index. -/
structure BindFail where
  warp : WarpId
  trap : Bool
  pc : WAddr
  home : Nat
  index : Nat
  cause : Cause
  deriving DecidableEq, Repr

/-- A page on its way to local memory (spec/20 R320): its space's root, its first page number, its leaf and where that stands. -/
structure Moving where
  root : Nat
  page : Nat
  pte : W64
  leafAt : Nat
  deriving DecidableEq, Repr

/-- The service cores (spec/22 R351, log 9); `moving` are the migrations under way; `free` holds runs of free frames: the first and how many; `refused` the warps whose
page fault met a refused token: the peer and the region (spec/13 R221). -/
structure Svc where
  running : List Bool
  allocs : List Alloc
  free : List (Nat × Nat)
  binds : List BindWait
  failed : List BindFail
  moves : List (Nat × Nat)
  moving : List Moving
  refused : List (WarpId × Nat × Nat)
  deriving DecidableEq, Repr

/-- A packet of a peer's stream that is applied here and not yet acknowledged (spec/20 R313): its stream and number, the package write of
it, if it writes, whether that is an atomic, what the atomic read, and for a load its address and length. -/
structure Inbound where
  peer : Nat
  die : Nat
  seq : Nat
  write : Option Nat
  atom : Bool
  old : Nat
  pa : Nat
  bytes : Nat
  deriving DecidableEq, Repr

/-- An acknowledgement sent to a peer (spec/20 R313): its stream and number, and the bytes a load or an atomic returns. -/
structure Reply where
  peer : Nat
  die : Nat
  seq : Nat
  bytes : List Byte
  deriving DecidableEq, Repr

/-- The ports, tokens and the fabric (spec/20); `delivered` holds what host reads were answered with; `collIssued` counts the collectives issued by die and tag (R321). -/
structure Fabric where
  sent : List Sent
  nextSeq : List ((Nat × Nat) × Nat)
  seen : List ((Nat × Nat) × Nat)
  lost : List Nat
  cut : List Nat
  links : List Nat
  tokens : List Token
  rings : AList Ring
  keys : List ((Nat × Nat) × List Byte)
  unmatched : List Nat
  windows : List ((Nat × Nat) × Window)
  tdisp : List (Option TdispRun)
  delivered : List HostAnswer
  inbound : List Inbound
  replies : List Reply
  collIssued : List ((Nat × Nat) × Nat)
  deriving DecidableEq, Repr

/-- A transient error to come, an input from outside (log 12): how often the copies of a word in check mode (spec/05 R105) fail to
agree; `late`: the results of an SFU word or a load differ when they return, not what the word sends as it issues. -/
structure Upset where
  fails : Nat
  late : Bool
  deriving DecidableEq, Repr

/-- A soft error in the array of a core while a span is accumulated, an input from outside (spec/17 R286, R287, log 12): what it adds to
the accumulator of an output row and a column, to the weight checksum of a column, or to the activation checksum of a row; rows are
counted within the tile row. -/
inductive ArrayError where
  | element (n m : Nat) (delta : Int)
  | column (m : Nat) (delta : Int)
  | row (n : Nat) (delta : Int)
  deriving DecidableEq, Repr

/-- A bit error in storage under SECDED, an input from outside (spec/22 R356, log 12): one bit, corrected; two bits in a register
the next word reads; in the scratchpad bytes that the next scratchpad read takes; in the 64-bit word that holds a key in a core's L1 or
at a die point; in a kept translation, by its place; in a slot cache; in the Deckle entry that the next view word uses; in what the Felt
holds of a warp. -/
inductive StorageError where
  | corrected
  | register
  | scratchpad
  | l1 (core key : Nat)
  | diePoint (die key : Nat)
  | translation (n : Nat)
  | slotCache
  | deckle
  | felt (w : WarpId)
  deriving DecidableEq, Repr

/-- What the management pair holds of a die whose partition is swapped out (spec/02 R43): in the Felt and in the swap reserve. -/
structure SavedDie where
  die : Nat
  warps : List Warp
  gangs : List Gang
  cores : List CoreState
  deriving DecidableEq, Repr

/-- The management pair (spec/22 R355 to R358, spec/05 R107); `counted` is the clock up to which the Strata count the power-on clocks; `felt` holds what it has saved of the dies in `saved`; `upsets`, `arrays` and `storage` are
the transient errors to come (log 12), those of `arrays` span by span. -/
structure Mgmt where
  powered : Bool
  self : Nat
  hosts : List Nat
  strata : AList Nat
  pendingStrata : AList Nat
  counted : Nat
  hot : List Nat
  clockLow : List Nat
  saved : List Nat
  felt : List SavedDie
  attested : Nat
  owner : Option OwnerKeys
  upsets : List Upset
  arrays : List (List ArrayError)
  storage : List StorageError
  deriving DecidableEq, Repr

/-- The whole machine. `warp`, `gang` and `launch` are those of the warp that issues next; the lists hold the others. -/
structure State where
  clock : Nat
  freeCtr : Nat
  agenda : List Instr
  warp : Warp
  gang : Gang
  launch : Launch
  warps : List Warp
  gangs : List Gang
  launches : List Launch
  cores : List CoreState
  mem : Mem
  engines : List EngOp
  fabric : Fabric
  cp : Cp
  svc : Svc
  mgmt : Mgmt
  nextOp : Nat
  deriving DecidableEq, Repr

/-! ### After a cold reset -/

/-- A g register that is not live (spec/05 R93; its bytes log 2). -/
def GReg.dead : GReg := { val := Vector.replicate 32 0, live := 0, resident := true }

/-- A view register at birth (spec/15 R239). -/
def View.zero : View := Vector.replicate 8 0

/-- An empty header (log 2). -/
def Header.zero : Header := { length := 0, wait := 0, raiseA := 15, raiseB := 15, energy := 0, z := 0 }

/-- A trap frame at birth (spec/10 R195). -/
def Frame.zero : Frame :=
  { cause := 0, kind := 0, valid := false, trapIdx := 0, fpc := 0, run := 0, lanes := 0, addr := 0, word := 0, busyCf := 0,
    info := 0 }

/-- A context before any birth (spec/05 R93, spec/02 R30; log 2). -/
def Ctx.zero : Ctx :=
  { pcs := Vector.replicate 32 0, mv := 0, meet := Vector.replicate 32 0, preds := Vector.replicate 7 0, active := 0,
    exited := 0, g := Vector.replicate 96 GReg.dead, k := Vector.replicate 24 0, views := Vector.replicate 16 View.zero,
    viewDefs := Vector.replicate 16 0,
    passed := Vector.replicate 32 0, cf := Vector.replicate 12 0, spFlags := [], ol := 0, os := 0, sp := 0, segh := 0,
    seg := Header.zero, inSeg := false, midSeg := false, npc := 0, blocks := [], haz := [], csp := 0,
    fpst := Vector.replicate 32 0, mst := 0, mrow := 0, nbv := 0, deadread := false, ops := [], vrets := 0, wait := .none,
    met := false, ctxp := 0, suspended := [], frame := Frame.zero }

/-- No warp: an unborn one of no launch (log 2). -/
def Warp.zero : Warp :=
  { id := { seq := 0, gang := 0, wid := 0 }, state := .unborn, res := false, ctx := Ctx.zero, trap := none, held := none,
    preempt := false, stopped := none, slot := 0, hasSlot := false, callSlot := none, core := 0, pair := 0, actSlot := 0,
    skip := 0, lastIssue := 0, parkedAt := 0, check := false, emitted := 0, yielded := false, reviews := [],
    fromSlots := [], badEntry := none, evicting := none, leaving := false }

/-- A barrier register at a gang's birth (spec/08 R171). -/
def Bar.zero : Bar := { phase := false, ann := false, members := 0, pending := 0, balance := 0, arrived := false }

/-- A timeline counter at a gang's birth (spec/01 R16). -/
def Timeline.zero : Timeline := { value := 0, issued := 0, done := [] }

/-- A gang with nothing allocated (spec/02 R28). -/
def Gang.zero : Gang :=
  { id := { seq := 0, gang := 0 }, core := 0, spilled := false, born := false, spadSize := 0, tagSize := 0, spad := [],
    full := [], tags := [], bars := Vector.replicate 16 Bar.zero, tc := Vector.replicate 4 Timeline.zero, spillSlots := [],
    keepDie := false, spoilt := [] }

/-- Effective values before any launch (log 2). -/
def Eff.zero : Eff :=
  { prio := 0, faultDom := 0, resetScope := 0, qos := 0, check := false, nbv := 0, irq := 0, ptRoot := 0, bindTable := 0,
    trapEntry := 0, trapPool := 0, trapCount := 0, keyBase := 0, keyCount := 0, ctxPool := 0 }

/-- The identity companding table (spec/02 R23): base 8j, slope 1. -/
def identityTable : List (Nat × Nat) := (List.range 16).map fun j => (8 * j, 1)

/-- A tile row of which nothing has been done. -/
def RowWork.zero : RowWork :=
  { span := 0, again := false, out := none, status := 0, weights := none, acts := none, rowScales := none, colScales := none,
    bad := false, written := false }

/-- No launch (log 2). -/
def Launch.zero : Launch :=
  { seq := 0, region := 0, warps := 0, replayable := false, contOk := false, checkOn := false, gbars := 0, object := 0,
    entry := 0, gangs := 0, argp := 0, spad := 0, tags := 0, ctab := 0, slots := List.replicate 8 0, spans := [], waits := [],
    record := [], eff := Eff.zero, compand := List.replicate 8 identityTable, codeBase := 0, hasCall := false,
    state := .accepted, replays := 0, rpl := false, src := 0, reason := 0, cause := 0, info := 0, handed := 0, contCount := 0,
    staged := [], stageSlot := 0, stageUsed := 0,
    retiredWarps := [], arrivals := [], reserved := 0, snapshots := [], snapFailed := false, absent := [], marked := [] }

/-- A core after reset: an empty Deckle and active set. -/
def CoreState.zero : CoreState :=
  { deckle := [], last := [], lastAt := [], withdrawn := false, mismatches := [] }

/-- Memory after reset: nothing listed (log 1), no write in flight, every count zero. -/
def Mem.zero : Mem :=
  { home := [], cached := [], order := [], die := [], l1 := [], clocks := List.replicate 16 (List.replicate 16 0),
    issued := List.replicate 16 0, writes := [], nextWrite := 0, tlb := [], poison := [], migration := [], sealed := [] }

/-- A lease after a cold reset (spec/22 R349): no role, a term of 1,000,000 microseconds. -/
def Lease.zero : Lease := { role := 0, term := 1000000, renewed := 0, expired := false }

/-- The command processor after a cold reset (spec/22 R337, R342). -/
def Cp.zero : Cp :=
  { table := [], go := false, action := 0, rgn := 0, loadpa := 0, loadlen := 0, loadrgn := 0, loadgo := false, loadres := 0,
    loadva := 0, unloadh := 0, unloadgo := false, reamHead := 1, ream := [], pages := [], leases := [Lease.zero, Lease.zero],
    objects := [], nextHandle := 1, budgets := [], queue := [], irqs := [] }

/-- The service cores before bring-up (spec/22 R358). -/
def Svc.zero : Svc :=
  { running := List.replicate 32 false, allocs := [], free := [], binds := [], failed := [], moves := [], moving := [], refused := [] }

/-- The fabric and the ports after a cold reset. -/
def Fabric.zero : Fabric :=
  { sent := [], nextSeq := [], seen := [], lost := [], cut := [], links := List.range 32, tokens := [], rings := [],
    keys := [], unmatched := List.replicate 12 0, windows := [], tdisp := [none, none], delivered := [], inbound := [], replies := [],
    collIssued := [] }

/-- The management pair before power-on (spec/22 R358): the counts of the Strata survive every reset (log 2). -/
def Mgmt.zero : Mgmt :=
  { powered := false, self := 0, hosts := [0xC0000, 0xC0001], strata := [], pendingStrata := [], counted := 0, hot := [], clockLow := [],
    saved := [], felt := [], attested := 0, owner := none, upsets := [], arrays := [], storage := [] }

/-- The machine right after a cold reset: nothing born, nothing listed in memory, no region, no object. -/
def State.reset : State :=
  { clock := 0, freeCtr := 0, agenda := [], warp := Warp.zero, gang := Gang.zero, launch := Launch.zero, warps := [],
    gangs := [], launches := [], cores := List.replicate 384 CoreState.zero, mem := Mem.zero, engines := [],
    fabric := Fabric.zero, cp := Cp.zero, svc := Svc.zero, mgmt := Mgmt.zero, nextOp := 0 }

end Sys2Proof.Machine
end

