-- ==== Sys2Proof/Machine/Operands.lean ====
section
/-! DEFINITION. The registers of the issuing context as operands: reading them (spec/05 R89, R95, R96, spec/04 R70), their
last-read bits, and writing them (R90, R94), with the result every word hands back. -/

namespace Sys2Proof.Machine

/-- A cause a word raises: the lanes that raised it, its address, its detail (spec/10 R195). -/
structure Raised where
  cause : Cause
  lanes : Mask
  addr : W64
  info : W64
  deriving DecidableEq, Repr

/-- What the effect of a word comes to. -/
inductive Res where
  /-- The word is done; the warp goes on to the next word. -/
  | done (s : State)
  /-- The word is done and has set where the warp goes on itself. -/
  | went (s : State)
  /-- The word raises a cause; nothing else of it happens. -/
  | raise (s : State) (r : Raised)
  /-- The word waits and issues again. -/
  | hold (s : State) (w : WaitFor)
  /-- The machine stops. -/
  | stop (f : Fault)
  deriving DecidableEq, Repr

/-- A cause without address or detail. -/
def raiseAt (s : State) (c : Cause) (lanes : Mask) : Res := .raise s { cause := c, lanes := lanes, addr := 0, info := 0 }

/-- The issuing context changed. -/
def modCtx (s : State) (f : Ctx → Ctx) : State := { s with warp := { s.warp with ctx := f s.warp.ctx } }

/-- The issuing context. -/
abbrev ctxOf (s : State) : Ctx := s.warp.ctx

/-- A g register by number; past g95 a dead one. -/
def gAt (c : Ctx) (n : Nat) : GReg := if h : n < 96 then c.g[n] else GReg.dead

/-- A g register replaced. -/
def setGReg (c : Ctx) (n : Nat) (r : GReg) : Ctx := if h : n < 96 then { c with g := c.g.set n r } else c

/-- A k register by number. -/
def kAt (c : Ctx) (n : Nat) : W64 := if h : n < 24 then c.k[n] else 0

/-- A k register replaced. -/
def setKReg (c : Ctx) (n : Nat) (x : W64) : Ctx := if h : n < 24 then { c with k := c.k.set n x } else c

/-- A predicate's threads; p7 reads true (R91). -/
def predMask (c : Ctx) (n : Nat) : Mask := if h : n < 7 then c.preds[n] else allLanes

/-- A predicate written in the threads of a mask; a write to p7 is discarded (R91). -/
def setPredMask (c : Ctx) (n : Nat) (run v : Mask) : Ctx :=
  if h : n < 7 then { c with preds := c.preds.set n ((c.preds[n] &&& ~~~run) ||| (v &&& run)) } else c

/-- A code for each register, for the free choices. -/
def regCode : Reg → Nat
  | .g n => n
  | .k n => 96 + n
  | .p n => 128 + n

/-- The newest open result of a register in a lane. -/
def hazAt (c : Ctx) (r : Reg) (l : Nat) : Option Haz := c.haz.find? fun z => decide (z.reg = r) && bitAt z.lanes l

/-- The lanes that see the new value when a register is read too early (R70, log 7). -/
def earlyMask (s : State) (r : Reg) : Mask := Config.earlyLanes (s.freeCtr * 256 + regCode r)

/-- The registers a destination spans. -/
def dstRegs (d : Dst) : List Reg :=
  match d.reg with
  | .g n => (List.range d.count).map fun i => .g (n + i)
  | .k n => [.k n]
  | .p n => [.p n]

/-- Whether a value is the same in every lane of a mask (R90). -/
def uniform (run : Mask) (f : Nat → Nat) : Bool := (lanesIn run).all fun l => decide (f l = f (lowLane run))

/-- Whether a write is still to be performed: one with no number until its home and its own die have applied it (spec/20 R312), a
package-scope write until every die has (R310). -/
def PkgWrite.pending (w : PkgWrite) : Bool := !(decide (w.seq = 0) && w.home && bitAt w.applied w.die)

/-- Whether a write of an operation is still to be performed. -/
def opWriting (s : State) (op : Nat) : Bool := s.mem.writes.any fun w => w.op == some op && w.pending

/-- What an operation in flight will write to a register in a lane, where it is known before it lands: a result computed at
issue, or the value an access already performed has fixed; none while the access is still to be performed, at its home or at a
peer. A k register keeps its value where the lanes differ (R90). -/
def comingValue (s : State) (op : Nat) (r : Reg) (l : Nat) : Option W64 :=
  let part (o : Op) (vals : Lanes Nat) (one : Bool) : Option W64 :=
    match o.dsts.find? fun d => (dstRegs d).contains r with
    | none => none
    | some d =>
      match r with
      | .g _ => some ((BitVec.ofNat 32 (lane vals l / 2 ^ (32 * (d.part + (dstRegs d).idxOf r)))).setWidth 64)
      | .k n => some (if one || uniform o.run (lane vals) then BitVec.ofNat 64 (lane vals (lowLane o.run)) else kAt (ctxOf s) n)
      | .p _ => some (BitVec.ofNat 64 (lane vals l % 2))
  match (ctxOf s).ops.find? fun o => decide (o.id = op) with
  | none => none
  | some o =>
    match o.kind with
    | .result vals _ => part o vals false
    | .memory fn _ _ accs vals _ =>
      let open_ := (accs.any fun a => decide (a.lane = l) || (match r with | .k _ => true | .g _ | .p _ => false)) ||
        opWriting s op || s.fabric.sent.any fun p => p.op == some op
      if open_ then none else part o vals (decide (fn = .load))
    | .viewRetire .. | .ringClaim .. | .ringRelease .. | .keySet .. | .evict .. => none

/-- A register's value in a lane, given what it holds now: while a result is open, the old or the new value, the old one as long
as the new one is not fixed (R70, log 7). -/
def earlyOr (s : State) (r : Reg) (l : Nat) (now : W64) : W64 :=
  match hazAt (ctxOf s) r l with
  | none => now
  | some z =>
    if bitAt (earlyMask s r) l then
      (match z.op with
       | none => now
       | some op => (comingValue s op r l).getD (lane z.old l))
    else lane z.old l

/-- A g register's value in a lane: a lane that is not live reads 0 (R96). -/
def readG (s : State) (n l : Nat) : W32 :=
  let r := gAt (ctxOf s) n
  (earlyOr s (.g n) l (if bitAt r.live l then (lane r.val l).setWidth 64 else 0)).setWidth 32

/-- A k register's value as a lane reads it. -/
def readK (s : State) (n l : Nat) : W64 := earlyOr s (.k n) l (kAt (ctxOf s) n)

/-- A predicate as a thread reads it. -/
def readP (s : State) (n l : Nat) : Bool :=
  bitAt (earlyOr s (.p n) l (if bitAt (predMask (ctxOf s) n) l then 1 else 0)) 0

/-- `tid` (R89). -/
def tidOf (s : State) (l : Nat) : Nat := s.warp.id.wid * 32 + l

/-- A 32-bit source (R89, R109). -/
def read32 (s : State) (r : BitVec 7) (l : Nat) : W32 :=
  let n := r.toNat
  if n < 96 then readG s n l
  else if n < 120 then lo32 (readK s (n - 96) l)
  else if n = 121 then BitVec.ofNat 32 l
  else if n = 122 then BitVec.ofNat 32 (tidOf s l)
  else if n = 123 then BitVec.ofNat 32 s.warp.id.gang
  else if n = 124 then BitVec.ofNat 32 s.warp.id.wid
  else if n = 125 then lo32 s.launch.argp
  else if n = 126 then lo32 (ctxOf s).ctxp
  else 0

/-- A 64-bit source: a g pair, a k register, `argp`, `ctxp`, or a 32-bit special register zero-extended (R109). -/
def read64 (s : State) (r : BitVec 7) (l : Nat) : W64 :=
  let n := r.toNat
  if n < 96 then join32 (readG s n l) (readG s (n + 1) l)
  else if n < 120 then readK s (n - 96) l
  else if n = 125 then s.launch.argp
  else if n = 126 then (ctxOf s).ctxp
  else (read32 s r l).setWidth 64

/-- A 128-bit source: a quad, or `zero`. -/
def read128 (s : State) (r : BitVec 7) (l : Nat) : Nat :=
  let n := r.toNat
  if n < 96 then (join32 (readG s n l) (readG s (n + 1) l)).toNat + 2 ^ 64 * (join32 (readG s (n + 2) l) (readG s (n + 3) l)).toNat
  else 0

/-- A source of 32, 64 or 128 bits as a number. -/
def readNat (s : State) (width : Nat) (r : BitVec 7) (l : Nat) : Nat :=
  if width = 128 then read128 s r l else if width = 64 then (read64 s r l).toNat else (read32 s r l).toNat

/-- One source a word reads: its field, its width in bits, its last-read bit. -/
structure Use where
  reg : BitVec 7
  width : Nat
  last : Bool
  deriving DecidableEq, Repr

/-- The g registers a source spans. -/
def useRegs (u : Use) : List Nat :=
  if isG u.reg then (List.range (u.width / 32)).map fun i => u.reg.toNat + i else []

/-- The state registers a source reads. -/
def useNames (u : Use) : List Reg :=
  if isG u.reg then (useRegs u).map .g else if isK u.reg then [.k (u.reg.toNat - 96)] else []

/-- The lanes of an open result that an early read sees as the result: where it is fixed, of those that see the new value (R70, log 7). -/
def newLanes (s : State) (z : Haz) : Mask :=
  earlyMask s z.reg &&& maskOf fun l => match z.op with
    | none => true
    | some op => (comingValue s op z.reg l).isSome

/-- The lanes in which a g register reads as live, early reads counted (R70, R96). -/
def seenLive (s : State) (n : Nat) : Mask :=
  (ctxOf s).haz.foldr (fun z m =>
    if z.reg = .g n then (m &&& ~~~z.lanes) ||| (z.lanes &&& ((newLanes s z &&& m) ||| (~~~(newLanes s z) &&& z.oldLive))) else m)
    (gAt (ctxOf s) n).live

/-- Whether some source reads a dead lane (R96). -/
def readsDead (s : State) (run : Mask) (us : List Use) : Bool :=
  us.any fun u => (useRegs u).any fun n => decide (run &&& ~~~(seenLive s n) ≠ 0)

/-- Whether some source is read too early in a running lane (R70). -/
def readsEarly (s : State) (run : Mask) (names : List Reg) : Bool :=
  (ctxOf s).haz.any fun z => names.contains z.reg && decide (z.lanes &&& run ≠ 0)

/-- A source register that is live and not in the register file (R97). -/
def missing (s : State) (us : List Use) : Option Nat :=
  (us.flatMap useRegs).find? fun n => decide ((gAt (ctxOf s) n).live ≠ 0) && !(gAt (ctxOf s) n).resident

/-- The lanes of the running threads taken out of a register's lane-live mask (R95). -/
def killG (run : Mask) (c : Ctx) (n : Nat) : Ctx :=
  setGReg c n { gAt c n with live := (gAt c n).live &&& ~~~run }

/-- The free-value counter moved on when a choice was taken. -/
def bumpFree (b : Bool) (s : State) : State := if b then { s with freeCtr := s.freeCtr + 1 } else s

/-- DEADREAD set (R96). -/
def noteDead (b : Bool) (s : State) : State := if b then modCtx s fun c => { c with deadread := true } else s

/-- What reading leaves behind: DEADREAD, the free-value counter, and the last-read lanes freed (R70, R95, R96). -/
def afterReads (s : State) (run : Mask) (us : List Use) : State :=
  let s1 := noteDead (readsDead s run us) (bumpFree (readsEarly s run (us.flatMap useNames)) s)
  modCtx s1 fun c => ((us.filter (·.last)).flatMap useRegs).foldl (killG run) c

/-- A predicate read by a word noted (R70). -/
def afterPred (s : State) (run : Mask) (p : Nat) : State := bumpFree (readsEarly s run [.p p]) s

/-! ### Writing -/

/-- The lanes of a write taken from every older claim on the register (R94: the later write in program order wins). -/
def stripHaz (r : Reg) (lanes : Mask) (hs : List Haz) : List Haz :=
  (hs.map fun z => if z.reg = r then { z with lanes := z.lanes &&& ~~~lanes } else z).filter fun z => z.lanes != 0

/-- A later write taken from an operation's destinations. A destination of several registers keeps its lanes: each of its
registers is stripped on its own. -/
def stripDst (r : Reg) (lanes : Mask) (ds : List Dst) : List Dst :=
  ds.flatMap fun d =>
    if (dstRegs d).contains r then
      (dstRegs d).zipIdx.map fun x =>
        { reg := x.1, count := 1, lanes := if x.1 = r then d.lanes &&& ~~~lanes else d.lanes, part := d.part + x.2 }
    else [d]

/-- A later write taken from the operations in flight. -/
def stripOps (r : Reg) (lanes : Mask) (ops : List Op) : List Op := ops.map fun o => { o with dsts := stripDst r lanes o.dsts }

/-- The old value of a register in every lane, and where it was live. -/
def oldOf (c : Ctx) (r : Reg) : Lanes W64 × Mask :=
  match r with
  | .g n => (lanesOf fun l => if bitAt (gAt c n).live l then (lane (gAt c n).val l).setWidth 64 else 0, (gAt c n).live)
  | .k n => (lanesOf fun _ => kAt c n, allLanes)
  | .p n => (lanesOf fun l => if bitAt (predMask c n) l then 1 else 0, allLanes)

/-- A result claimed on a register in the lanes of a mask: older claims are stripped, and the new one is open for `left`
clocks of distance or until its operation lands (R68 to R70, R94). `c0` is the context before the word, which gives the old value. -/
def claim (c0 : Ctx) (r : Reg) (run : Mask) (left : Nat) (op : Option Nat) (c : Ctx) : Ctx :=
  let old := oldOf c0 r
  { c with
    haz := { reg := r, lanes := run, old := old.1, oldLive := old.2, left := left, op := op } :: stripHaz r run c.haz,
    ops := stripOps r run c.ops }

/-- A g register's lanes written and made live in the threads of a mask: in the fresh line another live lane keeps its value, and
a lane that is not live is 0 (R94). -/
def storeG (n : Nat) (run : Mask) (f : Nat → W32) (c : Ctx) : Ctx :=
  let r := gAt c n
  setGReg c n
    { val := lanesOf fun l => if bitAt run l then f l else if bitAt r.live l then lane r.val l else 0,
      live := r.live ||| run, resident := true }

/-- A fixed-latency result written to a g register. -/
def writeG (c0 : Ctx) (n : Nat) (run : Mask) (sep : Nat) (f : Nat → W32) (c : Ctx) : Ctx :=
  storeG n run f (claim c0 (.g n) run sep none c)

/-- A fixed-latency result written to a k register. -/
def writeK (n : Nat) (sep : Nat) (x : W64) (c : Ctx) : Ctx := setKReg (claim c (.k n) allLanes sep none c) n x

/-- A fixed-latency result written to a predicate. -/
def writeP (n : Nat) (run : Mask) (sep : Nat) (f : Nat → Bool) (c : Ctx) : Ctx :=
  if n < 7 then setPredMask (claim c (.p n) run sep none c) n run (maskOf f) else c

/-- A value widened to a k register: sign-extended for a 32-bit signed type, else zero-extended (R89). -/
def kExtend (is64 signed : Bool) (v : Nat) : W64 :=
  if is64 then BitVec.ofNat 64 v else if signed then w64 (sext 32 v) else BitVec.ofNat 64 (v % 2 ^ 32)

/-- The budget of a region, if a launch of it has started (R21, R360). -/
def budgetOf (s : State) (region : Nat) : Option Budget := s.cp.budgets.find? fun b => decide (b.region = region)

/-- The budgets on the path from a region to its root (R21); the tree is at most 8 levels deep. -/
def budgetPath (s : State) (region : Nat) : Nat → List Budget
  | 0 => []
  | n + 1 =>
    match budgetOf s region with
    | none => []
    | some b => b :: (match b.parent with | some p => budgetPath s p n | none => [])

/-- Every warp but the issuing one, and the launch of one. -/
def launchOf (s : State) (seq : Nat) : Option Launch :=
  if s.launch.seq = seq then some s.launch else s.launches.find? fun l => decide (l.seq = seq)

/-- The resident lines of a context. -/
def contextLines (c : Ctx) : Nat := (c.g.toList.filter fun r => decide (r.live ≠ 0) && r.resident).length

/-- The lines a warp holds: of its context, and in trap mode of the interrupted one too (spec/10 R193). -/
def warpLines (w : Warp) : Nat :=
  contextLines w.ctx + (match w.trap with | some t => contextLines t.intr | none => 0)

/-- Whether a warp lies under a region of the tree. -/
def underRegion (s : State) (region : Nat) (w : Warp) : Bool :=
  match launchOf s w.id.seq with
  | some l => (budgetPath s l.region 8).any fun b => decide (b.region = region)
  | none => false

/-- The lines that the warps of a kind hold on a core (R21). -/
def heldLines (s : State) (core : Nat) (p : Warp → Bool) : Nat :=
  (((s.warp :: s.warps).filter fun w => decide (w.core = core) && p w).map warpLines).sum

/-- Whether a core has more lines for a region: of its own (spec/01 R8), and within every budget on the path (R21). -/
def roomOn (s : State) (core region count : Nat) : Bool :=
  decide (heldLines s core (fun _ => true) + count ≤ Config.coreLines) &&
    (budgetPath s region 8).all fun b => decide (heldLines s core (underRegion s b.region) + count ≤ b.lines)

/-- Whether fresh lines can be had for the issuing warp as they stand (R97); a word that takes none needs no room. -/
def lineRoom (s : State) (count : Nat) : Bool := decide (count = 0) || roomOn s s.warp.core s.launch.region count

/-- The g registers a destination field of a width spans. -/
def dstLines (d : BitVec 7) (width : Nat) : Nat := if isG d then width / 32 else 0

/-- A fixed-latency result of 32 or 64 bits put into a destination (R89, R90, R94, R97). `s0` is the state before the word,
`s` the state after its reads. -/
def putReg (s0 s : State) (run : Mask) (d : BitVec 7) (is64 signed : Bool) (sep : Nat) (f : Nat → Nat) : Res :=
  let n := d.toNat
  if isG d then
    if lineRoom s (dstLines d (if is64 then 64 else 32)) then
      .done (modCtx s fun c =>
        if is64 then writeG (ctxOf s0) (n + 1) run sep (fun l => BitVec.ofNat 32 (f l / 2 ^ 32))
            (writeG (ctxOf s0) n run sep (fun l => BitVec.ofNat 32 (f l)) c)
        else writeG (ctxOf s0) n run sep (fun l => BitVec.ofNat 32 (f l)) c)
    else .hold s0 .lineBudget
  else if isK d then
    if uniform run f then .done (modCtx s (writeK (n - 96) sep (kExtend is64 signed (f (lowLane run)))))
    else raiseAt s0 .nonuniformOperand run
  else .done s

/-- A predicate result put into a predicate field. -/
def putPred (s : State) (run : Mask) (p : Nat) (sep : Nat) (f : Nat → Bool) : Res := .done (modCtx s (writeP p run sep f))

/-- The destination of a result that lands later; none for `zero`. -/
def laterDst (d : BitVec 7) (width : Nat) (run : Mask) : List Dst :=
  if isG d then [{ reg := .g d.toNat, count := width / 32, lanes := run, part := 0 }]
  else if isK d then [{ reg := .k (d.toNat - 96), count := 1, lanes := run, part := 0 }]
  else []

/-- A register claimed for a result that lands later: a g register is live from the word's issue on (R94). -/
def claimLater (c0 : Ctx) (op : Nat) (run : Mask) (r : Reg) (c : Ctx) : Ctx :=
  match r with
  | .g n =>
    let c1 := claim c0 (.g n) run 0 (some op) c
    storeG n run (fun l => if bitAt (gAt c n).live l then lane (gAt c n).val l else 0) c1
  | .k n => claim c0 (.k n) allLanes 0 (some op) c
  | .p n => claim c0 (.p n) run 0 (some op) c

end Sys2Proof.Machine
end

