-- ==== Sys2Proof/Machine/Flags.lean ====
section
/-! DEFINITION. The conditions of compares (spec/03 R52) and the sticky flags of floating point (spec/07 R135). -/

namespace Sys2Proof.Machine

/-- The five sticky flags of a thread: 4 NV, 3 DZ, 2 OF, 1 UF, 0 NX (R92, R135). -/
abbrev FpFlags := BitVec 5

/-- Invalid operation. -/
def flNV : FpFlags := 0x10
/-- Division by zero. -/
def flDZ : FpFlags := 0x08
/-- Overflow. -/
def flOF : FpFlags := 0x04
/-- Underflow. -/
def flUF : FpFlags := 0x02
/-- Inexact. -/
def flNX : FpFlags := 0x01

/-- A flag when a condition holds. -/
def flagIf (b : Bool) (x : FpFlags) : FpFlags := if b then x else 0

/-- The integer conditions 0 to 5: EQ NE LT LE GT GE (R52). -/
def intCond (code : Nat) (a b : Int) : Bool :=
  match code with
  | 0 => decide (a = b)
  | 1 => decide (a ≠ b)
  | 2 => decide (a < b)
  | 3 => decide (a ≤ b)
  | 4 => decide (a > b)
  | 5 => decide (a ≥ b)
  | _ => false

/-- The floating-point conditions 0 to 13 (R52), from whether an operand is a NaN and from how the values compare: `lt`,
`eq` of two numbers. Conditions 0 to 5 are ordered, 6 NUM, 7 NAN, 8 to 13 unordered or the relation. -/
def floatCond (code : Nat) (nan lt eq : Bool) : Bool :=
  let rel (k : Nat) : Bool :=
    match k with
    | 0 => eq
    | 1 => !eq
    | 2 => lt
    | 3 => lt || eq
    | 4 => !lt && !eq
    | _ => !lt
  if code < 6 then !nan && rel code
  else if code = 6 then !nan
  else if code = 7 then nan
  else nan || rel (code - 8)

/-- The sticky flags of the running threads raised (R135). -/
def raiseFp (run : Mask) (f : Nat → FpFlags) (c : Ctx) : Ctx :=
  { c with fpst := lanesOf fun l => if bitAt run l then lane c.fpst l ||| f l else lane c.fpst l }

end Sys2Proof.Machine
end

