-- ==== Sys2Proof/Machine/Soft.lean ====
section
/-! DEFINITION. Floating-point arithmetic (spec/07 R132 to R137): values as exact dyadic numbers, computed exactly and
rounded once. -/

namespace Sys2Proof.Machine

/-- A binary format: exponent bits and fraction bits (R132). -/
structure Fmt where
  exp : Nat
  frac : Nat
  deriving DecidableEq, Repr

/-- binary32. -/
def fmt32 : Fmt := { exp := 8, frac := 23 }
/-- binary64. -/
def fmt64 : Fmt := { exp := 11, frac := 52 }
/-- binary16. -/
def fmt16 : Fmt := { exp := 5, frac := 10 }
/-- BF16. -/
def fmtB16 : Fmt := { exp := 8, frac := 7 }

/-- The bias of a format. -/
def biasOf (f : Fmt) : Nat := 2 ^ (f.exp - 1) - 1
/-- The all-ones exponent field. -/
def expMax (f : Fmt) : Nat := 2 ^ f.exp - 1
/-- The bits of +infinity. -/
def infBits (f : Fmt) : Nat := expMax f * 2 ^ f.frac
/-- The bits of the largest finite value. -/
def maxBits (f : Fmt) : Nat := infBits f - 1
/-- The sign bit's weight. -/
def signBit (f : Fmt) : Nat := 2 ^ (f.exp + f.frac)
/-- The canonical NaN (R132). -/
def nanBits (f : Fmt) : Nat := infBits f + 2 ^ (f.frac - 1)
/-- The least normal exponent. -/
def minExp (f : Fmt) : Int := 1 - (biasOf f : Int)

/-- A value: a NaN (signalling or not), an infinity, or the finite number (-1)^neg x m x 2^e. -/
inductive Fp where
  | nan (signalling : Bool)
  | inf (neg : Bool)
  | fin (neg : Bool) (m : Nat) (e : Int)
  deriving DecidableEq, Repr

/-- The value of a bit pattern (R133). -/
def unpackFp (f : Fmt) (bits : Nat) : Fp :=
  let neg := bits.testBit (f.exp + f.frac)
  let e := bits / 2 ^ f.frac % 2 ^ f.exp
  let m := bits % 2 ^ f.frac
  if e = expMax f then (if m = 0 then .inf neg else .nan (!bits.testBit (f.frac - 1)))
  else if e = 0 then .fin neg m (minExp f - f.frac)
  else .fin neg (m + 2 ^ f.frac) ((e : Int) - biasOf f - f.frac)

/-- Bits with a sign. -/
def withSign (f : Fmt) (neg : Bool) (mag : Nat) : Nat := mag + if neg then signBit f else 0

/-- A magnitude m x 2^e rounded to a multiple of 2^q by a mode (0 RNE, 1 RZ, 2 RD, 3 RU): the multiple, and whether it is
inexact. -/
def roundAt (rnd : Nat) (neg : Bool) (m : Nat) (e q : Int) : Nat × Bool :=
  if q ≤ e then (m * 2 ^ (e - q).toNat, false)
  else
    let k := (q - e).toNat
    let lo := m / 2 ^ k
    let rem := m % 2 ^ k
    let up : Bool :=
      match rnd with
      | 0 => decide (2 ^ k < 2 * rem) || (decide (2 * rem = 2 ^ k) && decide (lo % 2 = 1))
      | 1 => false
      | 2 => neg && decide (rem ≠ 0)
      | _ => !neg && decide (rem ≠ 0)
    (lo + if up then 1 else 0, decide (rem ≠ 0))

/-- The exponent of the leading bit of m x 2^e, for m > 0. -/
def leadExp (m : Nat) (e : Int) : Int := (Nat.log2 m : Int) + e

/-- A finite nonzero magnitude rounded to a format (R134, R135): the bits and the flags. Tininess is found after rounding. -/
def roundFin (f : Fmt) (rnd : Nat) (neg : Bool) (m : Nat) (e : Int) : Nat × FpFlags :=
  let top := leadExp m e
  let q := max top (minExp f) - f.frac
  let r := roundAt rnd neg m e q
  let mag := ((q + f.frac + biasOf f - 1).toNat) * 2 ^ f.frac + r.1
  if infBits f ≤ mag then
    let inf := rnd == 0 || (rnd == 2 && neg) || (rnd == 3 && !neg)
    (withSign f neg (if inf then infBits f else maxBits f), flOF ||| flNX)
  else
    let free := roundAt rnd neg m e (top - f.frac)
    let tiny := decide (top < minExp f) && !(decide (top = minExp f - 1) && decide (free.1 = 2 ^ (f.frac + 1)))
    (withSign f neg mag, flagIf r.2 flNX ||| flagIf (r.2 && tiny) flUF)

/-- A result: bits and flags. -/
abbrev FpRes := Nat × FpFlags

/-- A value rounded to a format; a NaN is canonical (R133). -/
def packFp (f : Fmt) (rnd : Nat) : Fp → FpRes
  | .nan _ => (nanBits f, 0)
  | .inf neg => (withSign f neg (infBits f), 0)
  | .fin neg m e => if m = 0 then (withSign f neg 0, 0) else roundFin f rnd neg m e

/-- The canonical NaN with NV. -/
def invalid (f : Fmt) : FpRes := (nanBits f, flNV)

/-- Whether a value is a NaN. -/
def isNan : Fp → Bool
  | .nan _ => true
  | .inf _ | .fin .. => false

/-- Whether a value is a signalling NaN. -/
def isSnan : Fp → Bool
  | .nan s => s
  | .inf _ | .fin .. => false

/-- The canonical NaN of an operation with a NaN operand: NV for a signalling one (R135). -/
def nanOf (f : Fmt) (xs : List Fp) : FpRes := (nanBits f, flagIf (xs.any isSnan) flNV)

/-- A finite value as a signed integer at an exponent not above its own. -/
def toScale (neg : Bool) (m : Nat) (e q : Int) : Int := (if neg then -1 else 1) * (m * 2 ^ (e - q).toNat : Nat)

/-- The sign of an exact zero sum (R134): the operands' own when they agree, else + and - under RD. -/
def zeroSign (rnd : Nat) (signs : List Bool) : Bool :=
  if signs.all id then true else if signs.all (!·) then false else rnd == 2

/-- A sum of values formed exactly and rounded once. Infinities of both signs are invalid. -/
def sumFp (f : Fmt) (rnd : Nat) (xs : List Fp) : FpRes :=
  let infs := xs.filterMap fun x => match x with | .inf n => some n | _ => none
  if infs.any id && infs.any (!·) then invalid f
  else match infs with
    | n :: _ => (withSign f n (infBits f), 0)
    | [] =>
      let fins := xs.filterMap fun x => match x with | .fin n m e => some (n, m, e) | _ => none
      let q := fins.foldl (fun q t => min q t.2.2) ((fins.map (·.2.2)).headD 0)
      let total := fins.foldl (fun acc t => acc + toScale t.1 t.2.1 t.2.2 q) (0 : Int)
      if total = 0 then (withSign f (zeroSign rnd (fins.map (·.1))) 0, 0)
      else roundFin f rnd (decide (total < 0)) total.natAbs q

/-- An exact product; none when it is 0 times infinity. The operands are no NaNs. -/
def prodFp (x y : Fp) : Option Fp :=
  match x, y with
  | .fin a m e, .fin b n g => some (.fin (a != b) (m * n) (e + g))
  | .inf a, .inf b => some (.inf (a != b))
  | .inf a, .fin b n _ => if n = 0 then none else some (.inf (a != b))
  | .fin a m _, .inf b => if m = 0 then none else some (.inf (a != b))
  | .nan s, _ => some (.nan s)
  | _, .nan s => some (.nan s)

/-- The negation of a bit pattern (R136). -/
def negBits (f : Fmt) (neg : Bool) (bits : Nat) : Nat := if neg then bits ^^^ signBit f else bits

/-- a + b. -/
def addFp (f : Fmt) (rnd : Nat) (a b : Fp) : FpRes :=
  if isNan a || isNan b then nanOf f [a, b] else sumFp f rnd [a, b]

/-- The negated value. -/
def negFp : Fp → Fp
  | .nan s => .nan s
  | .inf n => .inf (!n)
  | .fin n m e => .fin (!n) m e

/-- a - b. -/
def subFp (f : Fmt) (rnd : Nat) (a b : Fp) : FpRes := addFp f rnd a (negFp b)

/-- a x b. -/
def mulFp (f : Fmt) (rnd : Nat) (a b : Fp) : FpRes :=
  if isNan a || isNan b then nanOf f [a, b]
  else match prodFp a b with
    | none => invalid f
    | some p => packFp f rnd p

/-- a x b + c with a single rounding; 0 x infinity is invalid also when c is a quiet NaN (R135). -/
def fmaFp (f : Fmt) (rnd : Nat) (a b c : Fp) : FpRes :=
  if isNan a || isNan b then nanOf f [a, b, c]
  else match prodFp a b with
    | none => invalid f
    | some p => if isNan c then nanOf f [c] else sumFp f rnd [p, c]

/-- a0 x b0 + a1 x b1 + c, one rounding (R137). When an operand is a quiet NaN and the other terms hold infinities of both signs, the sum
counts as invalid and sets NV (DESIGN CHOICE, log 64): the spec names no flag of a sum that has a NaN term. -/
def dot2Fp (f : Fmt) (rnd : Nat) (a0 b0 a1 b1 c : Fp) : FpRes :=
  let xs := [a0, b0, a1, b1, c]
  let p0 := if isNan a0 || isNan b0 then some (Fp.nan false) else prodFp a0 b0
  let p1 := if isNan a1 || isNan b1 then some (Fp.nan false) else prodFp a1 b1
  match p0, p1 with
  | some p, some q =>
    if xs.any isNan then
      let bad := (sumFp f rnd ([p, q, c].filter fun x => !isNan x)).2 &&& flNV
      (nanBits f, flagIf (xs.any isSnan) flNV ||| bad)
    else sumFp f rnd [p, q, c]
  | _, _ => invalid f

/-- Whether a < b, for two numbers. -/
def ltFp (a b : Fp) : Bool :=
  match a, b with
  | .inf x, .inf y => x && !y
  | .inf x, .fin .. => x
  | .fin .., .inf y => !y
  | .fin n m e, .fin k l g => let q := min e g; decide (toScale n m e q < toScale k l g q)
  | .nan _, _ | _, .nan _ => false

/-- Whether a = b, for two numbers; -0 equals +0. -/
def eqFp (a b : Fp) : Bool :=
  match a, b with
  | .inf x, .inf y => x == y
  | .fin n m e, .fin k l g => let q := min e g; decide (toScale n m e q = toScale k l g q)
  | _, _ => false

/-- Whether a value's sign is set. -/
def signOf : Fp → Bool
  | .nan _ => false
  | .inf n => n
  | .fin n _ _ => n

/-- minimumNumber and maximumNumber (R137) on bit patterns: a NaN yields to a number, -0 is below +0. -/
def minMaxFp (f : Fmt) (isMax : Bool) (x y : Nat) : FpRes :=
  let a := unpackFp f x
  let b := unpackFp f y
  let nv := flagIf (isSnan a || isSnan b) flNV
  if isNan a && isNan b then (nanBits f, nv)
  else if isNan a then (y, nv)
  else if isNan b then (x, nv)
  else
    let aFirst := ltFp a b || (eqFp a b && signOf a && !signOf b)
    (if aFirst != isMax then x else y, nv)

/-- The nearest value in [+0, +1] of a rounded result, +0 for a NaN (R136). -/
def saturate01 (f : Fmt) (bits : Nat) : Nat :=
  match unpackFp f bits with
  | .nan _ => 0
  | .inf n => if n then 0 else biasOf f * 2 ^ f.frac
  | .fin n m _ => if n || m == 0 then 0 else min bits (biasOf f * 2 ^ f.frac)

/-- A finite value rounded to an integer by a mode: magnitude and whether it is inexact. -/
def toInteger (rnd : Nat) (neg : Bool) (m : Nat) (e : Int) : Nat × Bool := roundAt rnd neg m e 0

/-- FRND of a bit pattern (R141): the sign is kept, NX never set. -/
def frndFp (f : Fmt) (rnd : Nat) (bits : Nat) : FpRes :=
  match unpackFp f bits with
  | .nan s => (nanBits f, flagIf s flNV)
  | .inf n => (withSign f n (infBits f), 0)
  | .fin n m e => ((packFp f rnd (.fin n (toInteger rnd n m e).1 0)).1, 0)

/-- A conversion of a bit pattern between formats (R139). -/
def cvtFp (src dst : Fmt) (rnd : Nat) (bits : Nat) : FpRes :=
  match unpackFp src bits with
  | .nan s => (nanBits dst, flagIf s flNV)
  | x => packFp dst rnd x

/-- F2I (R140): rounded, then saturated to [lo, hi]; the integer and the flags. -/
def toIntFp (f : Fmt) (rnd : Nat) (lo hi : Int) (bits : Nat) : Int × FpFlags :=
  match unpackFp f bits with
  | .nan _ => (0, flNV)
  | .inf n => (if n then lo else hi, flNV)
  | .fin n m e =>
    let r := toInteger rnd n m e
    let v : Int := if n then -(r.1 : Int) else r.1
    if v < lo then (lo, flNV) else if hi < v then (hi, flNV) else (v, flagIf r.2 flNX)

/-- I2F (R139). -/
def ofIntFp (f : Fmt) (rnd : Nat) (v : Int) : FpRes := packFp f rnd (.fin (decide (v < 0)) v.natAbs 0)

/-- FCLASS (R141): a one-hot mask. -/
def classFp (f : Fmt) (bits : Nat) : Nat :=
  match unpackFp f bits with
  | .nan s => if s then 0x100 else 0x200
  | .inf n => if n then 0x001 else 0x080
  | .fin n m _ =>
    if m = 0 then (if n then 0x008 else 0x010)
    else if m < 2 ^ f.frac then (if n then 0x004 else 0x020)
    else (if n then 0x002 else 0x040)

/-- FSCALE (R141): a x 2^b. The exponent of the scaled value is brought near the format's range, which changes no result. -/
def scaleFp (f : Fmt) (rnd : Nat) (bits : Nat) (b : Int) : FpRes :=
  match unpackFp f bits with
  | .nan s => (nanBits f, flagIf s flNV)
  | .inf n => (withSign f n (infBits f), 0)
  | .fin n m e => packFp f rnd (.fin n m (e + clampInt (-5000) 5000 b))

/-- The integer square root by Newton steps from above: the fuel bounds the steps. -/
def isqrtStep : Nat → Nat → Nat → Nat
  | 0, _, x => x
  | k + 1, n, x => let y := (x + n / x) / 2; if y < x then isqrtStep k n y else x

/-- The integer square root, rounded down. -/
def isqrt (n : Nat) : Nat := if n = 0 then 0 else isqrtStep (Nat.log2 n + 8) n (2 ^ (Nat.log2 n / 2 + 1))

/-- A quotient m/n of magnitudes x 2^e as a magnitude whose last bit stands for every bit below it: more bits than any
format rounds at, and a last one that is set when the quotient is inexact. -/
def quotient (m n : Nat) (e : Int) : Nat × Int :=
  let k := Nat.log2 n + 70
  let q := m * 2 ^ k / n
  (2 * q + (if m * 2 ^ k % n = 0 then 0 else 1), e - k - 1)

/-- a / b (R146, R147): correctly rounded. -/
def divFp (f : Fmt) (rnd : Nat) (a b : Fp) : FpRes :=
  match a, b with
  | .nan _, _ | _, .nan _ => nanOf f [a, b]
  | .inf _, .inf _ => invalid f
  | .inf x, .fin y _ _ => (withSign f (x != y) (infBits f), 0)
  | .fin x _ _, .inf y => (withSign f (x != y) 0, 0)
  | .fin x m e, .fin y n g =>
    if n = 0 then (if m = 0 then invalid f else (withSign f (x != y) (infBits f), flDZ))
    else if m = 0 then (withSign f (x != y) 0, 0)
    else let q := quotient m n (e - g); roundFin f rnd (x != y) q.1 q.2

/-- A square root of m x 2^e as a magnitude whose last bit stands for every bit below it. -/
def rootOf (m : Nat) (e : Int) : Nat × Int :=
  let k : Nat := 140 + (if (e - 140) % 2 = 0 then 0 else 1)
  let n := m * 2 ^ k
  let r := isqrt n
  (2 * r + (if r * r = n then 0 else 1), (e - k) / 2 - 1)

/-- The square root (R146, R147): correctly rounded. -/
def sqrtFp (f : Fmt) (rnd : Nat) (a : Fp) : FpRes :=
  match a with
  | .nan s => (nanBits f, flagIf s flNV)
  | .inf n => if n then invalid f else (infBits f, 0)
  | .fin n m e =>
    if m = 0 then (withSign f n 0, 0)
    else if n then invalid f
    else let r := rootOf m e; roundFin f rnd false r.1 r.2

end Sys2Proof.Machine
end

