-- ==== Sys2Proof/WellFormed.lean ====
section
/-! DEFINITION. The well-formed words: those in which the checks of spec/04 R85 rows 2 to 6 that need nothing but the word
find no cause. The steps of the other agents have no encoding and are well-formed. -/

namespace Sys2Proof

/-- A word that decodes without a cause on its own (spec/04 R85). -/
abbrev WellFormed (i : Instr) : Prop := Machine.staticCause i = none

end Sys2Proof
end

