-- ==== Sys2Proof/Decode.lean ====
section
/-! DEFINITION. The decoder (spec/04 R63, R74, R79 to R84, R204): total on any word and any bytes, rejecting by cause; then
the encoder of a well-formed word, written from the same tables. -/

namespace Sys2Proof

open Machine

/-- Class A3 by opcode (R80); a vacant opcode has none. IDOT4 is vacant on this part: its word parses and raises (R86). -/
def a3Instr (op : Nat) (f : A3) : Option Instr :=
  match op with
  | 0x00 => some (.iadd f)
  | 0x01 => some (.isub f)
  | 0x02 => some (.imul f)
  | 0x03 => some (.imulh f)
  | 0x04 => some (.imad f)
  | 0x05 => some (.imadw f)
  | 0x06 => some (.imin f)
  | 0x07 => some (.imax f)
  | 0x08 => some (.iabs f)
  | 0x09 => some (.ineg f)
  | 0x0A => some (.lea f)
  | 0x0B => some (.iclamp f)
  | 0x0C => some (.iabsd f)
  | 0x0D => some (.idot4 f)
  | 0x10 => some (.and f)
  | 0x11 => some (.or f)
  | 0x12 => some (.xor f)
  | 0x13 => some (.andn f)
  | 0x14 => some (.not f)
  | 0x15 => some (.shl f)
  | 0x16 => some (.shr f)
  | 0x17 => some (.sar f)
  | 0x18 => some (.rot f)
  | 0x19 => some (.funsh f)
  | 0x1A => some (.bfx f)
  | 0x1B => some (.bfi f)
  | 0x1C => some (.popc f)
  | 0x1D => some (.clz f)
  | 0x1E => some (.ctz f)
  | 0x1F => some (.brev f)
  | 0x20 => some (.bswp f)
  | 0x21 => some (.prmt f)
  | 0x28 => some (.icmp f)
  | 0x29 => some (.fcmp f)
  | 0x2A => some (.sel f)
  | 0x2B => some (.mov f)
  | 0x2C => some (.pset f)
  | 0x2D => some (.pmov f)
  | 0x40 => some (.fadd f)
  | 0x41 => some (.fsub f)
  | 0x42 => some (.fmul f)
  | 0x43 => some (.ffma f)
  | 0x44 => some (.fmin f)
  | 0x45 => some (.fmax f)
  | 0x46 => some (.frnd f)
  | 0x47 => some (.fcvt f)
  | 0x48 => some (.fclass f)
  | 0x49 => some (.fscale f)
  | 0x4A => some (.fdot2 f)
  | 0x4B => some (.qnt f)
  | 0x4C => some (.dqnt f)
  | 0x4D => some (.f2i f)
  | 0x4E => some (.i2f f)
  | 0x60 => some (.rcp f)
  | 0x61 => some (.rsq f)
  | 0x62 => some (.sqrt f)
  | 0x63 => some (.exp2 f)
  | 0x64 => some (.log2 f)
  | 0x65 => some (.sinpi f)
  | 0x66 => some (.cospi f)
  | 0x67 => some (.tanh f)
  | 0x68 => some (.fdiv f)
  | 0x70 => some (.shfl f)
  | 0x71 => some (.vote f)
  | 0x72 => some (.redux f)
  | 0x73 => some (.scan f)
  | 0x74 => some (.matchLanes f)
  | 0x75 => some (.xpose f)
  | _ => none

/-- Class AI by opcode (R81). -/
def aiInstr (op : Nat) (f : AI) : Option Instr :=
  match op with
  | 0x00 => some (.iaddi f)
  | 0x01 => some (.imuli f)
  | 0x02 => some (.andi f)
  | 0x03 => some (.ori f)
  | 0x04 => some (.xori f)
  | 0x05 => some (.shli f)
  | 0x06 => some (.shri f)
  | 0x07 => some (.sari f)
  | 0x08 => some (.movi f)
  | 0x09 => some (.movhi f)
  | 0x0A => some (.icmpi f)
  | 0x0B => some (.faddi f)
  | 0x0C => some (.fmuli f)
  | 0x0D => some (.imini f)
  | 0x0E => some (.imaxi f)
  | 0x0F => some (.leai f)
  | _ => none

/-- Class M by opcode (R82). -/
def mInstr (op : Nat) (f : MW) : Option Instr :=
  match op with
  | 0x00 => some (.ld f)
  | 0x01 => some (.st f)
  | 0x02 => some (.ldx f)
  | 0x03 => some (.stx f)
  | 0x04 => some (.atomAdd f)
  | 0x05 => some (.atomMin f)
  | 0x06 => some (.atomMax f)
  | 0x07 => some (.atomAnd f)
  | 0x08 => some (.atomOr f)
  | 0x09 => some (.atomXor f)
  | 0x0A => some (.atomXchg f)
  | 0x0B => some (.atomCas f)
  | 0x0C => some (.atomFadd f)
  | 0x10 => some (.ldp f)
  | 0x11 => some (.stp f)
  | 0x12 => some (.ldn f)
  | 0x13 => some (.stn f)
  | 0x14 => some (.peq f)
  | 0x15 => some (.padd f)
  | 0x16 => some (.pname f)
  | 0x17 => some (.pres f)
  | 0x20 => some (.splook f)
  | 0x21 => some (.sptag f)
  | 0x22 => some (.spinv f)
  | 0x23 => some (.ldfe f)
  | 0x24 => some (.stfe f)
  | 0x25 => some (.pref f)
  | 0x28 => some (.cpl f)
  | 0x30 => some (.rgnext f)
  | 0x31 => some (.rgrel f)
  | _ => none

/-- Class E by opcode (R83). -/
def eInstr (op : Nat) (f : EW) : Option Instr :=
  match op with
  | 0x00 => some (.vdef f)
  | 0x01 => some (.vset f)
  | 0x02 => some (.vget f)
  | 0x03 => some (.vld f)
  | 0x04 => some (.vst f)
  | 0x05 => some (.vret f)
  | 0x06 => some (.vmeet f)
  | 0x08 => some (.cpv f)
  | 0x09 => some (.cpr f)
  | 0x0A => some (.gath f)
  | 0x10 => some (.mmt f)
  | 0x11 => some (.mmv f)
  | 0x12 => some (.mstat f)
  | 0x13 => some (.mclr f)
  | 0x18 => some (.xred f)
  | 0x19 => some (.xgath f)
  | 0x1A => some (.xbcast f)
  | 0x1C => some (.tkacq f)
  | 0x1D => some (.tkrel f)
  | 0x1E => some (.tkqry f)
  | _ => none

/-- Class X by opcode (R84). -/
def xInstr (op : Nat) (f : XW) : Option Instr :=
  match op with
  | 0x00 => some (.goto f)
  | 0x01 => some (.brc f)
  | 0x02 => some (.brx f)
  | 0x03 => some (.call f)
  | 0x04 => some (.ret f)
  | 0x05 => some (.exit f)
  | 0x06 => some (.yield f)
  | 0x07 => some (.contx f)
  | 0x10 => some (.meet f)
  | 0x11 => some (.pb f)
  | 0x12 => some (.cwait f)
  | 0x13 => some (.twait f)
  | 0x14 => some (.barInit f)
  | 0x15 => some (.barArrive f)
  | 0x16 => some (.barWait f)
  | 0x17 => some (.gbar f)
  | 0x18 => some (.cont f)
  | 0x19 => some (.nop f false)
  | 0x1A => some (.trap f)
  | 0x1B => some (.deact f)
  | _ => none

/-- Class S by opcode (R84, R204). -/
def sInstr (op : Nat) (f : SW) : Option Instr :=
  match op with
  | 0x00 => some (.ctxld f)
  | 0x01 => some (.ctxst f)
  | 0x02 => some (.tret f)
  | 0x03 => some (.csrr f)
  | 0x04 => some (.csrw f)
  | 0x05 => some (.tlbi f)
  | 0x06 => some (.pbind f)
  | 0x07 => some (.punbind f)
  | 0x08 => some (.pevict f)
  | 0x09 => some (.mprgw f)
  | 0x0A => some (.keyset f)
  | _ => none

/-- An AP slot opcode (R81). -/
def slotOpOf (op : Nat) : Option SlotOp :=
  match op with
  | 0x00 => some .iadd
  | 0x01 => some .isub
  | 0x02 => some .imul
  | 0x03 => some .imin
  | 0x04 => some .imax
  | 0x05 => some .and
  | 0x06 => some .or
  | 0x07 => some .xor
  | 0x08 => some .shl
  | 0x09 => some .shr
  | 0x0A => some .sar
  | 0x0B => some .mov
  | 0x0C => some .fadd
  | 0x0D => some .fmul
  | 0x0E => some .fmin
  | 0x0F => some .fmax
  | 0x10 => some .not
  | _ => none

/-- The paired word named by its first non-empty slot's opcode. -/
def apInstr (op : SlotOp) (p : Ap) : Instr :=
  match op with
  | .iadd => .iaddAp p
  | .isub => .isubAp p
  | .imul => .imulAp p
  | .imin => .iminAp p
  | .imax => .imaxAp p
  | .and => .andAp p
  | .or => .orAp p
  | .xor => .xorAp p
  | .shl => .shlAp p
  | .shr => .shrAp p
  | .sar => .sarAp p
  | .mov => .movAp p
  | .fadd => .faddAp p
  | .fmul => .fmulAp p
  | .fmin => .fminAp p
  | .fmax => .fmaxAp p
  | .not => .notAp p

/-- The AI type of a 3-bit code (R46); 7 is reserved. -/
def aiTyOf (c : Nat) : Option Ty :=
  match c with
  | 0 => some .ui32 | 1 => some .s32 | 2 => some .f32 | 3 => some .b32 | 4 => some .ui64 | 5 => some .s64
  | 6 => some .f16x2 | _ => none

/-- The fields of a class A3 word (R79). -/
def a3Fields (w : W64) : A3 :=
  { dist := slice w 58 3, ty := tyOfCode (slice w 46 4).toNat, d := slice w 39 7, a := slice w 32 7, b := slice w 25 7,
    c := slice w 18 7, rnd := slice w 16 2, sat := bitAt w 15, na := bitAt w 14, nb := bitAt w 13, nc := bitAt w 12,
    la := bitAt w 11, lb := bitAt w 10, lc := bitAt w 9, flag := slice w 7 2, aux := slice w 0 7 }

/-- The fields of a class AI word (R79), given its type. -/
def aiFields (t : Ty) (w : W64) : AI :=
  { dist := slice w 58 3, ty := t, d := slice w 40 7, a := slice w 33 7, la := bitAt w 32, imm := slice w 0 32 }

/-- The fields of one slot less its opcode (R74). -/
def slotFields (x : BitVec 29) : SlotArgs :=
  { d := slice x 16 7, s := slice x 9 7, lr := bitAt x 8, ty := slice x 6 2, z := slice x 0 6 }

/-- The fields of a class M word (R79). -/
def mFields (w : W64) : MW :=
  { dist := slice w 58 3, size := slice w 49 3, space := slice w 47 2, scope := slice w 44 3, data := slice w 37 7,
    base := slice w 30 7, x := slice w 23 7, flag := slice w 21 2, lb := bitAt w 20, lx := bitAt w 19, ld := bitAt w 18,
    off := slice w 0 18 }

/-- The fields of a class E word (R79). -/
def eFields (w : W64) : EW :=
  { dist := slice w 58 3, va := slice w 48 4, vb := slice w 44 4, vc := slice w 40 4, slot := slice w 37 3,
    flag := slice w 35 2, variant := slice w 33 2, r1 := slice w 26 7, r2 := slice w 19 7, imm := slice w 0 19 }

/-- The fields of a class X word (R79). -/
def xFields (w : W64) : XW :=
  { dist := slice w 58 3, pred := slice w 49 3, neg := bitAt w 48, t := slice w 24 24, f := slice w 0 24 }

/-- The fields of a class S word (R204). -/
def sFields (w : W64) : SW :=
  { dist := slice w 58 3, hi := slice w 45 7, mid := slice w 38 7, flag := slice w 36 2, lane := slice w 31 5,
    z := slice w 12 19, csr := slice w 0 12 }

/-- The fields of a class H word (R65). -/
def headerFields (w : W64) : Header :=
  { length := slice w 55 6, wait := slice w 43 12, raiseA := slice w 39 4, raiseB := slice w 35 4, energy := slice w 33 2,
    z := slice w 0 33 }

/-- What a slot's 29 bits hold (R74, R85 rows 2 and 3). -/
inductive SlotRead where
  | empty | vacant | malformedEmpty | slot (s : Slot)
  deriving DecidableEq, Repr

/-- A slot read. -/
def readSlot (x : BitVec 29) : SlotRead :=
  let op := (slice x 23 6).toNat
  if op = 0x3F then (if slice x 0 23 = 0 then .empty else .malformedEmpty)
  else match slotOpOf op with
    | none => .vacant
    | some o => .slot { op := o, args := slotFields x }

/-- A paired word read (R74): vacant slot opcodes first, then empty slots whose bits are not zero. -/
def readAp (w : W64) : Except Cause Instr :=
  match readSlot (slice w 29 29), readSlot (slice w 0 29) with
  | .vacant, _ | _, .vacant => .error .illegalOpcode
  | .malformedEmpty, _ | _, .malformedEmpty => .error .illegalEncoding
  | .empty, .empty => .ok (.nop { dist := slice w 58 3, pred := 0, neg := false, t := 0, f := 0 } true)
  | .empty, .slot y => .ok (apInstr y.op { dist := slice w 58 3, own := y.args, onX := false, other := none })
  | .slot x, .empty => .ok (apInstr x.op { dist := slice w 58 3, own := x.args, onX := true, other := none })
  | .slot x, .slot y => .ok (apInstr x.op { dist := slice w 58 3, own := x.args, onX := true, other := some y })

/-- A vacant opcode refused (R85 row 2). -/
def orVacant : Option Instr → Except Cause Instr
  | some i => .ok i
  | none => .error .illegalOpcode

/-- The word's class and opcode read (R63, R80 to R84): the fields as they stand, unchecked but for vacancy and for the AI
type code 7, which no instruction can hold. -/
def parse (w : W64) : Except Cause Instr :=
  match (slice w 61 3).toNat with
  | 0 => orVacant (a3Instr (slice w 50 8).toNat (a3Fields w))
  | 1 => readAp w
  | 2 =>
    match aiTyOf (slice w 47 3).toNat with
    | some t => orVacant (aiInstr (slice w 50 8).toNat (aiFields t w))
    | none => if (slice w 50 8).toNat < 16 then .error .illegalEncoding else .error .illegalOpcode
  | 3 => orVacant (mInstr (slice w 52 6).toNat (mFields w))
  | 4 => orVacant (eInstr (slice w 52 6).toNat (eFields w))
  | 5 => orVacant (xInstr (slice w 52 6).toNat (xFields w))
  | 6 => orVacant (sInstr (slice w 52 6).toNat (sFields w))
  | _ => .error .illegalSegment

/-- The decoder: the word read and its fields checked (R85 rows 2 to 6); a class H word is no instruction (R63). -/
def decode (w : W64) : Except Cause Instr :=
  match parse w with
  | .error c => .error c
  | .ok i =>
    match staticCause i with
    | none => .ok i
    | some c => .error c

/-- Whether a word is one that only trap mode may run, whatever else it holds (R85 row 1): class S, DEACT, space code 2. -/
def wordPrivileged (w : W64) : Bool :=
  match (slice w 61 3).toNat with
  | 6 => true
  | 5 => slice w 52 6 == 0x1B
  | 3 => slice w 47 2 == 2
  | _ => false

/-- Whether a word is a terminator (R64): class X, opcodes 0x00 to 0x07. -/
def wordTerminates (w : W64) : Bool := slice w 61 3 == 5 && decide ((slice w 52 6).toNat < 8)

/-- Whether a word is of class H (R63). -/
def wordIsHeader (w : W64) : Bool := slice w 61 3 == 7

/-- Why bytes give no instruction. -/
inductive Reject where
  /-- Fewer than the eight bytes of a word (R62). -/
  | truncated
  /-- The word's own decode cause. -/
  | cause (c : Cause)
  deriving DecidableEq, Repr

/-- The first instruction of a run of bytes and the bytes after it (R62: a word is eight bytes, little-endian). -/
def decodeBytes (bs : List Byte) : Except Reject (Instr × List Byte) :=
  if bs.length < 8 then .error .truncated
  else match decode (BitVec.ofNat 64 (ofBytes (bs.take 8))) with
    | .ok i => .ok (i, bs.drop 8)
    | .error c => .error (.cause c)

/-- The instruction of a word as spec/opcode_table.json numbers its bits: the bytes as the hardware stores them, decoded. -/
def decodeTableWord (_nbits w : Nat) : Option Instr :=
  match decodeBytes (bytesOf 8 w) with
  | .ok (i, _) => some i
  | .error _ => none

/-! The encoder. -/

/-- One bit. -/
def bit (b : Bool) : BitVec 1 := BitVec.ofBool b

/-- A class A3 word (R79). -/
def encA3 (op : BitVec 8) (f : A3) : W64 :=
  (0 : BitVec 3) ++ f.dist ++ op ++ tyCode f.ty ++ f.d ++ f.a ++ f.b ++ f.c ++ f.rnd ++ bit f.sat ++ bit f.na ++
    bit f.nb ++ bit f.nc ++ bit f.la ++ bit f.lb ++ bit f.lc ++ f.flag ++ f.aux

/-- The 3-bit AI code of a type (R46); 7 for a type that has none. -/
def aiCode : Ty → BitVec 3
  | .ui32 => 0 | .s32 => 1 | .f32 => 2 | .b32 => 3 | .ui64 => 4 | .s64 => 5 | .f16x2 => 6
  | .f64 | .f16 | .bf16 | .bf16x2 | .ui16x2 | .s16x2 | .ui8x4 | .s8x4 | .b64 => 7

/-- A class AI word (R79). -/
def encAI (op : BitVec 8) (f : AI) : W64 :=
  (2 : BitVec 3) ++ f.dist ++ op ++ aiCode f.ty ++ f.d ++ f.a ++ bit f.la ++ f.imm

/-- A slot's opcode (R81). -/
def slotCode : SlotOp → BitVec 6
  | .iadd => 0x00
  | .isub => 0x01
  | .imul => 0x02
  | .imin => 0x03
  | .imax => 0x04
  | .and => 0x05
  | .or => 0x06
  | .xor => 0x07
  | .shl => 0x08
  | .shr => 0x09
  | .sar => 0x0A
  | .mov => 0x0B
  | .fadd => 0x0C
  | .fmul => 0x0D
  | .fmin => 0x0E
  | .fmax => 0x0F
  | .not => 0x10

/-- A slot (R74). -/
def encSlot (op : SlotOp) (s : SlotArgs) : BitVec 29 := slotCode op ++ s.d ++ s.s ++ bit s.lr ++ s.ty ++ s.z

/-- An empty slot (R74). -/
def emptySlot : BitVec 29 := (0x3F : BitVec 6) ++ (0 : BitVec 23)

/-- The other slot, or an empty one. -/
def encOther : Option Slot → BitVec 29
  | none => emptySlot
  | some s => encSlot s.op s.args

/-- A class AP word (R74): slot X above slot Y. -/
def encAp (op : SlotOp) (p : Ap) : W64 :=
  if p.onX then (1 : BitVec 3) ++ p.dist ++ encSlot op p.own ++ encOther p.other
  else (1 : BitVec 3) ++ p.dist ++ encOther p.other ++ encSlot op p.own

/-- A class M word (R79). -/
def encM (op : BitVec 6) (f : MW) : W64 :=
  (3 : BitVec 3) ++ f.dist ++ op ++ f.size ++ f.space ++ f.scope ++ f.data ++ f.base ++ f.x ++ f.flag ++ bit f.lb ++
    bit f.lx ++ bit f.ld ++ f.off

/-- A class E word (R79). -/
def encE (op : BitVec 6) (f : EW) : W64 :=
  (4 : BitVec 3) ++ f.dist ++ op ++ f.va ++ f.vb ++ f.vc ++ f.slot ++ f.flag ++ f.variant ++ f.r1 ++ f.r2 ++ f.imm

/-- A class X word (R79). -/
def encX (op : BitVec 6) (f : XW) : W64 := (5 : BitVec 3) ++ f.dist ++ op ++ f.pred ++ bit f.neg ++ f.t ++ f.f

/-- A class S word (R204). -/
def encS (op : BitVec 6) (f : SW) : W64 :=
  (6 : BitVec 3) ++ f.dist ++ op ++ f.hi ++ f.mid ++ f.flag ++ f.lane ++ f.z ++ f.csr

/-- A segment header (R65). -/
def encHeader (h : Header) : W64 :=
  (7 : BitVec 3) ++ h.length ++ h.wait ++ h.raiseA ++ h.raiseB ++ h.energy ++ h.z

/-- `NOP`, or the paired word with both slots empty (R74, R128). -/
def encNop (f : XW) (paired : Bool) : W64 :=
  if paired then (1 : BitVec 3) ++ f.dist ++ emptySlot ++ emptySlot else encX 0x19 f

/-- The words of a well-formed instruction, bit for bit (R79 to R84). A step of another agent has no word. -/
def encode : Instr → Option W64
  | .iadd f => some (encA3 0x00 f)
  | .isub f => some (encA3 0x01 f)
  | .imul f => some (encA3 0x02 f)
  | .imulh f => some (encA3 0x03 f)
  | .imad f => some (encA3 0x04 f)
  | .imadw f => some (encA3 0x05 f)
  | .imin f => some (encA3 0x06 f)
  | .imax f => some (encA3 0x07 f)
  | .iabs f => some (encA3 0x08 f)
  | .ineg f => some (encA3 0x09 f)
  | .lea f => some (encA3 0x0A f)
  | .iclamp f => some (encA3 0x0B f)
  | .iabsd f => some (encA3 0x0C f)
  | .idot4 f => some (encA3 0x0D f)
  | .and f => some (encA3 0x10 f)
  | .or f => some (encA3 0x11 f)
  | .xor f => some (encA3 0x12 f)
  | .andn f => some (encA3 0x13 f)
  | .not f => some (encA3 0x14 f)
  | .shl f => some (encA3 0x15 f)
  | .shr f => some (encA3 0x16 f)
  | .sar f => some (encA3 0x17 f)
  | .rot f => some (encA3 0x18 f)
  | .funsh f => some (encA3 0x19 f)
  | .bfx f => some (encA3 0x1A f)
  | .bfi f => some (encA3 0x1B f)
  | .popc f => some (encA3 0x1C f)
  | .clz f => some (encA3 0x1D f)
  | .ctz f => some (encA3 0x1E f)
  | .brev f => some (encA3 0x1F f)
  | .bswp f => some (encA3 0x20 f)
  | .prmt f => some (encA3 0x21 f)
  | .icmp f => some (encA3 0x28 f)
  | .fcmp f => some (encA3 0x29 f)
  | .sel f => some (encA3 0x2A f)
  | .mov f => some (encA3 0x2B f)
  | .pset f => some (encA3 0x2C f)
  | .pmov f => some (encA3 0x2D f)
  | .fadd f => some (encA3 0x40 f)
  | .fsub f => some (encA3 0x41 f)
  | .fmul f => some (encA3 0x42 f)
  | .ffma f => some (encA3 0x43 f)
  | .fmin f => some (encA3 0x44 f)
  | .fmax f => some (encA3 0x45 f)
  | .frnd f => some (encA3 0x46 f)
  | .fcvt f => some (encA3 0x47 f)
  | .fclass f => some (encA3 0x48 f)
  | .fscale f => some (encA3 0x49 f)
  | .fdot2 f => some (encA3 0x4A f)
  | .qnt f => some (encA3 0x4B f)
  | .dqnt f => some (encA3 0x4C f)
  | .f2i f => some (encA3 0x4D f)
  | .i2f f => some (encA3 0x4E f)
  | .rcp f => some (encA3 0x60 f)
  | .rsq f => some (encA3 0x61 f)
  | .sqrt f => some (encA3 0x62 f)
  | .exp2 f => some (encA3 0x63 f)
  | .log2 f => some (encA3 0x64 f)
  | .sinpi f => some (encA3 0x65 f)
  | .cospi f => some (encA3 0x66 f)
  | .tanh f => some (encA3 0x67 f)
  | .fdiv f => some (encA3 0x68 f)
  | .shfl f => some (encA3 0x70 f)
  | .vote f => some (encA3 0x71 f)
  | .redux f => some (encA3 0x72 f)
  | .scan f => some (encA3 0x73 f)
  | .matchLanes f => some (encA3 0x74 f)
  | .xpose f => some (encA3 0x75 f)
  | .iaddAp p => some (encAp .iadd p)
  | .isubAp p => some (encAp .isub p)
  | .imulAp p => some (encAp .imul p)
  | .iminAp p => some (encAp .imin p)
  | .imaxAp p => some (encAp .imax p)
  | .andAp p => some (encAp .and p)
  | .orAp p => some (encAp .or p)
  | .xorAp p => some (encAp .xor p)
  | .shlAp p => some (encAp .shl p)
  | .shrAp p => some (encAp .shr p)
  | .sarAp p => some (encAp .sar p)
  | .movAp p => some (encAp .mov p)
  | .faddAp p => some (encAp .fadd p)
  | .fmulAp p => some (encAp .fmul p)
  | .fminAp p => some (encAp .fmin p)
  | .fmaxAp p => some (encAp .fmax p)
  | .notAp p => some (encAp .not p)
  | .iaddi f => some (encAI 0x00 f)
  | .imuli f => some (encAI 0x01 f)
  | .andi f => some (encAI 0x02 f)
  | .ori f => some (encAI 0x03 f)
  | .xori f => some (encAI 0x04 f)
  | .shli f => some (encAI 0x05 f)
  | .shri f => some (encAI 0x06 f)
  | .sari f => some (encAI 0x07 f)
  | .movi f => some (encAI 0x08 f)
  | .movhi f => some (encAI 0x09 f)
  | .icmpi f => some (encAI 0x0A f)
  | .faddi f => some (encAI 0x0B f)
  | .fmuli f => some (encAI 0x0C f)
  | .imini f => some (encAI 0x0D f)
  | .imaxi f => some (encAI 0x0E f)
  | .leai f => some (encAI 0x0F f)
  | .ld f => some (encM 0x00 f)
  | .st f => some (encM 0x01 f)
  | .ldx f => some (encM 0x02 f)
  | .stx f => some (encM 0x03 f)
  | .atomAdd f => some (encM 0x04 f)
  | .atomMin f => some (encM 0x05 f)
  | .atomMax f => some (encM 0x06 f)
  | .atomAnd f => some (encM 0x07 f)
  | .atomOr f => some (encM 0x08 f)
  | .atomXor f => some (encM 0x09 f)
  | .atomXchg f => some (encM 0x0A f)
  | .atomCas f => some (encM 0x0B f)
  | .atomFadd f => some (encM 0x0C f)
  | .ldp f => some (encM 0x10 f)
  | .stp f => some (encM 0x11 f)
  | .ldn f => some (encM 0x12 f)
  | .stn f => some (encM 0x13 f)
  | .peq f => some (encM 0x14 f)
  | .padd f => some (encM 0x15 f)
  | .pname f => some (encM 0x16 f)
  | .pres f => some (encM 0x17 f)
  | .splook f => some (encM 0x20 f)
  | .sptag f => some (encM 0x21 f)
  | .spinv f => some (encM 0x22 f)
  | .ldfe f => some (encM 0x23 f)
  | .stfe f => some (encM 0x24 f)
  | .pref f => some (encM 0x25 f)
  | .cpl f => some (encM 0x28 f)
  | .rgnext f => some (encM 0x30 f)
  | .rgrel f => some (encM 0x31 f)
  | .vdef f => some (encE 0x00 f)
  | .vset f => some (encE 0x01 f)
  | .vget f => some (encE 0x02 f)
  | .vld f => some (encE 0x03 f)
  | .vst f => some (encE 0x04 f)
  | .vret f => some (encE 0x05 f)
  | .vmeet f => some (encE 0x06 f)
  | .cpv f => some (encE 0x08 f)
  | .cpr f => some (encE 0x09 f)
  | .gath f => some (encE 0x0A f)
  | .mmt f => some (encE 0x10 f)
  | .mmv f => some (encE 0x11 f)
  | .mstat f => some (encE 0x12 f)
  | .mclr f => some (encE 0x13 f)
  | .xred f => some (encE 0x18 f)
  | .xgath f => some (encE 0x19 f)
  | .xbcast f => some (encE 0x1A f)
  | .tkacq f => some (encE 0x1C f)
  | .tkrel f => some (encE 0x1D f)
  | .tkqry f => some (encE 0x1E f)
  | .goto f => some (encX 0x00 f)
  | .brc f => some (encX 0x01 f)
  | .brx f => some (encX 0x02 f)
  | .call f => some (encX 0x03 f)
  | .ret f => some (encX 0x04 f)
  | .exit f => some (encX 0x05 f)
  | .yield f => some (encX 0x06 f)
  | .contx f => some (encX 0x07 f)
  | .meet f => some (encX 0x10 f)
  | .pb f => some (encX 0x11 f)
  | .cwait f => some (encX 0x12 f)
  | .twait f => some (encX 0x13 f)
  | .barInit f => some (encX 0x14 f)
  | .barArrive f => some (encX 0x15 f)
  | .barWait f => some (encX 0x16 f)
  | .gbar f => some (encX 0x17 f)
  | .cont f => some (encX 0x18 f)
  | .nop f paired => some (encNop f paired)
  | .trap f => some (encX 0x1A f)
  | .deact f => some (encX 0x1B f)
  | .ctxld f => some (encS 0x00 f)
  | .ctxst f => some (encS 0x01 f)
  | .tret f => some (encS 0x02 f)
  | .csrr f => some (encS 0x03 f)
  | .csrw f => some (encS 0x04 f)
  | .tlbi f => some (encS 0x05 f)
  | .pbind f => some (encS 0x06 f)
  | .punbind f => some (encS 0x07 f)
  | .pevict f => some (encS 0x08 f)
  | .mprgw f => some (encS 0x09 f)
  | .keyset f => some (encS 0x0A f)
  | .segmentBoundary .. | .choose .. | .preemptRequest .. | .operationComplete .. | .registerFillReturn ..
  | .registerFillTimeout .. | .lineSpill .. | .lineBudgetWake .. | .contextPage .. | .warpActivate .. | .warpWake ..
  | .warpRetire .. | .gangBirth .. | .gangRetire .. | .gangSpill .. | .gangRestore .. | .continuationGather ..
  | .continuationResume .. | .continuationStallKill .. | .callAreaGrant .. | .coreWithdraw .. | .partitionSwap ..
  | .pageNotPresent .. | .objectAbsent .. | .serviceEvict .. | .migration .. | .l1Writeback .. | .pkgWriteHomeApply ..
  | .pkgWriteDieApply .. | .fabricPacketReceive .. | .fabricResendTimeout .. | .peerLost .. | .tokenGrant ..
  | .tokenRefuse .. | .tokenRecall .. | .chunkApply .. | .chunkDelivery .. | .chunkReceive ..
  | .engineOperationComplete .. | .tileRowStart .. | .tileRowComplete .. | .matrixWaitRelease .. | .collectiveMatch ..
  | .energyRefill | .messageLand .. | .ringEnable .. | .hostLandingWrite .. | .hostLandingRead .. | .submit ..
  | .launchStart .. | .waitConditionPoll .. | .waitConditionUpdate .. | .cpCause | .regionReset | .regionKill
  | .regionRevive | .functionLevelReset .. | .regionTableWrite .. | .objectLoad .. | .objectUnload | .leaseRenew ..
  | .leaseRoleWrite .. | .leaseExpiry .. | .registerWrite .. | .serviceCoreRestart .. | .scrub .. | .strataUpdate ..
  | .powerOn .. | .thermalLimit .. | .peerRestore .. | .linkFailure .. | .coreReturnToService .. | .powerDown ..
  | .thermalLimitClear .. | .tdispMessage .. => none

end Sys2Proof
end

