-- ==== Sys2Proof/Machine/Walk.lean ====
section
/-! DEFINITION. Warps, gangs and launches by name; where physical addresses lead, bytes at their home, and the walk of the page
tables (spec/09 R179, spec/08 R156, R157, spec/20 R325, spec/22 R339). -/

namespace Sys2Proof.Machine

/-! ### Warps, gangs and launches by name -/

/-- Every warp that exists: the issuing one first. -/
def allWarps (s : State) : List Warp := s.warp :: s.warps

/-- A warp by name. -/
def findWarp (s : State) (w : WarpId) : Option Warp := (allWarps s).find? fun x => decide (x.id = w)

/-- A warp changed, wherever it stands. -/
def modWarp (s : State) (w : WarpId) (f : Warp → Warp) : State :=
  if s.warp.id = w then { s with warp := f s.warp }
  else { s with warps := s.warps.map fun x => if x.id = w then f x else x }

/-- The gang of a warp. -/
def gangOf (w : WarpId) : GangId := { seq := w.seq, gang := w.gang }

/-- A gang by name. -/
def findGang (s : State) (g : GangId) : Option Gang := (s.gang :: s.gangs).find? fun x => decide (x.id = g)

/-- A gang changed, wherever it stands. -/
def modGang (s : State) (g : GangId) (f : Gang → Gang) : State :=
  if s.gang.id = g then { s with gang := f s.gang }
  else { s with gangs := s.gangs.map fun x => if x.id = g then f x else x }

/-- A launch changed, wherever it stands. -/
def modLaunch (s : State) (seq : Nat) (f : Launch → Launch) : State :=
  if s.launch.seq = seq then { s with launch := f s.launch }
  else { s with launches := s.launches.map fun x => if x.seq = seq then f x else x }

/-- Every launch kept: of the issuing warp first. -/
def allLaunches (s : State) : List Launch := s.launch :: s.launches

/-- A core's state. -/
def coreAt (s : State) (c : Nat) : CoreState := s.cores.getD c CoreState.zero

/-- A core's state changed. -/
def modCore (s : State) (c : Nat) (f : CoreState → CoreState) : State := { s with cores := modNth s.cores c f }

/-- The die of a core (spec/01 R8). -/
def dieOfCore (core : Nat) : Nat := core / Config.coresPerDie

/-- The die of the issuing warp. -/
def myDie (s : State) : Nat := dieOfCore s.warp.core

/-! ### Where physical addresses lead -/

/-- The first address past device memory: 16 stacks of 96 GiB (spec/09 R179). -/
def memTop : Nat := 0x18000000000
/-- The bytes of one stack (spec/09 R179). -/
def stackBytes : Nat := 0x1800000000
/-- The ring slots (spec/20 R325). -/
def slotsBase : Nat := 0xF0000000000
/-- The ring blocks (spec/20 R325). -/
def blocksBase : Nat := 0xF1000000000
/-- The doorbells (spec/22 R339). -/
def doorBase : Nat := 0xF2000000000

/-- What stands at a physical address of this device. -/
inductive Area where
  | memory
  | slots (die : Nat) (off : Nat)
  | block (ring : Nat) (off : Nat)
  | doorbell (region : Nat) (off : Nat)
  | hole
  deriving DecidableEq, Repr

/-- The area of a physical address (spec/09 R179, spec/20 R325, spec/22 R339). -/
def areaOf (pa : Nat) : Area :=
  if pa < memTop then .memory
  else if slotsBase ≤ pa ∧ pa < slotsBase + 16 * 0x2000000 then .slots ((pa - slotsBase) / 0x2000000) ((pa - slotsBase) % 0x2000000)
  else if blocksBase ≤ pa ∧ pa < blocksBase + 16 * 0x2000 then .block ((pa - blocksBase) / 128) ((pa - blocksBase) % 128)
  else if doorBase ≤ pa ∧ pa < doorBase + 65535 * 4096 then .doorbell ((pa - doorBase) / 4096) ((pa - doorBase) % 4096)
  else .hole

/-- The key of an address at a peer. -/
def peerKey (peer pa : Nat) : Nat := (peer + 1) * 2 ^ 44 + pa

/-- The key of the local copy of a mode-2 location (spec/08 R157). -/
def cachedKey (k : Nat) : Nat := 2 ^ 66 + k

/-- Whether a key names a local copy. -/
def isCached (k : Nat) : Bool := decide (2 ^ 66 ≤ k)

/-- The peer whose memory a key names; none for this device. -/
def keyPeer (k : Nat) : Option Nat :=
  let b := k % 2 ^ 66
  if b < 2 ^ 44 then none else some (b / 2 ^ 44 - 1)

/-- The address at the peer. -/
def keyPa (k : Nat) : Nat := k % 2 ^ 44

/-- Whether an access to the key travels to a peer (modes 1 and 3). -/
def isDirect (k : Nat) : Bool := !isCached k && (keyPeer k).isSome

/-- The die whose slices home a location; none for a peer's (spec/09 R179). -/
def homeDie (k : Nat) : Option Nat :=
  match areaOf k with
  | .memory => some (k / stackBytes)
  | .slots d _ => some d
  | .block r _ => some (r / 64)
  | .doorbell .. | .hole => none

/-- The home slice of a location of this device (spec/09 R179): 2h + A[12]; rings at slice 2d. -/
def homeSlice (k : Nat) : Option Nat :=
  match areaOf k with
  | .memory => some (2 * (k / stackBytes) + k / 4096 % 2)
  | .slots d _ => some (2 * d)
  | .block r _ => some (2 * (r / 64))
  | .doorbell .. | .hole => none

/-- Whether the service core of the slice that homes an address runs (spec/22 R351). -/
def serviceUp (s : State) (pa : Nat) : Bool := s.svc.running.getD ((homeSlice pa).getD 0) false

/-- The die point of a location for a die, as a slice (spec/09 R179). -/
def diePoint (d k : Nat) : Nat :=
  match homeSlice k with
  | some h => if h / 2 = d then h else 2 * d + keyPa k / 4096 % 2
  | none => 2 * d + keyPa k / 4096 % 2

/-! ### Bytes at their home -/

/-- A ring after reset (spec/20 R325). -/
def Ring.zero : Ring :=
  { w0 := 0, w1 := 0, w2 := 0, seq := 0, written := 0, claim := 0, free := 0, lmsg := 0, lbyte := 0, fmsg := 0, fbyte := 0,
    omsg := 0, obyte := 0, tmsg := 0, entries := [], claimed := [] }

/-- A ring by id. -/
def ringAt (s : State) (r : Nat) : Ring := (AList.find s.fabric.rings r).getD Ring.zero

/-- The words of a ring block (spec/20 R325). -/
def ringWords (r : Ring) : List W64 :=
  [r.w0, r.w1, r.w2, r.seq, r.written, r.claim, r.free, r.lmsg, r.lbyte, r.fmsg, r.fbyte, r.omsg, r.obyte, r.tmsg, 0, 0]

/-- The byte at its home (spec/09 R179): a local copy, a ring block, or memory. -/
def homeByte (s : State) (k : Nat) : Byte :=
  if isCached k then (AList.find s.mem.cached (k - 2 ^ 66)).getD (ByteMap.read s.mem.home (k - 2 ^ 66))
  else match areaOf k with
    | .block r off => slice ((ringWords (ringAt s r)).getD (off / 8) 0) (8 * (off % 8)) 8
    | .memory | .slots .. | .doorbell .. | .hole => ByteMap.read s.mem.home k

/-- Bytes at their home. -/
def homeBytes (s : State) (k n : Nat) : List Byte := (List.range n).map fun i => homeByte s (k + i)

/-- A 64-bit word at its home. -/
def homeWord (s : State) (k : Nat) : W64 := BitVec.ofNat 64 (ofBytes (homeBytes s k 8))

/-- Whether the 64-byte line of a byte is poisoned at its home (spec/22 R355). -/
def linePoisoned (s : State) (k : Nat) : Bool := s.mem.poison.any fun p => p.1 == k / 64

/-- Whether some bytes at their home meet a poisoned line. -/
def homePoison (s : State) (k n : Nat) : Bool := !s.mem.poison.isEmpty && (List.range n).any fun i => linePoisoned s (k + i)

/-! ### Page tables (spec/08 R156) -/

/-- What a walk finds. -/
inductive Walk where
  | leaf (pte : W64)
  | absent
  | malformed
  | hole (pa : Nat)
  /-- An entry lies in a poisoned line (spec/22 R355). -/
  | poisoned
  deriving DecidableEq, Repr

/-- Whether a leaf of a SIZE may stand at a level. -/
def sizeAllowed (level size : Nat) : Bool :=
  match level with
  | 1 => decide (size ≤ 1)
  | 2 => size == 2
  | 3 => size == 3
  | _ => false

/-- The walk from a table of a level down (R156). -/
def walkFrom (s : State) : Nat → Nat → Nat → Walk
  | 0, _, _ => .malformed
  | lv + 1, table, va =>
    let a := table + 8 * (va >>> (12 + 9 * lv) % 512)
    if memTop ≤ a then .hole a
    else if homePoison s a 8 then .poisoned
    else
      let e := homeWord s a
      if !bitAt e 0 then .absent
      else if slice e 1 3 = 0 then
        (if lv = 0 then .malformed else walkFrom s lv ((slice e 12 32).toNat * 4096) va)
      else if sizeAllowed (lv + 1) (slice e 5 2).toNat then .leaf e
      else .malformed

/-- The walk of a virtual address under a root. -/
def walk (s : State) (root : Nat) (va : W64) : Walk := walkFrom s 5 root (va.toNat % 2 ^ 57)

/-- The page-table page that a walk ends in, from a table of a level down. -/
def lastTable (s : State) : Nat → Nat → Nat → Nat
  | 0, table, _ => table
  | lv + 1, table, va =>
    let e := homeWord s (table + 8 * (va >>> (12 + 9 * lv) % 512))
    if lv ≠ 0 ∧ bitAt e 0 ∧ slice e 1 3 = 0 then lastTable s lv ((slice e 12 32).toNat * 4096) va else table

/-- Whether the service core runs that resolves the faults of a virtual address: of the slice that homes the page-table page its walk
ends in (spec/22 R351). -/
def pageServed (s : State) (root : Nat) (va : W64) : Bool := serviceUp s (lastTable s 5 root (va.toNat % 2 ^ 57))

/-- The number of the 4 KiB page of an address. -/
def pageOf (va : W64) : Nat := va.toNat % 2 ^ 57 / 4096

/-- The bits below the size of a leaf's page. -/
def pageBits (pte : W64) : Nat :=
  match (slice pte 5 2).toNat with
  | 0 => 12
  | 1 => 16
  | 2 => 21
  | _ => 30

/-- The physical address a leaf gives (R156). -/
def leafPa (pte va : W64) : Nat :=
  let b := pageBits pte
  (slice pte 12 32).toNat * 4096 / 2 ^ b * 2 ^ b + va.toNat % 2 ^ b

/-- The MODE and PEER of a leaf. -/
def leafMode (pte : W64) : Nat := (slice pte 7 2).toNat
/-- The PEER of a leaf. -/
def leafPeer (pte : W64) : Nat := (slice pte 44 20).toNat

/-- The key a leaf gives an address (R157). -/
def leafKey (s : State) (pte va : W64) : Nat :=
  let pa := leafPa pte va
  let local_ := leafMode pte == 0 || leafPeer pte == s.mgmt.self || leafPeer pte == 0xFFFFF
  let k := if local_ then pa else peerKey (leafPeer pte) pa
  if leafMode pte = 2 then cachedKey k else k

/-- The translation root of the issuing warp. -/
def rootOf_ (s : State) : Nat := s.launch.eff.ptRoot

/-! ### Pages of a space -/

/-- The key of a byte of a record or a call area of a space, if its page is mapped and can be read and written. -/
def keyIn (s : State) (root : Nat) (va : W64) : Option Nat :=
  match walk s root va with
  | .leaf pte => if bitAt pte 1 && bitAt pte 2 then some (leafKey s pte va) else none
  | .absent | .malformed | .hole _ | .poisoned => none

/-- The key of a byte of a record or a call area of the issuing warp. -/
def areaKey (s : State) (va : W64) : Option Nat := keyIn s (rootOf_ s) va

/-- The translation root of a warp's launch. -/
def rootFor (s : State) (w : Warp) : Nat := (launchOf s w.id.seq).elim 0 (·.eff.ptRoot)

/-- The first address of a list whose page is not there so. -/
def firstUnmapped (s : State) (vas : List W64) : Option W64 := vas.find? fun va => (areaKey s va).isNone

end Sys2Proof.Machine
end

