-- ==== Sys2Proof/Machine/Points.lean ====
section
/-! DEFINITION. Bytes at the points of the memory system: L1, die points, home slices and peers (spec/09 R179 to R192), and the
snapshots of replay (spec/22 R344). -/

namespace Sys2Proof.Machine

/-- The place of a key in a core's L1 or at a die's point. -/
def atUnit (unit k : Nat) : Nat := unit * 2 ^ 68 + k

/-! ### Snapshots (spec/22 R344) -/

/-- The bytes of a page at its home. -/
def pageBytes (s : State) (page : Nat) : ByteMap :=
  (List.range 4096).filterMap fun i =>
    let b := homeByte s (page * 4096 + i)
    if b = unwritten then none else some (page * 4096 + i, b)

/-- A free frame, whoever asks for it (log 9). -/
def takeAny (s : State) : Option (Nat × State) :=
  match s.svc.free with
  | [] => none
  | (f, n) :: rest =>
    some (f, { s with svc := { s.svc with free := if n ≤ 1 then rest else (f + 1, n - 1) :: rest } })

/-- A frame given back. -/
def giveFrame (f : Nat) (s : State) : State := { s with svc := { s.svc with free := s.svc.free ++ [(f, 1)] } }

/-- A launch's marked page copied before its first write; with no memory for the copy the launch is to be killed (R343). -/
def snapLaunch (copy : ByteMap) (page : Nat) (s : State) (seq : Nat) : State :=
  match takeAny s with
  | some (f, s1) =>
    modLaunch s1 seq fun l =>
      { l with marked := l.marked.filter (· ≠ page), snapshots := l.snapshots ++ [{ page := page, frame := f, bytes := copy }] }
  | none => modLaunch s seq fun l => { l with marked := l.marked.filter (· ≠ page), snapFailed := true }

/-- The first write to a marked page copies it first, for every launch that marked it. -/
def touchPage (s : State) (page : Nat) : State :=
  let who := (allLaunches s).filter fun l => l.marked.contains page
  if who.isEmpty then s else (who.map (·.seq)).foldl (snapLaunch (pageBytes s page) page) s

/-- The snapshots of a launch freed (R344). -/
def freeSnapshots (seq : Nat) (s : State) : State :=
  match (allLaunches s).find? fun l => decide (l.seq = seq) with
  | none => s
  | some l =>
    l.snapshots.foldl (fun st x => giveFrame x.frame st) (modLaunch s seq fun x => { x with snapshots := [], marked := [], absent := [] })

/-! ### Poisoned lines (spec/22 R355) -/

/-- A line is cured when it is written whole, by one write or by several: when none of its bytes is left from before (R355; DEDUCED,
log 55). -/
def cureByte (k : Nat) (poison : List (Nat × BitVec 64)) : List (Nat × BitVec 64) :=
  (poison.map fun p => if p.1 = k / 64 then (p.1, setBit p.2 (k % 64) false) else p).filter fun p => p.2 != 0

/-- The line of a byte marked poisoned until it is written whole. -/
def markPoison (k : Nat) (s : State) : State :=
  { s with mem := { s.mem with poison := (s.mem.poison.filter fun p => p.1 != k / 64) ++ [(k / 64, BitVec.allOnes 64)] } }

/-- The launches one of whose snapshots lies in the frame of a line that is lost (R343). -/
def loseSnapshots (frame : Nat) (s : State) : State :=
  (((allLaunches s).filter fun l => l.snapshots.any fun x => x.frame == frame).map (·.seq)).foldl
    (fun st q => modLaunch st q fun l => { l with snapFailed := true }) s

/-- The lines of some bytes marked poisoned. -/
def markPoisons (k n : Nat) (s : State) : State :=
  (((List.range n).map fun i => (k + i) / 64).eraseDups).foldl (fun st line => markPoison (line * 64) st) s

/-! ### Home slices -/

/-- The last home order number of a location (spec/20 R310). -/
def homeOrder (s : State) (k : Nat) : Nat := (AList.find s.mem.order k).getD 0

/-- A byte put at its home: a local copy that equals its home's byte is not listed. -/
def putHomeByte (s : State) (k : Nat) (b : Byte) : State :=
  if isCached k then
    let under := k - 2 ^ 66
    { s with mem := { s.mem with
        poison := cureByte k s.mem.poison,
        cached := if ByteMap.read s.mem.home under = b then AList.drop s.mem.cached under else AList.put s.mem.cached under b } }
  else
    { s with mem := { s.mem with
        poison := cureByte k s.mem.poison, home := ByteMap.write s.mem.home k b,
        cached := if AList.find s.mem.cached k = some b then AList.drop s.mem.cached k else s.mem.cached } }

/-- Whether a package write writes a byte. -/
def PkgWrite.has (w : PkgWrite) (k : Nat) : Bool := decide (w.key ≤ k) && decide (k < w.key + w.bytes.length) && !w.gaps.contains (k - w.key)

/-- Whether a write of a byte has been applied at its home and not yet at a die (spec/20 R310). -/
def openWrite (s : State) (d k : Nat) : Bool := s.mem.writes.any fun w => w.home && !bitAt w.applied d && w.has k

/-- The clean copies of a byte at the die points brought up to its home, after a write of a service core or another agent. A die that has
not applied an earlier write of the byte sees neither before it does (R310). -/
def refreshDies (held : Nat → Bool) (k : Nat) (b : Byte) (order : Nat) (die : AList DieByte) : AList DieByte :=
  if die.isEmpty then die
  else (List.range Config.dies).foldl (fun m d =>
    match AList.find m (atUnit d k) with
    | some e => if e.dirty || e.sent.isSome || held d then m else AList.put m (atUnit d k) { e with val := b, order := order }
    | none => m) die

/-- A byte applied at its home with the next home order number, by a service core or another agent. -/
def homeWrite1 (s : State) (k : Nat) (b : Byte) : State :=
  let s1 := putHomeByte (touchPage s (k / 4096)) k b
  let n := homeOrder s k + 1
  { s1 with mem := { s1.mem with order := AList.put s1.mem.order k n, die := refreshDies (fun d => openWrite s1 d k) k b n s1.mem.die } }

/-- Bytes applied at their home from an address on. -/
def homeWrite (s : State) (k : Nat) : List Byte → State
  | [] => s
  | b :: bs => homeWrite (homeWrite1 s k b) (k + 1) bs

/-! ### What the points show -/

/-- Bytes paired with their keys. -/
def keyed (k : Nat) (bs : List Byte) : List (Nat × Byte) := bs.zipIdx.map fun p => (k + p.2, p.1)

/-- A byte at a die's point, and whether it is poisoned. -/
def dieByte (s : State) (d k : Nat) : Byte × Bool :=
  if homeDie k = some d ∧ !isCached k then (homeByte s k, linePoisoned s k)
  else match AList.find s.mem.die (atUnit d k) with
    | some e => (e.val, e.bad)
    | none => (homeByte s k, linePoisoned s k)

/-- A byte as a core's L1 gives it. -/
def coreByte (s : State) (core k : Nat) : Byte × Bool :=
  match AList.find s.mem.l1 (atUnit core k) with
  | some e => (e.val, e.bad)
  | none => dieByte s (dieOfCore core) k

/-- Bytes from an address on, each treated in turn. -/
def eachByte (f : State → Nat → State) (k n : Nat) (s : State) : State := (List.range n).foldl (fun st i => f st (k + i)) s

/-- The bytes of every 16-byte granule that some bytes touch. -/
def granuleKeys (k n : Nat) : List Nat := (List.range ((k + n + 15) / 16 * 16 - k / 16 * 16)).map fun i => k / 16 * 16 + i

/-- The bytes of every 16-byte granule that some bytes touch, each treated in turn: a name is never seen in part (spec/13 R228). -/
def eachGranule (f : State → Nat → State) (k n : Nat) (s : State) : State := (granuleKeys k n).foldl f s

/-- Rising keys as runs of bytes that follow each other in one 16-byte granule: where each begins, and its length. -/
def runsOf (ks : List Nat) : List (Nat × Nat) :=
  ks.foldr (fun k acc => match acc with
    | (a, n) :: rest => if a = k + 1 ∧ a / 16 = k / 16 then (k, n + 1) :: rest else (k, 1) :: acc
    | [] => [(k, 1)]) []

/-- The same, what has been found uncorrectable apart (spec/22 R356). -/
def runsBy (bad : Nat → Bool) (ks : List Nat) : List (Nat × Nat) := runsOf (ks.filter fun k => !bad k) ++ runsOf (ks.filter bad)

/-- Whether L1, or a die's point, holds a byte as uncorrectable. -/
def badL1 (s : State) (core k : Nat) : Bool := (AList.find s.mem.l1 (atUnit core k)).any (·.bad)

/-- The same at a die's point. -/
def badDie (s : State) (d k : Nat) : Bool := (AList.find s.mem.die (atUnit d k)).any (·.bad)

/-- A clean copy of a byte in L1. -/
def l1Fill1 (core k : Nat) (b : Byte) (s : State) : State :=
  { s with mem := { s.mem with l1 := AList.put s.mem.l1 (atUnit core k) { val := b, dirty := false, bad := false, sent := none, via := [] } } }

/-- The L1 copy of a byte, if there is a clean one that is on its way nowhere, brought up to a value (spec/09 R181). -/
def l1Refresh1 (core k : Nat) (b : Byte) (s : State) : State :=
  match AList.find s.mem.l1 (atUnit core k) with
  | some e => if e.dirty || e.sent.isSome then s else l1Fill1 core k b s
  | none => s

/-- The clean L1 copies of the granules that some bytes touch brought up to the die point, whole (spec/09 R181, spec/13 R228). -/
def renewL1 (core k n : Nat) (s : State) : State :=
  if s.mem.l1.isEmpty then s else eachGranule (fun st a => l1Refresh1 core a (dieByte st (dieOfCore core) a).1 st) k n s

/-! ### Writes on their way (spec/20 R310, R312, R313) -/

/-- A vector clock. -/
def clockOf (s : State) (d : Nat) : List Nat := s.mem.clocks.getD d (List.replicate 16 0)

/-- Whether a die's clock covers a stamp. -/
def covers (clock stamp : List Nat) : Bool := (List.range 16).all fun e => decide (stamp.getD e 0 ≤ clock.getD e 0)

/-- A die counts a write of die e as applied; one with no number is not counted. -/
def setClock (s : State) (d e seq : Nat) : State :=
  if seq = 0 then s else { s with mem := { s.mem with clocks := modNth s.mem.clocks d fun v => setNth v e seq } }

/-- A write changed. -/
def modWrite (s : State) (id : Nat) (f : PkgWrite → PkgWrite) : State :=
  { s with mem := { s.mem with writes := s.mem.writes.map fun w => if w.id = id then f w else w } }

/-- The bytes a write leaves to be written, with their keys. -/
def PkgWrite.cells (w : PkgWrite) : List (Nat × Byte) := (keyed w.key w.bytes).filter fun p => !w.gaps.contains (p.1 - w.key)

/-- Whether a key is reached over the fabric by packets: a device's memory, directly (spec/20 R313). -/
def byPacket (k : Nat) : Bool := isDirect k && (match keyPeer k with | some p => decide (p < 0xC0000) | none => false)

/-- The next number of a stream. -/
def streamSeq (s : State) (peer die : Nat) : Nat :=
  ((s.fabric.nextSeq.find? fun e => decide (e.1 = (peer, die))).map (·.2)).getD 1

/-- No core: what arrives from outside comes from none. -/
def noCore : Nat := Config.dies * Config.coresPerDie

/-- No warp: the author of what arrives from outside. -/
def outside : WarpId := { seq := 0, gang := 0, wid := 0 }

/-- The core of a warp, if it still exists. -/
def coreOf (s : State) (w : WarpId) : Nat := (findWarp s w).elim noCore (·.core)

/-- A packet put on a stream (R313). -/
def sendOn (s : State) (peer die : Nat) (p : Nat → Sent) : State :=
  let seq := streamSeq s peer die
  { s with fabric := { s.fabric with
      sent := s.fabric.sent ++ [p seq],
      nextSeq := (s.fabric.nextSeq.filter fun e => decide (e.1 ≠ (peer, die))) ++ [((peer, die), seq + 1)] } }

/-- A write of a device's memory sent to it. -/
def sendWrite (s : State) (w : PkgWrite) : State :=
  let peer := (keyPeer w.key).getD 0
  sendOn s peer w.die fun seq =>
    { peer := peer, die := w.die, seq := seq, resends := 0, warp := w.warp, op := w.op, fn := .store, bytes := 0, accs := [],
      write := some w.id }

/-- A write listed among those on their way. -/
def listWrite (s : State) (wr : PkgWrite) : State :=
  { s with mem := { s.mem with nextWrite := s.mem.nextWrite + 1, writes := s.mem.writes ++ [wr] } }

/-- A write put on its way; one of a device's memory in a packet. -/
def putWrite (s : State) (wr : PkgWrite) : State := if byPacket wr.key then sendWrite (listWrite s wr) wr else listWrite s wr

/-- A package-scope write issues (step 1 of R310): its number and its stamp. -/
def pkgIssue (s : State) (die k : Nat) (bs : List Byte) (atom : Option Nat) (x swap : Nat) (w : WarpId) (op : Option Nat)
    (lane : Nat) : State :=
  let seq := s.mem.issued.getD die 0 + 1
  putWrite { s with mem := { s.mem with issued := setNth s.mem.issued die seq } }
    { id := s.mem.nextWrite, die := die, seq := seq, stamp := setNth (clockOf s die) die (seq - 1), key := k, bytes := bs, atom := atom,
      x := x, swap := swap, home := false, order := 0, applied := 0, warp := w, op := op, lane := lane, gaps := [], bad := false }

/-- The other dies go on showing the old byte until they apply the write. -/
def keepOld (s : State) (h : Option Nat) (k : Nat) (old : Byte) (order : Nat) : State :=
  { s with mem := { s.mem with
      die := (List.range Config.dies).foldl (fun m d =>
        if h = some d ∨ (AList.find m (atUnit d k)).isSome then m
        else AList.put m (atUnit d k) { val := old, order := order, dirty := false, bad := false, sent := none, via := [] }) s.mem.die } }

/-- Cells as the bytes of one write from the first of them on, and the places between them that it leaves alone (spec/16 R269). -/
def cellSpan (cells : List (Nat × Byte)) : Nat × List Byte × List Nat :=
  let k := (cells.map (·.1)).headD 0
  let n := if cells.isEmpty then 0 else (cells.map (·.1)).foldl max k - k + 1
  let at_ (i : Nat) : Option Byte := (cells.find? fun c => c.1 == k + i).map (·.2)
  (k, (List.range n).map fun i => (at_ i).getD 0, (List.range n).filter fun i => (at_ i).isNone)

/-- Some bytes issued as one package write, in rising order of their keys; what lies between them is left alone. -/
def pkgCells (s : State) (die : Nat) (cells : List (Nat × Byte)) (bad : Bool) (w : WarpId) (op : Option Nat) (lane : Nat) : State :=
  if cells.isEmpty then s
  else
    let x := cellSpan cells
    modWrite (pkgIssue s die x.1 x.2.1 none 0 0 w op lane) s.mem.nextWrite fun y => { y with gaps := x.2.2, bad := bad }

/-! ### A write applied at its home and at the dies (R310) -/

/-- Two stamps joined entry by entry. -/
def joinStamp (a b : List Nat) : List Nat := (List.range 16).map fun i => max (a.getD i 0) (b.getD i 0)

/-- A write's stamp with the causal past of what it overwrites, which a later value of its place in home order has too: the stamps and the
numbers of the writes on their way that its home has applied to one of its bytes (R310, R311). -/
def pastOf (s : State) (w : PkgWrite) : List Nat :=
  (s.mem.writes.filter fun x => x.home && x.cells.any fun c => w.has c.1).foldl
    (fun st x => joinStamp st (setNth x.stamp x.die (max x.seq (x.stamp.getD x.die 0)))) w.stamp

/-- The next home order number of several locations together. -/
def nextOrder (s : State) (k n : Nat) : Nat := (List.range n).foldl (fun m i => max m (homeOrder s (k + i))) 0 + 1

/-- One byte of a write applied at its home. -/
def pkgHomeByte (h : Option Nat) (order : Nat) (s : State) (p : Nat × Byte) : State :=
  let s1 := keepOld s h p.1 (homeByte s p.1) (homeOrder s p.1)
  let s2 := putHomeByte (touchPage s1 (p.1 / 4096)) p.1 p.2
  { s2 with mem := { s2.mem with order := AList.put s2.mem.order p.1 order } }

/-- The die that homes a write; none for a place at a peer or a local copy. -/
def writeHome (w : PkgWrite) : Option Nat := if isCached w.key then none else homeDie w.key

/-- What a unit had sent with a write has reached its die's point: the copies are no longer on their way (R312). -/
def arrived (w : PkgWrite) (s : State) : State :=
  { s with mem := { s.mem with l1 := s.mem.l1.map fun e => if e.2.sent = some w.id then (e.1, { e.2 with sent := none }) else e } }

/-- The L1 copies at the warp of a write follow once its own die has applied it (spec/09 R181). -/
def followL1 (w : PkgWrite) (d : Nat) (s : State) : State :=
  let s1 := if d = w.die then arrived w s else s
  let core := coreOf s1 w.warp
  if w.op.isSome ∧ dieOfCore core = d ∧ !w.bad then renewL1 core w.key w.bytes.length s1 else s1

/-- Step 2 of R310 for a write whose bytes are known: the home takes its order number and applies it. -/
def pkgAtHome (s : State) (w : PkgWrite) (bs : List Byte) : State :=
  let h := writeHome w
  let w1 : PkgWrite := { w with bytes := bs }
  let n := nextOrder s w.key bs.length
  let past := pastOf s w1
  let s1 := w1.cells.foldl (pkgHomeByte h n) s
  let s2 := if w.bad then markPoisons w.key bs.length s1 else s1
  let s3 := modWrite s2 w.id fun x =>
    { x with
      bytes := bs, stamp := past, home := true, order := n,
      applied := match h with | some d => x.applied ||| BitVec.ofNat 16 (2 ^ d) | none => x.applied }
  match h with
  | some d => followL1 w1 d (setClock s3 d w.die w.seq)
  | none => s3

/-- One byte of a write applied at a die point (step 3 and step 4 of R310). The die's own byte that is on its way with another write is
later in home order, and stays; with this one, it has its number. A clean byte that is its home's, or that no write on its way to the die
changes any more, is the home's again. -/
def pkgDieByte (d : Nat) (w : PkgWrite) (s : State) (p : Nat × Byte) : State :=
  match AList.find s.mem.die (atUnit d p.1) with
  | none => s
  | some e =>
    let e1 : DieByte :=
      if e.sent = some w.id then { e with order := w.order, sent := none }
      else if e.sent.isNone ∧ e.order < w.order then { val := p.2, order := w.order, dirty := false, bad := false, sent := none, via := [] }
      else e
    { s with mem := { s.mem with
        die := if !e1.dirty && e1.sent.isNone && (e1.order == homeOrder s p.1 || !openWrite s d p.1) then AList.drop s.mem.die (atUnit d p.1)
               else AList.put s.mem.die (atUnit d p.1) e1 } }

/-- What a die had sent with a write that wrote nothing is its home's again. -/
def unsent (d : Nat) (w : PkgWrite) (s : State) : State :=
  let back (e : Nat × DieByte) : Option (Nat × DieByte) :=
    if e.2.sent = some w.id then (if e.2.dirty then some (e.1, { e.2 with sent := none }) else none) else some e
  if w.die = d ∧ w.bytes.isEmpty then { s with mem := { s.mem with die := s.mem.die.filterMap back } } else s

/-- Step 3 of R310: a die applies a write; the clean L1 copies of its warp follow on that warp's die (spec/09 R181). -/
def pkgAtDie (s : State) (w : PkgWrite) (d : Nat) : State :=
  let s1 := modWrite s w.id fun x => { x with applied := x.applied ||| BitVec.ofNat 16 (2 ^ d) }
  followL1 w d (unsent d w (setClock (w.cells.foldl (pkgDieByte d w) s1) d w.die w.seq))

/-- Whether a write's turn at a die has come (step 3 of R310). -/
def dieDue (s : State) (w : PkgWrite) (d : Nat) : Bool :=
  w.home && decide (d < Config.dies) && !bitAt w.applied d && covers (clockOf s d) w.stamp

/-- A write by number. -/
def findWrite (s : State) (id : Nat) : Option PkgWrite := s.mem.writes.find? fun w => decide (w.id = id)

/-- A write applied at its home at once, and at its own die if its turn there has come. -/
def atOnce (wr : PkgWrite) (s : State) : State :=
  let s1 := pkgAtHome s wr wr.bytes
  match findWrite s1 wr.id with
  | some x => if dieDue s1 x x.die then pkgAtDie s1 x x.die else s1
  | none => s1

/-- A write of a die with no number and an empty stamp (R312). -/
def plainWrite (s : State) (die k : Nat) (bs : List Byte) (w : WarpId) (op : Option Nat) (lane : Nat) : PkgWrite :=
  { id := s.mem.nextWrite, die := die, seq := 0, stamp := List.replicate 16 0, key := k, bytes := bs, atom := none, x := 0, swap := 0,
    home := false, order := 0, applied := 0, warp := w, op := op, lane := lane, gaps := [], bad := false }

/-- A write of some cells, in rising order of their keys, with an empty stamp. -/
def cellsWrite (s : State) (die : Nat) (cells : List (Nat × Byte)) (bad : Bool) (w : WarpId) (op : Option Nat) (lane : Nat) : PkgWrite :=
  let x := cellSpan cells
  { plainWrite s die x.1 x.2.1 w op lane with gaps := x.2.2, bad := bad }

/-- Some bytes of a die written to their home at once with an empty stamp, so that the other dies see them when they have applied them
(R312, spec/09 R191, R192). -/
def homeCells (s : State) (die : Nat) (cells : List (Nat × Byte)) (bad : Bool) (w : WarpId) (op : Option Nat) (lane : Nat) : State :=
  if cells.isEmpty then s
  else atOnce (cellsWrite s die cells bad w op lane) (listWrite s (cellsWrite s die cells bad w op lane))

/-- The same, but in a packet to a device (R313). -/
def backCells (s : State) (die : Nat) (cells : List (Nat × Byte)) (bad : Bool) (w : WarpId) (op : Option Nat) (lane : Nat) : State :=
  if cells.isEmpty ∨ !byPacket ((cells.map (·.1)).headD 0) then homeCells s die cells bad w op lane
  else sendWrite (listWrite s (cellsWrite s die cells bad w op lane)) (cellsWrite s die cells bad w op lane)

/-- Whether a peer answers: a host attached to a port, or a device with a path that is not lost (spec/20 R315, R331). -/
def reachable (s : State) (peer : Nat) : Bool :=
  !s.fabric.lost.contains peer && (if 0xC0000 ≤ peer then s.mgmt.hosts.contains peer else !s.fabric.cut.contains peer)

/-- Whether the home of a location answers. -/
def reachableKey (s : State) (k : Nat) : Bool :=
  match keyPeer k with
  | none => true
  | some p => reachable s p

/-! ### Die points -/

/-- A byte kept at a die's point to be written back, with the definitions of the views that it came through. -/
def dieStore1 (d : Nat) (bad : Bool) (via : List Nat) (s : State) (p : Nat × Byte) : State :=
  let s1 := touchPage s (p.1 / 4096)
  let e := (AList.find s1.mem.die (atUnit d p.1)).getD
    { val := 0, order := homeOrder s1 p.1, dirty := false, bad := false, sent := none, via := [] }
  { s1 with mem := { s1.mem with
      die := AList.put s1.mem.die (atUnit d p.1)
        { e with val := p.2, dirty := true, bad := bad, via := (if e.dirty then e.via else []) ++ via.filter fun v => !(e.dirty && e.via.contains v) } } }

/-- Bytes stored at a die's point: at the home when that lies on the die, else kept there to be written back. -/
def dieStore (s : State) (d : Nat) (cells : List (Nat × Byte)) (bad : Bool) (via : List Nat) : State :=
  let k := (cells.map (·.1)).headD 0
  if homeDie k = some d ∧ !isCached k then backCells s d cells bad outside none 0
  else cells.foldl (dieStore1 d bad via) s

/-- A die point's bytes that leave with a write: clean, and on their way with it. -/
def sendDie (d id : Nat) (s : State) (k : Nat) : State :=
  match AList.find s.mem.die (atUnit d k) with
  | some e => { s with mem := { s.mem with die := AList.put s.mem.die (atUnit d k) { e with dirty := false, sent := some id, via := [] } } }
  | none => s

/-- Whether a die has a byte to write back. -/
def isDirtyAt (s : State) (d k : Nat) : Bool := (AList.find s.mem.die (atUnit d k)).any (·.dirty)

/-- Whether a die's dirty byte may be written back with an empty stamp: not while an earlier value of it is on its way, nor before the die
has applied what its home has; and not to a peer that does not answer (R310, R312, R315). -/
def mayFlush (s : State) (d k : Nat) : Bool :=
  (AList.find s.mem.die (atUnit d k)).any (fun e => e.dirty && e.sent.isNone) && !openWrite s d k && (isCached k || reachableKey s k)

/-- A run of a die point's bytes written back: the copies are on their way until the die has applied the write. -/
def dieFlushRun (d : Nat) (s : State) (r : Nat × Nat) : State :=
  let xs := (List.range r.2).map fun i => dieByte s d (r.1 + i)
  backCells (eachByte (sendDie d s.mem.nextWrite) r.1 r.2 s) d (keyed r.1 (xs.map (·.1))) (xs.any (·.2)) outside none 0

/-- Those of some bytes that a die may write back, written back. -/
def dieFlushKeys (d : Nat) (ks : List Nat) (s : State) : State := (runsBy (badDie s d) (ks.filter (mayFlush s d))).foldl (dieFlushRun d) s

/-- Bytes written back from a die point, with the granules they lie in. -/
def dieFlush (d k n : Nat) (s : State) : State := if s.mem.die.isEmpty then s else dieFlushKeys d (granuleKeys k n) s

/-! ### L1 -/

/-- An L1 byte that has been written back; an uncorrectable one is not kept. -/
def cleanL1 (core : Nat) (s : State) (k : Nat) : State :=
  match AList.find s.mem.l1 (atUnit core k) with
  | some e => { s with mem := { s.mem with
      l1 := if e.bad then AList.drop s.mem.l1 (atUnit core k) else AList.put s.mem.l1 (atUnit core k) { e with dirty := false, via := [] } } }
  | none => s

/-- The definitions of views through which a run of L1's bytes were written. -/
def viaOf (s : State) (core : Nat) (r : Nat × Nat) : List Nat :=
  ((List.range r.2).flatMap fun i => ((AList.find s.mem.l1 (atUnit core (r.1 + i))).map (·.via)).getD []).eraseDups

/-- A run of L1's bytes written back to the die point (spec/09 R189). -/
def l1FlushRun (core : Nat) (s : State) (r : Nat × Nat) : State :=
  let xs := (List.range r.2).map fun i => coreByte s core (r.1 + i)
  dieStore (eachByte (cleanL1 core) r.1 r.2 s) (dieOfCore core) (keyed r.1 (xs.map (·.1))) (xs.any (·.2)) (viaOf s core r)

/-- Whether L1 may write a byte back: it is dirty, and no earlier value of it is on its way. -/
def l1MayFlush (s : State) (core k : Nat) : Bool := (AList.find s.mem.l1 (atUnit core k)).any fun e => e.dirty && e.sent.isNone

/-- Those of some bytes that L1 may write back, written back. -/
def l1FlushKeys (core : Nat) (ks : List Nat) (s : State) : State := (runsBy (badL1 s core) (ks.filter (l1MayFlush s core))).foldl (l1FlushRun core) s

/-- Bytes written back from L1, with the granules they lie in. -/
def l1Flush (core k n : Nat) (s : State) : State := if s.mem.l1.isEmpty then s else l1FlushKeys core (granuleKeys k n) s

/-- L1 copies dropped, with the granules they lie in; dirty ones are written back first, and what is on its way stays. -/
def l1Invalidate (core k n : Nat) (s : State) : State :=
  eachGranule (fun st a => match AList.find st.mem.l1 (atUnit core a) with
    | some e => if e.dirty || e.sent.isSome then st else { st with mem := { st.mem with l1 := AList.drop st.mem.l1 (atUnit core a) } }
    | none => st) k n (l1Flush core k n s)

/-- Whether L1 keeps a location: memory, here or at a peer, but no ring and no doorbell. That of a ring block L1 keeps nothing is the
model's choice (DESIGN CHOICE, log 57): a core-scope load of it may return an older value (spec/21 R335), and here never does. -/
def cacheable (k : Nat) : Bool := isCached k || (keyPeer k).isSome || areaOf k == .memory

/-- Whether what a core or its die stored narrower is still on its way, so that an access of a scope of the granules that some bytes touch
has to wait for it (spec/09 R181): to the die point for one of the die, to the home for one that is performed there. -/
def settling (s : State) (core : Nat) (die home : Bool) (k n : Nat) : Bool :=
  (die && !s.mem.l1.isEmpty && (granuleKeys k n).any fun a => (AList.find s.mem.l1 (atUnit core a)).any (·.sent.isSome)) ||
    (home && !s.mem.die.isEmpty && (granuleKeys k n).any fun a =>
      (AList.find s.mem.die (atUnit (dieOfCore core) a)).any fun e => e.sent.isSome || (e.dirty && openWrite s (dieOfCore core) a))

/-! ### Stores of core scope -/

/-- A byte that L1 does not hold taken from the die point, unless its line is poisoned (spec/22 R355). -/
def fillByte (core : Nat) (s : State) (k : Nat) : State :=
  if (AList.find s.mem.l1 (atUnit core k)).isSome then s
  else
    let b := dieByte s (dieOfCore core) k
    if b.2 then s else l1Fill1 core k b.1 s

/-- The granules that some bytes touch taken into L1 whole (spec/13 R228). -/
def fillL1 (core k n : Nat) (s : State) : State := if cacheable k then eachGranule (fillByte core) k n s else s

/-- A byte of L1 stored over an old one: what is on its way goes on, and the definitions of the views it came through are kept. -/
def l1Stored (old : Option L1Byte) (b : Byte) (via : List Nat) : L1Byte :=
  let e := old.getD { val := 0, dirty := false, bad := false, sent := none, via := [] }
  { val := b, dirty := true, bad := false, sent := e.sent, via := (if e.dirty then e.via else []) ++ via.filter fun v => !(e.dirty && e.via.contains v) }

/-- A byte put into L1 by a store. -/
def dirtyL1Byte (core : Nat) (via : List Nat) (s : State) (p : Nat × Byte) : State :=
  let s1 := touchPage s (p.1 / 4096)
  { s1 with mem := { s1.mem with l1 := AList.put s1.mem.l1 (atUnit core p.1) (l1Stored (AList.find s1.mem.l1 (atUnit core p.1)) p.2 via) } }

/-- A store of core scope: performed at L1. -/
def storeCore (s : State) (core k : Nat) (bs : List Byte) (via : List Nat) : State :=
  (keyed k bs).foldl (dirtyL1Byte core via) (fillL1 core k bs.length s)

end Sys2Proof.Machine
end

