-- ==== Sys2Proof/Machine/Record.lean ====
section
/-! DEFINITION. The context record as trap-mode software sees it (spec/05 R93, spec/10 R195, R200, R208): a view computed from
the interrupted context, and stores into it (log 8). -/

namespace Sys2Proof.Machine

/-- The flags that are set (spec/05 R93, CF). -/
def cfBits (c : Ctx) : BitVec 12 :=
  (List.range 12).foldl (fun m i => if (c.cf.toList.getD i 0) = 0 then m else m ||| BitVec.ofNat 12 (2 ^ i)) 0

/-- The PARK code of a wait (spec/05 R93); a register fill has none until its timeout. -/
def parkCode : WaitFor → Nat
  | .none => 0
  | .barrier .. | .gridBarrier _ => 1
  | .page .. | .contextPage _ => 2
  | .object .. => 3
  | .flags => 4
  | .energy => 5
  | .fill _ => 6
  | .counter .. | .timeline .. | .matrixPrevious | .interruptionPoint | .retirement => 7
  | .earlier | .pending _ | .published _ | .quiet _ => 0
  | .lineBudget => 8
  | .contextSlot => 9

/-- The record address of a g register's lanes. -/
def gVa (c : Ctx) (n : Nat) : W64 := c.ctxp + BitVec.ofNat 64 (0x1000 + 128 * n)

/-- The pages of a context record. -/
def recordPages (va : W64) : List W64 := [va, va + 0x1000, va + 0x2000, va + 0x3000]

/-- A context's live registers as bits. -/
def liveBits (c : Ctx) : BitVec 96 :=
  (List.range 96).foldl (fun m n => if (gAt c n).live = 0 then m else m ||| BitVec.ofNat 96 (2 ^ n)) 0

/-- The registers with a write in flight: g0 to g95, then k0 to k23 (R195). -/
def pendBits (c : Ctx) : BitVec 120 :=
  (c.haz.filter fun z => z.op.isSome && z.lanes != 0).foldl (fun m z =>
    match z.reg with
    | .g n => m ||| BitVec.ofNat 120 (2 ^ n)
    | .k n => m ||| BitVec.ofNat 120 (2 ^ (96 + n))
    | .p _ => m) 0

/-- The STATE code of a warp (R93). -/
def stateCode : WarpState → Nat
  | .unborn => 0 | .dormant => 1 | .active => 2 | .parked => 3 | .retired => 4

/-- Whether a context holds a live line in the register file. -/
def holdsLines (c : Ctx) : Bool := c.g.toList.any fun r => decide (r.live ≠ 0) && r.resident

/-- The PARK code of a warp's context: a parked victim whose record page is missing waits for it (R98). -/
def parkOf (w : Warp) (c : Ctx) : Nat := if w.evicting.isSome then 2 else parkCode c.wait

/-- WSTAT of a context (R93), whose lines are in the register file or not. -/
def wstatWord (w : Warp) (c : Ctx) (res trapm : Bool) : W64 :=
  BitVec.ofNat 3 (stateCode w.state) ++ BitVec.ofNat 4 (parkOf w c) ++ bit res ++ bit trapm ++ bit c.deadread ++
    bit w.check ++ bit c.midSeg ++ cfBits c ++ (0 : BitVec 40)

/-- Sixteen PASS counts from a thread on (R93). -/
def passWord (c : Ctx) (t0 : Nat) : W64 :=
  (List.range 16).foldl (fun m i => m ||| ((lane c.passed (t0 + i)).setWidth 64 <<< (4 * i))) 0

/-- Eight bytes of FPST from a thread on (R93). -/
def fpstWord (c : Ctx) (t0 : Nat) : W64 :=
  (List.range 8).foldl (fun m i => m ||| ((lane c.fpst (t0 + i)).setWidth 64 <<< (8 * i))) 0

/-- The words of the frame (R195). -/
def frameWord (w : Warp) (c : Ctx) (i : Nat) : W64 :=
  let f := c.frame
  match i with
  | 0 => BitVec.ofNat 9 f.cause ++ BitVec.ofNat 2 f.kind ++ bit f.valid ++ (0 : BitVec 36) ++ BitVec.ofNat 16 f.trapIdx
  | 1 => f.fpc.setWidth 64
  | 2 => join32 f.lanes f.run
  | 3 => f.addr
  | 4 => f.word
  | 5 => f.busyCf ++ (0 : BitVec 52)
  | 6 => slice (pendBits c) 0 64
  | 7 => (0 : BitVec 8) ++ slice (pendBits c) 96 24 ++ slice (pendBits c) 64 32
  | 8 => f.info
  | 9 => (match w.held with | some h => BitVec.ofNat 9 (causeCode h.cause) ++ bit true ++ (0 : BitVec 54) | none => 0)
  | 10 => (match w.held with | some h => h.addr | none => 0)
  | _ => 0

/-- A view register's word. -/
def viewWord (c : Ctx) (v i : Nat) : W64 := if h : v < 16 then (c.views[v]).toList.getD i 0 else 0

/-- A view register's word replaced. -/
def setViewWord (c : Ctx) (v i : Nat) (x : W64) : Ctx :=
  if h : v < 16 then
    (if h2 : i < 8 then { c with views := c.views.set v ((c.views[v]).set i x) } else c)
  else c

/-- The bits of a view's control word that only the device writes: DEF, WILD, DIDX (spec/15 R239). -/
def viewStateBits : W64 := 0x0000FF0000000000

/-- A word of the record of a warp's context, by its index (R93). `t` is the trap that interrupted it. -/
def recordWord (w : Warp) (t : TrapInfo) (i : Nat) : W64 :=
  let c := t.intr
  if i < 0x20 then (lane c.pcs i).setWidth 64
  else if i < 0x40 then bit (bitAt c.mv (i - 0x20)) ++ (0 : BitVec 9) ++ lane c.meet (i - 0x20)
  else if i < 0x43 then join32 (predMask c (2 * (i - 0x40))) (predMask c (2 * (i - 0x40) + 1))
  else if i = 0x43 then join32 (predMask c 6) 0
  else if i = 0x44 then join32 c.exited c.active
  else if i = 0x45 then t.live0.getD (slice (liveBits c) 0 64)
  else if i = 0x46 then t.live1.getD ((slice (liveBits c) 64 32).setWidth 64)
  else if i = 0x47 then wstatWord w c (w.res && (!t.deact || holdsLines c)) false
  else if i = 0x48 then passWord c 0
  else if i = 0x49 then passWord c 16
  else if i = 0x4A then BitVec.ofNat 16 c.ol ++ BitVec.ofNat 16 c.os ++ BitVec.ofNat 16 c.sp ++ (0 : BitVec 16)
  else if i = 0x4B then c.segh.setWidth 64
  else if i = 0x4C then c.csp
  else if i < 0x51 then fpstWord c (8 * (i - 0x4D))
  else if i < 0x60 then frameWord w c (i - 0x51)
  else if i = 0x60 then c.mst
  else if i = 0x61 then c.mrow
  else if i < 0x80 then 0
  else if i < 0x100 then viewWord c ((i - 0x80) / 8) ((i - 0x80) % 8)
  else if i < 0x118 then kAt c (i - 0x100)
  else if i < 0x200 then 0
  else
    let n := (i - 0x200) / 16
    let l := 2 * ((i - 0x200) % 16)
    join32 (lane (gAt c n).val l) (lane (gAt c n).val (l + 1))

/-- Two predicates stored. -/
def storePreds (c : Ctx) (p : Nat) (v : W64) : Ctx :=
  setPredMask (setPredMask c p allLanes (lo32 v)) (p + 1) allLanes (hi32 v)

/-- A g register's two lanes stored without renaming (spec/11 R212). -/
def storeLanes (c : Ctx) (n l : Nat) (mask v : W64) : Ctx :=
  let put (x : Lanes W32) (l : Nat) (m y : W32) : Lanes W32 := setLane x l ((lane x l &&& ~~~m) ||| (y &&& m))
  let r := gAt c n
  setGReg c n { r with val := put (put r.val l (lo32 mask) (lo32 v)) (l + 1) (hi32 mask) (hi32 v) }

/-- A word stored into the record (R93: fields marked RO discard it), in the bits of a mask. A store to LIVE waits for TRET
(R208); DEADREAD is cleared by a 1. -/
def storeRecordWord (w : Warp) (t : TrapInfo) (i : Nat) (mask v : W64) : TrapInfo :=
  let c := t.intr
  let x := (recordWord w t i &&& ~~~mask) ||| (v &&& mask)
  if i < 0x20 then { t with intr := { c with pcs := setLane c.pcs i (x.setWidth 54) } }
  else if i < 0x40 then
    { t with intr := { c with mv := setBit c.mv (i - 0x20) (bitAt x 63), meet := setLane c.meet (i - 0x20) (x.setWidth 54) } }
  else if i < 0x43 then { t with intr := storePreds c (2 * (i - 0x40)) x }
  else if i = 0x43 then { t with intr := setPredMask c 6 allLanes (lo32 x) }
  else if i = 0x44 then { t with intr := { c with exited := lo32 x } }
  else if i = 0x45 then { t with live0 := some x }
  else if i = 0x46 then { t with live1 := some ((lo32 x).setWidth 64) }
  else if i = 0x47 then (if bitAt (v &&& mask) 54 then { t with intr := { c with deadread := false } } else t)
  else if i = 0x4C then { t with intr := { c with csp := x } }
  else if 0x4D ≤ i ∧ i < 0x51 then
    { t with intr := { c with
        fpst := (List.range 8).foldl (fun f j => setLane f (8 * (i - 0x4D) + j) (slice x (8 * j) 5)) c.fpst } }
  else if i = 0x60 then { t with intr := { c with mst := x &&& 0x3F } }
  else if 0x80 ≤ i ∧ i < 0x100 then
    let n := (i - 0x80) / 8
    let old := recordWord w t i
    let y := if (i - 0x80) % 8 = 1 then (x &&& ~~~viewStateBits) ||| (old &&& viewStateBits) else x
    { t with
      intr := setViewWord c n ((i - 0x80) % 8) y,
      viewsWritten := if y = old ∨ t.viewsWritten.contains n then t.viewsWritten else t.viewsWritten ++ [n] }
  else if 0x100 ≤ i ∧ i < 0x118 then { t with intr := setKReg c (i - 0x100) x }
  else if 0x200 ≤ i then { t with intr := storeLanes c ((i - 0x200) / 16) (2 * ((i - 0x200) % 16)) mask v }
  else t

/-- Bytes of the record. -/
def recordBytes (w : Warp) (t : TrapInfo) (off n : Nat) : List Byte :=
  (List.range n).map fun j => slice (recordWord w t ((off + j) / 8)) (8 * ((off + j) % 8)) 8

/-- The registers that a store to a word of the record names, for the choice of R212. -/
def recordReg (i : Nat) : Option Reg :=
  if 0x200 ≤ i then some (.g ((i - 0x200) / 16)) else if 0x100 ≤ i ∧ i < 0x118 then some (.k (i - 0x100)) else none

/-- The lanes of a register that a store to a word of the record names. -/
def recordLanes (i : Nat) (mask : W64) : Mask :=
  if 0x200 ≤ i then
    let l := 2 * ((i - 0x200) % 16)
    (if lo32 mask = 0 then 0 else BitVec.ofNat 32 (2 ^ l)) ||| (if hi32 mask = 0 then 0 else BitVec.ofNat 32 (2 ^ (l + 1)))
  else allLanes

/-- The bits of a word of the record that n bytes at an offset take. -/
def recordMask (off n : Nat) : W64 := if n ≤ 8 then BitVec.ofNat 64 ((2 ^ (8 * n) - 1) * 2 ^ (8 * (off % 8))) else BitVec.allOnes 64

/-- Whether a store of n bytes at an offset of the record names a register lane with a write in flight (R212). -/
def recordPending (t : TrapInfo) (off n : Nat) : Bool :=
  (List.range ((n + 7) / 8)).any fun j =>
    match recordReg (off / 8 + j) with
    | some r => t.intr.haz.any fun z => z.op.isSome && decide (z.reg = r) && (z.lanes &&& recordLanes (off / 8 + j) (recordMask off n)) != 0
    | none => false

/-- A store of n bytes at an offset of the record: it lies in one word, or in two whole ones. -/
def storeRecord (w : Warp) (t : TrapInfo) (off n v : Nat) : TrapInfo :=
  let t1 := storeRecordWord w t (off / 8) (recordMask off n) (BitVec.ofNat 64 (v * 2 ^ (8 * (off % 8))))
  if n ≤ 8 then t1 else storeRecordWord w t1 (off / 8 + 1) (BitVec.allOnes 64) (BitVec.ofNat 64 (v / 2 ^ 64))

/-! ### The record in memory (R93, R101, spec/09 R186, spec/10 R193; log 8) -/

/-- The trap of the issuing warp changed. -/
def modTrap (s : State) (f : TrapInfo → TrapInfo) : State := { s with warp := { s.warp with trap := s.warp.trap.map f } }

/-- The interrupted context changed. -/
def modIntr (s : State) (f : Ctx → Ctx) : State := modTrap s fun t => { t with intr := f t.intr }

/-- A context that no trap has interrupted, as its record shows it. -/
def plainTrap (c : Ctx) : TrapInfo :=
  { idx := 0, intr := c, deact := false, live0 := none, live1 := none, viewsWritten := [], callRecord := none }

/-- Bytes written at a core's L1, the highest address first. -/
def putL1 (core k : Nat) (bs : List Byte) (s : State) : State :=
  { s with mem := { s.mem with
      l1 := bs.zipIdx.foldr (fun p m => AList.put m (atUnit core (k + p.2)) (l1Stored (AList.find m (atUnit core (k + p.2))) p.1 [])) s.mem.l1 } }

/-- Bytes of one page of a space written by a core at core scope; a page that is not mapped takes none. -/
def saveAt (root core : Nat) (va : W64) (bs : List Byte) (s : State) : State :=
  match keyIn s root va with
  | some k => putL1 core k bs s
  | none => s

/-- Bytes of one page of a record or a call area of the issuing warp written at core scope. -/
def saveBytes (va : W64) (bs : List Byte) (s : State) : State := saveAt (rootOf_ s) s.warp.core va bs s

/-- Words of a record as they stand. -/
def recordRun (w : Warp) (t : TrapInfo) (i n : Nat) : List Byte := (List.range n).flatMap fun j => bytesOf 8 (recordWord w t (i + j)).toNat

/-- Words of the record of a warp written to memory as they stand. -/
def saveWords (w : Warp) (t : TrapInfo) (i n : Nat) (s : State) : State :=
  saveAt (rootFor s w) w.core (t.intr.ctxp + BitVec.ofNat 64 (8 * i)) (recordRun w t i n) s

/-- Words of the interrupted context's record written to memory as they stand. -/
def saveIntr (i n : Nat) (s : State) : State :=
  match s.warp.trap with
  | some t => saveWords s.warp t i n s
  | none => s

/-- The header, the view registers and the k registers of a record written. -/
def saveHeader (w : Warp) (t : TrapInfo) (s : State) : State := saveWords w t 0 0x118 s

/-- What the device keeps current in a record while its context does not run: WSTAT, the counters, the frame's pending writes and
causes, MST and MROW (spec/17 R288). -/
def saveStatus (w : Warp) (t : TrapInfo) (s : State) : State := saveWords w t 0x60 2 (saveWords w t 0x57 5 (saveWords w t 0x47 4 s))

/-- A g register's line of a record written. -/
def saveLine (w : Warp) (t : TrapInfo) (n : Nat) (s : State) : State := saveWords w t (0x200 + 16 * n) 16 s

/-- Lines of a record written. -/
def saveLines (w : Warp) (t : TrapInfo) (ns : List Nat) (s : State) : State := ns.foldl (fun st n => saveLine w t n st) s

/-- The live registers of a context whose lines are not in the register file. -/
def linesOut (c : Ctx) : List Nat := (List.range 96).filter fun n => decide ((gAt c n).live ≠ 0) && !(gAt c n).resident

/-- Whether some bytes from a page's start on, of the issuing warp's record, are read from a poisoned line (spec/22 R355). -/
def rangeLost (s : State) (va : W64) (n : Nat) : Bool :=
  match areaKey s va with
  | some k => (List.range n).any fun i => (coreByte s s.warp.core (k + i)).2
  | none => false

/-- Whether a context's register line is. -/
def lineLost (s : State) (c : Ctx) (n : Nat) : Bool := rangeLost s (gVa c n) 128

/-- The context of a warp whose record is current (R93): in trap mode the interrupted one; else its own when it holds no lines. -/
def recordOf (w : Warp) : Option TrapInfo :=
  match w.trap with
  | some t => some t
  | none => if w.res || w.state == .unborn then none else some (plainTrap w.ctx)

/-- A record that is current brought up to date as its warp has changed: what the device keeps, and some lines. -/
def refreshRecord (w : WarpId) (lines : List Nat) (s : State) : State :=
  match findWarp s w with
  | none => s
  | some x =>
    match recordOf x with
    | none => s
    | some t => saveStatus x t (saveLines x t (lines.filter (linesOut t.intr).contains) s)

/-! ### Spilling a line (R97) -/

/-- Whether a register's line may be spilled: live, in the register file, with no write in flight. -/
def spillable (c : Ctx) (n : Nat) : Bool :=
  decide (n < 96) && decide ((gAt c n).live ≠ 0) && (gAt c n).resident && !(pendBits c).getLsbD n

/-- A register's line written to the record and freed. -/
def spillLine (n : Nat) (c : Ctx) : Ctx := setGReg c n { gAt c n with resident := false }

/-- A line of a context that may be spilled, not among those kept. -/
def victimLine (c : Ctx) (keep : List Nat) : Option Nat := (List.range 96).find? fun n => spillable c n && !keep.contains n

/-- A line of the issuing context spilled. -/
def spillHere (n : Nat) (s : State) : State := modCtx (saveLine s.warp (plainTrap (ctxOf s)) n s) (spillLine n)

/-- A line of the interrupted context spilled. -/
def spillIntr (t : TrapInfo) (n : Nat) (s : State) : State := modIntr (saveLine s.warp t n s) (spillLine n)

/-- The lines of a context that may be spilled. -/
def spillables (c : Ctx) : List Nat := (List.range 96).filter (spillable c)

/-- Whether a register has been spilled with dead lanes: they are 0 in the record once its context is deactivated (R96). -/
def spilledPart (c : Ctx) (n : Nat) : Bool := decide ((gAt c n).live ≠ 0) && !(gAt c n).resident && decide ((gAt c n).live ≠ allLanes)

/-- The lines that a deactivation writes to the record (R96, R101): those that may be spilled, and those spilled with dead lanes. -/
def writtenLines (c : Ctx) : List Nat := (List.range 96).filter fun n => spillable c n || spilledPart c n

/-- The resident lines without a write in flight written back and freed, as the lines spilled before are (R96, R101): in the record a dead
lane of a live register is 0. -/
def writeBack (c : Ctx) : Ctx :=
  { c with
    g := Vector.ofFn fun i : Fin 96 =>
      let r := c.g[i]
      if spillable c i.val || spilledPart c i.val then
        { val := lanesOf fun l => if bitAt r.live l then lane r.val l else 0, live := allLanes, resident := false }
      else r }

end Sys2Proof.Machine
end

