-- ==== Sys2Proof/Machine/Ops.lean ====
section
/-! DEFINITION. The shared operations of the thread engine: who runs a word, how a word ends, taking an exception and routing
a cause (spec/10 R193 to R199), waits (spec/02 R31, spec/05 R101), operations in flight with their flags and counters
(spec/04 R72, spec/08 R161), warps, gangs, barrier registers and timeline counters. -/

namespace Sys2Proof.Machine

open Host (Outcome)

/-- The port whose host is active (spec/22 R349). -/
def activePort (s : State) : Option Nat := (s.cp.leases.zipIdx.find? fun l => l.1.role == 1).map (·.2)

/-- An interrupt signalled on an event class of a region when that class is enabled in its IRQ word (spec/02 R20): to the active port's
host; with none it waits until a host claims that role (spec/22 R350; that it waits is a DESIGN CHOICE, log 33). -/
def signal (s : State) (region : Nat) (irq : W64) (cls : Nat) : State :=
  if bitAt irq (16 * cls + 15) then
    { s with cp := { s.cp with
        irqs := s.cp.irqs ++ [{ port := activePort s, region := region, cls := cls, vector := (slice irq (16 * cls) 11).toNat }] } }
  else s

/-- The interrupts that wait for an active host delivered to a port's. -/
def deliverWaiting (port : Nat) (s : State) : State :=
  { s with cp := { s.cp with irqs := s.cp.irqs.map fun i => if i.port.isNone then { i with port := some port } else i } }

/-! ### Who runs a word -/

/-- The index no trap record has: of a trap context that has ended. -/
def noTrap : Nat := 65535

/-- Whether the issuing warp is in trap mode (spec/10 R193). -/
def trapMode (s : State) : Bool := s.warp.trap.isSome

/-- The threads that run the next word: of the issuing group, not exited, within the predicate block (spec/04 R77). -/
def runMask (c : Ctx) : Mask := c.active &&& ~~~c.exited &&& (c.blocks.headD allLanes)

/-- The threads of the issuing group that have not exited. -/
def groupMask (c : Ctx) : Mask := c.active &&& ~~~c.exited

/-- Open separations after some clocks of distance (spec/04 R68). -/
def tickHaz (d : Nat) (hs : List Haz) : List Haz :=
  (hs.map fun z => if z.op.isSome then z else { z with left := z.left - d }).filter fun z => z.op.isSome || decide (0 < z.left)

/-- A word issues with its distance (spec/04 R67): the clock and the open separations move on. -/
def tick (d : BitVec 3) (s : State) : State :=
  let s1 := { s with clock := s.clock + max 1 d.toNat }
  let s2 := { s1 with warp := { s1.warp with lastIssue := s1.clock } }
  modCtx s2 fun c => { c with haz := tickHaz d.toNat c.haz }

/-- Every fixed-latency result is written (spec/04 R69): only operations in flight stay open. -/
def settleHaz (c : Ctx) : Ctx := { c with haz := c.haz.filter fun z => z.op.isSome }

/-- The warp goes on to the next word. -/
def advance (s : State) : State :=
  modCtx s fun c => { c with npc := c.npc + 1, blocks := c.blocks.tail, wait := .none, met := false }

/-- The PC of every thread as the record shows it: inside a segment the issuing group's is the next word (spec/05 R93). -/
def pcsNow (c : Ctx) : Lanes WAddr :=
  lanesOf fun t => if c.inSeg && bitAt (groupMask c) t then c.npc else lane c.pcs t

/-! ### Waiting (spec/05 R101) -/

/-- The warp waits at the word (R101): it parks, but for a register fill, whose first 64 clocks only stall it (R97), and for
the waits of a word on its own warp's accesses, which have no PARK code. Every fixed-latency result is then written: the spec says
so of a register fill (R97), and the model takes it of every wait inside a segment (DESIGN CHOICE, log 53). -/
def holdWarp (s : State) (w : WaitFor) : State :=
  let s1 := modCtx s fun c => { settleHaz c with wait := w, met := false, midSeg := c.inSeg }
  match w with
  | .fill _ | .earlier | .pending _ | .published _ | .quiet _ => s1
  | _ => { s1 with warp := { s1.warp with state := .parked, parkedAt := s1.clock } }

/-! ### Taking an exception (spec/10 R193 to R198) -/

/-- The trap records of a pool of an address space that are in use: trap contexts and their call areas. -/
def usedRecords (s : State) (root : Nat) (pool : W64) : List Nat :=
  (allWarps s).flatMap fun w =>
    match w.trap with
    | some t =>
      if (launchOf s w.id.seq).any fun l => decide (l.eff.ptRoot = root) && decide (l.eff.trapPool = pool) then
        t.idx :: (match t.callRecord with | some r => [r] | none => [])
      else []
    | none => []

/-- The lowest free trap record of the issuing warp's region (R193). -/
def freeRecord (s : State) : Option Nat :=
  let used := usedRecords s s.launch.eff.ptRoot s.launch.eff.trapPool
  (List.range (used.length + 1)).find? fun i => decide (i < s.launch.eff.trapCount) && !used.contains i

/-- The record address of a trap record. -/
def recordVa (s : State) (i : Nat) : W64 := s.launch.eff.trapPool + BitVec.ofNat 64 (i * 16384)

/-- The frame of a cause (R195). -/
def frameOf (c : Ctx) (kind : Nat) (fpc : WAddr) (word : W64) (run : Mask) (r : Raised) (idx : Nat) : Frame :=
  { cause := causeCode r.cause, kind := kind, valid := true, trapIdx := idx, fpc := fpc, run := run, lanes := r.lanes,
    addr := r.addr, word := word, busyCf := cfBits c, info := r.info }

/-- The interrupted context as it stands when its warp traps (R193, R195). -/
def interrupted (c : Ctx) (kind : Nat) (f : Frame) : Ctx :=
  { settleHaz c with
    pcs := pcsNow c, midSeg := decide (kind = 0), inSeg := decide (kind = 0), wait := .none, met := false, frame := f }

/-- The first k registers of a trap context (R194). -/
def trapK (intr : Ctx) (f : Frame) : Vector W64 24 :=
  (((((Vector.replicate 24 (0 : W64)).set 0 (BitVec.ofNat 64 f.cause)).set 1 intr.ctxp).set 2 (join32 f.lanes f.run)).set 3
    (f.fpc.setWidth 64)).set 4 f.addr |>.set 5 f.word

/-- A trap context as it starts (R194). -/
def trapCtx (s : State) (intr : Ctx) (f : Frame) : Ctx :=
  { Ctx.zero with
    pcs := Vector.replicate 32 (s.launch.eff.trapEntry.setWidth 54), k := trapK intr f, nbv := intr.nbv,
    ctxp := recordVa s f.trapIdx }

/-- The warp enters trap mode (R193, R194): the interrupted context is kept as it stands, and the trap context starts. -/
def enterTrap (s : State) (kind : Nat) (fpc : WAddr) (word : W64) (run : Mask) (r : Raised) (idx : Nat) : State :=
  let f := frameOf (ctxOf s) kind fpc word run r idx
  let intr := interrupted (ctxOf s) kind f
  { s with warp := { s.warp with
      ctx := trapCtx s intr f,
      trap := some { idx := idx, intr := intr, deact := false, live0 := none, live1 := none, viewsWritten := [], callRecord := none } } }

/-- A cause goes to the command processor, and the warp stops (R196, spec/22 R346). -/
def toCommandProcessor (s : State) (c : Cause) (addr info : W64) (onMemoryWord : Bool) : State :=
  let stop : CpStop := { cause := c, info := info, addr := addr, onMemoryWord := onMemoryWord }
  { s with
    warp := { s.warp with ctx := settleHaz (ctxOf s), stopped := some stop },
    cp := { s.cp with queue := s.cp.queue ++ [(s.warp.id, stop)] } }

/-- DOUBLE_FAULT, with the original cause in INFO (R197). -/
def doubleFault (s : State) (c : Cause) : State :=
  toCommandProcessor s .doubleFault 0 (BitVec.ofNat 64 (causeCode c)) false

/-- The interrupted context's header, views and k registers written to its record (R193). -/
def saveTrap (s : State) : State :=
  match s.warp.trap with
  | some t => saveHeader s.warp t s
  | none => s

/-- A cause taken (R193, R196 to R198): by the region's handler, or by the command processor. Kind 0 is a word's, 1 a
header's or fetch's, 2 an asynchronous one, 3 pre-emption. A warp whose record is not there waits for the page first (spec/05
R98). -/
def takeCause (s : State) (kind : Nat) (fpc : WAddr) (word : W64) (run : Mask) (r : Raised) : State :=
  match causeRoute r.cause with
  | .commandProcessor => toCommandProcessor s r.cause r.addr r.info false
  | .never => s
  | .serviceCore | .handler =>
    if r.cause = .contextPage then toCommandProcessor s .contextPage r.addr r.info false
    else if trapMode s then doubleFault s r.cause
    else if s.launch.eff.trapEntry = 0 then doubleFault s r.cause
    else match freeRecord s with
      | none => toCommandProcessor s .trapPoolEmpty 0 0 false
      | some i =>
        match firstUnmapped s [(ctxOf s).ctxp] with
        | some va => holdWarp s (.contextPage va)
        | none => saveTrap (enterTrap s kind fpc word run r i)

/-- Whether a warp that was to take a cause waits for its record's page instead. -/
def awaitsRecord (t : State) : Bool := t.warp.trap.isNone && t.warp.stopped.isNone

/-- The 64 bits of a word. -/
def wordOf (i : Instr) : W64 := (encode i).getD 0

/-- A cause a word raises (R195, KIND 0): FPC is the word, and the group's PCs stay at it. -/
def wordCause (s : State) (i : Instr) (run : Mask) (r : Raised) : State :=
  let s1 := if s.svc.refused.isEmpty then s
    else { s with svc := { s.svc with refused := s.svc.refused.filter fun x => decide (x.1 ≠ s.warp.id) } }
  takeCause s1 0 (ctxOf s1).npc (wordOf i) run r

/-! ### Lines (spec/05 R97, R98) -/

/-- A word that lacks a line (spec/05 R97): a line of its own warp that is no operand of it is spilled first and the word waits as
`w` says; when none can be spilled it waits as `full` says. A record page that is missing is waited for (R98); that of a trap
context is a double fault (spec/10 R197). -/
def makeRoom (s : State) (keep : List Nat) (w full : WaitFor) : Res :=
  match victimLine (ctxOf s) keep with
  | some n =>
    (match firstUnmapped s [gVa (ctxOf s) n] with
     | some va => if trapMode s then .went (doubleFault s .contextPage) else .hold s (.contextPage va)
     | none => .hold (spillHere n s) w)
  | none =>
    match s.warp.trap with
    | none => .hold s full
    | some t =>
      match victimLine t.intr [] with
      | none => .hold s full
      | some n =>
        match firstUnmapped s [gVa t.intr n] with
        | some va => .hold s (.contextPage va)
        | none => .hold (spillIntr t n s) w

/-- A word that waits for a line spills one of its own warp first, and issues again (spec/05 R97). -/
def roomed (us : List Use) (r : Res) : Res :=
  match r with
  | .hold s .lineBudget => makeRoom s (us.flatMap useRegs) .earlier .lineBudget
  | _ => r

/-- A word's sources read (spec/05 R97): a register miss holds the word, room for its line made first; else what follows acts on
the state after the reads. -/
def reading (s : State) (run : Mask) (us : List Use) (k : State → Res) : Res :=
  match missing s us with
  | some n => if lineRoom s 1 then .hold s (.fill n) else makeRoom s (us.flatMap useRegs) (.fill n) (.fill n)
  | none => roomed us (k (afterReads s run us))

/-! ### Check mode (spec/05 R105 to R107, log 12) -/

/-- More events counted for the Strata (spec/22 R357): kind x 2^20 + unit. Kinds: 0 corrected and 1 uncorrectable codewords of a
pseudo-channel, 2 the withdrawal state, 4 check mismatches, 5 re-issues and 6 checksum re-executions of a core, 3 retries and 13 resends
of a link, 7 SECDED corrections and 8 double-bit errors of a die, 9 failed pin pairs (16 x pseudo-channel + pair), 10 die temperatures
(4,096 x die + temperature), 11 package powers, 12 power-on clocks. -/
def addStrata (key n : Nat) (s : State) : State :=
  { s with mgmt := { s.mgmt with pendingStrata := AList.put s.mgmt.pendingStrata key ((AList.find s.mgmt.pendingStrata key).getD 0 + n) } }

/-- One more event counted. -/
def countStrata (key : Nat) (s : State) : State := addStrata key 1 s

/-- The next transient error to come; none fails nothing. -/
def nextUpset (s : State) : Upset := s.mgmt.upsets.headD { fails := 0, late := false }

/-- The next transient error is past. -/
def dropUpset (s : State) : State := { s with mgmt := { s.mgmt with upsets := s.mgmt.upsets.tail } }

/-- How often the two copies of the word that issues differ: only a warp in check mode compares. -/
def copyFails (s : State) : Nat := if s.warp.check && !(nextUpset s).late then (nextUpset s).fails else 0

/-- The next bit error in storage to come (spec/22 R356). -/
def nextStorage (s : State) : Option StorageError := s.mgmt.storage.head?

/-- The next bit error in storage is past, and counted for a die. -/
def passStorage (kind die : Nat) (s : State) : State :=
  countStrata (kind * 2 ^ 20 + die) { s with mgmt := { s.mgmt with storage := s.mgmt.storage.tail } }

/-- Whether L1 of a core (`l1`), or a die point, has a byte to write back in a line of 128 bytes. -/
def dirtyLine (lines : List (Nat × Bool)) (unit key : Nat) : Bool :=
  lines.any fun e => e.2 && e.1 / 2 ^ 68 == unit && e.1 % 2 ^ 68 / 128 == key / 128

/-- Whether an entry of L1 or of a die point lies in the 64-bit word of a key, or in its line of 128 bytes. -/
def inUnit (unit key size : Nat) (at_ : Nat) : Bool := at_ / 2 ^ 68 == unit && at_ % 2 ^ 68 / size == key / size

/-- Two bits lost in a cache (spec/22 R356): in a line to be written back the word is uncorrectable; a clean line is dropped, but what is
on its way home. -/
def strikeL1 (core key : Nat) (m : Mem) : Mem :=
  if dirtyLine (m.l1.map fun e => (e.1, e.2.dirty)) core key then
    { m with l1 := m.l1.map fun e => if inUnit core key 8 e.1 then (e.1, { e.2 with dirty := true, bad := true }) else e }
  else { m with l1 := m.l1.filter fun e => !inUnit core key 128 e.1 || e.2.sent.isSome }

/-- The same at a die point; a byte there that only waits for a package write is kept. -/
def strikeDie (die key : Nat) (m : Mem) : Mem :=
  if dirtyLine (m.die.map fun e => (e.1, e.2.dirty)) die key then
    { m with die := m.die.map fun e => if inUnit die key 8 e.1 && e.2.dirty then (e.1, { e.2 with bad := true }) else e }
  else m

/-- A bit error in storage that needs no consumer to be met (spec/22 R356). -/
def strike (s : State) : State :=
  let die := dieOfCore s.warp.core
  match nextStorage s with
  | some .corrected => passStorage 7 die s
  | some (.l1 core key) => passStorage 8 (dieOfCore core) { s with mem := strikeL1 core key s.mem }
  | some (.diePoint d key) => passStorage 8 d { s with mem := strikeDie d key s.mem }
  | some (.translation n) => passStorage 8 die { s with mem := { s.mem with tlb := s.mem.tlb.eraseIdx n } }
  | some .slotCache => passStorage 8 die s
  | some .register | some .scratchpad | some .deckle | some (.felt _) | none => s

/-- Whether a word uses the Deckle: it registers a view or frees one (spec/15 R244). -/
def usesDeckle : Instr → Bool
  | .vdef _ | .vset _ | .vret _ => true
  | _ => false

/-- Whether a word meets an uncorrectable register or Deckle entry. -/
def storageFails (s : State) (i : Instr) : Bool :=
  nextStorage s == some .register || (nextStorage s == some .deckle && usesDeckle i)

/-- A word of a check-mode warp takes the next transient error, unless that is one of results that return later; another warp's
takes none; a bit error in storage that is due is met (spec/22 R356). -/
def passUpset (s : State) : State :=
  let s1 := if s.warp.check && !(nextUpset s).late then dropUpset s else s
  if s1.mgmt.storage.isEmpty then s1 else strike s1

/-- CHECK_MISMATCH counted for a core (R107). -/
def countMismatchOn (core : Nat) (s : State) : State :=
  countStrata (4 * 2 ^ 20 + core) (modCore s core fun c => { c with mismatches := c.mismatches ++ [s.clock] })

/-- CHECK_MISMATCH counted for the core of the issuing warp. -/
def countMismatch (s : State) : State := countMismatchOn s.warp.core s

/-- A word re-issued once, counted for a core. -/
def countReissueOn (core : Nat) (s : State) : State := countStrata (5 * 2 ^ 20 + core) s

/-- A word of the issuing warp re-issued once, counted. -/
def countReissue (s : State) : State := countReissueOn s.warp.core s

/-! ### How a word ends -/

/-- The outcome of a word. -/
def finish (i : Instr) (run : Mask) : Res → Outcome State Fault Refusal
  | .done s => .next (advance s)
  | .went s => .next s
  | .raise s r => .next (wordCause s i run r)
  | .hold s w => .next (holdWarp s w)
  | .stop f => .fault f

/-- A word issues (spec/04 R67, R77, R85): no thread runs it, or a decode cause is raised, or it has its effect; a register or a
Deckle entry it uses may have lost two bits (spec/22 R356), and in check mode its copies may differ, once or again (spec/05 R107). -/
def runWord (i : Instr) (dist : BitVec 3) (body : Mask → State → Res) (s : State) : Outcome State Fault Refusal :=
  let s1 := tick dist s
  let run := runMask (ctxOf s1)
  if run = 0 then .next (advance s1)
  else
    match decodeCause (ctxOf s1).seg.raiseA (ctxOf s1).seg.raiseB (trapMode s1) i with
    | some c => .next (wordCause s1 i run { cause := c, lanes := run, addr := 0, info := 0 })
    | none =>
      let s2 := passUpset s1
      if storageFails s1 i then
        .next (wordCause (passStorage 8 (dieOfCore s1.warp.core) s1) i run { cause := .uncorrectableMemory, lanes := run, addr := 0, info := 0 })
      else if copyFails s1 = 0 then finish i run (body run s2)
      else if copyFails s1 = 1 then finish i run (body run (countReissue s2))
      else .next (wordCause (countMismatch (countReissue s2)) i run { cause := .checkMismatch, lanes := run, addr := 0, info := 0 })

/-- Every thread of the warp that has not exited must run the word, else ILLEGAL_CONVERGENCE (spec/04 R77). -/
def converged (run : Mask) (s : State) (k : Res) : Res :=
  if ~~~(ctxOf s).exited &&& ~~~run ≠ 0 then raiseAt s .illegalConvergence run else k

/-- An E word issues: every thread of the warp that has not exited must run it (spec/04 R77). -/
def runEWord (i : Instr) (dist : BitVec 3) (body : Mask → State → Res) (s : State) : Outcome State Fault Refusal :=
  runWord i dist (fun run s1 => converged run s1 (body run s1)) s

/-! ### Operations in flight -/

/-- A completion flag's count changed. -/
def modFlag (c : Ctx) (i : Nat) (f : Nat → Nat) : Ctx := if h : i < 12 then { c with cf := c.cf.set i (f c.cf[i]) } else c

/-- One more operation in flight on a flag (spec/04 R72). -/
def raiseFlag (c : Ctx) : Option Nat → Ctx
  | some i => modFlag c i (· + 1)
  | none => c

/-- One operation fewer in flight on a flag. -/
def dropFlag (c : Ctx) : Option Nat → Ctx
  | some i => modFlag c i (· - 1)
  | none => c

/-- The flag the word's flag select raises (spec/04 R71). -/
def flagOf (s : State) (sel : BitVec 2) : Option Nat := raisedFlag (ctxOf s).seg.raiseA (ctxOf s).seg.raiseB sel

/-- A counter's value: 1 ol, 2 os, 3 sp (spec/08 R161). -/
def counterOf (c : Ctx) : Nat → Nat
  | 1 => c.ol
  | 2 => c.os
  | 3 => c.sp
  | _ => 0

/-- A counter changed. -/
def modCounter (c : Ctx) (which : Nat) (f : Nat → Nat) : Ctx :=
  match which with
  | 1 => { c with ol := f c.ol }
  | 2 => { c with os := f c.os }
  | 3 => { c with sp := f c.sp }
  | _ => c

/-- An operation issues: it takes its number, raises its flag, is counted, and claims its destinations (R72, R161, R94). A
scratchpad word's flag stays until `sp` reaches zero. `c0` is the context before the word. -/
def issueFrom (c0 : Ctx) (s : State) (i : Instr) (run : Mask) (counter : Nat) (dsts : List Dst) (kind : OpKind) : State :=
  let flag := flagOf s (flagSel i)
  let op : Op := { id := s.nextOp, fpc := (ctxOf s).npc, word := wordOf i, run := run, flag := flag, counter := counter,
                   dsts := dsts, kind := kind }
  let s1 := modCtx { s with nextOp := s.nextOp + 1 } fun c =>
    let c1 := modCounter (raiseFlag c flag) counter (· + 1)
    let c2 := (dsts.flatMap dstRegs).foldl (fun x r => claimLater c0 op.id run r x) c1
    { c2 with
      ops := c2.ops ++ [op],
      spFlags := if counter = 3 then c2.spFlags ++ (match flag with | some f => [f] | none => []) else c2.spFlags }
  s1

/-- An operation without a destination issues. -/
def issueOp (s : State) (i : Instr) (run : Mask) (counter : Nat) (kind : OpKind) : State :=
  issueFrom (ctxOf s) s i run counter [] kind

/-- A word that would take its counter beyond 65,535 waits until it falls (R161). -/
def counted (s0 : State) (counter : Nat) (k : Res) : Res :=
  if 65535 ≤ counterOf (ctxOf s0) counter then .hold s0 (.counter (counter - 1) 65534) else k

/-- A word whose result lands later: its fresh lines are taken, it is counted, and it issues (R94, R97, R161). -/
def issueLater (s0 s : State) (i : Instr) (run : Mask) (counter : Nat) (d : BitVec 7) (width : Nat) (kind : OpKind) : Res :=
  if lineRoom s (dstLines d width) then
    counted s0 counter (.done (issueFrom (ctxOf s0) s i run counter (laterDst d width run) kind))
  else .hold s0 .lineBudget

/-! ### Barrier registers (spec/08 R171 to R173) -/

/-- Settle (R173): the transfer unit arrives, and the phase completes. -/
def settleBar (b : Bar) : Bar :=
  let b1 := if b.ann && decide (b.balance = 0) && !b.arrived then
      { b with arrived := true, pending := b.pending - 1 } else b
  if b1.pending = 0 ∧ b1.balance = 0 then
    { b1 with phase := !b1.phase, ann := false, pending := b1.members, arrived := false } else b1

/-- A balance modulo 2^48, read as signed (R173). -/
def wrapBalance (v : Int) : Int := sext 48 (wrap 48 v)

/-- A delivery of bytes against a barrier (R173). -/
def deliverBar (k : Nat) (b : Bar) : Bar := settleBar { b with balance := wrapBalance (b.balance - k) }

/-- An arrival with announced bytes (R173): refused on an uninitialised barrier, with no member pending, or out of range. -/
def arriveBar (n : Nat) (b : Bar) : Option Bar :=
  if b.members = 0 ∨ b.pending = 0 then none
  else if b.balance + n > 2 ^ 47 - 1 then none
  else
    let b1 := { b with pending := b.pending - 1 }
    some (settleBar (if 0 < n then { b1 with balance := b1.balance + n, ann := true } else b1))

/-- A barrier register by number. -/
def barAt (g : Gang) (n : Nat) : Bar := if h : n < 16 then g.bars[n] else Bar.zero

/-- A barrier register replaced. -/
def setBar (g : Gang) (n : Nat) (b : Bar) : Gang := if h : n < 16 then { g with bars := g.bars.set n b } else g

/-- The wait of a warp on a barrier met, since its phase has completed (R174). -/
def meetBarrier (g : GangId) (n : Nat) (phase : Bool) (w : Warp) : Warp :=
  if gangOf w.id = g ∧ w.ctx.wait = .barrier n phase then { w with ctx := { w.ctx with met := true } } else w

/-- A barrier register changed: when its phase has completed, the warps that wait for it are met (R174). -/
def putBar (s : State) (g : GangId) (n : Nat) (b : Bar) : State :=
  match findGang s g with
  | none => s
  | some old =>
    let s1 := modGang s g fun x => setBar x n b
    let was := (barAt old n).phase
    if b.phase = was then s1
    else { s1 with warp := meetBarrier g n was s1.warp, warps := s1.warps.map (meetBarrier g n was) }

/-! ### Timeline counters (spec/01 R16) -/

/-- A timeline counter by number. -/
def tcAt (g : Gang) (n : Nat) : Timeline := if h : n < 4 then g.tc[n] else Timeline.zero

/-- A timeline counter replaced. -/
def setTc (g : Gang) (n : Nat) (t : Timeline) : Gang := if h : n < 4 then { g with tc := g.tc.set n t } else g

/-- The counter moved past every number completed in a row; the list holds at most as many as the fuel. -/
def settleTc : Nat → Timeline → Timeline
  | 0, t => t
  | n + 1, t =>
    if t.done.contains (t.value + 1) then
      settleTc n { t with value := t.value + 1, done := t.done.filter (· ≠ t.value + 1) }
    else t

/-- A number completes (R16). -/
def finishNumber (n : Nat) (t : Timeline) : Timeline :=
  let t1 := { t with done := t.done ++ [n] }
  settleTc t1.done.length t1

/-- The next number is issued. -/
def issueNumber (t : Timeline) : Timeline := { t with issued := t.issued + 1 }

/-! ### Causes that arise after issue (spec/10 R199) -/

/-- Of two asynchronous causes the lower code is held. -/
def holdLower (old : Option Held) (new : Held) : Option Held :=
  match old with
  | none => some new
  | some h => if causeCode new.cause < causeCode h.cause then some new else some h

/-- Whether a word is a memory word: an M word but CPL, or VLD or VST (spec/22 R346). -/
def isMemoryWord (w : W64) : Bool :=
  (slice w 61 3 == 3 && slice w 52 6 != 0x28) || (slice w 61 3 == 4 && (slice w 52 6 == 3 || slice w 52 6 == 4))

/-- An asynchronous cause of a warp: at the command processor at once when it goes there; DOUBLE_FAULT when the trap context
raised it; else held until a boundary, or sent on when no boundary can follow (R199). -/
def holdCause (s : State) (w : WarpId) (ofTrap : Bool) (h : Held) : State :=
  match findWarp s w with
  | none => s
  | some x =>
    let stop (c : Cause) (info : W64) : State :=
      let st : CpStop := { cause := c, info := info, addr := h.addr, onMemoryWord := isMemoryWord h.word }
      { modWarp s w (fun y => { y with stopped := some st }) with cp := { s.cp with queue := s.cp.queue ++ [(w, st)] } }
    if causeRoute h.cause = .commandProcessor then stop h.cause h.info
    else if ofTrap then stop .doubleFault (BitVec.ofNat 64 (causeCode h.cause))
    else if x.state = .retired ∨ (x.trap.isNone ∧ x.ctx.exited = allLanes) then stop h.cause h.info
    else refreshRecord w [] (modWarp s w fun y => { y with held := holdLower y.held h })

end Sys2Proof.Machine
end

