-- ==== Sys2Proof/Machine/Translate.lean ====
section
/-! DEFINITION. Translation and the checks of an access before it is performed (spec/08 R155 to R160, spec/13 R216 to R222,
spec/20 R316, R325, spec/22 R339, R345, spec/10 R200). -/

namespace Sys2Proof.Machine

/-! ### Translations kept (spec/10 R207) -/

/-- The translation a cache keeps, if any (spec/10 R207). -/
def tlbFind (s : State) (root : Nat) (va : W64) : Option TlbEntry :=
  s.mem.tlb.find? fun e => decide (e.root = root) && decide (e.page = pageOf va)

/-- Whether a cached translation differs from the tables. -/
def tlbStale (s : State) (root : Nat) (va : W64) : Bool :=
  match tlbFind s root va with
  | none => false
  | some e => decide (walk s root va ≠ .leaf e.pte)

/-- The translation used: that of the tables, or, until TLBI, the one a cache still keeps (R207; which is open, log 5). -/
def translation (s : State) (root : Nat) (va : W64) : Walk :=
  match tlbFind s root va with
  | none => walk s root va
  | some e => if walk s root va ≠ .leaf e.pte ∧ Config.freeBool s.freeCtr then .leaf e.pte else walk s root va

/-! ### The binding table (spec/13 R218) -/

/-- The key of a binding-table entry; none when the table's page is not mapped. -/
def entryKey (s : State) (root : Nat) (table : W64) (slot : Nat) : Option Nat :=
  let va := table + BitVec.ofNat 64 (32 * slot)
  match walk s root va with
  | .leaf pte => some (leafKey s pte va)
  | .absent | .malformed | .hole _ | .poisoned => none

/-- A binding-table entry. -/
structure Entry where
  bound : Bool
  busy : Bool
  pin : Bool
  retired : Bool
  home : Nat
  index : Nat
  gen : Nat
  mode : Nat
  length : Nat
  lbase : W64
  deriving DecidableEq, Repr

/-- An entry from its words. -/
def entryOf (w0 w1 w2 : W64) : Entry :=
  { bound := bitAt w0 63, busy := bitAt w0 62, pin := bitAt w0 61, retired := bitAt w0 60, home := (slice w0 40 20).toNat,
    index := (slice w0 0 40).toNat, gen := (slice w1 60 4).toNat, mode := (slice w1 58 2).toNat,
    length := (slice w1 0 37).toNat, lbase := w2 }

/-- The words of an entry. -/
def entryWords (e : Entry) : List W64 :=
  [bit e.bound ++ bit e.busy ++ bit e.pin ++ bit e.retired ++ BitVec.ofNat 20 e.home ++ BitVec.ofNat 40 e.index,
   BitVec.ofNat 4 e.gen ++ BitVec.ofNat 2 e.mode ++ (0 : BitVec 21) ++ BitVec.ofNat 37 e.length, e.lbase, 0]

/-- An entry of a binding table; one whose page is not mapped reads as zeros (log 15). -/
def entryAt (s : State) (root : Nat) (table : W64) (slot : Nat) : Entry :=
  match entryKey s root table slot with
  | some k => entryOf (homeWord s k) (homeWord s (k + 8)) (homeWord s (k + 16))
  | none => entryOf 0 0 0

/-- Whether an entry of a binding table, or a table entry on the way to it, lies in a poisoned line (spec/22 R355). -/
def entryLost (s : State) (root : Nat) (table : W64) (slot : Nat) : Bool :=
  match walk s root (table + BitVec.ofNat 64 (32 * slot)) with
  | .leaf pte => homePoison s (leafKey s pte (table + BitVec.ofNat 64 (32 * slot))) 32
  | .poisoned => true
  | .absent | .malformed | .hole _ => false

/-- Whether an entry of the issuing warp's binding table is so. -/
def myEntryLost (s : State) (slot : Nat) : Bool := entryLost s (rootOf_ s) s.launch.eff.bindTable slot

/-- An entry of the issuing warp's binding table. -/
def myEntry (s : State) (slot : Nat) : Entry := entryAt s (rootOf_ s) s.launch.eff.bindTable slot

/-- Whether a value is an aperture address (spec/08 R155). -/
def isAperture (v : W64) : Bool := slice v 52 12 == 0xFA5

/-- The slot, the generation and the offset of a short pointer (spec/13 R217). -/
def ptrSlot (v : W64) : Nat := (slice v 40 12).toNat
/-- The generation of a short pointer. -/
def ptrGen (v : W64) : Nat := (slice v 36 4).toNat
/-- The offset of a short pointer. -/
def ptrOff (v : W64) : Nat := (slice v 0 36).toNat

/-- Whether an address is canonical (spec/08 R155). -/
def canonical (v : W64) : Bool := slice v 57 7 == (if bitAt v 56 then 0x7F else 0)

/-- Whether an address lies in the local-range window (spec/13 R219). -/
def inWindow (v : W64) : Bool := slice v 48 16 == 0x00F0

/-! ### The checks of R160 -/

/-- What an access wants. -/
inductive Want where
  | read
  | write
  /-- An atomic; `bell` when it is the one access a doorbell takes (spec/22 R339). -/
  | atomic (bell : Bool)
  | exec
  deriving DecidableEq, Repr

/-- Whether an access writes. -/
def Want.writes : Want → Bool
  | .write | .atomic _ => true
  | .read | .exec => false

/-- What the checks find of one lane: its place; the row it fails (ten times the row of R160) with the cause; the row at which
it has to wait; or an address that does not exist. -/
inductive LaneChk where
  | ok (p : Place) (va : W64)
  | bad (row : Nat) (c : Cause) (addr info : W64)
  | wait (row : Nat) (w : WaitFor)
  | hole (pa : Nat)
  deriving DecidableEq, Repr

/-- The state of a token: 0 none, 1 shared, 2 exclusive (spec/20 R316). -/
def tokenState (s : State) (peer region : Nat) : Nat :=
  match s.fabric.tokens.find? fun t => decide (t.peer = peer) && decide (t.region = region) with
  | some t => t.state
  | none => 0

/-- Whether an allocation covers an address of a space (R160 row 5, log 9). -/
def allocOf (s : State) (root : Nat) (va : W64) : Option Alloc :=
  s.svc.allocs.find? fun a => decide (a.root = root) && decide (a.page ≤ pageOf va) && decide (pageOf va < a.page + a.pages)

/-- The physical address at its home of an address of an allocation (spec/13 R221). -/
def allocPa (a : Alloc) (va : W64) : Nat := a.peerBase + (pageOf va - a.page) * 4096

/-- Whether the home refused the token that the issuing warp's access needs (spec/13 R221). -/
def tokenRefused (s : State) (peer region : Nat) : Bool := s.svc.refused.any fun x => decide (x = (s.warp.id, peer, region))

/-- Whether an enabled ring of the region holds a slot byte (spec/20 R325). -/
def slotReadable (s : State) (region die off : Nat) : Bool :=
  s.fabric.rings.any fun e =>
    let size := 2 ^ (slice e.2.w0 40 4).toNat
    let base := (slice e.2.w1 32 25).toNat
    decide (e.1 / 64 = die) && bitAt e.2.w0 47 && decide ((slice e.2.w0 48 16).toNat = region) && decide (base ≤ off) &&
      decide (off < base + ((slice e.2.w1 0 17).toNat + 1) * size)

/-- Whether a local area takes the access, whatever the leaf allows (spec/20 R325, spec/22 R339). -/
def areaAllows (s : State) (want : Want) (pa : Nat) : Bool :=
  match areaOf pa with
  | .memory | .hole => true
  | .slots d off => !want.writes && slotReadable s s.launch.region d off
  | .block r _ => !want.writes && decide ((slice (ringAt s r).w0 48 16).toNat = s.launch.region)
  | .doorbell _ off => (match want with | .atomic bell => bell && off == 0 | .read | .write | .exec => false)

/-- Whether a frame of this device is sealed: by the root core alone, whatever bit 4 of a leaf that maps it holds (spec/08 R156, spec/22
R353; DEDUCED, log 67). -/
def frameSealed (s : State) (pa : Nat) : Bool := s.mem.sealed.contains (pa / 4096)

/-- SEALED of the page of an address under a leaf: of its frame; none of a peer's is sealed here. -/
def leafSealed (s : State) (pte va : W64) : Bool := decide (leafMode pte = 0) && frameSealed s (leafPa pte va)

/-- Whether a leaf allows the access (R160 row 6, spec/04 R62). -/
def leafAllows (s : State) (want : Want) (pte va : W64) : Bool :=
  match want with
  | .read => bitAt pte 1
  | .write | .atomic _ => bitAt pte 2
  | .exec => bitAt pte 3 && leafSealed s pte va

/-- Rows 6 to 8 of R160 on a leaf. -/
def checkLeaf (s : State) (root : Nat) (want : Want) (va pte : W64) : LaneChk :=
  let k := leafKey s pte va
  let local_ := (keyPeer k).isNone && !isCached k
  if !leafAllows s want pte va || (local_ && !areaAllows s want k) then .bad 60 .protection va 0
  else if want.writes && leafSealed s pte va then .bad 70 .sealedWrite va 0
  else if leafMode pte = 2 ∧ tokenState s (leafPeer pte) (leafPa pte va / 2 ^ 21) < (if want.writes then 2 else 1) then
    (match allocOf s root va with
     | some a =>
       if a.mode = 2 && !tokenRefused s (leafPeer pte) (leafPa pte va / 2 ^ 21) then .wait 80 (.page va want.writes)
       else .bad 80 .tokenAbsent va 0
     | none => .bad 80 .tokenAbsent va 0)
  else if local_ && areaOf k == .hole then .hole k
  else .ok (.global k (leafMode pte)) va

/-- Whether an address lies in the region's trap pool (spec/10 R197). -/
def inTrapPool (s : State) (va : W64) : Bool :=
  let base := s.launch.eff.trapPool.toNat
  decide (base ≤ va.toNat) && decide (va.toNat < base + s.launch.eff.trapCount * 16384)

/-- Whether a migration under way has taken an address's leaf out of the tables (spec/20 R320). -/
def onTheMove (s : State) (root : Nat) (va : W64) : Bool :=
  s.svc.moving.any fun m => decide (m.root = root) && decide (pageOf va / 2 ^ (pageBits m.pte - 12) = m.page / 2 ^ (pageBits m.pte - 12))

/-- Rows 5 to 8 of R160. -/
def checkTranslated (s : State) (root : Nat) (want : Want) (va : W64) : LaneChk :=
  match translation s root va with
  | .leaf pte => checkLeaf s root want va pte
  | .absent =>
    (match allocOf s root va with
     | some a =>
       if trapMode s && inTrapPool s va then .bad 50 .pageNotPresent va 0
       else if a.mode = 2 && tokenRefused s a.peer (allocPa a va / 2 ^ 21) then .bad 80 .tokenAbsent va 0
       else .wait 50 (.page va want.writes)
     | none => if onTheMove s root va then .wait 50 (.page va want.writes) else .bad 50 .pageNotPresent va 0)
  | .malformed => .bad 60 .protection va 0
  | .poisoned => .ok .lost va
  | .hole pa => .hole pa

/-- Row 3 of R160 (spec/13 R222), and what follows it. -/
def checkAperture (s : State) (root : Nat) (want : Want) (n : Nat) (va : W64) : LaneChk :=
  let e := myEntry s (ptrSlot va)
  if myEntryLost s (ptrSlot va) then .ok .lost va
  else if e.busy && e.gen == ptrGen va then .wait 30 (.object root s.launch.eff.bindTable [ptrSlot va] false)
  else if !e.bound || e.gen != ptrGen va then .bad 31 .stalePointer va va
  else if e.length < ptrOff va + n then .bad 32 .pointerBounds va va
  else checkTranslated s root want (e.lbase + BitVec.ofNat 64 (ptrOff va))

/-- The checks of a global access of n bytes, aligned to `align` (R159, R160, spec/13 R219). -/
def checkGlobal (s : State) (want : Want) (n align : Nat) (va : W64) : LaneChk :=
  let root := rootOf_ s
  if va.toNat % align ≠ 0 then .bad 10 .misaligned va 0
  else if isAperture va then checkAperture s root want n va
  else if !canonical va then .bad 20 .noncanonical va 0
  else if inWindow va then .bad 60 .protection va 0
  else checkTranslated s root want va

/-- Whether a check found that the walk met a poisoned line. -/
def isLost : LaneChk → Bool
  | .ok .lost _ => true
  | .ok .. | .bad .. | .wait .. | .hole _ => false

/-- The INFO of a failed check of a short pointer is the pointer operand, whose address may lie at an offset (spec/13 R237). -/
def pointerInfo (p : W64) (c : LaneChk) : LaneChk :=
  match c with
  | .bad row .stalePointer addr _ => .bad row .stalePointer addr p
  | .bad row .pointerBounds addr _ => .bad row .pointerBounds addr p
  | other => other

/-- The checks of a scratchpad access (R160 rows 1 and 4). -/
def checkScratch (s : State) (n : Nat) (a : W64) : LaneChk :=
  if a.toNat % n ≠ 0 then .bad 10 .misaligned a 0
  else if s.gang.spadSize < a.toNat + n then .bad 40 .scratchBounds a 0
  else .ok (.scratch a.toNat) a

/-- Whether an offset of the interrupted context's record is served from a line in the register file (spec/10 R200). -/
def lineHere (s : State) (off : Nat) : Bool :=
  decide (0x1000 ≤ off) && (s.warp.trap.any fun t => decide ((gAt t.intr ((off - 0x1000) / 128)).live ≠ 0) && (gAt t.intr ((off - 0x1000) / 128)).resident)

/-- The checks of a context-space access (spec/10 R200). A record page that is missing is waited for (spec/10 R197, spec/05 R98). -/
def checkContext (s : State) (n : Nat) (a : W64) : LaneChk :=
  let base := (match s.warp.trap with | some t => t.intr.ctxp.toNat | none => 0)
  if a.toNat % n ≠ 0 then .bad 10 .misaligned a 0
  else if a.toNat < base ∨ base + 16384 < a.toNat + n then .bad 60 .protection a 0
  else if (areaKey s a).isNone && !lineHere s (a.toNat - base) then .wait 50 (.contextPage a)
  else .ok (.record (a.toNat - base)) a

/-- The checks of a lane's access in a space (R155). -/
def checkLane (s : State) (space : Nat) (want : Want) (n : Nat) (a : W64) : LaneChk :=
  match space with
  | 0 => checkGlobal s want n n a
  | 1 => checkScratch s n a
  | _ => checkContext s n a

/-- What the checks of a word come to. -/
inductive Checked where
  | ok
  | raise (r : Raised)
  | wait (w : WaitFor)
  | hole (pa : Nat)
  deriving DecidableEq, Repr

/-- The row a lane fails at or waits at. -/
def rowOf : LaneChk → Option Nat
  | .bad r .. | .wait r _ => some r
  | .ok .. | .hole _ => none

/-- The lesser of a row and the rows of more lanes. -/
def leastRow (chks : List (Nat × LaneChk)) : Option Nat :=
  chks.foldl (fun m c => match m, rowOf c.2 with
    | some a, some b => some (min a b)
    | none, r => r
    | some a, none => some a) none

/-- The first row that any running lane fails decides the cause (R160). -/
def decideChecks (run : Mask) (chk : Nat → LaneChk) : Checked :=
  let chks := (lanesIn run).map fun l => (l, chk l)
  match leastRow chks with
  | none =>
    (match chks.findSome? fun c => match c.2 with | .hole pa => some pa | .ok .. | .bad .. | .wait .. => none with
     | some pa => .hole pa
     | none => .ok)
  | some r =>
    let failing := chks.filter fun c => decide (rowOf c.2 = some r)
    match failing.findSome? fun c => match c.2 with | .wait _ w => some w | .ok .. | .bad .. | .hole _ => none with
    | some w => .wait w
    | none =>
      match failing with
      | (_, .bad _ c addr info) :: _ =>
        .raise { cause := c, lanes := failing.foldl (fun m x => m ||| BitVec.ofNat 32 (2 ^ x.1)) 0, addr := addr, info := info }
      | _ => .ok

/-! ### What using a translation leaves behind -/

/-- A translation kept by the caches. -/
def tlbPut (s : State) (root : Nat) (va pte : W64) : State :=
  { s with mem := { s.mem with
      tlb := { root := root, page := pageOf va, pte := pte } ::
        s.mem.tlb.filter fun e => decide (e.root ≠ root) || decide (e.page ≠ pageOf va) } }

/-- A counter entry of mode 3 by die and page. -/
def moveCount (s : State) (die page : Nat) : Nat :=
  match s.mem.migration.find? fun e => decide (e.1 = die) && decide (e.2.1 = page) with
  | some e => e.2.2
  | none => 0

/-- One memory word counted on a mode-3 leaf; at the threshold a migration is requested and the counter starts again (R158). -/
def countMove (s : State) (root die : Nat) (pte va : W64) : State :=
  let b := pageBits pte
  let page := (root * 2 ^ 45 + va.toNat % 2 ^ 57 / 2 ^ b * 2 ^ (b - 12))
  let n := moveCount s die page + 1
  let limit := 2 ^ (8 + 2 * (slice pte 9 3).toNat)
  let others := s.mem.migration.filter fun e => decide (e.1 ≠ die) || decide (e.2.1 ≠ page)
  if limit ≤ n then
    { s with
      mem := { s.mem with migration := others },
      svc := { s.svc with moves := s.svc.moves ++ [(root, va.toNat % 2 ^ 57 / 2 ^ b * 2 ^ (b - 12))] } }
  else { s with mem := { s.mem with migration := others ++ [(die, page, n)] } }

/-- The leaves a word used, each once, by the first address of its page. -/
def leavesUsed (s : State) (root : Nat) (vas : List W64) : List (W64 × W64) :=
  vas.foldl (fun acc va =>
    match translation s root va with
    | .leaf pte => if acc.any fun p => p.1 == pte && pageOf p.2 / 2 ^ (pageBits pte - 12) == pageOf va / 2 ^ (pageBits pte - 12)
        then acc else acc ++ [(pte, va)]
    | .absent | .malformed | .hole _ | .poisoned => acc) []

/-- The translations a word used: kept by the caches, counted in mode 3, and the open choice taken (R158, R207). -/
def noteUse (s : State) (root die : Nat) (vas : List W64) : State :=
  let used := leavesUsed s root vas
  let s1 := bumpFree (vas.any (tlbStale s root)) s
  used.foldl (fun st p =>
    let st1 := if (tlbFind st root p.2).any fun e => e.pte == p.1 then st else tlbPut st root p.2 p.1
    if leafMode p.1 = 3 then countMove st1 root die p.1 p.2 else st1) s1

/-- Whether bytes lie within one of a launch's replay spans (spec/02 R25). -/
def inSpans (l : Launch) (va : W64) (n : Nat) : Bool :=
  (List.range n).all fun i => l.spans.any fun sp =>
    decide (0 < sp.2) && decide (sp.1.toNat ≤ va.toNat + i) && decide (va.toNat + i < sp.1.toNat + sp.2 * 4096)

/-- RPL cleared by an effect outside the spans (spec/22 R345). -/
def clearRpl (s : State) : State := { s with launch := { s.launch with rpl := false } }

/-- Whether the cached page of an allocation at an address is noted as asked for by a store or an atomic. -/
def noteExclusive (va : W64) (write : Bool) (a : Alloc) : Alloc :=
  if write ∧ a.mode = 2 ∧ a.page ≤ pageOf va ∧ pageOf va < a.page + a.pages ∧ !a.exclusive.contains (pageOf va) then
    { a with exclusive := a.exclusive ++ [pageOf va] }
  else a

/-- A page of a space noted as asked for. -/
def notePage (root : Nat) (va : W64) (write : Bool) (s : State) : State :=
  { s with svc := { s.svc with allocs := s.svc.allocs.map fun a => if a.root = root then noteExclusive va write a else a } }

/-- The writes of a word noted: for replay (spec/22 R345), and of cached pages, which need the token exclusive from then on (spec/13
R223). -/
def noteWrites (s : State) (n : Nat) (vas : List W64) : State :=
  let s1 := if s.svc.allocs.any fun a => a.mode == 2 then vas.foldl (fun st va => notePage (rootOf_ s) va true st) s else s
  if s.launch.rpl && !(vas.all fun va => inSpans s.launch va n) then clearRpl s1 else s1

end Sys2Proof.Machine
end

