-- ==== Sys2Proof/Machine/Coherence.lean ====
section
/-! DEFINITION. Accesses at their scope (spec/08 R162 to R164, spec/09 R181 to R191) and package-scope writes (spec/20 R310 to
R312). -/

namespace Sys2Proof.Machine

/-! ### Accesses (spec/08 R162 to R164) -/

/-- The L1 copies of the granules that some bytes touch brought up to their home, whole: what a load there has read (spec/09 R181,
spec/13 R228). -/
def renewFromHome (core k n : Nat) (s : State) : State :=
  if s.mem.l1.isEmpty then s else eachGranule (fun st a => l1Refresh1 core a (homeByte st a) st) k n s

/-- Whether one of some bytes read is poisoned (spec/22 R355, R356). -/
def meetsPoison (xs : List (Byte × Bool)) : Bool := xs.any (·.2)

/-- A load of n bytes by a core at a scope: its value, whether it met a poisoned line, and the state after. -/
def loadBytes (s : State) (core scope k n : Nat) : List Byte × Bool × State :=
  if scope = 0 then
    let xs := (List.range n).map fun i => coreByte s core (k + i)
    let bs := xs.map (·.1)
    let poison := meetsPoison xs
    (bs, poison, if poison then s else fillL1 core k n s)
  else
    let s1 := l1Flush core k n s
    if scope = 3 ∧ isDirect k then
      let s2 := dieFlush (dieOfCore core) k n s1
      (homeBytes s2 k n, homePoison s2 k n, renewFromHome core k n s2)
    else
      let xs := (List.range n).map fun i => dieByte s1 (dieOfCore core) (k + i)
      (xs.map (·.1), meetsPoison xs, renewL1 core k n s1)

/-- Whether an access of a core at a scope has to wait for what the core or its die stored narrower (spec/09 R181): an access that is
performed at the home (`home`) for what the die has on its way too. -/
def accSettling (s : State) (core scope : Nat) (home : Bool) (k n : Nat) : Bool :=
  settling s core (decide (0 < scope) || home) (home || (decide (scope = 3) && isDirect k)) k n

/-- Bytes of a granule, in rising order of their keys, stored at die scope: performed at the die point, after the core's narrower stores to
the granule; the core's own L1 copy follows (spec/09 R181). -/
def storeDieCells (s : State) (core : Nat) (cells : List (Nat × Byte)) (via : List Nat) : State :=
  let s1 := dieStore (l1FlushKeys core (cells.flatMap fun c => granuleKeys c.1 1).eraseDups s) (dieOfCore core) cells false via
  cells.foldl (fun st p => l1Refresh1 core p.1 p.2 st) s1

/-- A store of die scope. -/
def storeDie (s : State) (core k : Nat) (bs : List Byte) (via : List Nat) : State := storeDieCells s core (keyed k bs) via

/-- The format a reduction works in: 0 F32, 1 S32, 2 F16 (R258). -/
def reduceFmt (ty : Nat) : Fmt := if ty = 2 then fmt16 else fmt32

/-- y op x of a reduction (R261): op 0 ADD, 1 MIN, 2 MAX. -/
def reduceVal (op ty y x : Nat) : Nat :=
  if ty = 1 then
    (if op = 0 then (y + x) % 2 ^ 32
     else if (sext 32 y ≤ sext 32 x) = (op = 1) then y else x)
  else if op = 0 then (addFp (reduceFmt ty) 0 (unpackFp (reduceFmt ty) y) (unpackFp (reduceFmt ty) x)).1
  else (minMaxFp (reduceFmt ty) (op == 2) y x).1

/-- A reduction of several elements of a type together: the bytes of each with those of its operand. -/
def reduceMany (op ty : Nat) : Nat → Nat → Nat → Nat
  | 0, _, _ => 0
  | n + 1, y, x =>
    let w := if ty = 2 then 16 else 32
    reduceVal op ty (y % 2 ^ w) (x % 2 ^ w) % 2 ^ w + 2 ^ w * reduceMany op ty n (y / 2 ^ w) (x / 2 ^ w)

/-- The number of a reduction of an operation and a type among the atomics a package write can be: past the M opcodes. -/
def reduceCode (op ty : Nat) : Nat := 0x100 + 4 * op + ty

/-- The new value of an atomic (R164), by its M opcode, or of a reduction. -/
def atomNew (op w m x d : Nat) : Nat :=
  match op with
  | 0x04 => (m + x) % 2 ^ w
  | 0x05 => if sext w m ≤ sext w x then m else x
  | 0x06 => if sext w m ≤ sext w x then x else m
  | 0x07 => m &&& x
  | 0x08 => m ||| x
  | 0x09 => m ^^^ x
  | 0x0A => x
  | 0x0B => if m = x then d else m
  | _ =>
    if 0x100 ≤ op then reduceMany ((op - 0x100) / 4) (op % 4) (w / (if op % 4 = 2 then 16 else 32)) m x else
    let f := if w = 64 then fmt64 else fmt32
    (addFp f 0 (unpackFp f m) (unpackFp f x)).1

/-- Own narrower bytes brought to their home before an access there (spec/09 R181). -/
def flushHome (core k n : Nat) (s : State) : State := dieFlush (dieOfCore core) k n (l1Flush core k n s)

/-- An atomic performed at its home at once, for a die (R164, spec/09 R191): the old value, whether it met a poisoned line, and the state
after. -/
def atomHome (s : State) (core op k n x d : Nat) (w : WarpId) (id : Option Nat) (part : Nat) : Nat × Bool × State :=
  let s1 := flushHome core k n s
  if homePoison s1 k n then (0, true, s1)
  else
    let old := ofBytes (homeBytes s1 k n)
    (old, false, backCells s1 (dieOfCore core) (keyed k (bytesOf n (atomNew op (8 * n) old x d))) false w id part)

/-! ### Dirty bytes and their release -/

/-- The keys of the bytes a core or a die still has to write back. -/
def dirtyL1 (s : State) (core : Nat) : List Nat :=
  s.mem.l1.filterMap fun e => if e.2.dirty && e.1 / 2 ^ 68 == core then some (e.1 % 2 ^ 68) else none

/-- The keys of the bytes a die still has to write back. -/
def dirtyDie (s : State) (d : Nat) : List Nat :=
  s.mem.die.filterMap fun e => if e.2.dirty && e.1 / 2 ^ 68 == d then some (e.1 % 2 ^ 68) else none

/-- An L1 byte that leaves with a write: clean, and on its way with it. -/
def sendL1 (core id : Nat) (s : State) (k : Nat) : State :=
  match AList.find s.mem.l1 (atUnit core k) with
  | some e => { s with mem := { s.mem with l1 := AList.put s.mem.l1 (atUnit core k) { e with dirty := false, sent := some id, via := [] } } }
  | none => s

/-- A run of L1's bytes written back: at its home die as a package write, else to the die point (R312). -/
def publishL1 (core : Nat) (w : WarpId) (s : State) (r : Nat × Nat) : State :=
  let d := dieOfCore core
  if homeDie r.1 = some d ∧ !isCached r.1 then
    let xs := (List.range r.2).map fun i => coreByte s core (r.1 + i)
    pkgCells (eachByte (sendL1 core s.mem.nextWrite) r.1 r.2 s) d (keyed r.1 (xs.map (·.1))) (xs.any (·.2)) w none 0
  else l1FlushRun core s r

/-- A run of a die point's bytes written back as a package write. -/
def publishDie (d : Nat) (w : WarpId) (s : State) (r : Nat × Nat) : State :=
  let xs := (List.range r.2).map fun i => dieByte s d (r.1 + i)
  pkgCells (eachByte (sendDie d s.mem.nextWrite) r.1 r.2 s) d (keyed r.1 (xs.map (·.1))) (xs.any (·.2)) w none 0

/-- Whether a byte came through a definition of a view, or any byte where none is asked for. -/
def viaDef (dno : Option Nat) (via : List Nat) : Bool :=
  match dno with
  | some d => via.contains d
  | none => true

/-- The dirty bytes of a core, and of a die, that came through a definition of a view; all of them where none is asked for. -/
def dirtyL1Via (s : State) (core : Nat) (dno : Option Nat) : List Nat :=
  (dirtyL1 s core).filter fun k => (AList.find s.mem.l1 (atUnit core k)).any fun e => viaDef dno e.via

/-- The same of a die. -/
def dirtyDieVia (s : State) (d : Nat) (dno : Option Nat) : List Nat :=
  (dirtyDie s d).filter fun k => (AList.find s.mem.die (atUnit d k)).any fun e => viaDef dno e.via

/-- The narrower stores of a core and its die written back as stamped package-scope writes of the die, a granule at a time (R312): all of
them for GBAR, CONT, CONTX and TKREL, those through a definition of a view for a VRET (spec/15 R252). What has a home that does not answer
is not sent (R315), and stays. -/
def publishVia (s : State) (core : Nat) (w : WarpId) (dno : Option Nat) : State :=
  let d := dieOfCore core
  let s1 := (runsBy (badL1 s core) (dirtyL1Via s core dno)).foldl (publishL1 core w) s
  (runsBy (badDie s1 d) ((dirtyDieVia s1 d dno).filter fun k => isCached k || reachableKey s1 k)).foldl (publishDie d w) s1

/-- The write-back of a release of everything. -/
def publish (s : State) (core : Nat) (w : WarpId) : State := publishVia s core w none

/-- A package write that a later store has overwritten at its home while some die has yet to apply it: the store is seen there after it
(R310). -/
def heldBack (s : State) (x : PkgWrite) : Bool :=
  x.home && (List.range x.bytes.length).any fun i => decide (x.order < homeOrder s (x.key + i))

/-- The writes on their way that a release of a die waits for: all of the die, whatever word issued them, and those that hold back what is
home (R310, R312, spec/06 R130). -/
def publishedWrites (s : State) (die : Nat) : List Nat :=
  (s.mem.writes.filter fun x => decide (x.die = die) || heldBack s x).map (·.id)

/-- Whether some writes are still on their way. -/
def publishing (s : State) (ids : List Nat) : Bool := s.mem.writes.any fun x => ids.contains x.id

/-- Whether an access of a location at a peer leaves this device: what its core and its die do not hold (R315). -/
def travels (s : State) (core : Nat) (writes : Bool) (scope k n : Nat) : Bool :=
  isDirect k && (if writes then decide (2 ≤ scope) else scope == 3 || (List.range n).any fun i =>
    (scope != 0 || (AList.find s.mem.l1 (atUnit core (k + i))).isNone) &&
      (AList.find s.mem.die (atUnit (dieOfCore core) (k + i))).isNone)

end Sys2Proof.Machine
end

