-- ==== Sys2Proof/Machine/Memory.lean ====
section
/-! DEFINITION. Loads, stores, atomics and prefetch (spec/08 R159 to R165), full-empty words and the tag table
(R166 to R168): the checks at the word and the issue of its accesses; Complete.lean performs them. -/

namespace Sys2Proof.Machine

open Host (Outcome)

/-- The bytes of a size code (spec/04 R79). -/
def sizeBytes (f : MW) : Nat := 2 ^ f.size.toNat

/-- The register width of a data operand: 32 bits at least. -/
def dataWidth (n : Nat) : Nat := max 32 (8 * n)

/-- The address of a lane (R159). -/
def laneAddr (s : State) (f : MW) (indexed : Bool) (n l : Nat) : W64 :=
  let d : Int := sext 18 f.off.toNat + (if indexed then sext 32 (read32 s f.x l).toNat * n else 0)
  if f.space = 1 then BitVec.ofNat 64 (wrap 32 ((read32 s f.base l).toNat + d)) else w64 ((read64 s f.base l).toNat + d)

/-- The checks of a lane's access at an address. -/
def laneChk (s : State) (f : MW) (want : Want) (n : Nat) (a : W64) (l : Nat) : LaneChk :=
  pointerInfo (read64 s f.base l) (checkLane s f.space.toNat want n a)

/-- The base as a source. -/
def useBase (f : MW) : Use := { reg := f.base, width := if f.space = 1 then 32 else 64, last := f.lb }
/-- The index as a source. -/
def useX (f : MW) (w : Nat) : Use := { reg := f.x, width := w, last := f.lx }
/-- The data as a source. -/
def useData (f : MW) (w : Nat) : Use := { reg := f.data, width := w, last := f.ld }

/-- A word's accesses checked in every running lane before any is performed (R160). -/
def checked (s : State) (run : Mask) (chk : Nat → LaneChk) (k : Res) : Res :=
  match decideChecks run chk with
  | .raise r => .raise s r
  | .wait w => .hold s w
  | .hole pa => .stop (.physicalHole pa)
  | .ok => k

/-- One lane's access as it issues. -/
def accOf (chk : LaneChk) (l data swap : Nat) : Acc :=
  match chk with
  | .ok p va => { lane := l, place := p, data := data, swap := swap, va := va }
  | .bad .. | .wait .. | .hole _ => { lane := l, place := .scratch 0, data := data, swap := swap, va := 0 }

/-- The addresses after translation of a list of accesses. -/
def accVas (accs : List Acc) : List W64 := accs.map (·.va)

/-- The translations of a global word noted (R158, spec/10 R207). -/
def noteGlobal (space : BitVec 2) (accs : List Acc) (s : State) : State :=
  if space = 0 then noteUse s (rootOf_ s) (myDie s) (accVas accs) else s

/-- The counter of a load (R161). -/
def loadCounter (space : BitVec 2) : Nat := if space = 1 then 3 else 1
/-- The counter of a store (R161). -/
def storeCounter (space : BitVec 2) : Nat := if space = 1 then 3 else 2

/-- No values yet. -/
def noVals : Lanes Nat := lanesOf fun _ => 0

/-- The accesses of a load: one for a k destination, else one a lane (R163). -/
def loadAccs (run : Mask) (d : BitVec 7) (chk : Nat → LaneChk) : List Acc :=
  (if isK d then [lowLane run] else lanesIn run).map fun l => accOf (chk l) l 0 0

/-- A load (R163): a k destination needs one address. -/
def memLoad (i : Instr) (f : MW) (indexed : Bool) (run : Mask) (s : State) : Res :=
  let n := sizeBytes f
  let addr := laneAddr s f indexed n
  let chk := fun l => laneChk s f .read n (addr l) l
  reading s run (useBase f :: (if indexed then [useX f 32] else [])) fun s1 =>
    checked s run chk <|
      if isK f.data && !uniform run fun l => (addr l).toNat then raiseAt s .nonuniformOperand run
      else
        let accs := loadAccs run f.data chk
        issueLater s (noteGlobal f.space accs s1) i run (loadCounter f.space) f.data (dataWidth n)
          (.memory .load n f.scope.toNat accs noVals none)

/-- LD. -/
def execLd (f : MW) (s : State) : Outcome State Fault Refusal := runWord (.ld f) f.dist (memLoad (.ld f) f false) s

/-- LDX. -/
def execLdx (f : MW) (s : State) : Outcome State Fault Refusal := runWord (.ldx f) f.dist (memLoad (.ldx f) f true) s

/-- The accesses of a store, in ascending lanes (R163). -/
def storeAccs (s : State) (run : Mask) (f : MW) (n : Nat) (chk : Nat → LaneChk) : List Acc :=
  (lanesIn run).map fun l => accOf (chk l) l (readNat s (dataWidth n) f.data l % 2 ^ (8 * n)) 0

/-- The writes of a global word noted for replay (spec/22 R345). -/
def noteStore (space : BitVec 2) (n : Nat) (accs : List Acc) (s : State) : State :=
  if space = 0 then noteWrites s n (accVas accs) else s

/-- A store (R163). -/
def memStore (i : Instr) (f : MW) (indexed : Bool) (run : Mask) (s : State) : Res :=
  let n := sizeBytes f
  let chk := fun l => laneChk s f .write n (laneAddr s f indexed n l) l
  reading s run ([useBase f, useData f (dataWidth n)] ++ (if indexed then [useX f 32] else [])) fun s1 =>
    checked s run chk <|
      let accs := storeAccs s run f n chk
      counted s (storeCounter f.space) <|
        .done (issueOp (noteStore f.space n accs (noteGlobal f.space accs s1)) i run (storeCounter f.space)
          (.memory .store n f.scope.toNat accs noVals none))

/-- ST. -/
def execSt (f : MW) (s : State) : Outcome State Fault Refusal := runWord (.st f) f.dist (memStore (.st f) f false) s

/-- STX. -/
def execStx (f : MW) (s : State) : Outcome State Fault Refusal := runWord (.stx f) f.dist (memStore (.stx f) f true) s

/-! ### Atomics (R164) -/

/-- An atomic by its M opcode: scope 0 on a global one is read as 1; with d = `zero` it returns nothing. -/
def memAtomic (i : Instr) (op : Nat) (f : MW) (run : Mask) (s : State) : Res :=
  let n := sizeBytes f
  let bell := op == 0x0A && n == 8 && f.scope == 2
  let chk := fun l => laneChk s f (.atomic bell) n (laneAddr s f false n l) l
  let scope := if f.space = 0 then max 1 f.scope.toNat else 0
  let cas := op == 0x0B
  let counter := if f.space = 1 then 3 else if f.data = 120 then 2 else 1
  reading s run ([useBase f, useX f (8 * n)] ++ (if cas then [useData f (8 * n)] else [])) fun s1 =>
    checked s run chk <|
      let accs := (lanesIn run).map fun l =>
        accOf (chk l) l (readNat s (8 * n) f.x l) (if cas then readNat s (8 * n) f.data l else 0)
      issueLater s (noteStore f.space n accs (noteGlobal f.space accs s1)) i run counter f.data (8 * n)
        (.memory (.atomic op) n scope accs noVals none)

/-- ATOM.ADD. -/
def execAtomAdd (f : MW) (s : State) : Outcome State Fault Refusal :=
  runWord (.atomAdd f) f.dist (memAtomic (.atomAdd f) 0x04 f) s

/-- ATOM.MIN. -/
def execAtomMin (f : MW) (s : State) : Outcome State Fault Refusal :=
  runWord (.atomMin f) f.dist (memAtomic (.atomMin f) 0x05 f) s

/-- ATOM.MAX. -/
def execAtomMax (f : MW) (s : State) : Outcome State Fault Refusal :=
  runWord (.atomMax f) f.dist (memAtomic (.atomMax f) 0x06 f) s

/-- ATOM.AND. -/
def execAtomAnd (f : MW) (s : State) : Outcome State Fault Refusal :=
  runWord (.atomAnd f) f.dist (memAtomic (.atomAnd f) 0x07 f) s

/-- ATOM.OR. -/
def execAtomOr (f : MW) (s : State) : Outcome State Fault Refusal :=
  runWord (.atomOr f) f.dist (memAtomic (.atomOr f) 0x08 f) s

/-- ATOM.XOR. -/
def execAtomXor (f : MW) (s : State) : Outcome State Fault Refusal :=
  runWord (.atomXor f) f.dist (memAtomic (.atomXor f) 0x09 f) s

/-- ATOM.XCHG. -/
def execAtomXchg (f : MW) (s : State) : Outcome State Fault Refusal :=
  runWord (.atomXchg f) f.dist (memAtomic (.atomXchg f) 0x0A f) s

/-- ATOM.CAS. -/
def execAtomCas (f : MW) (s : State) : Outcome State Fault Refusal :=
  runWord (.atomCas f) f.dist (memAtomic (.atomCas f) 0x0B f) s

/-- ATOM.FADD. -/
def execAtomFadd (f : MW) (s : State) : Outcome State Fault Refusal :=
  runWord (.atomFadd f) f.dist (memAtomic (.atomFadd f) 0x0C f) s

/-- PREF: no effect but time (R165); its base is read, with its last-read bit. -/
def execPref (f : MW) (s : State) : Outcome State Fault Refusal :=
  runWord (.pref f) f.dist (fun run s => reading s run [useBase f] .done) s

/-! ### Full-empty words (R167) -/

/-- LDFE: waits in flight until its granules are full. -/
def execLdfe (f : MW) (s : State) : Outcome State Fault Refusal :=
  runWord (.ldfe f) f.dist (fun run s =>
    let n := sizeBytes f
    let chk := fun l => checkScratch s n (laneAddr s f false n l)
    reading s run [useBase f] fun s1 =>
      checked s run chk <|
        issueLater s s1 (.ldfe f) run 3 f.data (dataWidth n)
          (.memory (.loadFull (bitAt f.x 0)) n 0 ((lanesIn run).map fun l => accOf (chk l) l 0 0) noVals none)) s

/-- STFE: stores and fills the granule. -/
def execStfe (f : MW) (s : State) : Outcome State Fault Refusal :=
  runWord (.stfe f) f.dist (fun run s =>
    let n := sizeBytes f
    let chk := fun l => checkScratch s n (laneAddr s f false n l)
    reading s run [useBase f, useData f (dataWidth n)] fun s1 =>
      checked s run chk <| counted s 3 <|
        .done (issueOp s1 (.stfe f) run 3 (.memory .storeFull n 0 (storeAccs s run f n chk) noVals none))) s

/-! ### The tag table (R168) -/

/-- A tag table. -/
abbrev Tags := List (W64 × W32)

/-- The slot of a key. -/
def tagFind (t : Tags) (key : W64) : Option W32 := (t.find? fun e => e.1 == key).map (·.2)

/-- One lane of SPLOOK. -/
def tagLook (key : W64) (_slot : W32) (_cap : Nat) (t : Tags) : W32 × Tags := ((tagFind t key).getD 0xFFFFFFFF, t)

/-- One lane of SPTAG. -/
def tagInstall (key : W64) (slot : W32) (cap : Nat) (t : Tags) : W32 × Tags :=
  match tagFind t key with
  | some old => (old, t.map fun e => if e.1 == key then (key, slot) else e)
  | none => if t.length < cap then (0xFFFFFFFF, t ++ [(key, slot)]) else (0xFFFFFFFE, t)

/-- One lane of SPINV. -/
def tagDrop (key : W64) (_slot : W32) (_cap : Nat) (t : Tags) : W32 × Tags :=
  match tagFind t key with
  | some old => (old, t.filter fun e => e.1 != key)
  | none => (0xFFFFFFFF, t)

/-- The lanes of a tag word in ascending order. -/
def tagLanes (step : W64 → W32 → Nat → Tags → W32 × Tags) (keys : Nat → W64) (slots : Nat → W32) (cap : Nat) :
    List Nat → Lanes Nat × Tags → Lanes Nat × Tags
  | [], acc => acc
  | l :: ls, (vals, t) =>
    let r := step (keys l) (slots l) cap t
    tagLanes step keys slots cap ls (setLane vals l r.1.toNat, r.2)

/-- The key of a tag word as a source. -/
def useKey (f : MW) : Use := { reg := f.base, width := 64, last := f.lb }

/-- A tag word: its effect at its place in order, its results later. -/
def tagWord (i : Instr) (f : MW) (us : List Use) (step : W64 → W32 → Nat → Tags → W32 × Tags) (run : Mask) (s : State) :
    Res :=
  let r := tagLanes step (fun l => read64 s f.base l) (fun l => read32 s f.x l) s.gang.tagSize (lanesIn run)
    (noVals, s.gang.tags)
  reading s run us fun s1 =>
    match issueLater s s1 i run 3 f.data 32 (.result r.1 (lanesOf fun _ => 0)) with
    | .done s2 => .done { s2 with gang := { s2.gang with tags := r.2 } }
    | other => other

/-- SPLOOK. -/
def execSplook (f : MW) (s : State) : Outcome State Fault Refusal :=
  runWord (.splook f) f.dist (tagWord (.splook f) f [useKey f] tagLook) s

/-- SPTAG: a slot of 0xFFFFFFFE or above raises TAG_RANGE. -/
def execSptag (f : MW) (s : State) : Outcome State Fault Refusal :=
  runWord (.sptag f) f.dist (fun run s =>
    let bad := maskOf fun l => bitAt run l && decide (0xFFFFFFFE ≤ (read32 s f.x l).toNat)
    let us := [useKey f, useX f 32]
    reading s run us fun _ =>
      if bad ≠ 0 then raiseAt s .tagRange bad else tagWord (.sptag f) f us tagInstall run s) s

/-- SPINV. -/
def execSpinv (f : MW) (s : State) : Outcome State Fault Refusal :=
  runWord (.spinv f) f.dist (tagWord (.spinv f) f [useKey f] tagDrop) s

end Sys2Proof.Machine
end

