-- ==== Sys2Proof/Machine/Views.lean ====
section
/-! DEFINITION. View descriptors, their footprint and checks, when two views can meet, and the Deckle (spec/15 R239 to R245,
R253). -/

namespace Sys2Proof.Machine

/-! ### The descriptor (R239) -/

/-- The control word. -/
def View.ctl (v : View) : W64 := v[1]
/-- FMT. -/
def View.fmt (v : View) : Nat := (slice v.ctl 61 3).toNat
/-- The rank. -/
def View.rank (v : View) : Nat := (slice v.ctl 59 2).toNat + 1
/-- INTENT. -/
def View.intent (v : View) : Nat := (slice v.ctl 57 2).toNat
/-- SCOPE. -/
def View.scope (v : View) : Nat := (slice v.ctl 55 2).toNat
/-- DEF. -/
def View.defined (v : View) : Bool := bitAt v.ctl 47
/-- WILD. -/
def View.wild (v : View) : Bool := bitAt v.ctl 46
/-- DIDX. -/
def View.didx (v : View) : Nat := (slice v.ctl 40 6).toNat
/-- BASE. -/
def View.base (v : View) : W64 := v[0]

/-- A 32-bit field of a dimension: words from `w` on, two dimensions a word. -/
def View.dim (v : View) (w k : Nat) : W32 :=
  let x := v.toList.getD (w + k / 2) 0
  if k % 2 = 0 then lo32 x else hi32 x

/-- The extent of a dimension. -/
def View.ext (v : View) (k : Nat) : Nat := (v.dim 2 k).toNat
/-- The element stride of a dimension. -/
def View.stride (v : View) (k : Nat) : Int := (v.dim 4 k).toInt
/-- The origin of a dimension. -/
def View.orig (v : View) (k : Nat) : Nat := (v.dim 6 k).toNat

/-- The element size in bytes; a T1 element reaches one byte (R240). -/
def View.esize (v : View) : Nat := if v.fmt < 4 then 2 ^ v.fmt else 1
/-- Whether the format is T1. -/
def View.isT1 (v : View) : Bool := v.fmt == 4

/-- The register state bits replaced. -/
def View.setState (v : View) (x : BitVec 8) : View := v.set 1 ((v.ctl &&& ~~~viewStateBits) ||| (x.setWidth 64 <<< 40))

/-- The dimensions of a view. -/
def View.dims (v : View) : List Nat := List.range v.rank

/-- The linear position of an index (R240). -/
def View.lin (v : View) (idx : List Nat) : Int := (v.dims.map fun k => v.stride k * ((v.orig k : Int) + (idx.getD k 0 : Nat))).sum

/-- The least linear position. -/
def View.linMin (v : View) : Int :=
  (v.dims.map fun k => v.stride k * (v.orig k : Int) + min 0 (v.stride k * ((v.ext k : Int) - 1))).sum
/-- The greatest linear position. -/
def View.linMax (v : View) : Int :=
  (v.dims.map fun k => v.stride k * (v.orig k : Int) + max 0 (v.stride k * ((v.ext k : Int) - 1))).sum

/-- The byte offset of a linear position from BASE. -/
def View.byteOff (v : View) (lin : Int) : Int := if v.isT1 then lin.fdiv 5 else (v.esize : Int) * lin

/-- The address of an element (R240). -/
def View.addr (v : View) (idx : List Nat) : W64 := w64 ((v.base.toNat : Int) + v.byteOff (v.lin idx))

/-- The digit of a T1 element in its byte. -/
def View.digit (v : View) (idx : List Nat) : Nat := (v.lin idx).fmod 5 |>.toNat

/-- The first byte of the footprint, from BASE (R240). -/
def View.footLo (v : View) : Int := v.byteOff v.linMin
/-- The last byte of the footprint, from BASE. -/
def View.footHi (v : View) : Int := if v.isT1 then v.linMax.fdiv 5 else v.byteOff v.linMax + v.esize - 1

/-! ### Registration checks (R241) -/

/-- What the checks find: the cause with its INFO but for the view register, and its ADDR. -/
structure ViewBad where
  cause : Cause
  info : W64
  addr : W64
  deriving DecidableEq, Repr

/-- VIEW_MALFORMED with a reason (R255). -/
def malformed (reason : Nat) : Option ViewBad := some { cause := .viewMalformed, info := BitVec.ofNat 64 (reason * 256), addr := 0 }

/-- Row 2. -/
def badDims (v : View) : Bool :=
  (List.range 4).any fun k =>
    if k < v.rank then v.ext k == 0 || decide (2 ^ 32 < v.orig k + v.ext k)
    else v.ext k != 0 || v.stride k != 0 || v.orig k != 0

/-- Row 3. -/
def badAlign (v : View) : Bool :=
  if v.isT1 then v.stride 0 != 1 || (List.range v.rank).any fun k => k != 0 && v.stride k % 5 != 0
  else (if isAperture v.base then ptrOff v.base else v.base.toNat) % v.esize != 0

/-- Row 6. -/
def badSpace (v : View) : Bool :=
  let lo := (v.base.toNat : Int) + v.footLo
  let hi := (v.base.toNat : Int) + v.footHi
  !((decide (0 ≤ lo) && decide (hi < 2 ^ 56)) || (decide ((2 : Int) ^ 64 - 2 ^ 56 ≤ lo) && decide (hi < 2 ^ 64)))

/-- The check of a descriptor (R241). -/
def viewCheck (s : State) (v : View) : Option ViewBad :=
  if 5 ≤ v.fmt ∨ v.intent = 0 ∨ slice v.ctl 48 7 ≠ 0 ∨ slice v.ctl 0 40 ≠ 0 then malformed 2
  else if badDims v then malformed 3
  else if badAlign v then malformed 4
  else if isAperture v.base then
    let e := myEntry s (ptrSlot v.base)
    if !e.bound || e.gen != ptrGen v.base then some { cause := .stalePointer, info := v.base, addr := v.base }
    else if (ptrOff v.base : Int) + v.footLo < 0 ∨ (e.length : Int) ≤ (ptrOff v.base : Int) + v.footHi then
      some { cause := .viewBounds, info := 0xF0, addr := 0 }
    else none
  else if badSpace v then malformed 5
  else none

/-- The INFO of a view cause with the view register (R255). -/
def viewInfo (b : ViewBad) (reg : Nat) : W64 := if b.cause = .stalePointer then b.info else b.info ||| BitVec.ofNat 64 reg

/-! ### Meet (R242) -/

/-- The magnitude of a stride. -/
def View.mag (v : View) (k : Nat) : Nat := (v.stride k).natAbs

/-- The dimensions by rising stride, lower first on ties. -/
def View.byStride (v : View) : List Nat := sortBy (fun a b => decide (v.mag a < v.mag b) || (v.mag a == v.mag b && decide (a ≤ b))) v.dims

/-- The width of the union of two index ranges, less one. -/
def unionWidth (x y : View) (k : Nat) : Nat := max (x.orig k + x.ext k) (y.orig k + y.ext k) - 1 - min (x.orig k) (y.orig k)

/-- Whether each stride exceeds what the smaller ones can reach. -/
def stridesApart (x y : View) : List Nat → Nat → Bool
  | [], _ => true
  | k :: ks, reach => decide (reach < x.mag k) && stridesApart x y ks (reach + x.mag k * unionWidth x y k)

/-- Whether two views have the same element parameters. -/
def sameShape (x y : View) : Bool :=
  x.base == y.base && x.fmt == y.fmt && x.rank == y.rank && (List.range 4).all fun k => x.stride k == y.stride k

/-- Whether the index ranges of two views are disjoint in a dimension. -/
def disjointDim (x y : View) (k : Nat) : Bool := decide (x.orig k + x.ext k ≤ y.orig k) || decide (y.orig k + y.ext k ≤ x.orig k)

/-- Whether two views can meet (R242). -/
def canMeet (x y : View) : Bool :=
  if x.wild || y.wild then true
  else
    let bx := (x.base.toNat : Int)
    let by_ := (y.base.toNat : Int)
    if bx + x.footHi < by_ + y.footLo ∨ by_ + y.footHi < bx + x.footLo then false
    else if sameShape x y && !x.isT1 then !(stridesApart x y x.byStride 0 && x.dims.any (disjointDim x y))
    else true

/-! ### View registers -/

/-- A view register. -/
def viewAt (c : Ctx) (n : Nat) : View := if h : n < 16 then c.views[n] else View.zero

/-- The number of a view register's definition. -/
def viewDef (c : Ctx) (n : Nat) : Nat := if h : n < 16 then c.viewDefs[n] else 0

/-- A view register replaced. -/
def setView (c : Ctx) (n : Nat) (v : View) : Ctx := if h : n < 16 then { c with views := c.views.set n v } else c

/-- A view register's definition numbered. -/
def setViewDef (c : Ctx) (n d : Nat) : Ctx := if h : n < 16 then { c with viewDefs := c.viewDefs.set n d } else c

/-- A view captured by an access (R245). -/
def capture (c : Ctx) (n : Nat) (writes : Bool) : Captured := { view := viewAt c n, reg := n, dno := viewDef c n, writes := writes }

/-! ### The Deckle (R244, R245) -/

/-- The views that the memory operations of a context captured. -/
def opViews (ops : List Op) : List Captured :=
  ops.filterMap fun o => match o.kind with
    | .memory _ _ _ _ _ v => v
    | .result .. | .viewRetire .. | .ringClaim .. | .ringRelease .. | .keySet .. | .evict .. => none

/-- What keeps a warp that is being deactivated in the register file: a line with a write in flight (spec/05 R101), a VLD or VST that
has not completed (R245). -/
def mustStay (c : Ctx) : Bool := holdsLines c || !(opViews c.ops).isEmpty

/-- The views captured by accesses in flight of a core. -/
def capturedOn (s : State) (core : Nat) : List Captured :=
  ((allWarps s).filter fun w => decide (w.core = core)).flatMap (fun w =>
    opViews w.ctx.ops ++ (match w.trap with | some t => opViews t.intr.ops | none => [])) ++
  (s.engines.filter fun e => decide (e.core = core)).flatMap (·.views)

/-- Whether an access in flight holds an entry. -/
def heldEntry (s : State) (core idx : Nat) : Bool :=
  (capturedOn s core).any fun c => c.view.defined && !c.view.wild && c.view.didx == idx

/-- Entries that no register names and no access needs are freed (R245). -/
def sweepDeckle (core : Nat) (s : State) : State :=
  if (coreAt s core).deckle.all (·.named) then s
  else modCore s core fun c => { c with deckle := c.deckle.filter fun e => e.named || heldEntry s core e.idx }

/-- The Deckle entries charged to a region of the tree on a core (R21). -/
def regionEntries (s : State) (core region : Nat) : Nat :=
  ((coreAt s core).deckle.filter fun e => match launchOf s e.owner.seq with
    | some l => (budgetPath s l.region 8).any fun b => decide (b.region = region)
    | none => false).length

/-- Whether one more entry fits every budget on the path of a launch's region. -/
def deckleRoom (s : State) (core region : Nat) : Bool :=
  (budgetPath s region 8).all fun b => decide (regionEntries s core b.region + 1 ≤ b.deckle)

/-- The free entries of a core's Deckle. -/
def freeEntries (s : State) (core : Nat) : List Nat :=
  (List.range Config.deckleEntries).filter fun i => !(coreAt s core).deckle.any fun e => decide (e.idx = i)

/-- A view registered for a warp (R244): in a free entry, which one is open (log 5), or in wildcard mode. -/
def registerView (s : State) (w : Warp) (region : Nat) (v : View) : View × State :=
  let free := freeEntries s w.core
  if free.isEmpty || !deckleRoom s w.core region then (v.setState 0xC0, s)
  else
    let i := free.getD (Config.freeNat s.freeCtr % free.length) 0
    let v1 := v.setState (0x80 ||| BitVec.ofNat 8 i)
    (v1, bumpFree true (modCore s w.core fun c =>
      { c with deckle := c.deckle ++ [{ idx := i, owner := w.id, view := v1, named := true }] }))

/-- The entry of a warp's view register no longer named by it (R245). -/
def unnameView (w : WarpId) (core : Nat) (v : View) (s : State) : State :=
  if v.defined && !v.wild then
    modCore s core fun c =>
      { c with deckle := c.deckle.map fun e => if e.idx = v.didx ∧ e.owner = w then { e with named := false } else e }
  else s

/-- The register entries of a context's views freed once the accesses that captured them complete (R245). -/
def releaseViews (w : WarpId) (core : Nat) (c : Ctx) (s : State) : State :=
  sweepDeckle core (c.views.toList.foldl (fun st v => unnameView w core v st) s)

/-- The views of a context registered again, when it is activated (R245). -/
def reregister (s : State) (w : Warp) (region : Nat) : Ctx × State :=
  (List.range 16).foldl (fun (acc : Ctx × State) n =>
    let v := viewAt acc.1 n
    if v.defined then
      let p := registerView acc.2 w region v
      (setView acc.1 n p.1, p.2)
    else acc) (w.ctx, s)

/-- A view register defined (R248): its old definition is replaced without a release. -/
def defineView (s : State) (n : Nat) (v : View) : State :=
  let old := viewAt (ctxOf s) n
  let s1 := sweepDeckle s.warp.core (unnameView s.warp.id s.warp.core old s)
  let p := registerView s1 s1.warp s1.launch.region v
  let s2 := { p.2 with nextOp := p.2.nextOp + 1 }
  modCtx s2 fun c => setViewDef (setView c n p.1) n s.nextOp

end Sys2Proof.Machine
end

