-- ==== Sys2Proof/Machine/Pool.lean ====
section
/-! DEFINITION. Context slots of a region's pool (spec/02 R21, R30, R33, R36, spec/06 R125), and the staging of continuation
records (spec/02 R35, R36, spec/06 R129). -/

namespace Sys2Proof.Machine

/-- The index of the first continuation gang of a launch (spec/02 R37). -/
def contBase : Nat := 2 ^ 48

/-- Whether a gang or a warp's gang is a continuation gang (R37). -/
def isContGang (gang : Nat) : Bool := decide (contBase ≤ gang)

/-- The slots a warp holds: its record's and its call area's; a call area in the trap pool is none of them. A continuation warp
that is not yet born holds the staging slots of its records (R36). -/
def warpSlots (w : Warp) : List Nat :=
  (if w.hasSlot then [w.slot] else []) ++ (match w.callSlot with | some c => [c] | none => []) ++ w.fromSlots

/-- The slots a launch stages records in. -/
def stagingSlots (l : Launch) : List Nat := (l.staged.map (·.slot)).eraseDups

/-- The warps of a launch. -/
def warpsOf (s : State) (seq : Nat) : List Warp := (allWarps s).filter fun w => decide (w.id.seq = seq)

/-- Whether two launches draw from one pool: one CTX_POOL of one address space. -/
def samePool (a b : Launch) : Bool := a.eff.ptRoot == b.eff.ptRoot && a.eff.ctxPool == b.eff.ctxPool

/-- The slots of the spill areas of a launch's gangs (R33). -/
def spilledSlots (s : State) (seq : Nat) : List Nat := ((s.gang :: s.gangs).filter fun g => decide (g.id.seq = seq)).flatMap (·.spillSlots)

/-- Every slot index in use in the pool of a launch. -/
def usedSlots (s : State) (of_ : Launch) : List Nat :=
  (allLaunches s).flatMap fun l =>
    if samePool l of_ then stagingSlots l ++ (warpsOf s l.seq).flatMap warpSlots ++ spilledSlots s l.seq else []

/-- The slots a launch is charged for: its reservation stands for those of its grid warps (R33). -/
def chargedSlots (s : State) (l : Launch) : Nat :=
  let ws := (warpsOf s l.seq).filter fun w => l.reserved == 0 || isContGang w.id.gang
  l.reserved + (stagingSlots l ++ ws.flatMap warpSlots).eraseDups.length

/-- The slots charged to a region of the tree. -/
def regionSlots (s : State) (region : Nat) : Nat :=
  (((allLaunches s).filter fun l => (budgetPath s l.region 8).any fun b => decide (b.region = region)).map (chargedSlots s)).sum

/-- Whether n more slots fit every budget on the path (R21). -/
def slotRoom (s : State) (l : Launch) (n : Nat) : Bool :=
  (budgetPath s l.region 8).all fun b => decide (regionSlots s b.region + n ≤ b.ctx)

/-- The slots of a region's pool: its BUD_CTX (R20). -/
def poolSize (s : State) (l : Launch) : Nat := (budgetOf s l.region).elim 0 (·.ctx)

/-- Whether a slot of the pool is free. -/
def slotFree (s : State) (l : Launch) (i : Nat) : Bool :=
  decide (i < poolSize s l) && !(usedSlots s l).contains i

/-- The lowest free slot that a warp or a stage may take; `reserved` when it comes from the launch's reservation (R33). -/
def takeSlot (s : State) (l : Launch) (reserved : Bool) : Option Nat :=
  if reserved || slotRoom s l 1 then
    (List.range ((usedSlots s l).length + 1)).find? (slotFree s l)
  else none

/-- Whether a warp's slots come from its launch's reservation: those of its grid warps, which R33's formula counts. That a continuation
warp of a launch with GBARS > 0 takes its record and its call area from the pool, and may wait for them, is the model's choice (DESIGN
CHOICE, log 63): spec/06 R125 says of such a launch that a call area comes from its reservation and is free at once. -/
def fromReservation (l : Launch) (w : WarpId) : Bool := decide (0 < l.reserved) && !isContGang w.gang

/-- The address of a slot. -/
def slotVa (l : Launch) (i : Nat) : W64 := l.eff.ctxPool + BitVec.ofNat 64 (i * 16384)

/-! ### Continuation records -/

/-- Records to a staging slot (R36). -/
def recordsPerSlot : Nat := 256

/-- Room for one more record of a launch: the slot it goes to, and how many that slot has taken with it (R36). -/
def stageRoom (s : State) (l : Launch) : Option (Nat × Nat) :=
  if (stagingSlots l).contains l.stageSlot && decide (l.stageUsed < recordsPerSlot) then some (l.stageSlot, l.stageUsed + 1)
  else (takeSlot s l false).map fun i => (i, 1)

/-- The stores and atomics of a warp in flight, which a continuation record of it waits for (R130): those of both contexts,
and those performed but still on their way as package writes. -/
def pendingStores (w : Warp) : List Nat :=
  (w.ctx.ops ++ (match w.trap with | some t => t.intr.ops | none => [])).filterMap fun o =>
    match o.kind with
    | .memory fn _ _ _ _ _ => if fn = .load then none else some o.id
    | .viewRetire .. => some o.id
    | .result .. | .ringClaim .. | .ringRelease .. | .keySet .. | .evict .. => none

/-- The bytes of a continuation record (R35). -/
def recordBlock (entry tag : W32) (args : List W32) : List Byte :=
  (entry :: tag :: (List.range 14).map fun i => args.getD i 0).flatMap fun x => bytesOf 4 x.toNat

/-- A record staged (R35, R129): its 64 bytes go to its place in the staging slot, where that page is mapped (log 56). -/
def stageRecord (s : State) (entry tag : W32) (args : List W32) (room : Nat × Nat) : State :=
  let r : Staged := { entry := entry, tag := tag, args := args, slot := room.1, warp := s.warp.id, core := s.warp.core,
                      ops := pendingStores s.warp, published := false, writes := [] }
  saveBytes (slotVa s.launch room.1 + BitVec.ofNat 64 (64 * (room.2 - 1))) (recordBlock entry tag args)
    { s with launch := { s.launch with staged := s.launch.staged ++ [r], stageSlot := room.1, stageUsed := room.2 } }

/-- Whether an operation of a warp is still in flight. -/
def opInFlight (s : State) (w : WarpId) (op : Nat) : Bool :=
  match findWarp s w with
  | none => false
  | some x => (x.ctx.ops ++ (match x.trap with | some t => t.intr.ops | none => [])).any fun o => decide (o.id = op)

/-- Whether a package write is still on its way. -/
def writeInFlight (s : State) (id : Nat) : Bool := s.mem.writes.any fun x => decide (x.id = id)

/-- The release of a staged record is done (R130). -/
def releasedRecord (s : State) (r : Staged) : Bool := r.published && !(r.writes.any (writeInFlight s))

/-- Whether a staged record can be written back now: every store it waits for has been performed. -/
def publishableRecord (s : State) (r : Staged) : Bool := !r.published && !(r.ops.any (opInFlight s r.warp))

/-- The write-back of a record's release begins (R130, spec/20 R312). -/
def publishRecord (s : State) (r : Staged) : State × Staged :=
  let s1 := publish s r.core r.warp
  (s1, { r with published := true, writes := publishedWrites s1 (dieOfCore r.core) })

/-- The releases of a launch's staged records moved on: every record whose stores are performed is written back. -/
def publishStaged (seq : Nat) (s : State) : State :=
  match launchOf s seq with
  | none => s
  | some l =>
    let go := l.staged.foldl (fun (acc : State × List Staged) r =>
      if publishableRecord acc.1 r then
        let p := publishRecord acc.1 r
        (p.1, acc.2 ++ [p.2])
      else (acc.1, acc.2 ++ [r])) (s, [])
    modLaunch go.1 seq fun x => { x with staged := go.2 }

end Sys2Proof.Machine
end

