-- ==== Sys2Proof/Machine/Boundary.lean ====
section
/-! DEFINITION. Fetching code (spec/04 R62 to R65), the segment boundary: releases, waiting groups and the choice (spec/02 R31,
spec/04 R73), and what is taken there first: a held cause, then pre-emption (spec/02 R40, R42, spec/10 R199, R203). -/

namespace Sys2Proof.Machine

open Host (Outcome)

/-! ### Fetching -/

/-- The byte address of a word address. -/
def wordVa (p : WAddr) : W64 := p.signExtend 64 <<< 3

/-- What fetching a word comes to. -/
inductive Fetched where
  | word (w : W64)
  | bad (r : Raised)
  | wait (w : WaitFor)
  | hole (pa : Nat)
  deriving DecidableEq, Repr

/-- Code in a poisoned line, or reached through one: UNCORRECTABLE_MEMORY at the fetch (spec/22 R355). -/
def codeLost (p : WAddr) : Fetched := .bad { cause := .uncorrectableMemory, lanes := 0, addr := wordVa p, info := wordVa p }

/-- A word fetched (R62): its page must be executable and sealed. -/
def fetchWord (s : State) (p : WAddr) : Fetched :=
  match checkGlobal s .exec 8 8 (wordVa p) with
  | .ok (.global k _) _ => if homePoison s k 8 then codeLost p else .word (homeWord s k)
  | .ok .lost _ => codeLost p
  | .ok (.scratch _) _ | .ok (.record _) _ => .word 0
  | .bad _ c addr info => .bad { cause := c, lanes := 0, addr := addr, info := info }
  | .wait _ w => .wait w
  | .hole pa => .hole pa

/-- The translations of fetches noted (spec/10 R207). -/
def noteFetch (s : State) (p : WAddr) : State :=
  let va := wordVa p
  let s1 := bumpFree (tlbStale s (rootOf_ s) va) s
  match translation s (rootOf_ s) va with
  | .leaf pte => if (tlbFind s1 (rootOf_ s) va).any fun e => e.pte == pte then s1 else tlbPut s1 (rootOf_ s) va pte
  | .absent | .malformed | .hole _ | .poisoned => s1

/-- A cause at a segment's header. -/
def headerBad (c : Cause) : Fetched := .bad { cause := c, lanes := 0, addr := 0, info := 0 }

/-- The words of a segment from a position on (R64): `left` words still to come, the last of them the terminator. -/
def fetchRest (s : State) (p : WAddr) : Nat → Fetched
  | 0 => .word 0
  | left + 1 =>
    match fetchWord s p with
    | .word w =>
      if left = 0 then (if wordTerminates w then .word w else headerBad .illegalSegment)
      else if wordTerminates w || wordIsHeader w then headerBad .illegalSegment
      else fetchRest s (p + 1) left
    | other => other

/-- Whether a flag field of a header is misused (R65). -/
def headerFlagBad (h : Header) : Bool :=
  (12 ≤ h.raiseA.toNat && h.raiseA != 15) || (12 ≤ h.raiseB.toNat && h.raiseB != 15) || (h.raiseA == h.raiseB && h.raiseA != 15)

/-- A segment fetched and checked (R64, R65): its header word. -/
def fetchSegment (s : State) (p : WAddr) : Fetched :=
  match fetchWord s p with
  | .word w =>
    let h := headerFields w
    if !wordIsHeader w || h.length == 0 then headerBad .illegalSegment
    else match fetchRest s (p + 1) h.length.toNat with
      | .word _ => if headerFlagBad h || h.z != 0 then headerBad .illegalEncoding else .word w
      | other => other
  | other => other

/-! ### Groups (spec/02 R31) -/

/-- The threads that have not exited. -/
def liveThreads (c : Ctx) : Mask := ~~~c.exited

/-- The threads of groups that wait at a grid barrier (spec/08 R175). -/
def suspendedLanes (c : Ctx) : Mask := c.suspended.foldl (fun m x => if x.released then m else m ||| x.lanes) 0

/-- The meeting registers released: every not-exited thread with that target stands at it. -/
def releaseMeets (c : Ctx) : Ctx :=
  let live := liveThreads c
  let out := maskOf fun t => bitAt live t && bitAt c.mv t && (lanesIn live).all fun u =>
    !(bitAt c.mv u && lane c.meet u == lane c.meet t) || lane c.pcs u == lane c.meet t
  { c with mv := c.mv &&& ~~~out }

/-- The threads that may be chosen: not exited, not held, not waiting at a grid barrier. -/
def candidates (c : Ctx) : Mask :=
  liveThreads c &&& ~~~(suspendedLanes c) &&& maskOf fun t => !(bitAt c.mv t && lane c.meet t == lane c.pcs t)

/-- The groups of a set of threads by their PC, each once. -/
def groupPcs (c : Ctx) (m : Mask) : List WAddr := ((lanesIn m).map fun t => lane c.pcs t).eraseDups

/-- The threads of a set at a PC. -/
def groupAt (c : Ctx) (m : Mask) (p : WAddr) : Mask := maskOf fun t => bitAt m t && lane c.pcs t == p

/-- The WAIT mask of the segment at a PC (R73); a fault of the fetch is met when the group is chosen. -/
def headerWait (s : State) (p : WAddr) : BitVec 12 :=
  match fetchWord s p with
  | .word w => if wordIsHeader w then (headerFields w).wait else 0
  | .bad _ | .wait _ | .hole _ => 0

/-- The groups whose segments' flags are clear (R73). -/
def readyPcs (s : State) (c : Ctx) (m : Mask) : List WAddr :=
  (groupPcs c m).filter fun p => headerWait s p &&& cfBits c == 0

/-- The highest passed count of a group. -/
def passedOf (c : Ctx) (g : Mask) : Nat := (lanesIn g).foldl (fun n t => max n (lane c.passed t).toNat) 0

/-- The lowest PC of a list. -/
def lowestPc (ps : List WAddr) : WAddr := ps.foldl (fun m p => if p.toNat < m.toNat then p else m) (ps.headD 0)

/-- The group chosen: the lowest PC of those passed over eight times, else the lowest PC. -/
def choosePc (c : Ctx) (m : Mask) (ps : List WAddr) : WAddr :=
  let old := ps.filter fun p => decide (8 ≤ passedOf c (groupAt c m p))
  if old.isEmpty then lowestPc ps else lowestPc old

/-- The passed counts after a choice, saturating at 15 (spec/05 R93). -/
def passChoice (c : Ctx) (m : Mask) (ps : List WAddr) (chosen : WAddr) : Ctx :=
  { c with
    passed := lanesOf fun t =>
      let p := lane c.pcs t
      if !bitAt m t || !ps.contains p then lane c.passed t
      else if p = chosen then 0
      else BitVec.ofNat 4 (min 15 (passedOf c (groupAt c m p) + 1)) }

/-- The chosen group starts its segment (spec/04 R69). -/
def startSegment (c : Ctx) (g : Mask) (p : WAddr) (w : W64) : Ctx :=
  { settleHaz c with
    active := g, segh := p, seg := headerFields w, inSeg := true, midSeg := false, npc := p + 1, blocks := [], wait := .none,
    met := false }

/-! ### Grid barriers (spec/08 R175, R176, spec/12 R214) -/

/-- Whether an access in flight has been performed at its scope: nothing of it is left, no package write, no packet. -/
def opPerformed (s : State) (o : Op) : Bool :=
  match o.kind with
  | .memory _ _ _ accs _ _ => accs.isEmpty && !opWriting s o.id && !(s.fabric.sent.any fun p => p.op == some o.id)
  | .result .. | .viewRetire .. | .ringClaim .. | .ringRelease .. | .keySet .. | .evict .. => true

/-- The operations in flight of a warp, those of an interrupted context first (spec/10 R202: they are one warp). -/
def warpOps (w : Warp) : List Op := (match w.trap with | some t => t.intr.ops | none => []) ++ w.ctx.ops

/-- Whether every earlier access of the issuing warp has been performed. -/
def allPerformed (s : State) : Bool := (warpOps s.warp).all (opPerformed s)

/-- The release before a grid-barrier arrival (R176, R214): what it still waits for, and the state after. -/
def releaseStage (s : State) : Option WaitFor × State :=
  if !allPerformed s then (some .earlier, s)
  else if (ctxOf s).met then (none, s)
  else
    let s1 := publish s s.warp.core s.warp.id
    (if publishing s1 (publishedWrites s1 (myDie s)) then some (.published (publishedWrites s1 (myDie s))) else none, s1)

/-- The warps that have arrived at a grid barrier in this phase. -/
def arrivedAt (l : Launch) (n : Nat) : List WarpId :=
  match l.arrivals.find? fun a => decide (a.1 = n) with
  | some a => a.2
  | none => []

/-- The arrivals of a grid barrier replaced. -/
def setArrived (l : Launch) (n : Nat) (ws : List WarpId) : Launch :=
  { l with arrivals := (l.arrivals.filter fun a => decide (a.1 ≠ n)) ++ (if ws.isEmpty then [] else [(n, ws)]) }

/-- Whether every member has arrived: retired warps count at every phase (R175). -/
def phaseComplete (l : Launch) (n : Nat) : Bool :=
  let ws := arrivedAt l n
  decide (0 < ws.length) &&
    decide (l.gangs * l.warps ≤ ws.length + (l.retiredWarps.filter fun w => !ws.contains w && !isContGang w.gang).length)

/-- The threads of a warp that wait at a grid barrier released. -/
def releaseWarp (seq n : Nat) (w : Warp) : Warp :=
  if w.id.seq = seq ∧ !isContGang w.id.gang then
    { w with ctx := { w.ctx with
        met := w.ctx.met || w.ctx.wait == .gridBarrier n,
        suspended := w.ctx.suspended.map fun x => if x.bar = n then { x with released := true } else x } }
  else w

/-- A grid barrier settled: when every member has arrived, the phase completes and every waiting thread is released. -/
def settleGrid (s : State) (seq n : Nat) : State :=
  match launchOf s seq with
  | none => s
  | some l =>
    if phaseComplete l n then
      let s1 := modLaunch s seq fun x => setArrived x n []
      { s1 with warp := releaseWarp seq n s1.warp, warps := s1.warps.map (releaseWarp seq n) }
    else s

/-- The issuing warp's arrival. -/
def gridArrive (s : State) (n : Nat) : State :=
  settleGrid { s with launch := setArrived s.launch n (arrivedAt s.launch n ++ [s.warp.id]) } s.launch.seq n

/-- Every thread of the warp waits at a grid barrier: the warp arrives when it has not yet, and waits. -/
def gridWait (s : State) (n : Nat) : State :=
  if (arrivedAt s.launch n).contains s.warp.id then holdWarp s (.gridBarrier n)
  else match releaseStage s with
    | (some w, s1) => holdWarp s1 w
    | (none, s1) =>
      let s2 := gridArrive s1 n
      if (ctxOf s2).suspended.any (·.released) then modCtx s2 fun c => { c with wait := .none, met := false }
      else holdWarp s2 (.gridBarrier n)

/-! ### The boundary -/

/-- Every matrix operation of a warp is complete or at an interruption point (spec/18 R296, R298). -/
def matrixAtPoint (s : State) (w : WarpId) : Bool := !s.engines.any fun e => decide (e.warp = w) && e.rowStarted

/-- Whether a warp whose threads have all exited may retire (spec/06 R124). -/
def drained (c : Ctx) : Bool := c.ol == 0 && c.os == 0 && c.sp == 0 && c.vrets == 0 &&
  !c.ops.any fun o => match o.kind with
    | .memory .. | .viewRetire .. => true
    | .result .. | .ringClaim .. | .ringRelease .. | .keySet .. | .evict .. => false

/-- Every thread has exited: a cause still held goes to the command processor (spec/10 R199), and the warp waits until it may
retire (R124); a trap context that ends so is a double fault (spec/10 R197). -/
def allExited (s : State) : State :=
  match s.warp.trap with
  | some t => toCommandProcessor s .doubleFault 0 (BitVec.ofNat 64 t.intr.frame.cause) false
  | none =>
    match s.warp.held with
    | some h => toCommandProcessor { s with warp := { s.warp with held := none } } h.cause h.addr h.info true
    | none =>
      if drained (ctxOf s) then modCtx s fun c => { settleHaz c with wait := .retirement, met := false, midSeg := false }
      else holdWarp s .retirement

/-- A held cause is taken at a boundary, KIND 2 (spec/10 R199); it stays held while the warp's record is not there. -/
def takeHeld (s : State) (h : Held) : State :=
  let t := takeCause { s with warp := { s.warp with held := none } } 2 h.fpc h.word h.run
    { cause := h.cause, lanes := h.lanes, addr := h.addr, info := h.info }
  if awaitsRecord t then { t with warp := { t.warp with held := some h } } else t

/-- Pre-emption is taken at a boundary, KIND 3 (spec/10 R203); it stays requested while the warp's record is not there. -/
def takePreempt (s : State) : State :=
  let live := liveThreads (ctxOf s)
  let t := takeCause { s with warp := { s.warp with preempt := false } } 3 0 0 live
    { cause := .preempt, lanes := live, addr := 0, info := 0 }
  if awaitsRecord t then { t with warp := { t.warp with preempt := true } } else t

/-- A group chosen: its segment starts, or a cause is raised at its header, KIND 1 (R64, R195). A continuation warp whose entry is
no header of its object raises ILLEGAL_SEGMENT where it starts (spec/02 R35). -/
def beginGroup (s : State) (m : Mask) (ps : List WAddr) (p : WAddr) : Outcome State Fault Refusal :=
  let c := ctxOf s
  let g := groupAt c m p
  let chosen (s : State) : State := modCtx s fun x => { passChoice x m ps p with active := g, segh := p, wait := .none, met := false }
  let raise (r : Raised) : Outcome State Fault Refusal :=
    let t := takeCause (chosen (noteFetch s p)) 1 p 0 g { r with lanes := g }
    .next (if awaitsRecord t then holdWarp s (ctxOf t).wait else t)
  match (if s.warp.badEntry = some p then .bad { cause := .illegalSegment, lanes := g, addr := 0, info := 0 } else fetchSegment s p) with
  | .word w =>
    .next (modCtx (noteFetch (chosen { s with warp := { s.warp with badEntry := none } }) p) fun x => startSegment x g p w)
  | .bad r => raise r
  | .wait w => .next (holdWarp s w)
  | .hole pa => .fault (.physicalHole pa)

/-- A group that resumes after a grid barrier goes on inside its segment (spec/08 R175, spec/04 R69). -/
def resumeGroup (s : State) (m : Mask) (ps : List WAddr) (x : Suspended) : State :=
  modCtx s fun c =>
    { settleHaz (passChoice c m ps x.npc) with
      active := x.lanes, segh := x.segh, seg := x.seg, inSeg := true, midSeg := false, npc := x.npc, blocks := x.blocks,
      wait := .none, met := false, suspended := c.suspended.filter (· ≠ x) }

/-- Whether every thread of the issuing warp that has not exited waits at one grid barrier (spec/08 R175). -/
def allAtBarrier (c : Ctx) (n : Nat) : Bool :=
  liveThreads c &&& ~~~(c.suspended.foldl (fun m x => if x.released || x.bar != n then m else m ||| x.lanes) 0) == 0

/-- No group can be chosen: the warp waits on flags, or at a grid barrier, where it now arrives if every thread has run it. -/
def noGroup (s : State) (m : Mask) : State :=
  match (ctxOf s).suspended with
  | x :: _ =>
    if m ≠ 0 then holdWarp s .flags
    else if allAtBarrier (ctxOf s) x.bar then gridWait s x.bar
    else holdWarp s (.gridBarrier x.bar)
  | [] => holdWarp s .flags

/-- The release and the choice of R31. -/
def chooseGroup (s0 : State) : Outcome State Fault Refusal :=
  let s := modCtx s0 releaseMeets
  let c := ctxOf s
  let m := candidates c
  let ps := readyPcs s c m
  if ps.isEmpty then .next (noGroup s m)
  else
    let p := choosePc c m ps
    match c.suspended.find? fun x => x.released && x.npc == p with
    | some x => .next (resumeGroup s m ps x)
    | none => beginGroup s m ps p

/-- The boundary of the issuing warp. -/
def boundary (s : State) : Outcome State Fault Refusal :=
  if (ctxOf s).exited = allLanes then .next (allExited s)
  else if trapMode s then chooseGroup s
  else match s.warp.held with
    | some h => .next (takeHeld s h)
    | none =>
      if s.warp.preempt && matrixAtPoint s s.warp.id then .next (takePreempt s)
      else chooseGroup s

/-- The segment has ended: every thread that ran its terminator stands at its successor. -/
def endSegment (c : Ctx) : Ctx := { c with inSeg := false, midSeg := false, blocks := [], wait := .none, met := false }

end Sys2Proof.Machine
end

