-- ==== Sys2Proof/Machine/View.lean ====
section
/-! DEFINITION. The view words VDEF, VSET, VGET, VLD, VST, VRET and VMEET (spec/15 R246 to R252). -/

namespace Sys2Proof.Machine

open Host (Outcome)

/-! ### Uses of a view by a word (R246) -/

/-- A view cause of a word, for its running threads. -/
def viewRaise (s : State) (b : ViewBad) (reg : Nat) (run : Mask) : Res :=
  .raise s { cause := b.cause, lanes := run, addr := b.addr, info := viewInfo b reg }

/-- The word names a view that is not defined (R255 reason 1). -/
def undefinedView (s : State) (reg : Nat) (run : Mask) : Res :=
  viewRaise s { cause := .viewMalformed, info := 0x100, addr := 0 } reg run

/-- The view named must be defined. -/
def withView (s : State) (reg : Nat) (run : Mask) (k : View → Res) : Res :=
  if (viewAt (ctxOf s) reg).defined then k (viewAt (ctxOf s) reg) else undefinedView s reg run

/-- Whether an INTENT holds the accesses needed (1 read, 2 write, 3 both). -/
def intentHas (intent need : Nat) : Bool := (intent &&& need) == need

/-- The INFO of VIEW_INTENT: the intent needed and missing, the view register. -/
def intentInfo (v : View) (need reg : Nat) : W64 := BitVec.ofNat 64 (((need &&& (3 - v.intent)) * 16) + reg)

/-- The view named must permit the access. -/
def withIntent (s : State) (v : View) (need reg : Nat) (run : Mask) (k : Res) : Res :=
  if intentHas v.intent need then k
  else .raise s { cause := .viewIntent, lanes := run, addr := 0, info := intentInfo v need reg }

/-! ### VDEF (R248) -/

/-- Whether an access of an operation touches bytes. -/
def accTouches (k n bytes : Nat) (a : Acc) : Bool :=
  match a.place with
  | .global key _ => overlap key bytes k n
  | .scratch _ | .record _ | .lost => false

/-- Whether an operation in flight still has to perform an access of the bytes: one not performed, a package write or a packet
of it. -/
def opTouches (s : State) (k n : Nat) (o : Op) : Bool :=
  match o.kind with
  | .memory _ bytes _ accs _ _ =>
    accs.any (accTouches k n bytes) ||
      (s.mem.writes.any fun w => w.op == some o.id && w.pending && overlap w.key w.bytes.length k n) ||
      (s.fabric.sent.any fun p => p.op == some o.id && p.accs.any (accTouches k n p.bytes))
  | .result .. | .viewRetire .. | .ringClaim .. | .ringRelease .. | .keySet .. | .evict .. => false

/-- Whether an operation is the one access of an LD to a k register, which is of all its threads (spec/08 R163). -/
def ofAllThreads (o : Op) : Bool :=
  (match o.kind with
   | .memory .load _ _ _ _ none => true
   | .memory .. | .result .. | .viewRetire .. | .ringClaim .. | .ringRelease .. | .keySet .. | .evict .. => false) &&
    o.dsts.any fun d => match d.reg with
      | .k _ => true
      | .g _ | .p _ => false

/-- Whether an access of a scope is a package-scope access (spec/20 R311): one of package scope, or of system scope to no peer's memory
(R314). -/
def packageScope (scope k : Nat) : Bool := scope == 2 || (scope == 3 && !isDirect k)

/-- Whether a thread has a package-scope access of an operation left to perform, through no view (spec/20 R311). -/
def wideLeft (all : Bool) (l : Nat) (o : Op) : Bool :=
  match o.kind with
  | .memory _ _ scope accs _ none =>
    accs.any fun a => (all || ofAllThreads o || a.lane == l) && (match a.place with
      | .global k _ => packageScope scope k
      | .scratch _ | .record _ | .lost => false)
  | .memory .. | .result .. | .viewRetire .. | .ringClaim .. | .ringRelease .. | .keySet .. | .evict .. => false

/-- Whether the issuing warp has an earlier access of the bytes to perform, through no view (spec/09 R181, R184), or its thread a wide
one before a wide one (spec/20 R311). -/
def earlierAccess (s : State) (scope k n l : Nat) : Bool :=
  (warpOps s.warp).any fun o =>
    (opTouches s k n o && (match o.kind with
      | .memory _ _ _ _ _ none => true
      | .memory .. | .result .. | .viewRetire .. | .ringClaim .. | .ringRelease .. | .keySet .. | .evict .. => false)) ||
      (packageScope scope k && wideLeft false l o)

/-- Bytes read at a word, for all its lanes as one access: the earlier accesses of the warp first, a peer that does not answer
and a poisoned line as causes. -/
def readAtWord (s0 s : State) (run : Mask) (va : W64) (k n scope : Nat) (next : State → List Byte → Res) : Res :=
  if earlierAccess s scope k n 0 || accSettling s s.warp.core scope false k n then .hold s0 .earlier
  else if travels s s.warp.core false scope k n && !reachableKey s k then .raise s0 { cause := .peerUnreachable, lanes := run, addr := va, info := 0 }
  else
    let r := loadBytes s s.warp.core scope k n
    if r.2.1 then .raise s0 { cause := .uncorrectableMemory, lanes := run, addr := va, info := va } else next r.2.2 r.1

/-- A descriptor from its bytes. -/
def viewOf (bs : List Byte) : View := Vector.ofFn fun i => BitVec.ofNat 64 (ofBytes ((bs.drop (8 * i.val)).take 8))

/-- The address operand of an E word: 64 bits, with no last-read bit. -/
def useE (r : BitVec 7) (w : Nat) : Use := { reg := r, width := w, last := false }

/-- A descriptor checked and registered (R241, R244). -/
def defineChecked (s0 s : State) (run : Mask) (reg : Nat) (v : View) : Res :=
  match viewCheck s v with
  | some b => viewRaise s0 b reg run
  | none => .done (defineView s reg (v.setState 0))

/-- VDEF; its read is done at the word, and counts on `ol` while it is (R248, spec/08 R161). -/
def execVdef (f : EW) (s : State) : Outcome State Fault Refusal :=
  runEWord (.vdef f) f.dist (fun run s =>
    let a := fun l => read64 s f.r1 l + BitVec.ofInt 64 f.imm.toInt
    let va := a (lowLane run)
    reading s run [useE f.r1 64] fun s1 =>
      if !uniform run (fun l => (a l).toNat) then raiseAt s .nonuniformOperand run
      else
        let chk := pointerInfo (read64 s f.r1 (lowLane run)) (checkGlobal s .read 64 64 va)
        checked s run (fun _ => chk) <|
          match chk with
          | .ok (.global k _) _ =>
            counted s 1 <|
              readAtWord s (noteUse s1 (rootOf_ s) (myDie s) [va]) run va k 64 0 fun s2 bs =>
                defineChecked s s2 run f.va.toNat (viewOf bs)
          | .ok .lost _ => .raise s { cause := .uncorrectableMemory, lanes := run, addr := va, info := va }
          | .ok (.scratch _) _ | .ok (.record _) _ | .bad .. | .wait .. | .hole _ => .done s1) s

/-! ### VSET and VGET (R247, R249) -/

/-- A 32-bit half of a view's word replaced. -/
def setHalf (v : View) (w k : Nat) (x : W32) : View :=
  let i := w + k / 2
  if h : i < 8 then v.set i (if k % 2 = 0 then join32 x (hi32 v[i]) else join32 (lo32 v[i]) x) else v

/-- Bits of the control word replaced. -/
def setCtl (v : View) (lo len : Nat) (x : Nat) : View :=
  v.set 1 ((v.ctl &&& ~~~(BitVec.ofNat 64 ((2 ^ len - 1) * 2 ^ lo))) ||| BitVec.ofNat 64 (x % 2 ^ len * 2 ^ lo))

/-- The copy VSET checks; none where the value does not fit the field (log 21). -/
def setField (v : View) (code : Nat) (x : W64) : Option View :=
  let n := x.toNat % 2 ^ 32
  if code = 0 then some (v.set 0 x)
  else if code ≤ 4 then some (setHalf v 2 (code - 1) (lo32 x))
  else if code ≤ 8 then some (setHalf v 4 (code - 5) (lo32 x))
  else if code ≤ 12 then some (setHalf v 6 (code - 9) (lo32 x))
  else if code = 13 then (if n < 8 then some (setCtl v 61 3 n) else none)
  else if code = 14 then (if 1 ≤ n ∧ n ≤ 4 then some (setCtl v 59 2 (n - 1)) else none)
  else if code = 15 then (if n < 4 then some (setCtl v 57 2 n) else none)
  else (if n < 4 then some (setCtl v 55 2 n) else none)

/-- A view register's descriptor replaced in place, with its Deckle entry (R249). -/
def updateView (s : State) (reg : Nat) (v : View) : State :=
  let s1 := modCtx s fun c => setView c reg v
  if v.wild then s1
  else modCore s1 s.warp.core fun c =>
    { c with deckle := c.deckle.map fun e => if e.idx = v.didx then { e with view := v } else e }

/-- VSET. -/
def execVset (f : EW) (s : State) : Outcome State Fault Refusal :=
  runEWord (.vset f) f.dist (fun run s =>
    let reg := f.va.toNat
    let code := f.imm.toNat
    let w := if code = 0 then 64 else 32
    let x := fun l => if code = 0 then read64 s f.r1 l else (read32 s f.r1 l).setWidth 64
    withView s reg run fun v =>
      reading s run [useE f.r1 w] fun s1 =>
        if !uniform run (fun l => (x l).toNat) then raiseAt s .nonuniformOperand run
        else match setField v code (x (lowLane run)) with
          | none =>
            if code = 14 then
              viewRaise (bumpFree true s) { cause := .viewMalformed, info := Config.freeWord s.freeCtr &&& 0xFF00, addr := 0 } reg run
            else viewRaise s { cause := .viewMalformed, info := 0x200, addr := 0 } reg run
          | some v1 =>
            match viewCheck s (v1.setState 0) with
            | some b => viewRaise s b reg run
            | none => .done (updateView s1 reg v1)) s

/-- The field VGET reads (R247). -/
def getField (v : View) (code : Nat) : Nat :=
  if code = 0 then v.base.toNat
  else if code ≤ 4 then v.ext (code - 1)
  else if code ≤ 8 then (v.dim 4 (code - 5)).toNat
  else if code ≤ 12 then v.orig (code - 9)
  else if code = 13 then v.fmt
  else if code = 14 then v.rank
  else if code = 15 then v.intent
  else if code = 16 then v.scope
  else (slice v.ctl 40 8).toNat

/-- VGET: separation 4 (spec/04 R68). -/
def execVget (f : EW) (s : State) : Outcome State Fault Refusal :=
  runEWord (.vget f) f.dist (fun run s =>
    let code := f.imm.toNat
    withView s f.va.toNat run fun v =>
      roomed [] (putReg s s run f.r1 (code == 0) (decide (5 ≤ code) && decide (code ≤ 8)) 4 fun _ => getField v code)) s

/-! ### VLD and VST (R250) -/

/-- The indices of a lane. -/
def viewIndex (s : State) (f : EW) (v : View) (l : Nat) : List Nat :=
  v.dims.map fun k => (readG s (f.r2.toNat + k) l).toNat

/-- The lanes that access an element: not skipped. -/
def viewLanes (s : State) (f : EW) (run : Mask) : Mask :=
  maskOf fun l => bitAt run l && readG s f.r2.toNat l != 0xFFFFFFFF

/-- The first dimension whose index is out of range. -/
def badIndex (v : View) (idx : List Nat) : Option Nat := v.dims.find? fun k => decide (v.ext k ≤ idx.getD k 0)

/-- The lanes out of bounds, as the cause VIEW_BOUNDS. -/
def boundsCause (v : View) (reg : Nat) (idx : Nat → List Nat) (m : Mask) : Option Raised :=
  let bad := maskOf fun l => bitAt m l && (badIndex v (idx l)).isSome
  if bad = 0 then none
  else
    let l := lowLane bad
    let k := (badIndex v (idx l)).getD 0
    some { cause := .viewBounds, lanes := bad, addr := v.addr (idx l),
           info := BitVec.ofNat 64 ((idx l).getD k 0 * 2 ^ 32 + k * 16 + reg) }

/-- Whether the data register of VLD or VST has the width of the format. -/
def viewRegOk (v : View) (r : BitVec 7) : Bool := r == 120 || (if v.fmt = 3 then isG r && r.toNat % 2 == 0 && r != 95 else isG r)

/-- The sources of VLD and VST. -/
def viewUses (f : EW) (v : View) (store : Bool) : List Use :=
  (v.dims.map fun k => useE (f.r2 + BitVec.ofNat 7 k) 32) ++ (if store then [useE f.r1 (if v.fmt = 3 then 64 else 32)] else [])

/-- The checks of VLD and VST, and what follows with the view, the lanes and their checked places. -/
def viewAccess (s : State) (f : EW) (store : Bool) (run : Mask) (k : State → View → Mask → (Nat → LaneChk) → Res) : Res :=
  let reg := f.va.toNat
  let v0 := viewAt (ctxOf s) reg
  let need := if store then 2 else 1
  if 96 < f.r2.toNat + v0.rank ∨ (v0.defined ∧ viewRegOk v0 f.r1 = false) then raiseAt s .illegalEncoding run
  else withView s reg run fun v =>
    withIntent s v need reg run <|
      if store && v.isT1 then viewRaise s { cause := .viewMalformed, info := 0x600, addr := 0 } reg run
      else
        let idx := viewIndex s f v
        let m := viewLanes s f run
        let chk := fun l => pointerInfo v.base (checkGlobal s (if store then .write else .read) v.esize v.esize (v.addr (idx l)))
        reading s run (viewUses f v store) fun s1 =>
          match boundsCause v reg idx m with
          | some r => .raise s r
          | none => checked s m chk (k s1 v m chk)

/-- VLD: a T1 access keeps the digit it reads, counted from 1. -/
def execVld (f : EW) (s : State) : Outcome State Fault Refusal :=
  runEWord (.vld f) f.dist (fun run s =>
    viewAccess s f false run fun s1 v m chk =>
      let accs := (lanesIn m).map fun l => accOf (chk l) l (if v.isT1 then v.digit (viewIndex s f v l) + 1 else 0) 0
      let w := if v.fmt = 3 then 64 else 32
      if lineRoom s1 (dstLines f.r1 w) then
        counted s 1 <| .done (issueFrom (ctxOf s) (noteGlobal 0 accs s1) (.vld f) run 1 (laterDst f.r1 w m)
          (.memory .load v.esize v.scope accs noVals (some (capture (ctxOf s) f.va.toNat false))))
      else .hold s .lineBudget) s

/-- VST. -/
def execVst (f : EW) (s : State) : Outcome State Fault Refusal :=
  runEWord (.vst f) f.dist (fun run s =>
    viewAccess s f true run fun s1 v m chk =>
      let accs := (lanesIn m).map fun l =>
        accOf (chk l) l (readNat s (if v.fmt = 3 then 64 else 32) f.r1 l % 2 ^ (8 * v.esize)) 0
      counted s 2 <| .done (issueOp (noteStore 0 v.esize accs (noteGlobal 0 accs s1)) (.vst f) run 2
        (.memory .store v.esize v.scope accs noVals (some (capture (ctxOf s) f.va.toNat true))))) s

/-! ### VRET and VMEET -/

/-- VRET (R252): the register is undefined at once; the release is in flight. -/
def execVret (f : EW) (s : State) : Outcome State Fault Refusal :=
  runEWord (.vret f) f.dist (fun run s =>
    let reg := f.va.toNat
    withView s reg run fun v =>
      let s1 := issueOp s (.vret f) run 0 (.viewRetire reg (viewDef (ctxOf s) reg) v.scope none)
      let s2 := modCtx s1 fun c => { setView c reg (v.set 1 (setBit v.ctl 47 false)) with vrets := c.vrets + 1 }
      .done (sweepDeckle s.warp.core (unnameView s.warp.id s.warp.core v s2))) s

/-- VMEET (R251). -/
def execVmeet (f : EW) (s : State) : Outcome State Fault Refusal :=
  runEWord (.vmeet f) f.dist (fun run s =>
    withView s f.va.toNat run fun v => withView s f.vb.toNat run fun w =>
      putPred s run (f.r1.toNat % 8) 4 fun _ => canMeet v w) s

end Sys2Proof.Machine
end

