-- ==== Sys2Proof/Machine/Binding.lean ====
section
/-! DEFINITION. Names and bindings (spec/13 R215 to R222): classifying a value, finding or starting a binding, and what the
lanes of a swizzling word come to. -/

namespace Sys2Proof.Machine

/-! ### Names (R215, R216) -/

/-- TAG of a 16-byte value. -/
def nameTag (w : Nat) : Bool := w / 2 ^ 127 % 2 == 1
/-- HOME. -/
def nameHome (w : Nat) : Nat := fld w 123 104
/-- INDEX. -/
def nameIndex (w : Nat) : Nat := fld w 103 64
/-- Bits 127:64, the INFO of the name causes (R237). -/
def nameHigh (w : Nat) : W64 := BitVec.ofNat 64 (w / 2 ^ 64)

/-- A value that claims to be a name and is none (R216). -/
def nameBad (w : Nat) : Bool := nameTag w && (decide (fld w 126 124 ≠ 0) || decide (nameHome w = 0xFFFFF))

/-- The name of an offset in a bound object (R229). -/
def nameOf (e : Entry) (off : Nat) : Nat := 2 ^ 127 + e.home * 2 ^ 104 + e.index * 2 ^ 64 + off

/-- The short pointer of an offset in a slot (R217). -/
def pointerOf (slot gen off : Nat) : Nat := 0xFA5 * 2 ^ 52 + slot * 2 ^ 40 + gen * 2 ^ 36 + off

/-! ### What the lanes of a word come to -/

/-- A lane of a swizzling word: its result, a wait, or the cause it fails with, at its place in the word's order. -/
inductive LaneVal where
  | val (v : Nat)
  | wait (w : WaitFor)
  | bad (order : Nat) (c : Cause) (addr info : W64)
  deriving DecidableEq, Repr

/-- The result of a lane. -/
def LaneVal.get : LaneVal → Nat
  | .val v => v
  | .wait _ | .bad .. => 0

/-- A lane's finding as a check. -/
def LaneVal.chk : LaneVal → LaneChk
  | .val _ => .ok (.scratch 0) 0
  | .wait w => .wait 0 w
  | .bad o c addr info => .bad (o + 1) c addr info

/-- Every lane decided: a wait of any lane first, then the first failing row of the word's order (R227). -/
def decideLanes (s0 : State) (run : Mask) (f : Nat → LaneVal) (k : Res) : Res := checked s0 run (fun l => (f l).chk) k

/-! ### Bindings (R218, R220) -/

/-- An entry of a binding table replaced in memory. -/
def putEntry (s : State) (root : Nat) (table : W64) (slot : Nat) (e : Entry) : State :=
  match entryKey s root table slot with
  | some k => homeWrite s k ((entryWords e).flatMap fun w => bytesOf 8 w.toNat)
  | none => s

/-- The slots of a binding table. -/
def allSlots : List Nat := List.range 4096

/-- Whether an entry names an object. -/
def entryNames (e : Entry) (h i : Nat) : Bool := e.home == h && e.index == i

/-- The local range's first address of a slot (R219). -/
def slotBase (slot : Nat) : W64 := BitVec.ofNat 64 (0x00F0000000000000 + slot * 2 ^ 36)

/-- Where a name's binding stands. -/
inductive BindState where
  | bound (slot : Nat)
  | busy (slot : Nat)
  | fresh (slot : Nat)
  | full
  deriving DecidableEq, Repr

/-- The search of R220; a slot whose entry lies on a page that is not mapped cannot be taken (log 15). -/
def findBinding (s : State) (root : Nat) (table : W64) (h i : Nat) : BindState :=
  let at_ := entryAt s root table
  match allSlots.find? fun n => (at_ n).bound && entryNames (at_ n) h i with
  | some n => .bound n
  | none =>
    match allSlots.find? fun n => (at_ n).busy && entryNames (at_ n) h i with
    | some n => .busy n
    | none =>
      match allSlots.find? fun n => (entryKey s root table n).isSome && !(at_ n).bound && !(at_ n).busy && !(at_ n).retired with
      | some n => .fresh n
      | none => .full

/-- A binding started: HOME, INDEX and BUSY written, OBJECT_ABSENT raised to the service core. -/
def startBinding (s : State) (slot h i : Nat) : State :=
  let root := rootOf_ s
  let table := s.launch.eff.bindTable
  let e := entryAt s root table slot
  let s1 := putEntry s root table slot { e with home := h, index := i, busy := true }
  { s1 with svc := { s1.svc with
      binds := s1.svc.binds ++ [{ space := root, table := table, slot := slot, home := h, index := i }] } }

/-- Whether a binding that failed had parked the issuing context. -/
def failedHere (s : State) (x : BindFail) : Bool := x.warp == s.warp.id && x.trap == trapMode s

/-- The cause a binding that parked the issuing word ended with. -/
def bindFailure (s : State) (h i : Nat) : Option Cause :=
  (s.svc.failed.find? fun x => failedHere s x && x.pc == (ctxOf s).npc && x.home == h && x.index == i).map (·.cause)

/-- The failures of bindings that parked another word of the issuing context, which was then skipped, taken away: a word that resolves
their names starts a fresh binding (R220). -/
def dropSkipped (s : State) : State :=
  if s.svc.failed.isEmpty then s
  else { s with svc := { s.svc with failed := s.svc.failed.filter fun x => !failedHere s x || x.pc == (ctxOf s).npc } }

/-- Whether a search of the issuing warp's binding table meets a poisoned line (spec/22 R355). -/
def tableLost (s : State) : Bool := !s.mem.poison.isEmpty && allSlots.any (myEntryLost s)

/-- The bindings a word needs are started, lane by lane. -/
def startBindings (names : Nat → Nat) : List Nat → State → State
  | [], s => s
  | l :: ls, s =>
    let w := names l
    let s1 :=
      if nameTag w && !tableLost s && (bindFailure s (nameHome w) (nameIndex w)).isNone then
        match findBinding s (rootOf_ s) s.launch.eff.bindTable (nameHome w) (nameIndex w) with
        | .fresh n => startBinding s n (nameHome w) (nameIndex w)
        | .bound _ | .busy _ | .full => s
      else s
    startBindings names ls s1

/-- The wait for a slot of the issuing warp's table, which a name started. -/
def slotWait (s : State) (n : Nat) : WaitFor := .object (rootOf_ s) s.launch.eff.bindTable [n] true

/-- A lane's name resolved (R228 order: malformed, unknown or unreachable, table full, offset beyond the object). -/
def resolveName (s : State) (addr : W64) (w : Nat) : LaneVal :=
  if !nameTag w then .val (w % 2 ^ 64)
  else if nameBad w then .bad 0 .nameMalformed addr (nameHigh w)
  else
    let h := nameHome w
    let i := nameIndex w
    match bindFailure s h i with
    | some c => .bad 1 c addr (nameHigh w)
    | none =>
      if tableLost s then .bad 1 .uncorrectableMemory addr (nameHigh w) else
      match findBinding s (rootOf_ s) s.launch.eff.bindTable h i with
      | .busy n => .wait (slotWait s n)
      | .fresh n => .wait (slotWait s n)
      | .full => .bad 3 .bindTableFull addr (nameHigh w)
      | .bound n =>
        let e := myEntry s n
        let off := w % 2 ^ 64
        if e.length < off ∨ 2 ^ 36 ≤ off then .bad 4 .offsetBeyondObject addr (nameHigh w)
        else .val (pointerOf n e.gen off)

/-- The failures of the issuing context's bindings are taken once its word is decided (R220). -/
def dropFailures (s : State) : State :=
  if s.svc.failed.isEmpty then s
  else { s with svc := { s.svc with failed := s.svc.failed.filter fun x => !failedHere s x } }

/-- The failure of one binding taken: the cause of another stays for when the word issues again (R220). -/
def dropFailure (w : Nat) (s : State) : State :=
  { s with svc := { s.svc with
      failed := s.svc.failed.filter fun x => !failedHere s x || (x.pc == (ctxOf s).npc && (x.home != nameHome w || x.index != nameIndex w)) } }

/-- The name of the lowest lane of a list whose binding has failed. -/
def failedName (s : State) (names : Nat → Nat) (ls : List Nat) : Option Nat :=
  (ls.find? fun l => nameTag (names l) && (bindFailure s (nameHome (names l)) (nameIndex (names l))).isSome).map names

/-- Of the lanes whose bindings have failed, those of another name than the one whose cause is raised come after it: LANES are the
threads of one name (R220). -/
def afterFirst (first : Option Nat) (w : Nat) (v : LaneVal) : LaneVal :=
  match first, v with
  | some x, .bad 1 c addr info => if nameHigh x = nameHigh w then v else .bad 2 c addr info
  | _, _ => v

/-- The slots that the lanes of a word wait for. -/
def slotsAwaited (run : Mask) (r : Nat → LaneVal) : List Nat :=
  ((lanesIn run).flatMap fun l => match r l with
    | .wait (.object _ _ slots _) => slots
    | .wait _ | .val _ | .bad .. => []).eraseDups

/-- The lanes' names resolved: a malformed one before any binding; bindings started; the word waits for them all, then takes
the first failing row, else goes on with the results. -/
def resolving (s0 s : State) (run : Mask) (names : Nat → Nat) (addr : Nat → W64) (k : State → (Nat → Nat) → Res) : Res :=
  let bad := fun l => if nameBad (names l) then LaneVal.bad 0 .nameMalformed (addr l) (nameHigh (names l)) else .val 0
  decideLanes (dropFailures s0) run bad <|
    let s1 := startBindings names (lanesIn run) (dropSkipped s)
    let first := failedName s1 names (lanesIn run)
    let r := fun l => afterFirst first (names l) (resolveName s1 (addr l) (names l))
    match decideChecks run fun l => (r l).chk with
    | .wait _ =>
      .hold { s0 with mem := s1.mem, svc := s1.svc, launch := s1.launch, launches := s1.launches }
        (.object (rootOf_ s) s.launch.eff.bindTable (slotsAwaited run r) true)
    | .raise x => .raise (match first with | some w => dropFailure w s0 | none => dropFailures s0) x
    | .hole pa => .stop (.physicalHole pa)
    | .ok => k (dropFailures s1) fun l => (r l).get

/-- A short pointer turned into a name (R229); `park` when a busy slot is waited for. -/
def pointerName (s : State) (v : W64) : LaneVal :=
  if !isAperture v then .val v.toNat
  else
    let e := myEntry s (ptrSlot v)
    if myEntryLost s (ptrSlot v) then .bad 0 .uncorrectableMemory 0 v
    else if e.busy && e.gen == ptrGen v then .wait (.object (rootOf_ s) s.launch.eff.bindTable [ptrSlot v] false)
    else if !e.bound || e.gen != ptrGen v then .bad 0 .stalePointer 0 v
    else if e.length < ptrOff v then .bad 1 .pointerBounds 0 v
    else .val (nameOf e (ptrOff v))

end Sys2Proof.Machine
end

