-- ==== Sys2Proof/Machine/Pointer.lean ====
section
/-! DEFINITION. The swizzle words LDP, STP, LDN, STN, PEQ, PADD, PNAME and PRES (spec/13 R227 to R232). -/

namespace Sys2Proof.Machine

open Host (Outcome)

/-- The checks of a lane's 16-byte access (R227). -/
def chk16 (s : State) (f : MW) (w : Want) (l : Nat) : LaneChk :=
  pointerInfo (read64 s f.base l) (checkGlobal s w 16 16 (laneAddr s f false 16 l))

/-- The key of a checked global access. -/
def chkKey : LaneChk → Nat
  | .ok (.global k _) _ => k
  | .ok (.scratch _) _ | .ok (.record _) _ | .ok .lost _ | .bad .. | .wait .. | .hole _ => 0

/-- Whether packets of this die to the peer of a key are on their way: a system load is served after them (spec/20 R313). -/
def streamBusy (s : State) (scope k : Nat) : Bool :=
  scope == 3 && isDirect k && s.fabric.sent.any fun p => p.die == myDie s && keyPeer k == some p.peer

/-- What the lanes of a word read: values, the lanes whose peer does not answer, the lanes that met a poisoned line. -/
structure WordRead where
  vals : Lanes Nat
  lost : Mask
  poison : Mask
  deriving DecidableEq, Repr

/-- One lane read. -/
def readLane (scope : Nat) (key : Nat → Nat) (acc : WordRead × State) (l : Nat) : WordRead × State :=
  let b := BitVec.ofNat 32 (2 ^ l)
  if travels acc.2 acc.2.warp.core false scope (key l) 16 && !reachableKey acc.2 (key l) then ({ acc.1 with lost := acc.1.lost ||| b }, acc.2)
  else
    let r := loadBytes acc.2 acc.2.warp.core scope (key l) 16
    if r.2.1 then ({ acc.1 with poison := acc.1.poison ||| b }, acc.2)
    else ({ acc.1 with vals := setLane acc.1.vals l (ofBytes r.1) }, r.2.2)

/-- The lanes whose walk met a poisoned line. -/
def lostLanes (run : Mask) (chk : Nat → LaneChk) : Mask :=
  maskOf fun l => bitAt run l && isLost (chk l)

/-- The lanes of a word read 16 bytes each; a failed lane reads 0 (spec/10 R199). -/
def readLanes (s : State) (run : Mask) (scope : Nat) (key : Nat → Nat) : WordRead × State :=
  (lanesIn run).foldl (readLane scope key) ({ vals := noVals, lost := 0, poison := 0 }, s)

/-- A cause of an access in flight of the issuing word, for the failing lanes (spec/10 R199). -/
def heldOf (s : State) (i : Instr) (run lanes : Mask) (c : Cause) (addr info : W64) : Held :=
  { cause := c, fpc := (ctxOf s).npc, word := wordOf i, run := run, lanes := lanes, addr := addr, info := info }

/-- The causes of a word's failed lanes held, or sent to the command processor. -/
def holdFailures (i : Instr) (run : Mask) (r : WordRead) (addr : Nat → W64) (s : State) : State :=
  let s1 := if r.lost = 0 then s else
    holdCause s s.warp.id (trapMode s) (heldOf s i run r.lost .peerUnreachable (addr (lowLane r.lost)) 0)
  if r.poison = 0 then s1 else
    let a := addr (lowLane r.poison)
    holdCause s1 s.warp.id (trapMode s) (heldOf s i run r.poison .uncorrectableMemory a a)

/-- A word that reads names: the earlier accesses it must follow first (spec/09 R181, spec/20 R313), then its lanes. -/
def loadNames (i : Instr) (f : MW) (run : Mask) (s : State) (k : State → (Nat → Nat) → Res) : Res :=
  let addr := laneAddr s f false 16
  let chk := chk16 s f .read
  let key := fun l => chkKey (chk l)
  reading s run [useBase f] fun s1 =>
    checked s run chk <|
      if (lanesIn run).any fun l => earlierAccess s f.scope.toNat (key l) 16 l || streamBusy s f.scope.toNat (key l) then .hold s .earlier
      else
        let accs := (lanesIn run).map fun l => accOf (chk l) l 0 0
        let lost := lostLanes run chk
        let r0 := readLanes (noteGlobal 0 accs s1) (run &&& ~~~lost) f.scope.toNat key
        let r := ({ r0.1 with poison := r0.1.poison ||| lost }, r0.2)
        match k r.2 (fun l => lane r.1.vals l) with
        | .done s2 => .done (holdFailures i run r.1 addr s2)
        | other => other

/-- A result that lands later, of a width. -/
def pointerLater (s0 s : State) (i : Instr) (run : Mask) (d : BitVec 7) (width : Nat) (vals : Nat → Nat) : Res :=
  issueLater s0 s i run 1 d width (.result (lanesOf vals) (lanesOf fun _ => 0))

/-- LDP (R228). -/
def execLdp (f : MW) (s : State) : Outcome State Fault Refusal :=
  runWord (.ldp f) f.dist (fun run s =>
    loadNames (.ldp f) f run s fun s1 names =>
      resolving s s1 run names (laneAddr s f false 16) fun s2 vals => pointerLater s s2 (.ldp f) run f.data 64 vals) s

/-- LDN (R228). -/
def execLdn (f : MW) (s : State) : Outcome State Fault Refusal :=
  runWord (.ldn f) f.dist (fun run s =>
    let addr := laneAddr s f false 16
    loadNames (.ldn f) f run s fun s1 names =>
      decideLanes s run (fun l => if nameBad (names l) then .bad 0 .nameMalformed (addr l) (nameHigh (names l)) else .val 0) <|
        pointerLater s s1 (.ldn f) run f.data 128 names) s

/-- A store of names (R229): the checks of the address, then those of the data. -/
def storeNames (i : Instr) (f : MW) (us : List Use) (data : Nat → LaneVal) (run : Mask) (s : State) : Res :=
  let chk := chk16 s f .write
  reading s run (useBase f :: us) fun s1 =>
    checked s run chk <| decideLanes s run data <|
      let accs := (lanesIn run).map fun l => accOf (chk l) l (data l).get 0
      counted s 2 <| .done (issueOp (noteStore 0 16 accs (noteGlobal 0 accs s1)) i run 2
        (.memory .store 16 f.scope.toNat accs noVals none))

/-- STP. -/
def execStp (f : MW) (s : State) : Outcome State Fault Refusal :=
  runWord (.stp f) f.dist (fun run s =>
    storeNames (.stp f) f [useData f 64] (fun l => pointerName s (read64 s f.data l)) run s) s

/-- STN. -/
def execStn (f : MW) (s : State) : Outcome State Fault Refusal :=
  runWord (.stn f) f.dist (fun run s =>
    storeNames (.stn f) f [useData f 128] (fun l =>
      let w := read128 s f.data l
      if nameBad w then .bad 0 .nameMalformed 0 (nameHigh w) else .val w) run s) s

/-- A PEQ key as a number: objects and plain values apart (R231). -/
def plainKey (v : Nat) : Nat := v
/-- The key of an offset in an object. -/
def objectKey (home index off : Nat) : Nat := 2 ^ 128 + home * 2 ^ 104 + index * 2 ^ 64 + off

/-- The key of an operand of PEQ. -/
def peqKey (s : State) (quad : Bool) (r : BitVec 7) (l : Nat) : LaneVal :=
  if quad then
    let w := read128 s r l
    if !nameTag w then .val (plainKey (w % 2 ^ 64))
    else if nameBad w then .bad 1 .nameMalformed 0 (nameHigh w)
    else .val (objectKey (nameHome w) (nameIndex w) (w % 2 ^ 64))
  else
    let v := read64 s r l
    if !isAperture v then .val (plainKey v.toNat)
    else
      let e := myEntry s (ptrSlot v)
      if myEntryLost s (ptrSlot v) then .bad 0 .uncorrectableMemory 0 v
      else if !e.bound || e.gen != ptrGen v then .bad 0 .stalePointer 0 v
      else .val (objectKey e.home e.index (ptrOff v))

/-- Two operands of a lane: a stale pointer of either is found before a malformed name (R231). -/
def peqLane (a b : LaneVal) : LaneVal :=
  match a, b with
  | .val x, .val y => .val (if x = y then 1 else 0)
  | .bad o c ad i, .bad p c2 ad2 i2 => if p < o then .bad p c2 ad2 i2 else .bad o c ad i
  | .bad o c ad i, _ => .bad o c ad i
  | _, .bad o c ad i => .bad o c ad i
  | .wait w, _ => .wait w
  | _, .wait w => .wait w

/-- PEQ: its predicate lands later. -/
def execPeq (f : MW) (s : State) : Outcome State Fault Refusal :=
  runWord (.peq f) f.dist (fun run s =>
    let qa := bitAt f.off 0
    let qb := bitAt f.off 1
    let r := fun l => peqLane (peqKey s qa f.base l) (peqKey s qb f.x l)
    let p := f.data.toNat % 8
    reading s run [{ reg := f.base, width := if qa then 128 else 64, last := f.lb }, useX f (if qb then 128 else 64)] fun s1 =>
      decideLanes s run r <|
        counted s 1 <| .done (issueFrom (ctxOf s) s1 (.peq f) run 1
          (if p < 7 then [{ reg := .p p, count := 1, lanes := run, part := 0 }] else [])
          (.result (lanesOf fun l => (r l).get) (lanesOf fun _ => 0)))) s

/-- PADD in one lane (R232). -/
def paddLane (s : State) (a x : W64) (imm : Int) : LaneVal :=
  let d := x.toInt + imm
  if !isAperture a then .val (wrap 64 ((a.toNat : Int) + d))
  else
    let e := myEntry s (ptrSlot a)
    let n := (ptrOff a : Int) + d
    if myEntryLost s (ptrSlot a) then .bad 0 .uncorrectableMemory 0 a
    else if !e.bound || e.gen != ptrGen a then .bad 0 .stalePointer 0 a
    else if n < 0 ∨ (min e.length (2 ^ 36 - 1) : Nat) < n then .bad 1 .pointerBounds 0 a
    else .val (pointerOf (ptrSlot a) (ptrGen a) n.toNat)

/-- PADD. -/
def execPadd (f : MW) (s : State) : Outcome State Fault Refusal :=
  runWord (.padd f) f.dist (fun run s =>
    let r := fun l => paddLane s (read64 s f.base l) (read64 s f.x l) (sext 18 f.off.toNat)
    reading s run [useBase f, useX f 64] fun s1 =>
      decideLanes s run r <| pointerLater s s1 (.padd f) run f.data 64 fun l => (r l).get) s

/-- PNAME (R230). -/
def execPname (f : MW) (s : State) : Outcome State Fault Refusal :=
  runWord (.pname f) f.dist (fun run s =>
    let r := fun l => pointerName s (read64 s f.base l)
    reading s run [useBase f] fun s1 =>
      decideLanes s run r <| pointerLater s s1 (.pname f) run f.data 128 fun l => (r l).get) s

/-- PRES (R230). -/
def execPres (f : MW) (s : State) : Outcome State Fault Refusal :=
  runWord (.pres f) f.dist (fun run s =>
    reading s run [{ reg := f.base, width := 128, last := f.lb }] fun s1 =>
      resolving s s1 run (fun l => read128 s f.base l) (fun _ => 0) fun s2 vals =>
        pointerLater s s2 (.pres f) run f.data 64 vals) s

end Sys2Proof.Machine
end

