-- ==== Sys2Proof/Machine/Ring.lean ====
section
/-! DEFINITION. The ring words RGNEXT and RGREL (spec/20 R325, R329). -/

namespace Sys2Proof.Machine

open Host (Outcome)

/-- REGION of a ring block. -/
def Ring.region (r : Ring) : Nat := (slice r.w0 48 16).toNat
/-- EN. -/
def Ring.en (r : Ring) : Bool := bitAt r.w0 47
/-- ENC. -/
def Ring.enc (r : Ring) : Bool := bitAt r.w0 46
/-- PGROUP. -/
def Ring.pgroup (r : Ring) : Nat := (slice r.w0 44 2).toNat
/-- The slot size in bytes. -/
def Ring.slotSize (r : Ring) : Nat := 2 ^ (slice r.w0 40 4).toNat
/-- BASE. -/
def Ring.base (r : Ring) : Nat := (slice r.w1 32 25).toNat
/-- The slots of the ring. -/
def Ring.slots (r : Ring) : Nat := (slice r.w1 0 17).toNat + 1
/-- KFIRST. -/
def Ring.kfirst (r : Ring) : Nat := (slice r.w2 52 12).toNat
/-- KCOUNT. -/
def Ring.kcount (r : Ring) : Nat := (slice r.w2 39 13).toNat

/-- A ring replaced. -/
def putRing (s : State) (id : Nat) (r : Ring) : State := { s with fabric := { s.fabric with rings := AList.put s.fabric.rings id r } }

/-- The physical address of a slot of a ring. -/
def slotPa (id : Nat) (r : Ring) (slot : Nat) : Nat := slotsBase + id / 64 * 0x2000000 + r.base + slot * r.slotSize

/-- The NSLOTS of the entry that starts at a slot. -/
def entrySlots (r : Ring) (slot : Nat) : Nat := ((r.entries.find? fun e => e.1 == slot).map (·.2)).getD 1

/-- RING_MISUSE with a reason (R333). -/
def ringMisuse (row reason ring : Nat) : LaneVal := .bad row .ringMisuse 0 (BitVec.ofNat 64 (ring * 2 ^ 32 + reason))

/-- The ring a lane names: bits 9:0. -/
def ringId (v : W32) : Nat := v.toNat % 1024

/-- Rows 1 and 2 of R329 in a lane. With ring bits 31:10 nonzero no ring is named, so that row 1 does not apply and row 2 decides (DESIGN
CHOICE, log 66): R329 does not say whether row 1 then looks at the ring of bits 9:0. -/
def ringLane (s : State) (v : W32) : LaneVal :=
  let id := ringId v
  let r := ringAt s id
  if v.toNat < 1024 ∧ r.region ≠ s.launch.region then .bad 0 .protection 0 0
  else if 1024 ≤ v.toNat then ringMisuse 1 1 id
  else if id / 64 ≠ myDie s then ringMisuse 1 2 id
  else if !r.en then ringMisuse 1 3 id
  else .val id

/-- Row 3 of R329: the handle is a claimed, unreleased entry. -/
def handleLane (s : State) (v : W32) (h : W64) : LaneVal :=
  match ringLane s v with
  | .val id =>
    let r := ringAt s id
    let slot := h.toNat % 2 ^ 18
    if r.claimed.contains (slot, false) && entrySlots r slot == h.toNat / 2 ^ 18 then .val slot else ringMisuse 2 4 id
  | other => other

/-- One lane of RGNEXT: the handle, and the entry claimed; the issuing core's L1 copies of its slots are dropped. -/
def claimLane (core id : Nat) (s : State) : Nat × State :=
  let r := ringAt s id
  if r.claim = r.written then (2 ^ 63, s)
  else
    let slot := r.claim.toNat % r.slots
    let n := entrySlots r slot
    let s1 := putRing s id { r with claim := r.claim + BitVec.ofNat 64 n, claimed := r.claimed ++ [(slot, false)] }
    (n * 2 ^ 18 + slot, (List.range n).foldl (fun st i =>
      l1Invalidate core (slotPa id r ((slot + i) % r.slots)) r.slotSize st) s1)

/-- The lanes of RGNEXT in ascending order. -/
def claimLanes (core : Nat) (ids : Nat → Nat) : List Nat → Lanes Nat × State → Lanes Nat × State
  | [], acc => acc
  | l :: ls, (vals, s) =>
    let r := claimLane core (ids l) s
    claimLanes core ids ls (setLane vals l r.1, r.2)

/-- RGNEXT: its claims are made as it completes on `ol`, one such word after the other (spec/21 R335). -/
def execRgnext (f : MW) (s : State) : Outcome State Fault Refusal :=
  runWord (.rgnext f) f.dist (fun run s =>
    let ids := fun l => read32 s f.base l
    reading s run [{ reg := f.base, width := 32, last := f.lb }] fun s1 =>
      decideLanes s run (fun l => ringLane s (ids l)) <|
        issueLater s (clearRpl s1) (.rgnext f) run 1 f.data 64 (.ringClaim (lanesOf fun l => ringId (ids l)))) s

/-- RGREL: its release is in flight on `os`. -/
def execRgrel (f : MW) (s : State) : Outcome State Fault Refusal :=
  runWord (.rgrel f) f.dist (fun run s =>
    let ids := fun l => read32 s f.base l
    let h := fun l => handleLane s (ids l) (read64 s f.data l)
    reading s run [{ reg := f.base, width := 32, last := f.lb }, { reg := f.data, width := 64, last := f.ld }] fun s1 =>
      decideLanes s run h <| counted s 2 <|
        .done (issueOp (clearRpl s1) (.rgrel f) run 2 (.ringRelease ((lanesIn run).map fun l => (ringId (ids l), (h l).get))))) s

/-- An entry marked released. -/
def markReleased (r : Ring) (slot : Nat) : Ring :=
  { r with claimed := r.claimed.map fun e => if e = (slot, false) then (slot, true) else e }

/-- FREE moved past the released entries at it; the list is as long as the fuel at most. -/
def advanceFree : Nat → Ring → Ring
  | 0, r => r
  | n + 1, r =>
    let slot := r.free.toNat % r.slots
    if r.claimed.contains (slot, true) && r.free != r.claim then
      advanceFree n
        { r with
          free := r.free + BitVec.ofNat 64 (entrySlots r slot),
          claimed := r.claimed.filter fun e => e.1 != slot,
          entries := r.entries.filter fun e => e.1 != slot }
    else r

/-- A ring release performed (R329). -/
def releaseEntries (es : List (Nat × Nat)) (s : State) : State :=
  es.foldl (fun st e =>
    let r := markReleased (ringAt st e.1) e.2
    putRing st e.1 (advanceFree r.claimed.length r)) s

end Sys2Proof.Machine
end

