-- ==== Sys2Proof/Machine/Copy.lean ====
section
/-! DEFINITION. The copy and gather words CPV, CPR, GATH and CPL as they issue (spec/16 R256 to R264); Engine.lean applies their
chunks. -/

namespace Sys2Proof.Machine

open Host (Outcome)

/-! ### Operations of the engines (R256, spec/01 R16) -/

/-- The trap record of the issuing context, none outside trap mode. -/
def myTrapIdx (s : State) : Option Nat := s.warp.trap.map (·.idx)

/-- An operation of an engine as it issues on a timeline counter (0 tc.m, 1 tc.c, 2 tc.g, 3 tc.x). -/
def freshEng (s : State) (i : Instr) (run : Mask) (tc : Nat) (kind : EngKind) : EngOp :=
  { id := s.nextOp, warp := s.warp.id, gang := s.gang.id, core := s.warp.core, kind := kind, tc := tc,
    num := (tcAt s.gang tc).issued + 1, flag := flagOf s (flagSel i), barrier := none, views := [], fpc := (ctxOf s).npc,
    word := wordOf i, run := run, dst := none, chunks := 0, applied := [], delivered := [], retried := [], stopped := false,
    paused := false, trapIdx := myTrapIdx s, row := 0, rowStarted := false, work := RowWork.zero, tag := 0, size := 0,
    rank := 0, nth := 0, members := [], contrib := none, matched := none, waits := [], published := false, writes := [],
    settled := false, asked := none, refused := [], fetched := [], returning := false }

/-- The number of the next collective of a tag on the issuing die (spec/20 R321). -/
def nextColl (s : State) (tag : Nat) : Nat :=
  ((s.fabric.collIssued.find? fun x => decide (x.1 = (myDie s, tag))).map (·.2)).getD 0 + 1

/-- A collective of a tag counted on the issuing die. -/
def countColl (tag : Nat) (s : State) : State :=
  { s with fabric := { s.fabric with
      collIssued := (s.fabric.collIssued.filter fun x => decide (x.1 ≠ (myDie s, tag))) ++ [((myDie s, tag), nextColl s tag)] } }

/-- An operation numbered and started: its flag is raised. -/
def startEng (s : State) (e : EngOp) : State :=
  let s1 := modCtx { s with nextOp := s.nextOp + 1, engines := s.engines ++ [e] } fun c => raiseFlag c e.flag
  { s1 with gang := setTc s1.gang e.tc (issueNumber (tcAt s1.gang e.tc)) }

/-- The barrier an operation is bound to, which must be initialised (R257). -/
def withBarrier (s : State) (run : Mask) (bind : Bool) (b : Nat) (k : Option Nat → Res) : Res :=
  if !bind then k none
  else if (barAt s.gang b).members = 0 then raiseAt s .barrierMisuse run
  else k (some b)

/-! ### CPV, CPR, GATH (R258 to R262) -/

/-- The number of elements of a view. -/
def View.count (v : View) : Nat := (v.dims.map v.ext).prod

/-- The row of R259 that fails. -/
def copyRow (d v : View) (reduce : Option Nat) : Option Nat :=
  if d.isT1 || v.isT1 then some 1
  else if d.rank != v.rank || d.dims.any (fun k => d.ext k != v.ext k) || d.fmt != v.fmt then some 2
  else if (match reduce with | some ty => d.fmt != (if ty = 2 then 1 else 2) | none => false) then some 3
  else if 2 ^ 40 < d.count then some 4
  else none

/-- COPY_SHAPE with the row (R272). -/
def copyShape (s : State) (run : Mask) (row : Nat) : Res :=
  .raise s { cause := .copyShape, lanes := run, addr := 0, info := BitVec.ofNat 64 row }

/-- CPV and CPR. -/
def copyWord (i : Instr) (f : EW) (reduce : Option Nat) (kind : EngKind) (run : Mask) (s : State) : Res :=
  let d := f.va.toNat
  let v := f.vb.toNat
  withView s d run fun vd => withView s v run fun vs =>
    withIntent s vd (if reduce.isSome then 3 else 2) d run <| withIntent s vs 1 v run <|
      match copyRow vd vs reduce with
      | some row => copyShape s run row
      | none =>
        withBarrier s run (bitAt f.imm 4) (slice f.imm 0 4).toNat fun b =>
          .done (startEng s
            { freshEng s i run 1 kind with
              barrier := b, views := [capture (ctxOf s) d true, capture (ctxOf s) v false], chunks := ceilDiv vd.count 64 })

/-- CPV. -/
def execCpv (f : EW) (s : State) : Outcome State Fault Refusal :=
  runEWord (.cpv f) f.dist (copyWord (.cpv f) f none .copy) s

/-- CPR: the operation in the variant, the type in bits 6:5. -/
def execCpr (f : EW) (s : State) : Outcome State Fault Refusal :=
  let ty := (slice f.imm 5 2).toNat
  runEWord (.cpr f) f.dist (copyWord (.cpr f) f (some ty) (.reduce f.variant.toNat ty)) s

/-- The shape test of GATH (R262). -/
def gatherBad (d v x : View) : Bool :=
  d.rank != 2 || v.rank != 2 || x.rank != 1 || x.fmt != 2 || d.isT1 || v.isT1 || d.fmt != v.fmt || d.ext 0 != v.ext 0 ||
    d.ext 1 != x.ext 0 || decide (2 ^ 40 < d.count)

/-- GATH. -/
def execGath (f : EW) (s : State) : Outcome State Fault Refusal :=
  runEWord (.gath f) f.dist (fun run s =>
    let d := f.va.toNat
    let v := f.vb.toNat
    let x := f.vc.toNat
    withView s d run fun vd => withView s v run fun vs => withView s x run fun vi =>
      withIntent s vd 2 d run <| withIntent s vs 1 v run <| withIntent s vi 1 x run <|
        if gatherBad vd vs vi then copyShape s run 5
        else
          withBarrier s run (bitAt f.imm 4) (slice f.imm 0 4).toNat fun b =>
            .done (startEng s
              { freshEng s (.gath f) run 2 .gather with
                barrier := b,
                views := [capture (ctxOf s) d true, capture (ctxOf s) v false, capture (ctxOf s) x false],
                chunks := ceilDiv vd.count 64 })) s

/-! ### CPL (R263) -/

/-- Rows 1 to 3 of R160 of a global address; the later rows are checked chunk by chunk. -/
def checkEarly (s : State) (n : Nat) (va : W64) : LaneChk :=
  if va.toNat % n ≠ 0 then .bad 10 .misaligned va 0
  else if isAperture va then
    let e := myEntry s (ptrSlot va)
    if e.busy && e.gen == ptrGen va then .wait 30 (.object (rootOf_ s) s.launch.eff.bindTable [ptrSlot va] false)
    else if !e.bound || e.gen != ptrGen va then .bad 31 .stalePointer va va
    else if e.length < ptrOff va + n then .bad 32 .pointerBounds va va
    else .ok (.scratch 0) va
  else if !canonical va then .bad 20 .noncanonical va 0
  else .ok (.scratch 0) va

/-- Of two checks of a lane the one whose row comes first. -/
def earlier (a b : LaneChk) : LaneChk :=
  match rowOf a, rowOf b with
  | some x, some y => if y < x then b else a
  | none, some _ => b
  | _, none => a

/-- The destination of a lane. -/
def cplDst (s : State) (f : MW) (l : Nat) : W64 := if f.space = 1 then (read32 s f.data l).setWidth 64 else read64 s f.data l

/-- The source of a lane. -/
def cplSrc (s : State) (f : MW) (l : Nat) : W64 := w64 ((read64 s f.base l).toNat + sext 18 f.off.toNat)

/-- The checks of a lane. -/
def cplChk (s : State) (f : MW) (l : Nat) : LaneChk :=
  let n := sizeBytes f
  earlier (pointerInfo (read64 s f.base l) (checkEarly s n (cplSrc s f l)))
    (if f.space = 1 then checkScratch s n (cplDst s f l) else checkEarly s n (cplDst s f l))

/-- CPL. -/
def execCpl (f : MW) (s : State) : Outcome State Fault Refusal :=
  runWord (.cpl f) f.dist (fun run s =>
    let n := sizeBytes f
    let sp := f.space == 1
    reading s run [{ reg := f.base, width := 64, last := f.lb },
        { reg := f.data, width := if sp then 32 else 64, last := f.ld }] fun s1 =>
      withBarrier s run (bitAt f.x 6) (slice f.x 0 4).toNat fun b =>
        checked s run (cplChk s f) <|
          .done (startEng s1
            { freshEng s1 (.cpl f) run 2
                (.laneCopy n f.scope.toNat sp ((lanesIn run).map fun l => (l, cplSrc s f l, cplDst s f l))) with
              barrier := b, chunks := 32 })) s

end Sys2Proof.Machine
end

