-- ==== Sys2Proof/Machine/MatrixWord.lean ====
section
/-! DEFINITION. The matrix words MMT, MMV, MSTAT and MCLR as they issue (spec/18 R290 to R304, spec/17 R280); Engine.lean runs
the tile rows. -/

namespace Sys2Proof.Machine

open Host (Outcome)

/-! ### The format slot (spec/02 R24) -/

/-- WFMT. -/
def slotWfmt (x : W64) : Nat := (slice x 60 4).toNat
/-- AFMT. -/
def slotAfmt (x : W64) : Nat := (slice x 56 4).toNat
/-- CTIDX. -/
def slotCtidx (x : W64) : Nat := (slice x 53 3).toNat
/-- SPAN_N. -/
def slotSpan (x : W64) : Nat := (slice x 49 4).toNat
/-- OFMT. -/
def slotOfmt (x : W64) : Nat := (slice x 47 2).toNat
/-- ACC. -/
def slotAcc (x : W64) : Bool := bitAt x 46
/-- OSAT. -/
def slotOsat (x : W64) : Nat := (slice x 44 2).toNat
/-- The planes of a weight format (spec/17 R274). -/
def slotPlanes (x : W64) : Nat := 2 ^ slotWfmt x
/-- The elements of K in a span (spec/17 R280). -/
def spanLen (x : W64) : Nat := 160 * 2 ^ slotSpan x

/-- The field of a slot that holds a reserved value (R307). -/
def slotBad (x : W64) : Option Nat :=
  if 4 ≤ slotWfmt x then some 1
  else if slotAfmt x ≠ 0 then some 2
  else if 10 ≤ slotSpan x then some 3
  else if slotOfmt x = 3 then some 4
  else if 2 ≤ slotOsat x then some 5
  else if slice x 0 44 ≠ 0 then some 6
  else none

/-! ### The checks of R292 -/

/-- The views of a matrix word: C, W, X, and the scale views if given, with their registers. -/
structure MatrixViews where
  c : View
  w : View
  x : View
  sw : Option View
  sa : Option View
  rc : Nat
  rw : Nat
  rx : Nat
  rsw : Nat
  rsa : Nat
  deriving DecidableEq, Repr

/-- The weight view is wanting (row 6). -/
def weightBad (fs : W64) (w : View) : Bool :=
  let k := w.ext 0
  let n := w.ext 1
  !w.isT1 || w.rank != (if slotWfmt fs = 0 then 2 else 3) || (slotWfmt fs != 0 && w.ext 2 != slotPlanes fs) ||
    k % 160 != 0 || decide (k < 160) || decide (2 ^ 24 < k) || decide (n < 1) || decide (2 ^ 24 < n)

/-- The activation view is wanting (row 7). -/
def activationBad (limit : Nat) (w x : View) : Bool :=
  x.fmt != 0 || x.rank != 2 || x.ext 0 != w.ext 0 || decide (x.ext 1 < 1) || decide (limit < x.ext 1)

/-- The output view is wanting (row 8). -/
def outputBad (fs : W64) (c w x : View) : Bool :=
  c.fmt != (if slotOfmt fs = 0 then 2 else 1) || c.rank != 2 || c.ext 0 != w.ext 1 || c.ext 1 != x.ext 1

/-- A scale view is wanting (row 9): its first extent, and the spans. -/
def scaleBad (fs : W64) (v w : View) (n : Nat) : Bool :=
  v.fmt != 1 || v.rank != 2 || v.ext 0 != n || v.ext 1 != ceilDiv (w.ext 0) (spanLen fs)

/-- The row of R292 that fails, with the view register found wanting. -/
def shapeRow (limit : Nat) (fs : W64) (m : MatrixViews) : Option (Nat × Nat) :=
  if weightBad fs m.w then some (6, m.rw)
  else if activationBad limit m.w m.x then some (7, m.rx)
  else if outputBad fs m.c m.w m.x then some (8, m.rc)
  else if (match m.sw with | some v => scaleBad fs v m.w (m.w.ext 1) | none => false) then some (9, m.rsw)
  else if (match m.sa with | some v => scaleBad fs v m.w (m.x.ext 1) | none => false) then some (9, m.rsa)
  else none

/-- A view that is given. -/
def withOptView (s : State) (given : Bool) (reg : Nat) (run : Mask) (k : Option View → Res) : Res :=
  if given then withView s reg run fun v => k (some v) else k none

/-- The intent of a view that is given. -/
def withOptIntent (s : State) (v : Option View) (reg : Nat) (run : Mask) (k : Res) : Res :=
  match v with
  | some x => withIntent s x 1 reg run k
  | none => k

/-- The views a matrix operation captures: C, W, X, then the scale views given. -/
def matrixCaptures (c : Ctx) (f : EW) : List Captured :=
  [capture c f.va.toNat true, capture c f.vb.toNat false, capture c f.vc.toNat false] ++
    (if bitAt f.imm 8 then [] else [capture c (slice f.imm 4 4).toNat false]) ++
    (if bitAt f.imm 9 then [] else [capture c (slice f.imm 0 4).toNat false])

/-- Whether the issuing warp has a matrix operation in flight (R295). -/
def matrixBusy (s : State) : Bool :=
  s.engines.any fun e => decide (e.warp = s.warp.id) && (match e.kind with
    | .matrix .. => true
    | .copy | .reduce .. | .gather | .laneCopy .. | .collReduce .. | .collGather | .collCast _ | .tokenAcquire ..
    | .tokenRelease .. | .tokenQuery .. => false)

/-- MMT and MMV: the checks of R292, then the operation is numbered and MROW set to 0 (R297). -/
def matrixWord (i : Instr) (f : EW) (limit : Nat) (run : Mask) (s : State) : Res :=
  let fs := s.launch.slots.getD f.slot.toNat 0
  let rsw := (slice f.imm 4 4).toNat
  let rsa := (slice f.imm 0 4).toNat
  withView s f.va.toNat run fun vc => withView s f.vb.toNat run fun vw => withView s f.vc.toNat run fun vx =>
  withOptView s (!bitAt f.imm 8) rsw run fun sw => withOptView s (!bitAt f.imm 9) rsa run fun sa =>
    match slotBad fs with
    | some field => .raise s { cause := .mtxFormat, lanes := run, addr := 0, info := BitVec.ofNat 64 (field * 256 + f.slot.toNat) }
    | none =>
      withIntent s vc (if slotAcc fs then 3 else 2) f.va.toNat run <| withIntent s vw 1 f.vb.toNat run <|
      withIntent s vx 1 f.vc.toNat run <| withOptIntent s sw rsw run <| withOptIntent s sa rsa run <|
        match shapeRow limit fs { c := vc, w := vw, x := vx, sw := sw, sa := sa, rc := f.va.toNat, rw := f.vb.toNat,
                                  rx := f.vc.toNat, rsw := rsw, rsa := rsa } with
        | some (row, reg) =>
          .raise s { cause := .mtxShape, lanes := run, addr := 0, info := BitVec.ofNat 64 (reg * 16 + row) }
        | none =>
          let e := { freshEng s i run 0 (.matrix fs (ctxOf s).seg.energy.toNat (ctxOf s).nbv (!bitAt f.imm 8) (!bitAt f.imm 9)) with
            views := matrixCaptures (ctxOf s) f, chunks := ceilDiv (vw.ext 1) 128 }
          .done (modCtx (startEng s e) fun c => { c with mrow := 0 })

/-- A matrix word issues: it is held while an earlier operation of the warp is in flight, and only then checked (R292, R295). -/
def runMatrix (i : Instr) (dist : BitVec 3) (body : Mask → State → Res) (s : State) : Outcome State Fault Refusal :=
  runWord i dist (fun run s1 => if matrixBusy s1 then .hold s1 .matrixPrevious else converged run s1 (body run s1)) s

/-- MMT. -/
def execMmt (f : EW) (s : State) : Outcome State Fault Refusal := runMatrix (.mmt f) f.dist (matrixWord (.mmt f) f (2 ^ 20)) s

/-- MMV. -/
def execMmv (f : EW) (s : State) : Outcome State Fault Refusal := runMatrix (.mmv f) f.dist (matrixWord (.mmv f) f 8) s

/-- MSTAT: separation 4 (R303). -/
def execMstat (f : EW) (s : State) : Outcome State Fault Refusal :=
  runEWord (.mstat f) f.dist (fun run s => roomed [] (putReg s s run f.r1 true false 4 fun _ => (ctxOf s).mst.toNat)) s

/-- MCLR (R304). -/
def execMclr (f : EW) (s : State) : Outcome State Fault Refusal :=
  runEWord (.mclr f) f.dist (fun _ s =>
    .done (modCtx s fun c => { c with mst := c.mst &&& ~~~((slice f.imm 0 6).setWidth 64) })) s

end Sys2Proof.Machine
end

