-- ==== Sys2Proof/Machine/Service.lean ====
section
/-! DEFINITION. What the service cores and the swizzle units do to page tables, local copies and bindings (spec/08 R156, spec/13
R219 to R224, spec/10 R207, log 9): mapping and unmapping, writing copies back, accesses that are still under way. -/

namespace Sys2Proof.Machine

/-! ### Frames and page tables -/

/-- The first free frame that a test allows, of two neighbours of a run: they lie in the two slices of a die. -/
def takeServed (up : Nat → Bool) : List (Nat × Nat) → Option (Nat × List (Nat × Nat))
  | [] => none
  | (f, n) :: rest =>
    if up f then some (f, if n ≤ 1 then rest else (f + 1, n - 1) :: rest)
    else if 1 < n ∧ up (f + 1) then some (f + 1, (f, 1) :: if n ≤ 2 then rest else (f + 2, n - 2) :: rest)
    else (takeServed up rest).map fun p => (p.1, (f, n) :: p.2)

/-- A free frame of the service cores (log 9): in a slice whose service core runs (spec/22 R351). -/
def takeFrame (s : State) : Option (Nat × State) :=
  (takeServed (fun f => serviceUp s (f * 4096)) s.svc.free).map fun p => (p.1, { s with svc := { s.svc with free := p.2 } })

/-- A table entry or a leaf written at its home. -/
def putPte (s : State) (a : Nat) (pte : W64) : State := homeWrite s a (bytesOf 8 pte.toNat)

/-- A frame cleared. -/
def clearFrame (s : State) (f : Nat) : State := homeWrite s (f * 4096) (List.replicate 4096 0)

/-- The table an entry leads to; a fresh one where there is none. -/
def enterTable (s : State) (a : Nat) : Option (Nat × State) :=
  let e := homeWord s a
  if bitAt e 0 && slice e 1 3 == 0 then some ((slice e 12 32).toNat * 4096, s)
  else match takeFrame s with
    | none => none
    | some (f, s1) => some (f * 4096, putPte (clearFrame s1 f) a (BitVec.ofNat 64 (f * 4096 + 1)))

/-- A 4 KiB leaf put into the tables from a level down (R156); none when no frame is left for a table. -/
def mapFrom : Nat → Nat → W64 → W64 → State → Option State
  | 0, _, _, _, s => some s
  | lv + 1, table, va, pte, s =>
    let a := table + 8 * ((va.toNat % 2 ^ 57) >>> (12 + 9 * lv) % 512)
    if lv = 0 then some (putPte s a pte)
    else match enterTable s a with
      | none => none
      | some (t, s1) => mapFrom lv t va pte s1

/-- A page mapped under a root. -/
def mapPage (s : State) (root : Nat) (va pte : W64) : Option State := mapFrom 5 root va pte s

/-- Consecutive pages mapped. -/
def mapPages (root : Nat) (va : W64) (pte : Nat → W64) : Nat → State → Option State
  | 0, s => some s
  | n + 1, s =>
    match mapPages root va pte n s with
    | none => none
    | some s1 => mapPage s1 root (va + BitVec.ofNat 64 (n * 4096)) (pte n)

/-- The address of the leaf of a virtual address. -/
def leafAddr (s : State) : Nat → Nat → Nat → Option Nat
  | 0, _, _ => none
  | lv + 1, table, va =>
    let a := table + 8 * (va >>> (12 + 9 * lv) % 512)
    let e := homeWord s a
    if !bitAt e 0 then none
    else if slice e 1 3 = 0 then leafAddr s lv ((slice e 12 32).toNat * 4096) va
    else some a

/-- A page no longer mapped. -/
def unmapPage (root : Nat) (va : W64) (s : State) : State :=
  match leafAddr s 5 root (va.toNat % 2 ^ 57) with
  | some a => putPte s a 0
  | none => s

/-- The addresses of consecutive pages. -/
def pageVas (va : W64) (n : Nat) : List W64 := (List.range n).map fun i => va + BitVec.ofNat 64 (i * 4096)

/-- A 4 KiB leaf: readable, writable, in a mode, at a peer (R156, R221). -/
def leafPte (mode peer frame : Nat) : W64 := BitVec.ofNat 64 (7 + mode * 128 + frame * 4096 + peer * 2 ^ 44)

/-! ### Local copies -/

/-- Whether a key lies in a range. -/
def inKeys (lo n k : Nat) : Bool := decide (lo ≤ k) && decide (k < lo + n)

/-- Every core's bytes of a range written back to their dies. -/
def flushAllL1 (lo n : Nat) (s : State) : State :=
  ((s.mem.l1.map (·.1 / 2 ^ 68)).eraseDups).foldl (fun st c => l1FlushKeys c ((dirtyL1 st c).filter (inKeys lo n)) st) s

/-- Every die's bytes of a range written back to their home. -/
def flushAllDies (lo n : Nat) (s : State) : State :=
  (List.range Config.dies).foldl (fun st d => dieFlushKeys d ((dirtyDie st d).filter (inKeys lo n)) st) s

/-- Every copy of a range dropped, but for what is on its way home. -/
def dropCopies (lo n : Nat) (s : State) : State :=
  { s with mem := { s.mem with
      l1 := s.mem.l1.filter fun e => !inKeys lo n (e.1 % 2 ^ 68) || e.2.sent.isSome,
      die := s.mem.die.filter fun e => !inKeys lo n (e.1 % 2 ^ 68) || e.2.sent.isSome } }

/-- The clean copies of a range dropped: not what is dirty or on its way home, nor what its die has yet to follow (spec/20 R310). -/
def dropClean (lo n : Nat) (s : State) : State :=
  { s with mem := { s.mem with
      l1 := s.mem.l1.filter fun e => !inKeys lo n (e.1 % 2 ^ 68) || e.2.dirty || e.2.sent.isSome,
      die := s.mem.die.filter fun e => !inKeys lo n (e.1 % 2 ^ 68) || e.2.dirty || e.2.sent.isSome || openWrite s (e.1 / 2 ^ 68) (e.1 % 2 ^ 68) } }

/-- Every dirty byte of a range that may go to its home performed there, and every clean copy dropped. -/
def flushRange (lo n : Nat) (s : State) : State := dropClean lo n (flushAllDies lo n (flushAllL1 lo n s))

/-- Whether a write to a range is on its way. -/
def rangeWriting (s : State) (lo n : Nat) : Bool := s.mem.writes.any fun w => decide (w.key < lo + n) && decide (lo < w.key + w.bytes.length)

/-- Whether a write to a range of a peer's memory is on its way, or one to the local copies of it. -/
def peerWriting (s : State) (k n : Nat) : Bool := rangeWriting s k n || rangeWriting s (cachedKey k) n

/-- The die on whose stream the dirty lines of a local copy travel; the rule does not say which (R313, log 5). -/
def copyDie (k : Nat) : Nat := Config.freeNat (2 ^ 65 + k / 2 ^ 21) % Config.dies

/-- The bytes of the local copies of a range that are to go home and are not on their way. -/
def copiesOut (s : State) (k n : Nat) : List Nat :=
  (s.mem.cached.filter fun e => inKeys k n e.1 && !(s.mem.writes.any (·.has e.1))).map (·.1)

/-- The local copies of a range of a peer's memory sent home (spec/13 R223): to a device in packets of a stream (spec/20 R313). A copy is
its home's again once it is there. -/
def returnCopies (k n : Nat) (s : State) : State :=
  let s1 := flushRange (cachedKey k) n s
  (runsOf (copiesOut s1 k n)).foldl (fun st r =>
    backCells st (copyDie r.1) (keyed r.1 (homeBytes st (cachedKey r.1) r.2)) false outside none 0) s1

/-- The local copies of a range of a peer's memory invalidated (spec/20 R318: those older than a grant). -/
def dropCached (k n : Nat) (s : State) : State :=
  let s1 := dropCopies (cachedKey k) n s
  { s1 with mem := { s1.mem with cached := s1.mem.cached.filter fun e => !inKeys k n e.1 } }

/-! ### Translations and accesses under way -/

/-- Whether a kept translation covers an address. -/
def tlbCovers (e : TlbEntry) (va : W64) : Bool :=
  let sh := pageBits e.pte - 12
  decide (e.page / 2 ^ sh = pageOf va / 2 ^ sh)

/-- The translations that satisfy a test dropped. -/
def dropTlb (p : TlbEntry → Bool) (s : State) : State := { s with mem := { s.mem with tlb := s.mem.tlb.filter fun e => !p e } }

/-- Whether a lane's access is to a page of 2^sh small ones. -/
def accPage (sh page : Nat) (a : Acc) : Bool :=
  match a.place with
  | .global .. => pageOf a.va / 2 ^ sh == page / 2 ^ sh
  | .scratch _ | .record _ | .lost => false

/-- Whether a warp translates under a root. -/
def underRoot (s : State) (root : Nat) (w : WarpId) : Bool :=
  match launchOf s w.seq with
  | some l => l.eff.ptRoot == root
  | none => false

/-- Whether an operation has accesses to a page still to be performed. -/
def opOnPage (sh page : Nat) (o : Op) : Bool :=
  match o.kind with
  | .memory _ _ _ accs _ _ => accs.any (accPage sh page)
  | .result .. | .viewRetire .. | .ringClaim .. | .ringRelease .. | .keySet .. | .evict .. => false

/-- Whether an access translated through a leaf is still to be performed (R207): in a warp under the root, in a packet, or as a package
write of the leaf's whole page. -/
def leafBusy (s : State) (root page : Nat) (pte : W64) : Bool :=
  let b := pageBits pte
  let key := leafKey s pte (BitVec.ofNat 64 (page * 4096))
  ((allWarps s).any fun w => underRoot s root w.id && (warpOps w).any (opOnPage (b - 12) page)) ||
    (s.fabric.sent.any fun p => underRoot s root p.warp && p.accs.any (accPage (b - 12) page)) ||
    s.mem.writes.any fun w => w.key / 2 ^ b == key / 2 ^ b

/-- Whether an access translated through a kept translation is still to be performed. -/
def entryBusy (s : State) (e : TlbEntry) : Bool := leafBusy s e.root e.page e.pte

/-- Whether an address lies in a slot's range (R219). -/
def inSlot (slot : Nat) (page : Nat) : Bool := decide (page / 2 ^ 24 = (slotBase slot).toNat / 2 ^ 36)

/-! ### Eviction and unbinding (R223, R224) -/

/-- The pages of a length. -/
def pagesOf (length : Nat) : Nat := ceilDiv length 4096

/-- Whether an access to a page of a space is still to be performed, through its leaf or one that was taken out meanwhile. -/
def pageBusy (s : State) (root : Nat) (va : W64) : Bool :=
  match walk s root va with
  | .leaf pte => leafBusy s root (pageOf va) pte
  | .absent | .malformed | .hole _ | .poisoned => false

/-- Whether a lane's access lies in a slot's range. -/
def accInSlot (slot : Nat) (a : Acc) : Bool :=
  match a.place with
  | .global .. => inSlot slot (pageOf a.va)
  | .scratch _ | .record _ | .lost => false

/-- Whether an operation has accesses in a slot's range still to be performed. -/
def opInSlot (slot : Nat) (o : Op) : Bool :=
  match o.kind with
  | .memory _ _ _ accs _ _ => accs.any (accInSlot slot)
  | .result .. | .viewRetire .. | .ringClaim .. | .ringRelease .. | .keySet .. | .evict .. => false

/-- Whether an access through the binding of a slot is still to be performed (R234, R236): in a warp, in a packet, as a write on its way,
or through the leaf of a page that is being migrated. -/
def slotBusy (s : State) (root : Nat) (table : W64) (slot : Nat) : Bool :=
  let e := entryAt s root table slot
  ((allWarps s).any fun w => underRoot s root w.id && (warpOps w).any (opInSlot slot)) ||
    (s.fabric.sent.any fun p => underRoot s root p.warp && p.accs.any (accInSlot slot)) ||
    (s.svc.moving.any fun m => decide (m.root = root) && inSlot slot m.page && leafBusy s root m.page m.pte) ||
    (!s.mem.writes.isEmpty && (pageVas e.lbase (pagesOf e.length)).any (pageBusy s root))

/-- A page of a space no longer noted so. -/
def forgetExclusive (root : Nat) (va : W64) (s : State) : State :=
  { s with svc := { s.svc with allocs := s.svc.allocs.map fun a =>
      if a.root = root then { a with exclusive := a.exclusive.filter fun p => decide (p ≠ pageOf va) } else a } }

/-- A page of a bound object evicted: in mode 2 its copies go home and its leaf is taken out; else nothing but cached
translations is dropped. -/
def evictPage (root : Nat) (s : State) (va : W64) : State :=
  match walk s root va with
  | .leaf pte =>
    if leafMode pte = 2 then forgetExclusive root va (unmapPage root va (returnCopies (leafKey s pte va - 2 ^ 66) 4096 s)) else s
  | .absent | .malformed | .hole _ | .poisoned => s

/-- The level that the cached page of an allocation at an address needs of a token region: none where it is not there, or not of it; else
exclusive where a store or an atomic has asked for it, else shared (R223, spec/20 R316). -/
def pageLevel (s : State) (a : Alloc) (region : Nat) (va : W64) : Nat :=
  match walk s a.root va with
  | .leaf pte => if leafMode pte = 2 ∧ leafPa pte va / 2 ^ 21 = region then (if a.exclusive.contains (pageOf va) then 2 else 1) else 0
  | .absent | .malformed | .hole _ | .poisoned => 0

/-- The level that the cached pages of bound objects need of a token region. -/
def regionLevel (s : State) (peer region : Nat) : Nat :=
  (s.svc.allocs.filter fun a => a.mode == 2 && a.peer == peer).foldl (fun m a =>
    (pageVas (BitVec.ofNat 64 (a.page * 4096)) a.pages).foldl (fun m1 va => max m1 (pageLevel s a region va)) m) 0

/-- The level the program holds of a token need. -/
def holdLevel (t : Token) : Nat := if 0 < t.xholds then 2 else if 0 < t.sholds then 1 else 0

/-- A token changed; one with nothing left is not listed. -/
def putToken (t : Token) (s : State) : State :=
  let others := s.fabric.tokens.filter fun x => decide (x.peer ≠ t.peer) || decide (x.region ≠ t.region)
  { s with fabric := { s.fabric with
      tokens := if t.state = 0 ∧ t.sholds = 0 ∧ t.xholds = 0 ∧ t.pending = false ∧ t.giving = false ∧ t.service = 0 then others else others ++ [t] } }

/-- A token as this device holds it. -/
def tokenAt (s : State) (peer region : Nat) : Token :=
  (s.fabric.tokens.find? fun t => decide (t.peer = peer) && decide (t.region = region)).getD
    { peer := peer, region := region, state := 0, sholds := 0, xholds := 0, pending := false, giving := false, service := 0 }

/-- A token given up to what the holds and the remaining pages need (R223, R316): the home has to acknowledge what is given up. -/
def settleToken (peer region : Nat) (s : State) : State :=
  let t := tokenAt s peer region
  let service := regionLevel s peer region
  let level := min t.state (max (holdLevel t) service)
  putToken { t with service := service, state := level, giving := t.giving || decide (level < t.state) } s

/-- The token regions of an object's pages. -/
def objectRegions (e : Entry) (base : Nat) : List Nat :=
  ((List.range (pagesOf e.length)).map fun i => (base + i * 4096) / 2 ^ 21).eraseDups

/-- The allocation of a slot's object. -/
def slotAlloc (s : State) (root : Nat) (table : W64) (slot : Nat) : Option Alloc :=
  s.svc.allocs.find? fun a => decide (a.root = root) && decide (a.page = (slotBase slot).toNat / 4096) && a.table == table

/-- The pages of an object evicted (R223): what is dirty of them goes home, and the kept translations are dropped. -/
def evictPages (root : Nat) (table : W64) (slot : Nat) (s : State) : State :=
  let e := entryAt s root table slot
  dropTlb (fun t => decide (t.root = root) && inSlot slot t.page) ((pageVas e.lbase (pagesOf e.length)).foldl (evictPage root) s)

/-- Whether a write of an object's local copy, or of what it is a copy of, is on its way. -/
def objectWriting (s : State) (root : Nat) (table : W64) (slot : Nat) : Bool :=
  match slotAlloc s root table slot with
  | some a => a.mode == 2 && peerWriting s (peerKey a.peer a.peerBase) (a.pages * 4096)
  | none => false

/-- An object evicted (R223): once its dirty lines are performed at the home, the tokens are given up that nothing needs any more. -/
def evictSlot (root : Nat) (table : W64) (slot : Nat) (s : State) : State :=
  let s2 := evictPages root table slot s
  match slotAlloc s2 root table slot with
  | some a =>
    if a.mode = 2 ∧ !objectWriting s2 root table slot then
      (objectRegions (entryAt s root table slot) a.peerBase).foldl (fun st r => settleToken a.peer r st) s2
    else s2
  | none => s2

/-- Whether an eviction of an object is complete once its pages are evicted: no access through it and no write of it is under way. -/
def evictable (s : State) (root : Nat) (table : W64) (slot : Nat) : Bool :=
  !slotBusy s root table slot && !objectWriting (evictPages root table slot s) root table slot

/-- What was asked of a slot's pages over: migrations that are under way or requested (spec/20 R320). -/
def endMoves (root slot : Nat) (s : State) : State :=
  { s with svc := { s.svc with
      moving := s.svc.moving.filter fun m => decide (m.root ≠ root) || !inSlot slot m.page,
      moves := s.svc.moves.filter fun m => decide (m.1 ≠ root) || !inSlot slot m.2 } }

/-- An object unbound (R224). -/
def unbindSlot (root : Nat) (table : W64) (slot : Nat) (s : State) : State :=
  let e := entryAt s root table slot
  let s1 := endMoves root slot (evictSlot root table slot s)
  let s2 := (pageVas e.lbase (pagesOf e.length)).foldl (fun st va => unmapPage root va st) s1
  let s3 := { s2 with svc := { s2.svc with
      allocs := s2.svc.allocs.filter fun a =>
        decide (a.root ≠ root) || decide (a.page ≠ (slotBase slot).toNat / 4096) || a.table != table } }
  putEntry s3 root table slot
    { e with bound := false, pin := false, retired := decide (e.gen = 15), home := 0, index := 0, gen := (e.gen + 1) % 16 }

end Sys2Proof.Machine
end

