-- ==== Sys2Proof/Machine/Collective.lean ====
section
/-! DEFINITION. The collective words XRED, XGATH, XBCAST (spec/20 R321 to R323) and the token words TKACQ, TKREL, TKQRY (spec/20
R316 to R318) as they issue. -/

namespace Sys2Proof.Machine

open Host (Outcome)

/-! ### Peer groups (R321) -/

/-- SIZE of a group from k_n+1. -/
def groupSize (x : W64) : Nat := (slice x 48 16).toNat + 1
/-- RANK. -/
def groupRank (x : W64) : Nat := (slice x 32 16).toNat
/-- TAG. -/
def groupTag (x : W64) : Nat := (slice x 0 32).toNat

/-- The first check that a member table's own addresses fail (R160), else the last one. -/
def tableChk (s : State) (va : W64) (size : Nat) : LaneChk :=
  let chks := (List.range size).map fun r => pointerInfo va (checkGlobal s .read 8 8 (va + BitVec.ofNat 64 (8 * r)))
  ((chks.find? fun x => match x with | .ok .. => false | .bad .. | .wait .. | .hole _ => true).or (chks.find? isLost)).getD (.ok (.scratch 0) va)

/-- The keys of a member table's entries. -/
def tableKeys (s : State) (va : W64) (size : Nat) : List Nat :=
  (List.range size).map fun r => chkKey (checkGlobal s .read 8 8 (va + BitVec.ofNat 64 (8 * r)))

/-- The entries read, at core scope, as one access: whether one met a poisoned line. -/
def readTable (s : State) (keys : List Nat) : List W64 × Bool × State :=
  keys.foldl (fun acc k =>
    let r := loadBytes acc.2.2 acc.2.2.warp.core 0 k 8
    (acc.1 ++ [BitVec.ofNat 64 (ofBytes r.1)], acc.2.1 || r.2.1, r.2.2)) ([], false, s)

/-- A member of an entry: its device (this device by its own number) and its die. -/
def memberOf (s : State) (x : W64) : Nat × Nat :=
  let p := (slice x 0 20).toNat
  (if p = 0xFFFFF then s.mgmt.self else p, (slice x 20 4).toNat)

/-- Whether an entry names a host. -/
def namesHost (x : W64) : Bool := decide (0xC0000 ≤ (slice x 0 20).toNat) && decide ((slice x 0 20).toNat ≠ 0xFFFFF)

/-- What a collective word brings to the cases of R323. -/
structure CollSetup where
  size : Nat
  rank : Nat
  root : Nat
  entries : List W64
  shape : Option Nat
  deriving DecidableEq, Repr

/-- The case of R323 that fails, counted from 1. -/
def collCase (s : State) (c : CollSetup) : Option Nat :=
  let ms := c.entries.map (memberOf s)
  if c.size ≤ c.rank ∨ c.size ≤ c.root then some 1
  else if (c.entries.any fun x => slice x 24 40 != 0 || namesHost x) || decide (ms.eraseDups.length < ms.length) then some 2
  else if ms.getD c.rank (0, 0) ≠ (s.mgmt.self, myDie s) then some 3
  else c.shape

/-- Cases 4 and 7 with what lies between them. -/
def collShape (vs : List View) (mid : Option Nat) : Option Nat :=
  if vs.any View.isT1 then some 4
  else if mid.isSome then mid
  else if vs.any fun v => decide (2 ^ 40 < v.count) then some 7
  else none

/-- The shape case of XRED. -/
def reduceCase (ty : Nat) (d v : View) : Option Nat :=
  let want := if ty = 2 then 1 else 2
  collShape [d, v] (if d.fmt ≠ want ∨ v.fmt ≠ want ∨ d.count ≠ v.count then some 5 else none)

/-- The shape case of XGATH. -/
def gatherCase (size : Nat) (d v : View) : Option Nat :=
  collShape [d, v] (if d.fmt ≠ v.fmt ∨ d.count ≠ size * v.count then some 6 else none)

/-- The table of a collective word read, its cases checked, the operation numbered. -/
def collective (i : Instr) (f : EW) (kind : EngKind) (root : Nat) (shape : Nat → Option Nat) (caps : List Captured)
    (chunks : Nat) (run : Mask) (s : State) : Res :=
  let n := f.r1.toNat - 96
  let va := readK s n (lowLane run)
  let g := readK s (n + 1) (lowLane run)
  let s1 := bumpFree (readsEarly s run [.k n, .k (n + 1)]) s
  let size := groupSize g
  checked s run (fun _ => tableChk s va size) <|
    let keys := tableKeys s va size
    if keys.any fun k => earlierAccess s 0 k 8 0 then .hold s .earlier
    else if isLost (tableChk s va size) then .raise s { cause := .uncorrectableMemory, lanes := run, addr := va, info := va }
    else if keys.any fun k => travels s s.warp.core false 0 k 8 && !reachableKey s k then .raise s { cause := .peerUnreachable, lanes := run, addr := va, info := 0 }
    else
      let r := readTable (noteUse s1 (rootOf_ s) (myDie s) ((List.range size).map fun j => va + BitVec.ofNat 64 (8 * j))) keys
      if r.2.1 then .raise s { cause := .uncorrectableMemory, lanes := run, addr := va, info := va }
      else match collCase s { size := size, rank := groupRank g, root := root, entries := r.1, shape := shape size } with
        | some c => .raise s { cause := .collSetup, lanes := run, addr := 0, info := BitVec.ofNat 64 c }
        | none =>
          .done (startEng (countColl (groupTag g) r.2.2)
            { freshEng r.2.2 i run 3 kind with
              views := caps, chunks := chunks, tag := groupTag g, size := size, rank := groupRank g, nth := nextColl s (groupTag g),
              members := r.1.map (memberOf s) })

/-- XRED. -/
def execXred (f : EW) (s : State) : Outcome State Fault Refusal :=
  runEWord (.xred f) f.dist (fun run s =>
    let ty := (slice f.imm 5 2).toNat
    withView s f.va.toNat run fun d => withView s f.vb.toNat run fun v =>
      withIntent s d 2 f.va.toNat run <| withIntent s v 1 f.vb.toNat run <|
        collective (.xred f) f (.collReduce f.variant.toNat ty) 0 (fun _ => reduceCase ty d v)
          [capture (ctxOf s) f.va.toNat true, capture (ctxOf s) f.vb.toNat false] (ceilDiv d.count 64) run s) s

/-- XGATH. -/
def execXgath (f : EW) (s : State) : Outcome State Fault Refusal :=
  runEWord (.xgath f) f.dist (fun run s =>
    withView s f.va.toNat run fun d => withView s f.vb.toNat run fun v =>
      withIntent s d 2 f.va.toNat run <| withIntent s v 1 f.vb.toNat run <|
        collective (.xgath f) f .collGather 0 (fun size => gatherCase size d v)
          [capture (ctxOf s) f.va.toNat true, capture (ctxOf s) f.vb.toNat false] (ceilDiv d.count 64) run s) s

/-- XBCAST. -/
def execXbcast (f : EW) (s : State) : Outcome State Fault Refusal :=
  runEWord (.xbcast f) f.dist (fun run s =>
    let root := (slice f.imm 0 16).toNat
    withView s f.va.toNat run fun d =>
      withIntent s d 3 f.va.toNat run <|
        collective (.xbcast f) f (.collCast root) root (fun _ => collShape [d] none)
          [capture (ctxOf s) f.va.toNat true] (ceilDiv d.count 64) run s) s

/-! ### Tokens (R317, R318) -/

/-- What the address of a token word comes to: the region, a wait, or a cause. -/
inductive TokenAddr where
  | region (peer n : Nat)
  | wait (w : WaitFor)
  | bad (c : Cause) (info : W64)
  | hole (pa : Nat)
  deriving DecidableEq, Repr

/-- An address translated for a token word (R156, R317). -/
def tokenLeaf (s : State) (va : W64) : TokenAddr :=
  match translation s (rootOf_ s) va with
  | .leaf pte => if leafMode pte = 2 then .region (leafPeer pte) (leafPa pte va / 2 ^ 21) else .bad .tokenMode 0
  | .absent => if (allocOf s (rootOf_ s) va).isSome then .wait (.page va false) else .bad .pageNotPresent 0
  | .malformed => .bad .protection 0
  | .poisoned => .bad .uncorrectableMemory 0
  | .hole pa => .hole pa

/-- The address of a token word, through the binding first (R222). -/
def tokenAddr (s : State) (va : W64) : TokenAddr :=
  if isAperture va then
    let e := myEntry s (ptrSlot va)
    if myEntryLost s (ptrSlot va) then .bad .uncorrectableMemory 0
    else if e.busy && e.gen == ptrGen va then .wait (.object (rootOf_ s) s.launch.eff.bindTable [ptrSlot va] false)
    else if !e.bound || e.gen != ptrGen va then .bad .stalePointer va
    else if e.length < ptrOff va + 1 then .bad .pointerBounds va
    else tokenLeaf s (e.lbase + BitVec.ofNat 64 (ptrOff va))
  else if !canonical va then .bad .noncanonical 0
  else if inWindow va then .bad .protection 0
  else tokenLeaf s va

/-- A token word with its region. -/
def tokenWord (f : EW) (run : Mask) (s : State) (k : State → Nat → Nat → Res) : Res :=
  let a := fun l => read64 s f.r1 l
  let va := a (lowLane run)
  reading s run [useE f.r1 64] fun s1 =>
    if !uniform run (fun l => (a l).toNat) then raiseAt s .nonuniformOperand run
    else match tokenAddr s va with
      | .wait w => .hold s w
      | .bad c info => .raise s { cause := c, lanes := run, addr := va, info := info }
      | .hole pa => .stop (.physicalHole pa)
      | .region p n => k (noteUse s1 (rootOf_ s) (myDie s) [va]) p n

/-- TOKEN_ABSENT at the word, with its reason. -/
def tokenReason (s : State) (f : EW) (run : Mask) (reason : Nat) : Res :=
  .raise s { cause := .tokenAbsent, lanes := run, addr := read64 s f.r1 (lowLane run), info := BitVec.ofNat 64 reason }

/-- A hold raised; a request goes to the home when the state does not cover it. -/
def raiseHold (x : Bool) (t : Token) : Token :=
  let t1 := if x then { t with xholds := t.xholds + 1 } else { t with sholds := t.sholds + 1 }
  if (if x then 2 else 1) ≤ t.state then t1 else { t1 with pending := true }

/-- TKACQ. -/
def execTkacq (f : EW) (s : State) : Outcome State Fault Refusal :=
  runEWord (.tkacq f) f.dist (fun run s =>
    let x := f.variant == 1
    tokenWord f run s fun s1 p n =>
      let t := tokenAt s1 p n
      if (if x then t.xholds else t.sholds) = 2 ^ 24 - 1 then tokenReason s f run 3
      else
        .done (startEng (putToken (raiseHold x t) (clearRpl s1))
          { freshEng s1 (.tkacq f) run 3 (.tokenAcquire p n x) with tag := (read64 s f.r1 (lowLane run)).toNat })) s

/-- TKREL: it waits for the stores and atomics the warp issued earlier. -/
def execTkrel (f : EW) (s : State) : Outcome State Fault Refusal :=
  runEWord (.tkrel f) f.dist (fun run s =>
    tokenWord f run s fun s1 p n =>
      let t := tokenAt s1 p n
      if t.sholds = 0 ∧ t.xholds = 0 then tokenReason s f run 4
      else
        .done (startEng (clearRpl s1)
          { freshEng s1 (.tkrel f) run 3 (.tokenRelease p n) with waits := pendingStores s1.warp })) s

/-- TKQRY: its result lands later. -/
def execTkqry (f : EW) (s : State) : Outcome State Fault Refusal :=
  runEWord (.tkqry f) f.dist (fun run s =>
    tokenWord f run s fun s1 p n =>
      if lineRoom s1 (dstLines f.r2 64) then
        let e := { freshEng s1 (.tkqry f) run 3 (.tokenQuery p n) with dst := (laterDst f.r2 64 run).head? }
        .done (modCtx (startEng s1 e) fun c =>
          ((laterDst f.r2 64 run).flatMap dstRegs).foldl (fun x r => claimLater c e.id run r x) c)
      else .hold s .lineBudget) s

end Sys2Proof.Machine
end

