-- ==== Sys2Proof/Machine/Gcm.lean ====
section
/-! DEFINITION. AES-GCM-256, the cipher of the records that Ethernet ports decrypt (spec/20 R326 names it; its arithmetic is taken
from FIPS 197 and SP 800-38D: PRESUMED, log 10). -/

namespace Sys2Proof.Machine

/-! ### AES-256 -/

/-- A byte times x in the field of AES. -/
def xtime (b : Byte) : Byte := (b <<< 1) ^^^ (if bitAt b 7 then 0x1B else 0)

/-- A product in the field of AES. -/
def mulByte (a b : Byte) : Byte :=
  ((List.range 8).foldl (fun (acc : Byte × Byte) i =>
    (if bitAt b i then acc.1 ^^^ acc.2 else acc.1, xtime acc.2)) (0, a)).1

/-- The inverse of a byte in the field of AES, 0 for 0: its 254th power. -/
def invByte (a : Byte) : Byte :=
  (List.range 7).foldl (fun (acc : Byte) i =>
    mulByte acc ((List.range (i + 1)).foldl (fun (x : Byte) _ => mulByte x x) a)) 1

/-- The substitution of a byte. -/
def subByteOf (a : Byte) : Byte :=
  let x := invByte a
  x ^^^ x.rotateLeft 1 ^^^ x.rotateLeft 2 ^^^ x.rotateLeft 3 ^^^ x.rotateLeft 4 ^^^ 0x63

/-- The substitution table. -/
def subTable : List Byte := (List.range 256).map fun i => subByteOf (BitVec.ofNat 8 i)

/-- The substitution of a byte, by the table. -/
def subByte (a : Byte) : Byte := subTable.getD a.toNat 0

/-- The round constant of a schedule step. -/
def roundConst (n : Nat) : Byte := (List.range (n - 1)).foldl (fun (x : Byte) _ => xtime x) 1

/-- Lists of bytes added. -/
def xorBytes (a b : List Byte) : List Byte := List.zipWith (fun x y => x ^^^ y) a b

/-- The word the schedule adds at place i, from the word before it. -/
def scheduleWord (i : Nat) (w : List Byte) : List Byte :=
  if i % 8 = 0 then xorBytes ((w.tail ++ w.take 1).map subByte) [roundConst (i / 8), 0, 0, 0]
  else if i % 8 = 4 then w.map subByte
  else w

/-- The key schedule of AES-256 from its first eight words. -/
def expandKey (key : List Byte) : List (List Byte) :=
  let first := (List.range 8).map fun i => (key.drop (4 * i)).take 4
  (List.range 52).foldl (fun ws i => ws ++ [xorBytes (ws.getD i []) (scheduleWord (i + 8) (ws.getD (i + 7) []))]) first

/-- Round key r. -/
def roundKey (ws : List (List Byte)) (r : Nat) : List Byte := ((ws.drop (4 * r)).take 4).flatten

/-- A block's bytes substituted and its rows shifted. -/
def subShift (b : List Byte) : List Byte := (List.range 16).map fun i => subByte (b.getD ((i + 4 * (i % 4)) % 16) 0)

/-- A block's columns mixed. -/
def mixColumns (b : List Byte) : List Byte :=
  (List.range 16).map fun i =>
    let at_ (k : Nat) : Byte := b.getD (i / 4 * 4 + (i + k) % 4) 0
    xtime (at_ 0) ^^^ (xtime (at_ 1) ^^^ at_ 1) ^^^ at_ 2 ^^^ at_ 3

/-- A block enciphered. -/
def aesBlock (ws : List (List Byte)) (b : List Byte) : List Byte :=
  let b1 := (List.range 13).foldl (fun x r => xorBytes (mixColumns (subShift x)) (roundKey ws (r + 1))) (xorBytes b (roundKey ws 0))
  xorBytes (subShift b1) (roundKey ws 14)

/-! ### GCM -/

/-- The number of some bytes, the first the most significant. -/
def ofBytesBig (bs : List Byte) : Nat := bs.foldl (fun n b => n * 256 + b.toNat) 0

/-- A number as bytes, the most significant first. -/
def bytesBig (n x : Nat) : List Byte := (bytesOf n x).reverse

/-- A product in the field of GHASH. -/
def ghashMul (x y : Nat) : Nat :=
  ((List.range 128).foldl (fun (acc : Nat × Nat) i =>
    (if x.testBit (127 - i) then acc.1 ^^^ acc.2 else acc.1,
     if acc.2 % 2 = 1 then acc.2 / 2 ^^^ 0xE1 * 2 ^ 120 else acc.2 / 2)) (0, y)).1

/-- Bytes in blocks of 16, the last filled up with zeros. -/
def blocksOf (bs : List Byte) : List (List Byte) :=
  (List.range (ceilDiv bs.length 16)).map fun i =>
    let b := (bs.drop (16 * i)).take 16
    b ++ List.replicate (16 - b.length) 0

/-- GHASH of the additional data and the ciphertext. -/
def ghash (h : Nat) (aad ct : List Byte) : Nat :=
  let y := (blocksOf aad ++ blocksOf ct).foldl (fun y b => ghashMul (y ^^^ ofBytesBig b) h) 0
  ghashMul (y ^^^ (aad.length * 8 * 2 ^ 64 + ct.length * 8)) h

/-- Bytes enciphered or deciphered in counter mode. -/
def gcmStream (ws : List (List Byte)) (nonce data : List Byte) : List Byte :=
  (List.range (ceilDiv data.length 16)).flatMap fun i =>
    xorBytes ((data.drop (16 * i)).take 16) (aesBlock ws (nonce ++ bytesBig 4 ((2 + i) % 2 ^ 32)))

/-- The tag of a ciphertext. -/
def gcmTag (ws : List (List Byte)) (nonce aad ct : List Byte) : List Byte :=
  xorBytes (aesBlock ws (nonce ++ [0, 0, 0, 1])) (bytesBig 16 (ghash (ofBytesBig (aesBlock ws (List.replicate 16 0))) aad ct))

/-- A ciphertext opened under a key; none when the tag fails. -/
def gcmOpen (key nonce aad ct tag : List Byte) : Option (List Byte) :=
  let ws := expandKey key
  if gcmTag ws nonce aad ct = tag then some (gcmStream ws nonce ct) else none

end Sys2Proof.Machine
end

