-- ==== Sys2Proof/Machine/Regions.lean ====
section
/-! DEFINITION. Regions: the region table, region control blocks as they stand in memory, their checks, effective values and
budgets (spec/02 R19 to R22, R360, spec/22 R337). -/

namespace Sys2Proof.Machine

/-! ### A region control block (R20) -/

/-- The words of an RCB as read from memory. -/
structure Rcb where
  pa : Nat
  words : List W64
  deriving DecidableEq, Repr

/-- A word of an RCB, by its offset over 8. -/
def Rcb.word (r : Rcb) (i : Nat) : W64 := r.words.getD i 0

/-- An RCB read at a device physical address; where the address names no device memory the read gives what memory with nothing
listed gives there (DESIGN CHOICE, log 52). One in a poisoned line is malformed: it reads with every bit set (DESIGN CHOICE, log 55). -/
def readRcb (s : State) (pa : Nat) : Rcb :=
  { pa := pa, words := if homePoison s pa 256 then List.replicate 32 (BitVec.allOnes 64) else (List.range 32).map fun i => homeWord s (pa + 8 * i) }

/-- PARENT. -/
def Rcb.parent (r : Rcb) : W64 := r.word 0
/-- REGION_ID. -/
def Rcb.id (r : Rcb) : Nat := (slice (r.word 3) 48 16).toNat
/-- An INHERIT bit. -/
def Rcb.inherits (r : Rcb) (i : Nat) : Bool := bitAt (r.word 3) i
/-- BUD_LINES. -/
def Rcb.lines (r : Rcb) : Nat := (hi32 (r.word 4)).toNat
/-- BUD_CTX. -/
def Rcb.ctx (r : Rcb) : Nat := (lo32 (r.word 4)).toNat
/-- BUD_SPAD. -/
def Rcb.spad (r : Rcb) : Nat := (hi32 (r.word 5)).toNat
/-- BUD_ENERGY. -/
def Rcb.energy (r : Rcb) : Nat := (lo32 (r.word 5)).toNat
/-- BUD_DECKLE. -/
def Rcb.deckle (r : Rcb) : Nat := (slice (r.word 6) 57 7).toNat
/-- PRIO. -/
def Rcb.prio (r : Rcb) : Nat := (slice (r.word 6) 53 4).toNat
/-- FAULT_DOM. -/
def Rcb.faultDom (r : Rcb) : Nat := (slice (r.word 6) 51 2).toNat
/-- RESET_SCOPE. -/
def Rcb.resetScope (r : Rcb) : Nat := (slice (r.word 6) 49 2).toNat
/-- QOS_WEIGHT. -/
def Rcb.qos (r : Rcb) : Nat := (slice (r.word 6) 41 8).toNat
/-- CHECK. -/
def Rcb.check (r : Rcb) : Bool := bitAt (r.word 6) 40
/-- NBV. -/
def Rcb.nbv (r : Rcb) : Nat := (slice (r.word 6) 38 2).toNat
/-- STATE. -/
def Rcb.state (r : Rcb) : Nat := (slice (r.word 6) 36 2).toNat
/-- TRAP_COUNT. -/
def Rcb.trapCount (r : Rcb) : Nat := (slice (r.word 12) 48 16).toNat
/-- KEY_BASE. -/
def Rcb.keyBase (r : Rcb) : Nat := (slice (r.word 12) 36 12).toNat
/-- KEY_COUNT. -/
def Rcb.keyCount (r : Rcb) : Nat := (slice (r.word 12) 23 13).toNat

/-! ### The region table and the path to the root -/

/-- A region table entry. -/
def tableEntry (s : State) (i : Nat) : W64 := (AList.find s.cp.table i).getD 0

/-- Whether an entry names a region. -/
def regionValid (s : State) (i : Nat) : Bool := decide (i < 0xFFFF) && bitAt (tableEntry s i) 0

/-- The address of a region's RCB. -/
def regionPa (s : State) (i : Nat) : Nat := (tableEntry s i).toNat / 256 * 256

/-- The RCBs from one to the root, with whether the root was reached within the fuel. -/
def rcbPath (s : State) : Nat → Nat → List Rcb × Bool
  | 0, _ => ([], false)
  | n + 1, pa =>
    let r := readRcb s pa
    if r.parent = 0 then ([r], true)
    else
      let up := rcbPath s n r.parent.toNat
      (r :: up.1, up.2)

/-- The path of a region: at most 8 levels (R19). -/
def regionPath (s : State) (i : Nat) : List Rcb × Bool := rcbPath s 8 (regionPa s i)

/-- The RCBs from a region's own up, also of one that lies too deep (R19); a circle is followed round no more often than there
are regions. -/
def regionLine (s : State) (i : Nat) : List Rcb := (rcbPath s 65535 (regionPa s i)).1

/-- Whether a region lies at or below another. -/
def regionBelow (s : State) (i top : Nat) : Bool :=
  regionValid s i && regionValid s top && (regionLine s i).any fun r => r.pa == regionPa s top

/-! ### Checks (R22) -/

/-- Whether one entry of IRQ has a nonzero reserved bit. -/
def irqBad (x : W64) : Bool := (List.range 4).any fun i => slice x (16 * i + 11) 4 != 0

/-- What is checked whatever the INHERIT bits: zero fields, the id against its table entry, the links, a top-level region. -/
def rcbShapeBad (s : State) (r : Rcb) : Bool :=
  slice (r.word 3) 17 31 != 0 || slice (r.word 6) 0 36 != 0 || slice (r.word 12) 0 23 != 0 ||
    ((List.range 18).any fun i => r.word (14 + i) != 0) || !regionValid s r.id || regionPa s r.id != r.pa ||
    ((List.range 3).any fun i => slice (r.word i) 0 8 != 0) || (r.parent == 0 && slice (r.word 3) 0 17 != 0)

/-- The limits of the fields a region does not inherit; the zero bits inside IRQ, like those inside PT_ROOT, are limits of that
field (log 23). -/
def rcbLimitBad (r : Rcb) : Bool :=
  let own (i : Nat) (bad : Bool) : Bool := !r.inherits i && bad
  own 0 (decide (8192 < r.lines)) || own 1 (slice (r.word 13) 0 14 != 0) || own 2 (decide (524288 < r.spad)) ||
    own 4 (decide (64 < r.deckle)) || own 7 (irqBad (r.word 7)) || own 8 (decide (2 ≤ r.resetScope)) || own 9 (r.qos == 0) ||
    own 11 (decide (2 ≤ r.nbv)) || own 12 (slice (r.word 8) 0 12 != 0) || own 13 (slice (r.word 9) 0 6 != 0) ||
    own 15 (slice (r.word 11) 0 14 != 0 || r.trapCount == 0) || own 16 (decide (4096 < r.keyBase + r.keyCount))

/-! ### Effective values (R21) -/

/-- Effective values and budgets of one region of a path. -/
structure Effective where
  eff : Eff
  lines : Nat
  ctx : Nat
  spad : Nat
  deckle : Nat
  energy : Nat
  deriving DecidableEq, Repr

/-- The values of a top-level region. -/
def ownValues (r : Rcb) : Effective :=
  { eff := { prio := r.prio, faultDom := r.faultDom, resetScope := r.resetScope, qos := r.qos, check := r.check, nbv := r.nbv,
             irq := r.word 7, ptRoot := (r.word 8).toNat, bindTable := r.word 9, trapEntry := r.word 10, trapPool := r.word 11,
             trapCount := r.trapCount, keyBase := r.keyBase, keyCount := r.keyCount, ctxPool := r.word 13 },
    lines := r.lines, ctx := r.ctx, spad := r.spad, deckle := r.deckle, energy := r.energy }

/-- The values of a region below another. -/
def childValues (r : Rcb) (up : Effective) : Effective :=
  let o := ownValues r
  let pick {α : Type} (i : Nat) (own inherited : α) : α := if r.inherits i then inherited else own
  { eff := { prio := min (pick 5 o.eff.prio up.eff.prio) up.eff.prio, faultDom := pick 6 o.eff.faultDom up.eff.faultDom,
             resetScope := pick 8 o.eff.resetScope up.eff.resetScope, qos := pick 9 o.eff.qos up.eff.qos,
             check := pick 10 o.eff.check up.eff.check, nbv := pick 11 o.eff.nbv up.eff.nbv, irq := pick 7 o.eff.irq up.eff.irq,
             ptRoot := pick 12 o.eff.ptRoot up.eff.ptRoot, bindTable := pick 13 o.eff.bindTable up.eff.bindTable,
             trapEntry := pick 14 o.eff.trapEntry up.eff.trapEntry, trapPool := pick 15 o.eff.trapPool up.eff.trapPool,
             trapCount := pick 15 o.eff.trapCount up.eff.trapCount, keyBase := pick 16 o.eff.keyBase up.eff.keyBase,
             keyCount := pick 16 o.eff.keyCount up.eff.keyCount, ctxPool := pick 1 o.eff.ctxPool up.eff.ctxPool },
    lines := pick 0 o.lines up.lines, ctx := pick 1 o.ctx up.ctx, spad := pick 2 o.spad up.spad,
    deckle := pick 4 o.deckle up.deckle, energy := pick 3 o.energy up.energy }

/-- Whether a region's key range lies inside its parent's; an empty range whose base lies outside is not inside (DESIGN CHOICE,
log 52). -/
def keysInside (e up : Effective) : Bool :=
  decide (up.eff.keyBase ≤ e.eff.keyBase) && decide (e.eff.keyBase + e.eff.keyCount ≤ up.eff.keyBase + up.eff.keyCount)

/-- The values along a path, from its first region to the root; none when one is malformed (R22). -/
def pathValues (s : State) : List Rcb → Option (List (Rcb × Effective))
  | [] => some []
  | r :: up =>
    if rcbShapeBad s r || rcbLimitBad r then none
    else match pathValues s up with
      | none => none
      | some [] => some [(r, ownValues r)]
      | some ((q, e) :: rest) =>
        let v := childValues r e
        if keysInside v e then some ((r, v) :: (q, e) :: rest) else none

/-- The values of a region and its ancestors as they stand in memory; none when one is malformed, or when the region's own
REGION_ID is not its table index. -/
def regionValues (s : State) (i : Nat) : Option (List (Rcb × Effective)) :=
  let p := regionPath s i
  if p.2 && p.1.head?.all (fun r => r.id == i) then pathValues s p.1 else none

/-- The effective values of a region as they stand now. -/
def effectiveNow (s : State) (i : Nat) : Option Effective := (regionValues s i).bind fun l => l.head?.map (·.2)

/-! ### Budgets (R360, spec/18 R301) -/

/-- The energy counts of a region whose budget is read: they start at BUD_ENERGY with the first read after its table entry
became valid, a reset or a revival; an unmetered count reads as BUD_ENERGY; otherwise they go on. -/
def countsFrom (old : Option Budget) (energy : Nat) : List Int :=
  match old with
  | some b => if b.restart || energy == 0xFFFFFFFF then List.replicate Config.dies (energy : Int) else b.counts
  | none => List.replicate Config.dies (energy : Int)

/-- The budget of a region as its values give it. -/
def budgetFrom (s : State) (id : Nat) (parent : Option Nat) (e : Effective) : Budget :=
  { region := id, parent := parent, lines := e.lines, ctx := e.ctx, spad := e.spad, deckle := e.deckle, energy := e.energy,
    counts := countsFrom (budgetOf s id) e.energy, restart := false }

/-- The budget limits of a path reloaded. -/
def loadBudgets (s : State) : List (Rcb × Effective) → State
  | [] => s
  | (r, e) :: up =>
    let s1 := loadBudgets s up
    let b := budgetFrom s1 r.id (up.head?.map fun x => x.1.id) e
    { s1 with cp := { s1.cp with budgets := s1.cp.budgets.filter (fun x => decide (x.region ≠ r.id)) ++ [b] } }

/-- A region's counts start anew with its next launch; the limits read last go on for the launches of its descendants. -/
def restartBudget (i : Nat) (s : State) : State :=
  { s with cp := { s.cp with budgets := s.cp.budgets.map fun b => if b.region = i then { b with restart := true } else b } }

/-! ### STATE (R22) -/

/-- The STATE of a region. -/
def regionState (s : State) (i : Nat) : Nat := (readRcb s (regionPa s i)).state

/-- STATE written by the command processor. -/
def setRegionState (i st : Nat) (s : State) : State :=
  let a := regionPa s i + 0x30
  let w := homeWord s a
  homeWrite s a (bytesOf 8 ((w &&& ~~~((3 : W64) <<< 36)) ||| (BitVec.ofNat 64 st <<< 36)).toNat)

/-- A word of the RCB that gives it along a path: of the first region that does not inherit it (R21). -/
def pathWord (bit_ word : Nat) : List Rcb → W64
  | [] => 0
  | [r] => r.word word
  | r :: q :: up => if r.inherits bit_ then pathWord bit_ word (q :: up) else r.word word

/-- An event class of a region signalled, as the region is now (R20); a malformed region, whose launches fail with a signal
(R27), is signalled too. -/
def signalRegion (i cls : Nat) (s : State) : State :=
  if regionValid s i then signal s i (pathWord 7 7 (regionLine s i)) cls else s

end Sys2Proof.Machine
end

