-- ==== Sys2Proof/Machine/Accept.lean ====
section
/-! DEFINITION. Launches: records and their checks (spec/02 R23 to R27), acceptance, the Ream and the end of a launch (spec/22
R338 to R343, R346). -/

namespace Sys2Proof.Machine

/-! ### The launch record (R23) -/

/-- A word of a record. -/
def recWord (r : List W64) (i : Nat) : W64 := r.getD i 0

/-- REGION. -/
def recRegion (r : List W64) : Nat := (slice (recWord r 0) 48 16).toNat
/-- WARPS. -/
def recWarps (r : List W64) : Nat := (slice (recWord r 0) 40 8).toNat
/-- GBARS. -/
def recGbars (r : List W64) : Nat := (slice (recWord r 0) 32 5).toNat
/-- GANGS. -/
def recGangs (r : List W64) : Nat := (slice (recWord r 3) 0 48).toNat + 1
/-- SPAD. -/
def recSpad (r : List W64) : Nat := (hi32 (recWord r 5)).toNat
/-- TAGS. -/
def recTags (r : List W64) : Nat := (slice (recWord r 5) 22 10).toNat

/-- A virtual address from its bits 56:0. -/
def va57 (x : BitVec 57) : W64 := x.signExtend 64

/-- A replay span: its first address, its pages (R25). -/
def recSpan (r : List W64) (i : Nat) : W64 × Nat :=
  let x := recWord r (16 + i)
  (va57 (slice x 19 45 ++ (0 : BitVec 12)), (slice x 0 19).toNat)

/-- A wait-for condition (R26). -/
def recWait (r : List W64) (i : Nat) : WaitCond :=
  let x := recWord r (24 + 2 * i)
  { kind := (slice x 62 2).toNat, word := va57 (slice x 0 57), value := (recWord r (25 + 2 * i)).toNat, holds := false }

/-- Whether a span runs past the top of the canonical space: of its 2^45 pages; one that crosses from the lower half to the upper
does not (DESIGN CHOICE, log 52). -/
def spanBad (x : W64) : Bool := decide (2 ^ 45 < (slice x 19 45).toNat + (slice x 0 19).toNat)

/-- Whether a condition is malformed, for a launch that takes a sequence number. -/
def waitBad (r : List W64) (seq i : Nat) : Bool :=
  let x := recWord r (24 + 2 * i)
  let w := recWait r i
  slice x 57 5 != 0 || w.kind == 3 || (w.kind == 1 && slice x 0 3 != 0) || (w.kind != 1 && slice x 0 57 != 0) ||
    (w.kind == 2 && (w.value == 0 || decide (seq ≤ w.value)))

/-- Row 0x03 of R27. -/
def recordBad (r : List W64) (seq : Nat) : Bool :=
  slice (recWord r 0) 0 32 != 0 || slice (recWord r 3) 48 16 != 0 || slice (recWord r 5) 0 22 != 0 || recWord r 7 != 0 ||
    slice (recWord r 6) 0 6 != 0 || recWarps r == 0 || decide (32 < recWarps r) || decide (16 < recGbars r) ||
    decide (524288 < recSpad r) || recSpad r % 16 != 0 || decide (512 < recTags r) ||
    ((List.range 8).any fun i => spanBad (recWord r (16 + i))) || (List.range 4).any (waitBad r seq)

/-! ### Objects (spec/22 R352, spec/04 R87) -/

/-- A loaded object of an address space. -/
def findObject (s : State) (handle : W64) (root : Nat) : Option Object :=
  s.cp.objects.find? fun o => o.handle == handle && o.root == root

/-- Whether a word address lies in an object's code. -/
def inObject (o : Object) (p : W64) : Bool :=
  decide (o.base.toNat / 8 ≤ p.toNat) && decide (p.toNat < o.base.toNat / 8 + o.codeWords)

/-- Whether a region has an emulation handler for a removed opcode (R87). -/
def hasHandler (s : State) (e : Eff) (op : Nat) : Bool :=
  s.cp.objects.any fun o => o.root == e.ptRoot && inObject o e.trapEntry && o.emulate.contains op

/-- Row 0x04 of R27. -/
def objectBad (s : State) (r : List W64) (e : Eff) : Bool :=
  match findObject s (recWord r 1) e.ptRoot with
  | none => true
  | some o => !o.entries.contains (recWord r 2) || o.removed.any fun op => !hasHandler s e op

/-- The slots a grid with barriers reserves (R33). -/
def reservation (s : State) (r : List W64) (e : Eff) : Nat :=
  let c := match findObject s (recWord r 1) e.ptRoot with
    | some o => if o.hasCall then 1 else 0
    | none => 0
  if recGbars r = 0 then 0 else recGangs r * (recWarps r * (1 + c) + 1 + ceilDiv (recSpad r) 16384)

/-! ### The Ream (R341, R342) -/

/-- Whether a launch has reached a final state. -/
def isFinal (l : Launch) : Bool := decide (l.state = .complete) || decide (l.state = .killed)

/-- A launch that is kept, by number: one that is not final, or one that is complete while its gangs are not retired. -/
def activeLaunch (s : State) (seq : Nat) : Option Launch :=
  (allLaunches s).find? fun l => decide (l.seq = seq) && decide (0 < seq)

/-- The STATE code of a launch. -/
def launchCode : LaunchState → Nat
  | .accepted => 0 | .started => 1 | .complete => 2 | .replayed => 3 | .killed => 4

/-- The Ream entry of a launch. -/
def reamOf (l : Launch) : ReamEntry :=
  [BitVec.ofNat 64 l.seq,
   BitVec.ofNat 16 l.region ++ BitVec.ofNat 3 (launchCode l.state) ++ BitVec.ofNat 2 l.replays ++ bit l.rpl ++
     BitVec.ofNat 2 l.src ++ BitVec.ofNat 8 l.reason ++ BitVec.ofNat 9 l.cause ++ (0 : BitVec 23),
   l.info, l.object, 0, 0, 0, 0]

/-- The entry of a number: of a launch that is not final, or as it ended; zero otherwise. -/
def reamEntry (s : State) (seq : Nat) : ReamEntry :=
  match activeLaunch s seq with
  | some l => reamOf l
  | none => (AList.find s.cp.ream seq).getD (List.replicate 8 0)

/-- The STATE of an entry's launch. -/
def entryState (s : State) (seq : Nat) : Nat := (slice ((reamEntry s seq).getD 1 0) 45 3).toNat

/-- Whether an entry has been overwritten (R342). -/
def overwritten (s : State) (seq : Nat) : Bool := decide (seq + 2 ^ 20 < s.cp.reamHead)

/-- A KIND 2 condition: whether its launch is complete, or its entry overwritten (R340). -/
def dependenceMet (s : State) (w : WaitCond) : Bool := overwritten s w.value || entryState s w.value == 2

/-- A KIND 2 condition whose launch ended killed. -/
def dependenceKilled (s : State) (w : WaitCond) : Bool := w.kind == 2 && !overwritten s w.value && entryState s w.value == 4

/-- An entry logged; the one it overwrites goes. -/
def logEntry (l : Launch) (s : State) : State :=
  { s with cp := { s.cp with ream := AList.drop (AList.put s.cp.ream l.seq (reamOf l)) (l.seq - 2 ^ 20) } }

/-! ### The end of a launch -/

/-- Whether a region has an accepted launch that is not final. -/
def regionBusy (s : State) (i : Nat) : Bool :=
  (allLaunches s).any fun l => decide (0 < l.seq) && decide (l.region = i) && !isFinal l

/-- STATE back to idle when a region's last launch is final (R22). -/
def settleRegion (i : Nat) (s : State) : State :=
  if !regionBusy s i && regionState s i == 1 then setRegionState i 0 s else s

/-- A launch taken out of the lists. -/
def removeLaunch (seq : Nat) (s : State) : State :=
  { s with
    launch := if s.launch.seq = seq then Launch.zero else s.launch,
    launches := s.launches.filter fun l => decide (l.seq ≠ seq) }

/-- A launch ends: its entry is logged as it stands, and its region settles. -/
def endLaunch (l : Launch) (s : State) : State := settleRegion l.region (removeLaunch l.seq (freeSnapshots l.seq (logEntry l s)))

/-- An event class of a launch's region signalled: by its kept values once it has started. -/
def signalLaunch (l : Launch) (cls : Nat) (s : State) : State :=
  if l.state = .accepted then signalRegion l.region cls s else signal s l.region l.eff.irq cls

/-- The Deckle entries of a warp freed. -/
def freeViews (s : State) (w : Warp) : State :=
  let s1 := releaseViews w.id w.core w.ctx s
  match w.trap with
  | some t => releaseViews w.id w.core t.intr s1
  | none => s1

/-- The warps, gangs, engine operations and staged records of a launch discarded, without write-back (R101, R268, R346). -/
def dropWork (seq : Nat) (s : State) : State :=
  let ws := warpsOf s seq
  let s1 := { s with
    warp := if s.warp.id.seq = seq then Warp.zero else s.warp,
    warps := s.warps.filter fun w => decide (w.id.seq ≠ seq),
    gang := if s.gang.id.seq = seq then Gang.zero else s.gang,
    gangs := s.gangs.filter fun g => decide (g.id.seq ≠ seq),
    engines := s.engines.filter fun e => decide (e.warp.seq ≠ seq),
    svc := { s.svc with failed := s.svc.failed.filter fun f => decide (f.warp.seq ≠ seq) } }
  let s2 := ws.foldl freeViews s1
  modLaunch s2 seq fun l => { l with staged := [], stageSlot := 0, stageUsed := 0, arrivals := [], retiredWarps := [] }

/-- A launch killed with a reason (R343, R346). -/
def killLaunch (seq reason : Nat) (s : State) : State :=
  match activeLaunch s seq with
  | none => s
  | some l =>
    if isFinal l then s
    else signalLaunch l 1 (endLaunch { l with state := .killed, reason := reason } (dropWork seq s))

/-! ### Acceptance -/

/-- A launch as its record gives it (R23); its effective values are taken at the start. -/
def launchFrom (r : List W64) (seq src : Nat) : Launch :=
  { Launch.zero with
    seq := seq, region := recRegion r, warps := recWarps r, replayable := bitAt (recWord r 0) 39,
    contOk := bitAt (recWord r 0) 38, checkOn := bitAt (recWord r 0) 37, gbars := recGbars r, object := recWord r 1,
    entry := recWord r 2, gangs := recGangs r, argp := recWord r 4, spad := recSpad r, tags := recTags r, ctab := recWord r 6,
    slots := (List.range 8).map fun i => recWord r (8 + i), spans := (List.range 8).map (recSpan r),
    waits := (List.range 4).map (recWait r), record := r, rpl := bitAt (recWord r 0) 39, src := src }

/-- The reason a record fails with when it is accepted (R27), for the number it takes. -/
def acceptReason (s : State) (r : List W64) (seq : Nat) : Option Nat :=
  if 2 ≤ regionState s (recRegion r) then some 1
  else match effectiveNow s (recRegion r) with
    | none => some 2
    | some e =>
      if recordBad r seq then some 3
      else if objectBad s r e.eff then some 4
      else if e.ctx < reservation s r e.eff then some 5
      else if (List.range 4).any fun i => dependenceKilled s (recWait r i) then some 6
      else none

/-- Whether a region's FIFO or the Ream holds a submission off (R338 row 3). -/
def submissionFull (s : State) (region : Nat) : Bool :=
  decide (4096 ≤ ((allLaunches s).filter fun l => decide (0 < l.seq) && decide (l.region = region) && decide (l.state = .accepted)).length) ||
    (decide (2 ^ 20 < s.cp.reamHead) && (activeLaunch s (s.cp.reamHead - 2 ^ 20)).any fun l => !isFinal l)

/-- A record accepted: it takes the next number, is logged, and R27 is applied. -/
def acceptRecord (r : List W64) (src : Nat) (s : State) : State :=
  let seq := s.cp.reamHead
  let l := launchFrom r seq src
  let s1 := { s with cp := { s.cp with reamHead := seq + 1 } }
  match acceptReason s r seq with
  | some reason => signalRegion l.region 1 (endLaunch { l with state := .killed, reason := reason } s1)
  | none =>
    let s2 := { s1 with launches := s1.launches ++ [l] }
    if regionState s2 l.region = 0 then setRegionState l.region 1 s2 else s2

/-! ### The doorbell (R339) -/

/-- The keys of a record's 256 bytes through a region's tables; none when a page cannot be translated or read. -/
def recordKeys (s : State) (root : Nat) (va : W64) : Option (List Nat) :=
  ((List.range 32).map fun i => va + BitVec.ofNat 64 (8 * i)).mapM fun a =>
    match translation s root a with
    | .leaf pte => if bitAt pte 1 then some (leafKey s pte a) else none
    | .absent | .malformed | .hole _ | .poisoned => none

/-- A doorbell's exchange performed (R339): the value returned, and the state after. A record address that is not a multiple
of 256 cannot be read as a record. -/
def ringDoorbell (s : State) (root die door : Nat) (va : W64) : W64 × State :=
  match (if va.toNat % 256 = 0 ∧ canonical va then recordKeys s root va else none) with
  | none => (0x8000000000000003, s)
  | some keys =>
    if keys.any fun k => !reachableKey s k || (List.range 8).any fun i => (dieByte s die (k + i)).2 then (0x8000000000000003, s)
    else
      let r := keys.map fun k => BitVec.ofNat 64 (ofBytes ((List.range 8).map fun i => (dieByte s die (k + i)).1))
      if !regionBelow s (recRegion r) door then (0x8000000000000001, s)
      else if submissionFull s (recRegion r) then (0x8000000000000002, s)
      else (BitVec.ofNat 64 s.cp.reamHead, acceptRecord r 2 s)

end Sys2Proof.Machine
end

