-- ==== Sys2Proof/Machine/Complete.lean ====
section
/-! DEFINITION. Performing the accesses of an operation in flight and landing its results (spec/09 R178 to R192, spec/08 R161 to
R168, spec/20 R310 to R315, spec/15 R250 to R253, spec/10 R199, R201): the event OPERATION_COMPLETE. -/

namespace Sys2Proof.Machine

open Host (Outcome)

/-! ### Operations and their contexts -/

/-- The context of a warp that holds an operation changed. -/
def modHolder (op : Nat) (f : Ctx → Ctx) (w : Warp) : Warp :=
  if w.ctx.ops.any (fun o => decide (o.id = op)) then { w with ctx := f w.ctx }
  else match w.trap with
    | some t => { w with trap := some { t with intr := f t.intr } }
    | none => w

/-- Whether an operation belongs to the trap context of its warp. -/
def ofTrapCtx (w : Warp) (op : Nat) : Bool := w.trap.isSome && w.ctx.ops.any fun o => decide (o.id = op)

/-- An operation of a warp changed. -/
def modOp (s : State) (w : WarpId) (op : Nat) (f : Op → Op) : State :=
  modWarp s w (modHolder op fun c => { c with ops := c.ops.map fun o => if o.id = op then f o else o })

/-- The operations of a warp before one, in issue order. -/
def earlierOps (w : Warp) (op : Nat) : List Op := (warpOps w).filter fun o => decide (o.id < op)

/-! ### Order within a warp -/

/-- The key of the memory that an access is of; a context-space access is of the interrupted context's record there (spec/09 R181, R186,
spec/10 R202). -/
def placeKey (s : State) (w : Warp) (p : Place) : Option Nat :=
  match p, w.trap with
  | .global k _, _ => some k
  | .record off, some t => keyIn s (rootFor s w) (t.intr.ctxp + BitVec.ofNat 64 off)
  | .record _, none | .scratch _, _ | .lost, _ => none

/-- Whether two places of accesses of n and m bytes of a warp overlap, whatever the spaces that name them. -/
def placesOverlap (s : State) (w : Warp) (p : Place) (n : Nat) (q : Place) (m : Nat) : Bool :=
  match p, q with
  | .scratch a, .scratch b => overlap a n b m
  | .record a, .record b => overlap a n b m
  | .global k _, .global j _ => overlap k n j m
  | .global .., .record _ | .record _, .global .. =>
    (match placeKey s w p, placeKey s w q with
     | some k, some j => overlap k n j m
     | _, _ => false)
  | .global .., .scratch _ | .scratch _, .global .. | .scratch _, .record _ | .record _, .scratch _ | .lost, _ | _, .lost => false

/-- The granule of a scratchpad offset (spec/08 R167). -/
def granuleOf (off : Nat) : Nat := off / 16

/-- Whether an access of an operation meets accesses of an earlier one that are still to be performed (R181; log 22 for an LDFE that
waits for its granule). -/
def accBlocked (s : State) (w : Warp) (n : Nat) (a : Acc) (e : Op) : Bool :=
  match e.kind with
  | .memory _ m _ accs _ _ =>
    (accs.any fun b => placesOverlap s w a.place n b.place m) ||
      (s.mem.writes.any fun x => x.op == some e.id && x.pending && placesOverlap s w a.place n (.global x.key 0) x.bytes.length) ||
      (s.fabric.sent.any fun p => p.op == some e.id && p.accs.any fun b => placesOverlap s w a.place n b.place p.bytes)
  | .result .. | .viewRetire .. | .ringClaim .. | .ringRelease .. | .keySet .. | .evict .. => false

/-- Whether two accesses through views must keep their order (spec/15 R253). -/
def viewsConflict (a b : Captured) : Bool := (a.writes || b.writes) && canMeet a.view b.view

/-- The view an operation captured. -/
def opView (o : Op) : Option Captured :=
  match o.kind with
  | .memory _ _ _ _ _ v => v
  | .result .. | .viewRetire .. | .ringClaim .. | .ringRelease .. | .keySet .. | .evict .. => none

/-- The views captured by a warp's accesses issued before a number and still in flight. -/
def earlierViews (s : State) (w : Warp) (id : Nat) : List Captured :=
  (earlierOps w id).filterMap opView ++
    (s.engines.filter fun e => decide (e.warp = w.id) && decide (e.id < id)).flatMap (·.views)

/-- Whether a VRET issued before a number has not completed (R252). -/
def vretPending (w : Warp) (id : Nat) : Bool :=
  (earlierOps w id).any fun o => match o.kind with
    | .viewRetire .. => true
    | .memory .. | .result .. | .ringClaim .. | .ringRelease .. | .keySet .. | .evict .. => false

/-- Whether a function reads only. -/
def MemFn.reads : MemFn → Bool
  | .load | .loadFull _ => true
  | .store | .storeFull | .atomic _ => false

/-- The peer that an access writes to over the fabric, or none (spec/20 R313, R314). -/
def peerWrite (fn : MemFn) (scope : Nat) (a : Acc) : Option Nat :=
  match a.place, fn with
  | .global k _, .store | .global k _, .storeFull => if isDirect k && decide (2 ≤ scope) then keyPeer k else none
  | .global k _, .atomic _ => if isDirect k then keyPeer k else none
  | .global .., .load | .global .., .loadFull _ | .scratch _, _ | .record _, _ | .lost, _ => none

/-- Whether an earlier operation has a write to a peer left to send. -/
def peerAhead (peer : Nat) (e : Op) : Bool :=
  match e.kind with
  | .memory fn _ scope accs _ _ => accs.any fun b => peerWrite fn scope b == some peer
  | .result .. | .viewRetire .. | .ringClaim .. | .ringRelease .. | .keySet .. | .evict .. => false

/-- Whether an access is a package-scope one (spec/20 R311). -/
def packageAcc (scope : Nat) (a : Acc) : Bool :=
  match a.place with
  | .global k _ => packageScope scope k
  | .scratch _ | .record _ | .lost => false

/-- Whether an access of a memory operation may be performed now: after every earlier access of the warp that overlaps it (R181); at
package scope after every earlier one of its thread (spec/20 R311); and a write to a peer after every earlier one of the warp to that peer
(R314). Accesses through views are not ordered otherwise (R184, spec/15 R250, R253). -/
def accReady (s : State) (w : Warp) (o : Op) (fn : MemFn) (scope n : Nat) (a : Acc) : Bool :=
  ((opView o).isSome || !((earlierOps w o.id).any fun e => (opView e).isNone &&
    (accBlocked s w n a e || (packageAcc scope a && wideLeft (ofAllThreads o) a.lane e)))) &&
  (match peerWrite fn scope a with
   | some p => !((earlierOps w o.id).any (peerAhead p))
   | none => true)

/-- Whether an earlier lane of the same word that writes the bytes of an access is still to be performed: lanes go in ascending order
(spec/08 R163, R164, spec/13 R229). -/
def laneHeldBy (s : State) (w : Warp) (fn : MemFn) (n : Nat) (left : List Acc) (a : Acc) : Bool :=
  !fn.reads && left.any fun b => placesOverlap s w a.place n b.place n

/-- Whether a memory operation as a whole is held: a write by a VRET (R252), an access through a view by those it meets (R253). -/
def memHeld (s : State) (w : Warp) (o : Op) (fn : MemFn) (v : Option Captured) : Bool :=
  (!fn.reads && vretPending w o.id) || (match v with | some c => (earlierViews s w o.id).any (viewsConflict c) | none => false)

/-- Whether every lane of an LDFE.CLR that names the granule of one can read it now: the granule is read and cleared in one step (R167,
R188). -/
def granuleReady (s : State) (w : Warp) (o : Op) (fn : MemFn) (scope n : Nat) (accs : List Acc) (a : Acc) : Bool :=
  match fn, a.place with
  | .loadFull true, .scratch off => accs.all fun b => match b.place with
    | .scratch q => granuleOf q != granuleOf off || accReady s w o fn scope n b
    | .global .. | .record _ | .lost => true
  | _, _ => true

/-! ### One access -/

/-- What performing one access comes to. -/
inductive LaneOut where
  | val (v : Nat)
  | wait
  | lost
  | poison
  deriving DecidableEq, Repr

/-- The digit a T1 element reads as: the access keeps its place in the byte, counted from 1 (spec/15 R250). -/
def tritOf (byte digit : Nat) : Nat :=
  if 243 ≤ byte then 0
  else match byte / 3 ^ (digit - 1) % 3 with
    | 0 => 0
    | 1 => 1
    | _ => 0xFFFFFFFF

/-- Whether some bytes of a scratchpad were written from uncorrectable data (spec/22 R346). -/
def spoiltAt (g : Gang) (off n : Nat) : Bool := g.spoilt.any fun i => decide (off ≤ i) && decide (i < off + n)

/-- A scratchpad access performed at its bank. -/
def performScratch (fn : MemFn) (n off : Nat) (a : Acc) (g : Gang) : LaneOut × Gang :=
  let old := ofBytes (ByteMap.readMany g.spad off n)
  let put (v : Nat) (x : Gang) : Gang :=
    { x with
      spad := ByteMap.writeMany x.spad off (bytesOf n v),
      spoilt := x.spoilt.filter fun i => decide (i < off) || decide (off + n ≤ i) }
  match fn with
  | .load => (if spoiltAt g off n then .poison else .val old, g)
  | .loadFull _ => if g.full.contains (granuleOf off) then (if spoiltAt g off n then .poison else .val old, g) else (.wait, g)
  | .store => (.val 0, put a.data g)
  | .storeFull =>
    let g1 := put a.data g
    (.val 0, { g1 with full := if g1.full.contains (granuleOf off) then g1.full else g1.full ++ [granuleOf off] })
  | .atomic op => if spoiltAt g off n then (.poison, g) else (.val old, put (atomNew op (8 * n) old a.data a.swap) g)

/-- Whether a line of the record that is not in the register file is read from a poisoned line (spec/22 R355). -/
def recordLost (s : State) (w : Warp) (t : TrapInfo) (off n : Nat) : Bool :=
  decide (0x1000 ≤ off) && (linesOut t.intr).contains ((off - 0x1000) / 128) &&
    (match keyIn s (rootFor s w) (t.intr.ctxp + BitVec.ofNat 64 off) with
     | some k => meetsPoison ((List.range n).map fun i => coreByte s w.core (k + i))
     | none => false)

/-- A context-space access performed in the record of the interrupted context (spec/10 R200). Against a pending write of the register it
names, a store comes before or after (spec/11 R212, log 5): after it, when it waits for the write to land. -/
def performRecord (s : State) (w : Warp) (fn : MemFn) (n off : Nat) (a : Acc) : LaneOut × State :=
  match w.trap with
  | none => (.val 0, s)
  | some t =>
    if fn = .store then
      if recordPending t off n && Config.freeBool s.freeCtr then (.wait, s) else
      let s1 := modWarp s w.id fun x => { x with trap := x.trap.map fun t1 => storeRecord x t1 off n a.data }
      (.val 0, bumpFree true (match (findWarp s1 w.id).bind (·.trap) with
        | some t1 => saveWords w t1 (off / 8) ((n + 7) / 8) s1
        | none => s1))
    else if recordLost s w t off n then (.poison, s)
    else (.val (ofBytes (recordBytes w t off n)), s)

/-- Whether packets of a die to a peer are on their way. -/
def streamOpen (s : State) (die : Nat) (k : Nat) : Bool := s.fabric.sent.any fun p => p.die == die && keyPeer k == some p.peer

/-- A doorbell's region, if a key lies in a doorbell page. -/
def doorOf (k : Nat) : Option Nat :=
  if isCached k || (keyPeer k).isSome then none
  else match areaOf k with
    | .doorbell r _ => some r
    | .memory | .slots .. | .block .. | .hole => none

/-- A global load. -/
def performLoad (s : State) (w : Warp) (n scope k : Nat) (a : Acc) : LaneOut × State :=
  if scope = 3 ∧ byPacket k ∧ streamOpen s (dieOfCore w.core) k then (.wait, s)
  else
    let r := loadBytes s w.core scope k n
    if r.2.1 then (.poison, r.2.2)
    else (.val (if a.data = 0 then ofBytes r.1 else tritOf (ofBytes r.1) a.data), r.2.2)

/-- The offset in the interrupted context's record of a location, if it lies there. -/
def recordOffset (s : State) (w : Warp) (t : TrapInfo) (k : Nat) : Option Nat :=
  (List.range 4).findSome? fun i =>
    match keyIn s (rootFor s w) (t.intr.ctxp + BitVec.ofNat 64 (4096 * i)) with
    | some p => if p ≤ k ∧ k < p + 4096 then some (4096 * i + (k - p)) else none
    | none => none

/-- A trap context's global store to the record of the interrupted context is one to that context too (spec/09 R181, R186, spec/10 R202);
of a register whose line is in the register file the record is stale (spec/05 R93). -/
def reachRecord (w : Warp) (k n v : Nat) (s : State) : State :=
  match w.trap with
  | none => s
  | some t =>
    match recordOffset s w t k with
    | none => s
    | some off =>
      if 0x1000 ≤ off ∧ (gAt t.intr ((off - 0x1000) / 128)).resident then s
      else modWarp s w.id fun x => { x with trap := x.trap.map fun t1 => storeRecord x t1 off n v }

/-- The definition of the view that an operation writes through, for the release of it (spec/15 R252). -/
def viaView (o : Op) : List Nat := (opView o).elim [] fun c => [c.dno]

/-- A global store, of a scope below system or to a host or this device. -/
def performStore (s : State) (w : Warp) (o : Op) (n scope k : Nat) (a : Acc) : State :=
  let bs := bytesOf n a.data
  reachRecord w k n a.data <|
    if scope = 0 then storeCore s w.core k bs (viaView o)
    else if scope = 1 then storeDie s w.core k bs (viaView o)
    else if scope = 3 ∧ isDirect k then backCells (flushHome w.core k n s) (dieOfCore w.core) (keyed k bs) false w.id (some o.id) a.lane
    else pkgIssue (flushHome w.core k n s) (dieOfCore w.core) k bs none 0 0 w.id (some o.id) a.lane

/-- A global atomic that does not travel by packet. -/
def performAtomic (s : State) (w : Warp) (o : Op) (op n scope k : Nat) (a : Acc) : LaneOut × State :=
  if 2 ≤ scope ∧ !isDirect k then
    (.val 0, pkgIssue (flushHome w.core k n s) (dieOfCore w.core) k (List.replicate n 0) (some op) a.data a.swap w.id (some o.id) a.lane)
  else
    let r := atomHome s w.core op k n a.data a.swap w.id (some o.id) a.lane
    if r.2.1 then (.poison, r.2.2) else (.val r.1, r.2.2)

/-- A doorbell's exchange: once every earlier package-scope write of the warp is at its home and at its die, where the command processor
reads the record after the causal past of the exchange (spec/20 R311, spec/22 R339). -/
def performDoor (s : State) (w : Warp) (door : Nat) (a : Acc) : LaneOut × State :=
  if s.mem.writes.any fun x => decide (x.warp = w.id) && !(x.home && bitAt x.applied (dieOfCore w.core)) then (.wait, s)
  else
    let root := (launchOf s w.id.seq).elim 0 (·.eff.ptRoot)
    let r := ringDoorbell s root (dieOfCore w.core) door (BitVec.ofNat 64 a.data)
    (.val r.1.toNat, modLaunch r.2 w.id.seq fun l => { l with rpl := false })

/-- Whether an access is performed at its location's home, or goes there as a package write: one that the die's narrower stores to the
bytes come before (spec/09 R181, R191). -/
def performedHome (fn : MemFn) (scope : Nat) : Bool :=
  match fn with
  | .atomic _ => true
  | .store | .storeFull => decide (2 ≤ scope)
  | .load | .loadFull _ => false

/-- A global access of a lane. -/
def performGlobal (s : State) (w : Warp) (o : Op) (fn : MemFn) (n scope k : Nat) (a : Acc) : LaneOut × State :=
  if travels s w.core (!fn.reads) (match fn with | .atomic _ => 3 | _ => scope) k n && !reachableKey s k then (.lost, s)
  else if accSettling s w.core scope (performedHome fn scope) k n then (.wait, s)
  else match fn with
    | .load | .loadFull _ => performLoad s w n scope k a
    | .store | .storeFull => (.val 0, performStore s w o n scope k a)
    | .atomic op =>
      match doorOf k with
      | some d => performDoor s w d a
      | none => performAtomic s w o op n scope k a

/-- Whether a read of the scratchpad meets a double-bit error (spec/22 R356, log 12). -/
def spoiledRead (s : State) (fn : MemFn) : Bool :=
  decide (nextStorage s = some .scratchpad) && fn != .store && fn != .storeFull

/-- One access performed. -/
def performAcc (s : State) (w : Warp) (o : Op) (fn : MemFn) (n scope : Nat) (a : Acc) : LaneOut × State :=
  match a.place with
  | .scratch off =>
    (match findGang s (gangOf w.id) with
     | some g =>
       if spoiledRead s fn then (.poison, passStorage 8 (dieOfCore w.core) s)
       else
         let r := performScratch fn n off a g
         (r.1, modGang s g.id fun _ => r.2)
     | none => (.val 0, s))
  | .record off => performRecord s w fn n off a
  | .lost => (.poison, s)
  | .global k _ => performGlobal s w o fn n scope k a

/-! ### The accesses of an operation -/

/-- Whether an access goes into a packet: a system-scope store, or an atomic, to a device. -/
def packetAcc (fn : MemFn) (scope : Nat) (a : Acc) : Bool :=
  match a.place, fn with
  | .global k _, .store => scope == 3 && byPacket k
  | .global k _, .atomic _ => byPacket k
  | .global .., .load | .global .., .loadFull _ | .global .., .storeFull | .scratch _, _ | .record _, _ | .lost, _ => false

/-- The peer of an access. -/
def accPeer (a : Acc) : Nat :=
  match a.place with
  | .global k _ => (keyPeer k).getD 0
  | .scratch _ | .record _ | .lost => 0

/-- A packet sent on its stream (spec/20 R313). -/
def sendPacket (s : State) (w : Warp) (o : Op) (fn : MemFn) (n peer : Nat) (accs : List Acc) : State :=
  let die := dieOfCore w.core
  sendOn s peer die fun seq =>
    { peer := peer, die := die, seq := seq, resends := 0, warp := w.id, op := some o.id, fn := fn, bytes := n, accs := accs,
      write := none }

/-- What performing some accesses of an operation has come to. -/
structure Progress where
  s : State
  left : List Acc
  vals : Lanes Nat
  lost : Mask
  poison : Mask
  deriving DecidableEq, Repr

/-- The bit of a lane. -/
def laneBit (l : Nat) : Mask := BitVec.ofNat 32 (2 ^ l)

/-- One access of an operation moved on. -/
def stepAcc (w : Warp) (o : Op) (fn : MemFn) (n scope : Nat) (accs : List Acc) (p : Progress) (a : Acc) : Progress :=
  if !accReady p.s w o fn scope n a || laneHeldBy p.s w fn n p.left a || !granuleReady p.s w o fn scope n accs a then { p with left := p.left ++ [a] }
  else
    let r := performAcc p.s w o fn n scope a
    match r.1 with
    | .val v => { p with s := r.2, vals := setLane p.vals a.lane v }
    | .wait => { p with s := r.2, left := p.left ++ [a] }
    | .lost => { p with s := r.2, lost := p.lost ||| laneBit a.lane }
    | .poison => { p with s := r.2, poison := p.poison ||| laneBit a.lane }

/-- Those of a word's accesses that go into packets which may be sent now, and those that are left, in lane order. -/
def packetsReady (s : State) (w : Warp) (o : Op) (fn : MemFn) (scope n : Nat) (accs : List Acc) : List Acc × List Acc :=
  accs.foldl (fun acc a =>
    let settles := match a.place with
      | .global k _ => accSettling s w.core scope true k n
      | .scratch _ | .record _ | .lost => false
    if accReady s w o fn scope n a && !laneHeldBy s w fn n acc.2 a && !settles then (acc.1 ++ [a], acc.2) else (acc.1, acc.2 ++ [a])) ([], [])

/-- Accesses that go into packets sent peer by peer; those whose peer does not answer are lost. -/
def sendAll (w : Warp) (o : Op) (fn : MemFn) (n : Nat) (p : Progress) (accs : List Acc) : Progress :=
  let down := accs.filter fun a => !reachable p.s (accPeer a)
  let up := accs.filter fun a => reachable p.s (accPeer a)
  let lostMask := down.foldl (fun m a => m ||| laneBit a.lane) p.lost
  { p with
    lost := lostMask,
    s := ((up.map accPeer).eraseDups).foldl (fun st peer =>
      let own := up.filter fun a => accPeer a == peer
      sendPacket (own.foldl (fun x a => match a.place with
        | .global k _ => flushHome w.core k n x
        | .scratch _ | .record _ | .lost => x) st) w o fn n peer own) p.s }

/-- The granules an LDFE.CLR has read are emptied, each once (spec/08 R167). -/
def clearGranules (w : Warp) (fn : MemFn) (done : List Acc) (s : State) : State :=
  match fn with
  | .loadFull true =>
    let gs := done.filterMap fun a => match a.place with
      | .scratch off => some (granuleOf off)
      | .global .. | .record _ | .lost => none
    modGang s (gangOf w.id) fun g => { g with full := g.full.filter fun x => !gs.contains x }
  | .loadFull false | .load | .store | .storeFull | .atomic _ => s

/-- The first failing lane's address. -/
def failVa (accs : List Acc) (m : Mask) : W64 := ((accs.find? fun a => a.lane == lowLane m).map (·.va)).getD 0

/-- The causes of the failed lanes (spec/10 R199). -/
def failLanes (w : Warp) (o : Op) (accs : List Acc) (lost poison : Mask) (s : State) : State :=
  let held (c : Cause) (m : Mask) (info : W64) : Held :=
    { cause := c, fpc := o.fpc, word := o.word, run := o.run, lanes := m, addr := failVa accs m, info := info }
  let s1 := if lost = 0 then s else holdCause s w.id (ofTrapCtx w o.id) (held .peerUnreachable lost 0)
  if poison = 0 then s1
  else holdCause s1 w.id (ofTrapCtx w o.id) (held .uncorrectableMemory poison (failVa accs poison))

/-- The accesses of a memory operation performed as far as they can be now. -/
def performMemory (s : State) (w : Warp) (o : Op) (fn : MemFn) (n scope : Nat) (accs : List Acc) (vals : Lanes Nat)
    (v : Option Captured) : State :=
  if memHeld s w o fn v then s
  else
    let packets := packetsReady s w o fn scope n (accs.filter (packetAcc fn scope))
    let p1 := sendAll w o fn n { s := s, left := packets.2, vals := vals, lost := 0, poison := 0 } packets.1
    let p2 := (accs.filter fun a => !packetAcc fn scope a).foldl (stepAcc w o fn n scope accs) p1
    let done := accs.filter fun a => !p2.left.contains a
    let s3 := clearGranules w fn done p2.s
    failLanes w o accs p2.lost p2.poison
      (modOp s3 w.id o.id fun x => { x with kind := .memory fn n scope p2.left p2.vals v })

/-! ### Landing -/

/-- Whether an operation returns a value: it has a counter of loads, or destinations. -/
def returns (o : Op) : Bool := o.counter == 1

/-- Whether a write of an operation still holds its completion: a returning atomic's only until the issuing die has applied it (spec/20
R310). -/
def writeHolds (o : Op) (x : PkgWrite) : Bool :=
  x.op == some o.id && x.pending && !(returns o && x.home && bitAt x.applied x.die)

/-- Whether an earlier access through a definition of a view register has not completed (R252). -/
def throughView (s : State) (w : Warp) (id reg dno : Nat) : Bool :=
  (earlierViews s w id).any fun c => c.reg == reg && c.dno == dno

/-- Whether a PEVICT still has a binding to evict: the one it named. -/
def evicts (s : State) (root : Nat) (table : W64) (slot gen : Nat) : Bool :=
  let x := entryAt s root table slot
  x.bound && x.gen == gen

/-- Whether an operation has nothing left to wait for. -/
def landable (s : State) (w : Warp) (o : Op) : Bool :=
  match o.kind with
  | .memory _ _ _ accs _ _ => accs.isEmpty && !(s.mem.writes.any (writeHolds o)) && !(s.fabric.sent.any fun p => p.op == some o.id)
  | .result .. | .ringClaim .. => true
  | .viewRetire reg dno scope published =>
    !throughView s w o.id reg dno && (scope == 0 || published.any fun ids => !publishing s ids)
  | .ringRelease _ => (earlierOps w o.id).all fun e => match e.kind with
    | .memory fn _ _ _ _ _ => opPerformed s e || !(fn.reads || !e.dsts.isEmpty || returns e)
    | .result .. | .viewRetire .. | .ringClaim .. | .ringRelease .. | .keySet .. | .evict .. => true
  | .keySet .. => true
  | .evict root table slot gen => !evicts s root table slot gen || evictable s root table slot

/-- The values an operation lands with. -/
def landVals (o : Op) : Lanes Nat :=
  match o.kind with
  | .memory _ _ _ _ vals _ => vals
  | .result vals _ => vals
  | .viewRetire .. | .ringClaim .. | .ringRelease .. | .keySet .. | .evict .. => noVals

/-- The sticky flags an operation raises. -/
def landFlags (o : Op) : Lanes (BitVec 5) :=
  match o.kind with
  | .result _ flags => flags
  | .memory .. | .viewRetire .. | .ringClaim .. | .ringRelease .. | .keySet .. | .evict .. => lanesOf fun _ => 0

/-- Whether an operation is an LD or LDX, whose k destination takes its one access's value (spec/08 R163). -/
def oneAccess (o : Op) : Bool :=
  match o.kind with
  | .memory .load _ _ _ _ none => true
  | .memory .. | .result .. | .viewRetire .. | .ringClaim .. | .ringRelease .. | .keySet .. | .evict .. => false

/-- A g register's lanes landed. -/
def landG (n : Nat) (lanes : Mask) (f : Nat → W32) (c : Ctx) : Ctx :=
  let r := gAt c n
  setGReg c n { r with val := lanesOf fun l => if bitAt lanes l then f l else lane r.val l }

/-- One destination written; a k register only when the values of all lanes are equal (spec/05 R90). -/
def landDst (run : Mask) (one : Bool) (vals : Lanes Nat) (c : Ctx) (d : Dst) : Ctx :=
  if d.lanes = 0 then c
  else match d.reg with
    | .g n => (List.range d.count).foldl (fun x i =>
        landG (n + i) d.lanes (fun l => BitVec.ofNat 32 (lane vals l / 2 ^ (32 * (d.part + i)))) x) c
    | .k n => if one || uniform run (lane vals) then setKReg c n (BitVec.ofNat 64 (lane vals (lowLane run))) else c
    | .p n => setPredMask c n d.lanes (maskOf fun l => lane vals l % 2 == 1)

/-- Whether a k destination finds its values unequal, a later write of the register or none (spec/05 R90). -/
def landMixed (run : Mask) (one : Bool) (vals : Lanes Nat) (ds : List Dst) : Bool :=
  !one && !uniform run (lane vals) && ds.any fun d => match d.reg with
    | .k _ => true
    | .g _ | .p _ => false

/-- The flag and the counter of a completed operation (spec/04 R72, spec/08 R161): the flags of scratchpad words clear when sp
reaches zero. -/
def settleCounts (o : Op) (c : Ctx) : Ctx :=
  if o.counter = 3 then
    let c1 := modCounter c 3 (· - 1)
    if c1.sp = 0 then { c1.spFlags.foldl (fun x f => dropFlag x (some f)) c1 with spFlags := [] } else c1
  else dropFlag (modCounter c o.counter (· - 1)) o.flag

/-- A context after an operation of it has landed. -/
def landCtx (o : Op) (c : Ctx) : Ctx :=
  let c1 := o.dsts.foldl (landDst o.run (oneAccess o) (landVals o)) (raiseFp o.run (lane (landFlags o)) c)
  let c2 := settleCounts o c1
  { c2 with ops := c2.ops.filter fun x => decide (x.id ≠ o.id), haz := c2.haz.filter fun z => decide (z.op ≠ some o.id) }

/-- The effect an operation has when it completes. -/
def landEffect (w : Warp) (o : Op) (s : State) : State :=
  match o.kind with
  | .viewRetire .. => modWarp s w.id (modHolder o.id fun c => { c with vrets := c.vrets - 1 })
  | .ringRelease es => releaseEntries es s
  | .keySet group index remove key =>
    let others := s.fabric.keys.filter fun e => decide (e.1 ≠ (group, index))
    { s with fabric := { s.fabric with keys := if remove then others else others ++ [((group, index), key)] } }
  | .evict root table slot gen =>
    if evicts s root table slot gen then evictSlot root table slot s else s
  | .memory .. | .result .. | .ringClaim .. => s

/-- The lines of an interrupted context that a DEACT has deactivated written and freed as their writes land (spec/10 R209). -/
def leaveIntr (x : Warp) (t : TrapInfo) (s : State) : State :=
  if !t.deact || (writtenLines t.intr).isEmpty then s
  else
    let t1 := { t with intr := writeBack t.intr }
    let y := { x with trap := some t1 }
    saveStatus y t1 (saveLines y t1 (writtenLines t.intr) (modWarp s x.id fun _ => y))

/-- A warp that is being deactivated (spec/05 R101, spec/15 R245): the lines whose writes have landed go to its record, and when
nothing keeps it in the register file any more it is deactivated. -/
def leaveOn (w : WarpId) (s : State) : State :=
  match findWarp s w with
  | none => s
  | some x =>
    match x.trap with
    | some t => leaveIntr x t s
    | none =>
      if !x.leaving then s
      else
        let c := writeBack x.ctx
        let y := { x with ctx := c, res := mustStay c, leaving := mustStay c }
        let s1 := saveLines y (plainTrap c) (writtenLines x.ctx) (modWarp s w fun _ => y)
        if mustStay c then s1 else saveHeader y (plainTrap c) s1

/-- The g registers an operation writes. -/
def landLines (o : Op) : List Nat := (o.dsts.flatMap dstRegs).filterMap fun r => match r with
  | .g n => some n
  | .k _ | .p _ => none

/-- An operation's results written, its flag and its counter settled; a record that is current follows (spec/05 R93, R101). -/
def landResults (w : Warp) (o : Op) (s : State) : State :=
  leaveOn w.id (refreshRecord w.id (landLines o) (sweepDeckle w.core (modWarp s w.id (modHolder o.id (landCtx o)))))

/-- A cause that an operation raises as it lands. -/
def landCause (c : Cause) (o : Op) : Held :=
  { cause := c, fpc := o.fpc, word := o.word, run := o.run, lanes := o.run, addr := 0, info := 0 }

/-- An operation landed (spec/05 R90, spec/10 R201). -/
def landOp (w : Warp) (o : Op) (s : State) : State :=
  let mixed := landMixed o.run (oneAccess o) (landVals o) o.dsts
  let s2 := landResults w o (landEffect w o s)
  if mixed then holdCause s2 w.id (ofTrapCtx w o.id) (landCause .nonuniformOperand o) else s2

/-! ### The compare of results that return (spec/05 R105, R107, log 12) -/

/-- Whether the two copies of the results of an operation are compared as they return: an SFU word's or a load's, in check mode. -/
def comparesLate (s : State) (w : Warp) (o : Op) : Bool := w.check && (nextUpset s).late && !o.dsts.isEmpty

/-- An operation whose two results differ: once, they come again equal; twice, CHECK_MISMATCH, and nothing is written. -/
def landUpset (w : Warp) (o : Op) (s : State) : State :=
  let s1 := dropUpset s
  if (nextUpset s).fails = 0 then landOp w o s1
  else
    let s2 := countReissueOn w.core s1
    if (nextUpset s).fails = 1 then landOp w o s2
    else holdCause (landResults w { o with dsts := [], kind := .result noVals (lanesOf fun _ => 0) } (countMismatchOn w.core s2)) w.id
      (ofTrapCtx w o.id) (landCause .checkMismatch o)

/-- An operation found in a warp. -/
def findOp (s : State) (w : WarpId) (op : Nat) : Option (Warp × Op) :=
  match findWarp s w with
  | none => none
  | some x => ((warpOps x).find? fun o => decide (o.id = op)).map fun o => (x, o)

/-- What was written through a definition of a view brought to the scope of its VRET (R252): the core's stores to the die, those of the
die as package writes. What the completion then waits for are the writes on their way; none while a byte waits for an earlier value of it. -/
def releaseView (s : State) (w : Warp) (dno scope : Nat) : Option (List Nat) × State :=
  if scope = 1 then
    let s1 := l1FlushKeys w.core (dirtyL1Via s w.core (some dno)) s
    (if (dirtyL1Via s1 w.core (some dno)).isEmpty then
       some ((s1.mem.l1.filter fun e => decide (e.1 / 2 ^ 68 = w.core)).filterMap fun e => e.2.sent)
     else none, s1)
  else
    let s1 := publishVia s w.core w.id (some dno)
    (some (publishedWrites s1 (dieOfCore w.core)), s1)

/-- What can be performed of an operation is performed. -/
def performOp (s : State) (w : Warp) (o : Op) : State :=
  match o.kind with
  | .memory fn n scope accs vals v => if accs.isEmpty then s else performMemory s w o fn n scope accs vals v
  | .viewRetire reg dno scope none =>
    if scope = 0 || throughView s w o.id reg dno then s
    else
      let r := releaseView s w dno scope
      modOp r.2 w.id o.id fun x => { x with kind := .viewRetire reg dno scope r.1 }
  | .ringClaim rings =>
    let r := claimLanes w.core (lane rings) (lanesIn o.run) (noVals, s)
    modOp r.2 w.id o.id fun x => { x with kind := .result r.1 (lanesOf fun _ => 0) }
  | .evict root table slot gen =>
    if evicts s root table slot gen && !slotBusy s root table slot then evictPages root table slot s else s
  | .viewRetire _ _ _ (some _) | .result .. | .ringRelease .. | .keySet .. => s

/-- An operation moved on: its accesses are performed as far as they can be, and it lands when nothing is left. A warp whose die is
saved goes on when it is restored (spec/02 R43). -/
def completeOp (s : State) (w : WarpId) (op : Nat) : State :=
  match findOp s w op with
  | none => s
  | some (x, o) => if s.mgmt.saved.contains (dieOfCore x.core) then s else
    let s1 := performOp s x o
    match findOp s1 w op with
    | none => s1
    | some (y, o1) => if landable s1 y o1 then (if comparesLate s1 y o1 then landUpset y o1 s1 else landOp y o1 s1) else s1

/-- OPERATION_COMPLETE. -/
def execOperationComplete (w : WarpId) (op : Nat) (s : State) : Outcome State Fault Refusal := .next (completeOp s w op)

end Sys2Proof.Machine
end

