-- ==== Sys2Proof/Machine/Sync.lean ====
section
/-! DEFINITION. Counter and timeline waits, barrier registers and grid barriers (spec/08 R169 to R176, spec/12 R214). -/

namespace Sys2Proof.Machine

open Host (Outcome)

/-- CWAIT (R169): which counter stands in bits 23:22, n in bits 15:0. -/
def execCwait (f : XW) (s : State) : Outcome State Fault Refusal :=
  runWord (.cwait f) f.dist (fun _ s =>
    let which := fld f.f.toNat 23 22
    let n := fld f.f.toNat 15 0
    if counterOf (ctxOf s) (which + 1) ≤ n then .done s else .hold s (.counter which n)) s

/-- The value TWAIT waits for (R170): the largest over the running lanes. -/
def twaitValue (s : State) (run : Mask) (f : XW) : Nat :=
  if bitAt f.f 21 then f.t.toNat else (lanesIn run).foldl (fun m l => max m (read64 s (xReg f 14) l).toNat) 0

/-- TWAIT. -/
def execTwait (f : XW) (s : State) : Outcome State Fault Refusal :=
  runWord (.twait f) f.dist (fun run s =>
    let which := fld f.f.toNat 23 22
    let v := twaitValue s run f
    reading s run (if bitAt f.f 21 then [] else [{ reg := xReg f 14, width := 64, last := false }]) fun s1 =>
      if v ≤ (tcAt s1.gang which).value then .done s1 else .hold s (.timeline which v)) s

/-- The barrier a word names: bits 23:20. -/
def barField (f : XW) : Nat := fld f.f.toNat 23 20

/-- BAR.INIT (R173). -/
def execBarInit (f : XW) (s : State) : Outcome State Fault Refusal :=
  runWord (.barInit f) f.dist (fun _ s =>
    let m := fld f.f.toNat 19 14
    .done (putBar s s.gang.id (barField f) { Bar.zero with members := m, pending := m })) s

/-- The bytes an arrival announces (R172). -/
def arriveBytes (s : State) (run : Mask) (f : XW) : Nat :=
  if bitAt f.f 19 then f.t.toNat else (read64 s (xReg f 12) (lowLane run)).toNat

/-- BAR.ARRIVE (R173, R174): a release, applied once the warp's earlier accesses have been performed. -/
def execBarArrive (f : XW) (s : State) : Outcome State Fault Refusal :=
  runWord (.barArrive f) f.dist (fun run s =>
    let n := arriveBytes s run f
    reading s run (if bitAt f.f 19 then [] else [{ reg := xReg f 12, width := 64, last := false }]) fun s1 =>
      if 2 ^ 47 ≤ n then raiseAt s .barrierMisuse run
      else if !allPerformed s1 then .hold s .earlier
      else match arriveBar n (barAt s1.gang (barField f)) with
        | none => raiseAt s .barrierMisuse run
        | some b => .done (putBar s1 s1.gang.id (barField f) b)) s

/-- BAR.WAIT (R174): met when the phase differs, or when the phase waited for has completed meanwhile. -/
def execBarWait (f : XW) (s : State) : Outcome State Fault Refusal :=
  runWord (.barWait f) f.dist (fun _ s =>
    let ph := bitAt f.f 19
    if (ctxOf s).met || (barAt s.gang (barField f)).phase != ph then .done s
    else .hold s (.barrier (barField f) ph)) s

/-- Some threads wait at a grid barrier while others of the warp go on (R175): those of the group that did not run the word
go on with the segment; else the other groups take a boundary. -/
def suspendGroup (s : State) (n : Nat) (run : Mask) : State :=
  modCtx s fun c =>
    let x : Suspended := { bar := n, lanes := run, npc := c.npc + 1, segh := c.segh, seg := c.seg, blocks := c.blocks.tail,
                           released := false }
    let rest := groupMask c &&& ~~~run
    let c1 := { c with pcs := lanesOf fun t => if bitAt run t then c.npc + 1 else lane c.pcs t, suspended := c.suspended ++ [x] }
    if rest = 0 then endSegment c1
    else { c1 with active := rest, npc := c.npc + 1, blocks := c.blocks.tail, wait := .none, met := false }

/-- The threads of the warp that have run this barrier since its last arrival there. -/
def waitingAt (c : Ctx) (n : Nat) : Mask :=
  c.suspended.foldl (fun m x => if x.bar = n ∧ !x.released then m ||| x.lanes else m) 0

/-- The warp arrives with the issuing group, which then waits for the phase (R175, R176). -/
def arriveGroup (s : State) (n : Nat) : Res :=
  match releaseStage s with
  | (some w, s1) => .hold s1 w
  | (none, s1) =>
    let s2 := gridArrive s1 n
    if (arrivedAt s2.launch n).contains s2.warp.id then
      .went (holdWarp (advance s2) (.gridBarrier n))
    else .done s2

/-- GBAR (R175, R176, R34). -/
def execGbar (f : XW) (s : State) : Outcome State Fault Refusal :=
  runWord (.gbar f) f.dist (fun run s =>
    let n := barField f
    if s.launch.gbars ≤ n then raiseAt s .barrierMisuse run
    else if isContGang s.warp.id.gang then raiseAt s .continuationGbar run
    else if liveThreads (ctxOf s) &&& ~~~(run ||| waitingAt (ctxOf s) n) = 0 then arriveGroup s n
    else .went (suspendGroup s n run)) s

end Sys2Proof.Machine
end

