-- ==== Sys2Proof/Machine/Control.lean ====
section
/-! DEFINITION. Control words: terminators, calls and the call area, meeting points, predicate blocks, software traps,
continuations and deactivation (spec/06 R120 to R131, spec/04 R66, R76, R77, spec/10 R209). -/

namespace Sys2Proof.Machine

open Host (Outcome)

/-! ### Successors -/

/-- The word address a target field names: H + 1 + LENGTH + offset (spec/04 R66). -/
def target (c : Ctx) (off : BitVec 24) : WAddr := c.segh + 1 + c.seg.length.setWidth 54 + off.signExtend 54

/-- The running threads take their successors, and the segment ends (R121). -/
def succeed (run : Mask) (f : Nat → WAddr) (s : State) : Res :=
  .went (modCtx s fun c => endSegment { c with pcs := lanesOf fun t => if bitAt run t then f t else lane c.pcs t })

/-- GOTO (R122). -/
def execGoto (f : XW) (s : State) : Outcome State Fault Refusal :=
  runWord (.goto f) f.dist (fun run s => succeed run (fun _ => target (ctxOf s) f.t) s) s

/-- BRC (R122). -/
def execBrc (f : XW) (s : State) : Outcome State Fault Refusal :=
  runWord (.brc f) f.dist (fun run s =>
    let p := f.pred.toNat
    let c := ctxOf s
    succeed run (fun t => if readP s p t != f.neg then target c f.t else target c f.f) (afterPred s run p)) s

/-- Whether a 64-bit word address has bits 63:54 all equal to bit 53 (R123). -/
def wordAddrOk (w : W64) : Bool := slice w 54 10 == (if bitAt w 53 then 0x3FF else 0)

/-- BRX (R123). The ADDR of its NONCANONICAL is 0: what fails is a word address, not a VA (DESIGN CHOICE, log 53). -/
def execBrx (f : XW) (s : State) : Outcome State Fault Refusal :=
  runWord (.brx f) f.dist (fun run s =>
    let w := fun t => read64 s (xReg f 0) t
    reading s run [{ reg := xReg f 0, width := 64, last := bitAt f.f 7 }] fun s1 =>
      if (lanesIn run).any fun t => !wordAddrOk (w t) then raiseAt s .noncanonical run
      else succeed run (fun t => (w t).setWidth 54) s1) s

/-- The running threads exit (R124). -/
def exitThreads (run : Mask) (s : State) : Res := .went (modCtx s fun c => endSegment { c with exited := c.exited ||| run })

/-- EXIT. -/
def execExit (f : XW) (s : State) : Outcome State Fault Refusal := runWord (.exit f) f.dist exitThreads s

/-- YIELD (R122): as GOTO; the warp loses stickiness and is the least recently issued. -/
def execYield (f : XW) (s : State) : Outcome State Fault Refusal :=
  runWord (.yield f) f.dist (fun run s =>
    succeed run (fun _ => target (ctxOf s) f.t) { s with warp := { s.warp with yielded := true, lastIssue := 0 } }) s

/-! ### The call area (R125) -/

/-- A word of a call area, as the core's L1 gives it (spec/09 R186); 0 where its page is not there. -/
def areaWord (s : State) (va : W64) : W64 :=
  match areaKey s va with
  | some k => BitVec.ofNat 64 (ofBytes ((List.range 8).map fun i => (coreByte s s.warp.core (k + i)).1))
  | none => 0

/-- Whether a word of a call area is read from a poisoned line (spec/22 R355). -/
def areaLost (s : State) (va : W64) : Bool :=
  match areaKey s va with
  | some k => meetsPoison ((List.range 8).map fun i => coreByte s s.warp.core (k + i))
  | none => false

/-- Bytes of a call area written by the core, at its L1. -/
def areaWrite (va : W64) (n : Nat) (v : Nat) (s : State) : State :=
  match areaKey s va with
  | some k => storeCore s s.warp.core k (bytesOf n v) []
  | none => s

/-- The first of some words of a call area that is read from a poisoned line raises UNCORRECTABLE_MEMORY. -/
def areaRead (s0 s : State) (run : Mask) (vas : List W64) (k : Res) : Res :=
  match vas.find? (areaLost s) with
  | some va => .raise s0 { cause := .uncorrectableMemory, lanes := run, addr := va, info := va }
  | none => k

/-- The address of DEPTHt. -/
def depthVa (csp : W64) (t : Nat) : W64 := csp + BitVec.ofNat 64 (4 * t)
/-- The address of RADDRt at a level. -/
def raddrVa (csp : W64) (lev t : Nat) : W64 := csp + BitVec.ofNat 64 (0x200 + 512 * lev + 16 * t)

/-- DEPTHt; 0 without a call area. -/
def depthOf (s : State) (csp : W64) (t : Nat) : Nat :=
  if csp = 0 then 0 else (areaWord s (depthVa csp t)).toNat % 32

/-- SMV and SMEET as stored. -/
def savedMeet (c : Ctx) (t : Nat) : W64 := bit (bitAt c.mv t) ++ (0 : BitVec 9) ++ lane c.meet t

/-- The call area a CALL uses: the one the warp holds, or a slot of its pool, or, in trap mode, a record of the trap pool
(R125, spec/10 R198). -/
inductive Area0 where
  | at (csp : W64) (s : State)
  | noSlot
  | noRecord
  deriving DecidableEq, Repr

/-- The fresh call area's DEPTH words and the zeros after them (R125). -/
def clearDepths (csp : W64) (s : State) : State := saveBytes csp (List.replicate 0x200 0) s

/-- The call area, taken at the warp's first CALL. -/
def callArea (s : State) : Area0 :=
  if (ctxOf s).csp ≠ 0 then .at (ctxOf s).csp s
  else match s.warp.trap with
    | some t =>
      (match freeRecord s with
       | some i =>
         let va := recordVa s i
         .at va (clearDepths va (modCtx { s with warp := { s.warp with trap := some { t with callRecord := some i } } }
           fun c => { c with csp := va }))
       | none => .noRecord)
    | none =>
      match takeSlot s s.launch (fromReservation s.launch s.warp.id) with
      | some i =>
        let va := slotVa s.launch i
        .at va (clearDepths va (modCtx { s with warp := { s.warp with callSlot := some i } } fun c => { c with csp := va }))
      | none => .noSlot

/-- A page of the call area is missing: the warp waits for it (spec/05 R98); in a trap pool that is a double fault
(spec/10 R197). -/
def areaFault (s0 : State) (va : W64) : Res :=
  if trapMode s0 then .went (doubleFault s0 .contextPage) else .hold s0 (.contextPage va)

/-- The level that CALL pushes for one thread (R126). -/
def pushLevel (c : Ctx) (csp : W64) (ret : WAddr) (s : State) (t : Nat) : State :=
  let lev := depthOf s csp t
  let s1 := areaWrite (raddrVa csp lev t) 8 ret.toNat s
  let s2 := areaWrite (raddrVa csp lev t + 8) 8 (savedMeet c t).toNat s1
  areaWrite (depthVa csp t) 4 (lev + 1) s2

/-- The pages a CALL or RET touches at the levels its threads are at. -/
def areaVas (s : State) (csp : W64) (run : Mask) (below : Nat) : List W64 :=
  csp :: (lanesIn run).map fun t => raddrVa csp (depthOf s csp t - below) t

/-- CALL (R126). -/
def execCall (f : XW) (s : State) : Outcome State Fault Refusal :=
  runWord (.call f) f.dist (fun run s =>
    match callArea s with
    | .noSlot => .hold s .contextSlot
    | .noRecord => raiseAt s .trapPoolEmpty run
    | .at csp s1 =>
      match firstUnmapped s1 [csp] with
      | some va => areaFault s va
      | none =>
        areaRead s s1 run ((lanesIn run).map (depthVa csp)) <|
        if (lanesIn run).any fun t => decide (depthOf s1 csp t = 31) then raiseAt s .callDepth run
        else match firstUnmapped s1 (areaVas s1 csp run 0) with
          | some va => areaFault s va
          | none =>
            let c := ctxOf s1
            succeed run (fun _ => target c f.t) ((lanesIn run).foldl (pushLevel c csp (target c f.f)) s1)) s

/-- One thread's level popped (R126): its meeting register restored. -/
def popMeet (s : State) (csp : W64) (run : Mask) (c : Ctx) : Ctx :=
  let saved := fun t => areaWord s (raddrVa csp (depthOf s csp t - 1) t + 8)
  { c with
    mv := maskOf fun t => if bitAt run t then bitAt (saved t) 63 else bitAt c.mv t,
    meet := lanesOf fun t => if bitAt run t then (saved t).setWidth 54 else lane c.meet t }

/-- RET (R126). -/
def execRet (f : XW) (s : State) : Outcome State Fault Refusal :=
  runWord (.ret f) f.dist (fun run s =>
    let csp := (ctxOf s).csp
    match (if csp = 0 then none else firstUnmapped s [csp]) with
    | some va => areaFault s va
    | none =>
      areaRead s s run (if csp = 0 then [] else (lanesIn run).map (depthVa csp)) <|
      if (lanesIn run).any fun t => decide (depthOf s csp t = 0) then raiseAt s .callEmpty run
      else match firstUnmapped s (areaVas s csp run 1) with
        | some va => areaFault s va
        | none =>
          areaRead s s run ((lanesIn run).flatMap fun t =>
            [raddrVa csp (depthOf s csp t - 1) t, raddrVa csp (depthOf s csp t - 1) t + 8]) <|
          let back := fun t => (areaWord s (raddrVa csp (depthOf s csp t - 1) t)).setWidth 54
          let s1 := (lanesIn run).foldl (fun st t => areaWrite (depthVa csp t) 4 (depthOf st csp t - 1) st) s
          succeed run back (modCtx s1 (popMeet s csp run))) s

/-! ### Words that are no terminators -/

/-- MEET (R127). -/
def execMeet (f : XW) (s : State) : Outcome State Fault Refusal :=
  runWord (.meet f) f.dist (fun run s =>
    .done (modCtx s fun c =>
      { c with mv := c.mv ||| run, meet := lanesOf fun t => if bitAt run t then target c f.t else lane c.meet t })) s

/-- Whether the word at a place is a PB. -/
def isPb (s : State) (p : WAddr) : Bool :=
  match fetchWord s p with
  | .word w => slice w 61 3 == 5 && slice w 52 6 == 0x11
  | .bad _ | .wait _ | .hole _ => false

/-- Whether the n words after a PB include the terminator or another PB (spec/04 R77). -/
def prefixBad (s : State) (n : Nat) : Bool :=
  let c := ctxOf s
  decide (c.seg.length.toNat ≤ (c.npc - c.segh).toNat + n) ||
    (List.range n).any fun i => isPb s (c.npc + 1 + BitVec.ofNat 54 i)

/-- PB (spec/04 R76, R77): samples the predicate, and sets which threads run the next words. -/
def execPb (f : XW) (s : State) : Outcome State Fault Refusal :=
  runWord (.pb f) f.dist (fun run s =>
    let n := fld f.f.toNat 15 12
    let p := f.pred.toNat
    if prefixBad s n then raiseAt s .illegalPrefix run
    else
      let v := maskOf fun t => readP s p t != f.neg
      .went (modCtx (advance (afterPred s run p)) fun c =>
        { c with blocks := (List.range n).map fun i => if bitAt f.f (16 + i) then v else ~~~v })) s

/-- NOP (R128), and the paired word with both slots empty (spec/04 R74). -/
def execNop (f : XW) (paired : Bool) (s : State) : Outcome State Fault Refusal := runWord (.nop f paired) f.dist (fun _ s => .done s) s

/-- TRAP n (R128): the group's PCs name the next word. -/
def execTrap (f : XW) (s : State) : Outcome State Fault Refusal :=
  runWord (.trap f) f.dist (fun run s =>
    let fpc := (ctxOf s).npc
    let t := takeCause (advance s) 0 fpc (wordOf (.trap f)) run
      { cause := .software (f.f.setWidth 4), lanes := run, addr := 0, info := 0 }
    if awaitsRecord t then .hold s (ctxOf t).wait else .went t) s

/-! ### Continuations (R129) -/

/-- The entry of a record: the target less the object's first word, modulo 2^32. -/
def contEntry (s : State) (f : XW) : W32 := (target (ctxOf s) f.t - (s.launch.codeBase >>> 3).setWidth 54).setWidth 32

/-- The records of the threads of a list emitted in turn; what is left when no staging slot is free. -/
def emitRecords (s0 : State) (f : XW) : List Nat → State → List Nat × State
  | [], s => ([], s)
  | t :: ts, s =>
    match stageRoom s s.launch with
    | none => (t :: ts, s)
    | some room =>
      let first := (xReg f 10).toNat
      let args := (List.range (fld f.f.toNat 9 6)).map fun i => readG s0 (first + i) t
      emitRecords s0 f ts (stageRecord s (contEntry s0 f) (read32 s0 (xReg f 17) t) args room)

/-- The sources of a continuation word. -/
def contUses (f : XW) : List Use :=
  { reg := xReg f 17, width := 32, last := false } ::
    (List.range (fld f.f.toNat 9 6)).map fun i => { reg := xReg f 10 + BitVec.ofNat 7 i, width := 32, last := false }

/-- A continuation word: its records, then what follows; a word that waited emits only those not yet emitted. -/
def contWord (f : XW) (run : Mask) (s : State) (k : State → Res) : Res :=
  if !s.launch.contOk then raiseAt s .continuationOff run
  else reading s run (contUses f) fun s1 =>
    let r := emitRecords s f (lanesIn (run &&& ~~~s.warp.emitted)) s1
    if r.1.isEmpty then k { r.2 with warp := { r.2.warp with emitted := 0 } }
    else
      let left := maskOf fun t => r.1.contains t
      .hold { r.2 with warp := { r.2.warp with emitted := run &&& ~~~left } } .contextSlot

/-- CONT. -/
def execCont (f : XW) (s : State) : Outcome State Fault Refusal :=
  runWord (.cont f) f.dist (fun run s => contWord f run s .done) s

/-- CONTX: the exits take effect with the last record. -/
def execContx (f : XW) (s : State) : Outcome State Fault Refusal :=
  runWord (.contx f) f.dist (fun run s => contWord f run s (exitThreads run)) s

/-! ### Deactivation -/

/-- The interrupted context deactivated (spec/10 R209): its lines without a write in flight and its header go to its record, and its
Deckle entries are freed. -/
def deactTrap (t : TrapInfo) (s : State) : State :=
  let t1 := { t with deact := true, intr := writeBack t.intr }
  let s1 := { s with warp := { s.warp with trap := some t1 } }
  releaseViews s.warp.id s.warp.core t.intr (saveHeader s1.warp t1 (saveLines s1.warp t1 (writtenLines t.intr) s1))

/-- DEACT (spec/10 R209): the interrupted context's lines go to its record, and TRET leaves the warp dormant. -/
def execDeact (f : XW) (s : State) : Outcome State Fault Refusal :=
  runWord (.deact f) f.dist (fun run s =>
    match s.warp.trap with
    | none => raiseAt s .privileged run
    | some t =>
      if t.deact then .done s
      else match firstUnmapped s (recordPages t.intr.ctxp) with
        | some va => .hold s (.contextPage va)
        | none => .done (deactTrap t s)) s

end Sys2Proof.Machine
end

