-- ==== Sys2Proof/Machine/System.lean ====
section
/-! DEFINITION. The S words of trap mode: CTXLD, CTXST, TRET, CSRR, CSRW, TLBI, PBIND, PUNBIND, PEVICT, MPRGW, KEYSET (spec/10
R204 to R208, spec/13 R233, R234, spec/20 R330). -/

namespace Sys2Proof.Machine

open Host (Outcome)

/-- An S word's effect on the trap of the issuing warp; outside trap mode the word is privileged (R204). -/
def withTrap (s : State) (run : Mask) (k : TrapInfo → Res) : Res :=
  match s.warp.trap with
  | some t => k t
  | none => raiseAt s .privileged run

/-- A source without a last-read bit. -/
def useS (r : BitVec 7) (w : Nat) : Use := { reg := r, width := w, last := false }

/-! ### CTXLD and CTXST (R205) -/

/-- The record page a copy of a register needs and that is not mapped. -/
def copyPage (s : State) (c : Ctx) (sel : Nat) : Option W64 :=
  if sel < 96 ∧ (gAt c sel).live ≠ 0 ∧ (gAt c sel).resident = false then firstUnmapped s [gVa c sel] else none

/-- The selected register can be copied now: its pending write has landed and its page is there; a line that is not in the register
file is read from the record, which may be poisoned (spec/22 R355). -/
def copying (s0 : State) (run : Mask) (t : TrapInfo) (sel : Nat) (k : Res) : Res :=
  if bitAt (pendBits t.intr) sel then .hold s0 (.pending sel)
  else match copyPage s0 t.intr sel with
    | some va => .hold s0 (.contextPage va)
    | none =>
      if decide (sel < 96) && decide ((gAt t.intr sel).live ≠ 0) && !(gAt t.intr sel).resident && lineLost s0 t.intr sel then
        .raise s0 { cause := .uncorrectableMemory, lanes := run, addr := gVa t.intr sel, info := gVa t.intr sel }
      else k

/-- The value of an interrupted register in a lane. -/
def intrValue (c : Ctx) (sel l : Nat) : Nat :=
  if sel < 96 then (if bitAt (gAt c sel).live l then (lane (gAt c sel).val l).toNat else 0) else (kAt c (sel - 96)).toNat

/-- The width of a selected register. -/
def selWidth (sel : Nat) : Nat := if sel < 96 then 32 else 64

/-- CTXLD: the result lands later. -/
def execCtxld (f : SW) (s : State) : Outcome State Fault Refusal :=
  runWord (.ctxld f) f.dist (fun run s =>
    withTrap s run fun t =>
      let sel := f.mid.toNat
      copying s run t sel <| roomed [] <|
        issueLater s s (.ctxld f) run 0 f.hi (selWidth sel)
          (.result (lanesOf fun l => intrValue t.intr sel l) (lanesOf fun _ => 0))) s

/-- CTXST: written before the trap context goes on. -/
def execCtxst (f : SW) (s : State) : Outcome State Fault Refusal :=
  runWord (.ctxst f) f.dist (fun run s =>
    withTrap s run fun t =>
      let sel := f.mid.toNat
      reading s run [useS f.hi (selWidth sel)] fun s1 =>
        copying s run t sel <|
          if sel < 96 then
            if lineRoom s1 1 then .done (modIntr s1 (storeG sel run fun l => read32 s f.hi l)) else .hold s .lineBudget
          else if uniform run fun l => (read64 s f.hi l).toNat then
            .done (saveIntr (0x100 + (sel - 96)) 1 (modIntr s1 fun c => setKReg c (sel - 96) (read64 s f.hi (lowLane run))))
          else raiseAt s .nonuniformOperand run) s

/-! ### CSRR and CSRW (R206, spec/05 R92) -/

/-- The word of a barrier register (spec/08 R171). -/
def barWord (b : Bar) : W64 :=
  bit b.phase ++ bit b.ann ++ BitVec.ofNat 6 b.members ++ BitVec.ofNat 6 b.pending ++ (0 : BitVec 2) ++ BitVec.ofInt 48 b.balance

/-- The energy count of the issuing warp's region on its die, as a signed word (spec/18 R301). -/
def energyWord (s : State) : W64 :=
  match budgetOf s s.launch.region with
  | some b => w64 (b.counts.getD (myDie s) 0)
  | none => 0

/-- The value of a CSR of the interrupted context. -/
def csrValue (s : State) (t : TrapInfo) (n lane_ : Nat) : W64 :=
  let c := t.intr
  if n = 1 then c.nbv.setWidth 64
  else if n = 2 then c.mst
  else if n = 3 then energyWord s
  else if n = 4 then bit s.warp.check |>.setWidth 64
  else if n = 5 then (lane c.fpst lane_).setWidth 64
  else if n = 6 then wstatWord s.warp c (s.warp.res && (!t.deact || holdsLines c)) false
  else if n < 0x20 then barWord (barAt s.gang (n - 0x10))
  else BitVec.ofNat 64 (tcAt s.gang (n - 0x20)).value

/-- CSRR: separation 4. -/
def execCsrr (f : SW) (s : State) : Outcome State Fault Refusal :=
  runWord (.csrr f) f.dist (fun run s =>
    withTrap s run fun t =>
      roomed [] (putReg s s run f.hi true false 4 fun _ => (csrValue s t f.csr.toNat f.lane.toNat).toNat)) s

/-- A write applied by the CSR's access type. -/
def csrWrite (n lane_ : Nat) (x : W64) (c : Ctx) : Ctx :=
  if n = 1 then (if slice x 1 1 = 0 then { c with nbv := slice x 0 2 } else c)
  else if n = 2 then { c with mst := c.mst &&& ~~~x }
  else if n = 5 then { c with fpst := setLane c.fpst lane_ (lane c.fpst lane_ &&& ~~~(slice x 0 5)) }
  else if n = 6 then { c with deadread := c.deadread && !bitAt x 54 }
  else c

/-- CSRW. -/
def execCsrw (f : SW) (s : State) : Outcome State Fault Refusal :=
  runWord (.csrw f) f.dist (fun run s =>
    withTrap s run fun _ =>
      reading s run [useS f.mid 64] fun s1 =>
        if uniform run fun l => (read64 s f.mid l).toNat then
          .done (saveIntr 0x47 0x1B (modIntr s1 (csrWrite f.csr.toNat f.lane.toNat (read64 s f.mid (lowLane run)))))
        else raiseAt s .nonuniformOperand run) s

/-! ### TLBI and MPRGW (R207) -/

/-- The kept translations a TLBI drops. -/
def tlbiDrops (s : State) (all : Bool) (base : W64) (e : TlbEntry) : Bool :=
  decide (e.root = rootOf_ s) && (all || tlbCovers e base)

/-- TLBI: waits for the accesses translated through what it drops. -/
def execTlbi (f : SW) (s : State) : Outcome State Fault Refusal :=
  runWord (.tlbi f) f.dist (fun run s =>
    withTrap s run fun _ =>
      let all := f.lane == 1
      let base := fun l => read64 s f.mid l
      reading s run (if all then [] else [useS f.mid 64]) fun s1 =>
        if !all && !uniform run (fun l => (base l).toNat) then raiseAt s .nonuniformOperand run
        else
          let drops := tlbiDrops s all (base (lowLane run))
          if s.mem.tlb.any fun e => drops e && entryBusy s e then .hold s (.quiet (rootOf_ s))
          else .done (dropTlb drops (clearRpl s1))) s

/-- MPRGW: waits for the warp's matrix operation, then writes MROW. -/
def execMprgw (f : SW) (s : State) : Outcome State Fault Refusal :=
  runWord (.mprgw f) f.dist (fun run s =>
    withTrap s run fun _ =>
      reading s run [useS f.mid 64] fun s1 =>
        if !uniform run (fun l => (read64 s f.mid l).toNat) then raiseAt s .nonuniformOperand run
        else if matrixAtPoint s s.warp.id then
          .done (saveIntr 0x61 1 (modIntr (clearRpl s1) fun c => { c with mrow := (lo32 (read64 s f.mid (lowLane run))).setWidth 64 }))
        else .hold s .interruptionPoint) s

/-! ### TRET (R208) -/

/-- Whether an operation stores to the context space, or accesses through a view of the trap context. -/
def holdsTret (o : Op) : Bool :=
  match o.kind with
  | .memory fn _ _ accs _ v =>
    v.isSome || (fn != .load && accs.any fun a => match a.place with | .record _ => true | .global .. | .scratch _ | .lost => false)
  | .result .. | .viewRetire .. | .ringClaim .. | .ringRelease .. | .keySet .. | .evict .. => false

/-- An operation of a trap context that has ended: it goes on with the warp, its destinations, flag and counter gone. -/
def orphan (o : Op) : Op := { o with flag := none, counter := 0, dsts := [] }

/-- One LIVE bit as the handler left it (R208): a register with no line becomes live in every lane with the record's bytes. -/
def applyLive (word : BitVec 96) (c : Ctx) (n : Nat) : Ctx :=
  let r := gAt c n
  if bitAt word n then (if r.live = 0 then setGReg c n { r with live := allLanes, resident := false } else c)
  else setGReg c n { r with live := 0 }

/-- The LIVE words the handler stored, applied. -/
def applyLives (t : TrapInfo) (c : Ctx) : Ctx :=
  let c1 := match t.live0 with
    | some x => (List.range 64).foldl (applyLive (x.setWidth 96)) c
    | none => c
  match t.live1 with
  | some x => ((List.range 32).map (· + 64)).foldl (applyLive (x.setWidth 96 <<< 64)) c1
  | none => c1

/-- Where the interrupted context goes on (R208): inside its segment, or at a boundary. -/
def resumePoint (c : Ctx) : Ctx :=
  let a := groupMask c
  let p := lane c.pcs (lowLane a)
  let off := (p - c.segh).toNat
  let was := (c.npc - c.segh).toNat
  if c.midSeg && a != 0 && (lanesIn a).all (fun t => lane c.pcs t == p) && decide (1 ≤ off) && decide (off ≤ c.seg.length.toNat) then
    { settleHaz c with
      inSeg := true, midSeg := false, npc := p, blocks := if was ≤ off then c.blocks.drop (off - was) else [], wait := .none,
      met := false }
  else { settleHaz c with inSeg := false, midSeg := false, blocks := [], wait := .none, met := false }

/-- A view that the handler changed registered again, as if by VDEF (R208, spec/15 R255): on a failure it is undefined and the
cause is held. -/
def reviewOne (s : State) (n : Nat) : State :=
  let v := viewAt (ctxOf s) n
  let live := liveThreads (ctxOf s)
  match viewCheck s v with
  | none => defineView s n v
  | some b =>
    let s1 := sweepDeckle s.warp.core (unnameView s.warp.id s.warp.core v s)
    let s2 := modCtx s1 fun c => setView c n (v.setState 0)
    holdCause s2 s2.warp.id false
      { cause := b.cause, fpc := 0, word := 0, run := live, lanes := live, addr := 0, info := viewInfo b n }

/-- Several views registered again. -/
def reviewAll (ns : List Nat) (s : State) : State := ns.foldl reviewOne s

/-- The stopped operations of a warp go on after a TRET, and those its trap context issued belong to no context any more. The
matrix operation of a warp goes on (spec/18 R298, R299); a dormant warp's stays paused. -/
def resumeMatrix (w : WarpId) (deact : Bool) (s : State) : State :=
  { s with engines := s.engines.map fun e =>
      if e.warp = w then
        (if e.trapIdx.isSome then
           { e with stopped := false, refused := [], paused := deact, trapIdx := some noTrap, flag := none, dst := none }
         else { e with stopped := false, refused := [], paused := deact })
      else e }

/-- The interrupted context goes on (R208); after a DEACT its warp is dormant, and still leaving the register file while lines of it
have writes in flight or VLD or VST have not completed (R209, spec/05 R101, spec/15 R245). -/
def trapReturn (s : State) (t : TrapInfo) : State :=
  let tc := ctxOf s
  let c0 := applyLives t t.intr
  let c1 := { c0 with
    ops := c0.ops ++ tc.ops.map orphan, vrets := c0.vrets + tc.vrets, frame := { c0.frame with valid := false } }
  let c2 := if t.deact then writeBack c1 else c1
  let s1 := { s with warp := { s.warp with
    ctx := resumePoint c2, trap := none, state := if t.deact then .dormant else .active,
    res := !t.deact || mustStay c2, leaving := t.deact && mustStay c2,
    reviews := if t.deact then t.viewsWritten else [] } }
  let s2 := resumeMatrix s.warp.id t.deact (releaseViews s.warp.id s.warp.core tc s1)
  if t.deact then
    let x := plainTrap s2.warp.ctx
    saveHeader s2.warp x (saveLines s2.warp x (writtenLines c1) s2)
  else reviewAll t.viewsWritten s2

/-- TRET. -/
def execTret (f : SW) (s : State) : Outcome State Fault Refusal :=
  runWord (.tret f) f.dist (fun run s =>
    withTrap s run fun t => if (ctxOf s).ops.any holdsTret then .hold s .earlier else .went (trapReturn s t)) s

/-! ### PBIND, PUNBIND, PEVICT (spec/13 R233, R234) -/

/-- What resolving a name for PBIND comes to: a slot and a pointer, the code of a name cause, a poisoned line of the binding table, which
is no name cause, or a wait. -/
inductive PbindStep where
  | bound (slot : Nat) (ptr : Nat)
  | code (c : Cause)
  | lost
  | wait (w : WaitFor)
  deriving DecidableEq, Repr

/-- The name of PBIND resolved as PRES does; a failure is a code, but for a poisoned line of the table, which raises UNCORRECTABLE_MEMORY at
the word (DESIGN CHOICE, log 55). -/
def pbindResolve (s : State) (w : Nat) : PbindStep :=
  if !nameTag w then .code .nameMalformed
  else match resolveName s 0 w with
    | .val v => .bound (ptrSlot (BitVec.ofNat 64 v)) v
    | .wait x => .wait x
    | .bad _ .uncorrectableMemory _ _ => .lost
    | .bad _ c _ _ => .code c

/-- The first page of a cached object that is not there: what it comes to. -/
def missingPage (s : State) (slot : Nat) : Option LaneChk :=
  let e := myEntry s slot
  if e.mode ≠ 2 then none
  else ((pageVas e.lbase (pagesOf e.length)).map (checkTranslated s (rootOf_ s) .read)).find? fun x => match x with
    | .ok .. => false
    | .bad .. | .wait .. | .hole _ => true

/-- The PIN bit of a slot set. -/
def pinSlot (s : State) (slot : Nat) : State :=
  putEntry s (rootOf_ s) s.launch.eff.bindTable slot { myEntry s slot with pin := true }

/-- PBIND. -/
def execPbind (f : SW) (s : State) : Outcome State Fault Refusal :=
  runWord (.pbind f) f.dist (fun run s =>
    withTrap s run fun _ =>
      let w := fun l => read128 s f.mid l
      let put := fun (s1 : State) (v : Nat) =>
        issueLater s s1 (.pbind f) run 0 f.hi 64 (.result (lanesOf fun _ => v) (lanesOf fun _ => 0))
      reading s run [useS f.mid 128] fun s1 =>
        if !uniform run w then raiseAt s .nonuniformOperand run
        else
          let s2 := if nameBad (w (lowLane run)) then clearRpl s1 else startBindings w [lowLane run] (dropSkipped (clearRpl s1))
          match pbindResolve s2 (w (lowLane run)) with
          | .wait x => .hold { s with mem := s2.mem, svc := s2.svc, launch := s2.launch, launches := s2.launches } x
          | .code c => put (dropFailures s2) (causeCode c)
          | .lost => .raise s { cause := .uncorrectableMemory, lanes := run, addr := 0, info := nameHigh (w (lowLane run)) }
          | .bound slot ptr =>
            let s3 := pinSlot (dropFailures s2) slot
            match missingPage s3 slot with
            | none => put s3 ptr
            | some (.wait _ x) => .hold { s with mem := s3.mem, launch := s3.launch, launches := s3.launches } x
            | some (.hole pa) => .stop (.physicalHole pa)
            | some (.bad _ c addr info) => .raise s { cause := c, lanes := run, addr := addr, info := info }
            | some (.ok ..) => put s3 ptr) s

/-- Whether a value is a short pointer to a bound slot at its generation. -/
def pointsNow (s : State) (v : W64) : Bool :=
  isAperture v && (myEntry s (ptrSlot v)).bound && (myEntry s (ptrSlot v)).gen == ptrGen v

/-- PUNBIND: holds the trap context until no access through the slot is under way and its dirty lines are home, then unbinds. -/
def execPunbind (f : SW) (s : State) : Outcome State Fault Refusal :=
  runWord (.punbind f) f.dist (fun run s =>
    withTrap s run fun _ =>
      let v := read64 s f.mid (lowLane run)
      reading s run [useS f.mid 64] fun s1 =>
        if !uniform run (fun l => (read64 s f.mid l).toNat) then raiseAt s .nonuniformOperand run
        else if !pointsNow s v then .done (clearRpl s1)
        else if slotBusy s (rootOf_ s) s.launch.eff.bindTable (ptrSlot v) then .hold s (.quiet (rootOf_ s))
        else if !evictable s (rootOf_ s) s.launch.eff.bindTable (ptrSlot v) then
          .hold (evictPages (rootOf_ s) s.launch.eff.bindTable (ptrSlot v) s) (.quiet (rootOf_ s))
        else .done (unbindSlot (rootOf_ s) s.launch.eff.bindTable (ptrSlot v) (clearRpl s1))) s

/-- PEVICT: the eviction goes on behind the word. -/
def execPevict (f : SW) (s : State) : Outcome State Fault Refusal :=
  runWord (.pevict f) f.dist (fun run s =>
    withTrap s run fun _ =>
      let v := read64 s f.mid (lowLane run)
      reading s run [useS f.mid 64] fun s1 =>
        if !uniform run (fun l => (read64 s f.mid l).toNat) then raiseAt s .nonuniformOperand run
        else if pointsNow s v then
          .done (issueOp (clearRpl s1) (.pevict f) run 0 (.evict (rootOf_ s) s.launch.eff.bindTable (ptrSlot v) (ptrGen v)))
        else .done (issueOp (clearRpl s1) (.pevict f) run 0 (.result noVals (lanesOf fun _ => 0)))) s

/-! ### KEYSET (spec/20 R330) -/

/-- The 32 key bytes in eight g registers of a lane. -/
def keyBytes (s : State) (n l : Nat) : List Byte :=
  (List.range 32).map fun i => slice (readG s (n + i / 4) l) (8 * (i % 4)) 8

/-- The sources of KEYSET. -/
def keyUses (f : SW) : List Use :=
  useS f.hi 32 :: (List.range 8).map fun i => useS (f.mid + BitVec.ofNat 7 i) 32

/-- KEYSET. -/
def execKeyset (f : SW) (s : State) : Outcome State Fault Refusal :=
  runWord (.keyset f) f.dist (fun run s =>
    withTrap s run fun _ =>
      let idx := fun l => read32 s f.hi l
      let key := fun l => keyBytes s f.mid.toNat l
      let x := idx (lowLane run)
      let group := (slice x 12 2).toNat
      let n := (slice x 0 12).toNat
      reading s run (keyUses f) fun s1 =>
        if !uniform run (fun l => (idx l).toNat) || !uniform run (fun l => ofBytes (key l)) then raiseAt s .nonuniformOperand run
        else if slice x 14 17 ≠ 0 then raiseAt s .illegalEncoding run
        else if n < s.launch.eff.keyBase ∨ s.launch.eff.keyBase + s.launch.eff.keyCount ≤ n then raiseAt s .protection run
        else .done (issueOp (clearRpl s1) (.keyset f) run 0
          (.keySet group n (bitAt x 31) (key (lowLane run))))) s

end Sys2Proof.Machine
end

