-- ==== Sys2Proof/Machine/Warps.lean ====
section
/-! DEFINITION. The life of warps and gangs: which warp issues, waking, register fills and spills, activation and victims, birth and
retirement, gang spills, continuation warps, withdrawn cores (spec/02 R28 to R43, spec/05 R93 to R107, spec/06 R124 to R131). -/

namespace Sys2Proof.Machine

open Host (Outcome)

/-! ### Which warp issues -/

/-- A list with one of its members taken out and another put in its place. -/
def exchange {α : Type} (out : α → Bool) (keep : Bool) (x : α) (l : List α) : List α :=
  if !keep then l.filter fun y => !out y
  else if l.any out then l.map fun y => if out y then x else y
  else l ++ [x]

/-- The gang of a name made the issuing one. -/
def focusGang (g : GangId) (s : State) : State :=
  if s.gang.id = g then s
  else { s with
    gang := (s.gangs.find? fun x => decide (x.id = g)).getD Gang.zero,
    gangs := exchange (fun x => decide (x.id = g)) (decide (0 < s.gang.id.seq)) s.gang s.gangs }

/-- The launch of a number made the issuing one. -/
def focusLaunch (seq : Nat) (s : State) : State :=
  if s.launch.seq = seq then s
  else { s with
    launch := (s.launches.find? fun x => decide (x.seq = seq)).getD Launch.zero,
    launches := exchange (fun x => decide (x.seq = seq)) (decide (0 < s.launch.seq)) s.launch s.launches }

/-- A warp made the issuing one, with its gang and its launch. -/
def focusOn (w : WarpId) (s : State) : State :=
  if s.warp.id = w then s
  else match s.warps.find? fun x => decide (x.id = w) with
    | none => s
    | some x =>
      focusLaunch w.seq (focusGang (gangOf w)
        { s with warp := x, warps := exchange (fun y => decide (y.id = w)) (decide (0 < s.warp.id.seq)) s.warp s.warps })

/-- Something done for a warp as the issuing one; the warp that issued before issues next again. -/
def withFocus (w : WarpId) (f : State → State) (s : State) : State := focusOn s.warp.id (f (focusOn w s))

/-- Whether a warp of a name exists. -/
def warpExists (s : State) (w : WarpId) : Bool := decide (0 < w.seq) && (findWarp s w).isSome

/-! ### Energy and halts -/

/-- Whether every energy count on the path of a launch's region is zero or above on a die (spec/05 R103, spec/18 R301). -/
def energyOk (s : State) (region die : Nat) : Bool := (budgetPath s region 8).all fun b => decide (0 ≤ b.counts.getD die 0)

/-- Whether a warp's core is halted: its die is saved, or its gang is off its core (spec/02 R33, R43, spec/05 R107). -/
def halted (s : State) (w : Warp) : Bool :=
  s.mgmt.saved.contains (dieOfCore w.core) || (match findGang s (gangOf w.id) with | some g => g.spilled | none => false)

/-- Whether a warp may issue now (spec/05 R103): but for its next word's sources and its groups' flags. -/
def mayIssue (s : State) (w : Warp) : Bool :=
  decide (0 < w.id.seq) && decide (w.state = .active) && w.stopped.isNone && !w.leaving && !halted s w &&
    (match launchOf s w.id.seq with
     | some l => energyOk s l.region (dieOfCore w.core)
     | none => false)

/-! ### SEGMENT_BOUNDARY -/

/-- The issuing warp at a boundary; one whose energy count is below zero parks there (spec/05 R103). -/
def boundaryHere (s : State) : Outcome State Fault Refusal :=
  if (ctxOf s).exited ≠ allLanes ∧ energyOk s s.launch.region (myDie s) = false then .next (holdWarp s .energy) else boundary s

/-- Whether a warp stands at a boundary and can take it: not inside a segment, waiting for nothing but its own release. -/
def atBoundary (s : State) (w : Warp) : Bool :=
  decide (0 < w.id.seq) && decide (w.state = .active) && w.stopped.isNone && !w.leaving && !halted s w && !w.ctx.inSeg &&
    (match w.ctx.wait with
     | .none | .earlier | .published _ => true
     | .flags | .counter .. | .timeline .. | .barrier .. | .gridBarrier _ | .page .. | .object .. | .fill _ | .lineBudget
     | .energy | .contextSlot | .matrixPrevious | .interruptionPoint | .retirement | .contextPage _ | .pending _
     | .quiet _ => false)

/-- SEGMENT_BOUNDARY (spec/02 R31, spec/04 R64, R73, spec/10 R199, R203). -/
def execSegmentBoundary (w : WarpId) (s : State) : Outcome State Fault Refusal :=
  match findWarp s w with
  | some x => if atBoundary s x then boundaryHere (focusOn w s) else .next s
  | none => .next s

/-! ### CHOOSE (spec/05 R104) -/

/-- The effective priority of a warp. -/
def warpPrio (s : State) (w : Warp) : Nat := (launchOf s w.id.seq).elim 0 (·.eff.prio)

/-- Whether the issuing warp has a word to issue (R103): inside a segment the next word's source lines are in the register file; at
a boundary there is a cause to take, or a group whose WAIT flags are clear. -/
def wordReady (s : State) : Bool :=
  let c := ctxOf s
  if c.inSeg then
    match fetchWord s c.npc with
    | .word x =>
      (match parse x with
       | .ok i => (fieldChk i).reads.all fun n => decide ((gAt c n).live = 0) || (gAt c n).resident
       | .error _ => true)
    | .bad _ | .wait _ | .hole _ => true
  else
    let c1 := releaseMeets c
    c.exited == allLanes || (!trapMode s && (s.warp.held.isSome || s.warp.preempt)) || !(readyPcs s c1 (candidates c1)).isEmpty

/-- Whether a warp is ready (R103). -/
def warpReady (s : State) (w : Warp) : Bool := mayIssue s w && decide (w.ctx.wait = .none) && wordReady (focusOn w.id s)

/-- The ready warps of a pair. -/
def readyWarps (s : State) (core pair : Nat) : List Warp :=
  (allWarps s).filter fun w => decide (w.core = core) && decide (w.pair = pair) && warpReady s w

/-- The warp of a list with the least rank. -/
def leastBy (rank : Warp → Nat) : List Warp → Option Warp
  | [] => none
  | w :: ws =>
    match leastBy rank ws with
    | none => some w
    | some x => if rank w ≤ rank x then some w else some x

/-- Whether a warp is the one its pair chose last, and has not parked since. -/
def choseLast (s : State) (core pair : Nat) (w : Warp) : Bool :=
  match AList.find (coreAt s core).last pair with
  | some c => decide (c.warp = w.id) && decide (w.parkedAt ≤ c.clock)
  | none => false

/-- Whether its pair has chosen a warp for this clock: a word takes at least one. -/
def chosenNow (s : State) (w : Warp) : Bool :=
  match AList.find (coreAt s w.core).last w.pair with
  | some c => decide (c.warp = w.id) && decide (c.clock = s.clock)
  | none => false

/-- The choice among the ready warps of the highest priority. One that has run YIELD gives way to every other (spec/06 R122). -/
def chooseWarp (s : State) (core pair : Nat) (r : List Warp) (p : Nat) : Option Warp :=
  let c := coreAt s core
  let sticky := r.find? fun w => choseLast s core pair w && w.ctx.inSeg && !w.yielded
  let late := r.filter fun w => decide (64 ≤ w.skip)
  match sticky, late with
  | some w, [] => some w
  | _, _ :: _ => leastBy (fun w => (2 ^ 32 - w.skip) * 64 + w.actSlot) late
  | none, [] =>
    let base := match AList.find c.lastAt (16 * pair + p) with | some x => x + 1 | none => 0
    let fresh := r.filter fun w => !w.yielded
    leastBy (fun w => (w.actSlot + 64 - base % 64) % 64) (if fresh.isEmpty then r else fresh)

/-- The counts after a choice; a YIELD bars its warp from one choice of its pair (spec/06 R122; that this is the next one is a DESIGN
CHOICE, log 54). -/
def skipOthers (core pair : Nat) (r : List Warp) (chosen : WarpId) (w : Warp) : Warp :=
  let w1 := if w.core = core ∧ w.pair = pair then { w with yielded := false } else w
  if w.id = chosen then { w1 with skip := 0 }
  else if r.any fun x => decide (x.id = w.id) then { w1 with skip := w.skip + 1 } else w1

/-- The ready warps of the highest priority of a pair, and that priority. -/
def rivals (s : State) (core pair : Nat) : List Warp × Nat :=
  let r := readyWarps s core pair
  let p := (r.map (warpPrio s)).foldl max 0
  (r.filter fun w => decide (warpPrio s w = p), p)

/-- The warp a pair's group scheduler chooses. -/
def pairChoice (s : State) (core pair : Nat) : Option Warp :=
  let r := rivals s core pair
  chooseWarp s core pair r.1 r.2

/-- CHOOSE: a pair's group scheduler chooses the warp that issues next. -/
def execChoose (core pair : Nat) (s : State) : Outcome State Fault Refusal :=
  match pairChoice s core pair with
  | none => .next s
  | some w =>
    let r := rivals s core pair
    let s1 := { s with warp := skipOthers core pair r.1 w.id s.warp, warps := s.warps.map (skipOthers core pair r.1 w.id) }
    let s2 := modCore s1 core fun c =>
      { c with last := AList.put c.last pair { warp := w.id, clock := s.clock }, lastAt := AList.put c.lastAt (16 * pair + r.2) w.actSlot }
    .next (focusOn w.id s2)

/-! ### Pre-emption and waking -/

/-- Whether a warp takes a pre-emption request: an active one, one stopped at a register or a context page inside a segment (spec/02
R40, spec/05 R99), or one in trap mode, which it reaches when the handler has returned (R42). -/
def takesPreempt (w : Warp) : Bool :=
  decide (w.state = .active) ||
    (decide (w.state = .parked) && w.trap.isSome) ||
    (decide (w.state = .parked) && (match w.ctx.wait with
      | .fill _ | .contextPage _ => true
      | .none | .flags | .counter .. | .timeline .. | .barrier .. | .gridBarrier _ | .page .. | .object .. | .lineBudget | .energy
      | .contextSlot | .matrixPrevious | .interruptionPoint | .retirement | .earlier | .pending _ | .published _ | .quiet _ => false))

/-- PREEMPT_REQUEST. -/
def execPreemptRequest (w : WarpId) (s : State) : Outcome State Fault Refusal :=
  match findWarp s w with
  | some x => if takesPreempt x then .next (modWarp s w fun y => { y with preempt := true }) else .next s
  | none => .next s

/-- A warp's wait ended (spec/05 R101): with its lines it is active, without them a candidate. -/
def unpark (met : Bool) (w : Warp) : Warp :=
  { w with
    state := if w.state = .parked then (if w.res && !w.leaving then .active else .dormant) else w.state,
    ctx := { w.ctx with wait := .none, met := met } }

/-- Whether the page a warp waits for is there now, with the token its access needs. -/
def pageReady (s : State) (va : W64) (write : Bool) : Bool :=
  match checkTranslated s (rootOf_ s) (if write then .write else .read) va with
  | .wait .. => false
  | .ok .. | .bad .. | .hole _ => true

/-- Whether the wait of the issuing warp has ended; the waits on its own accesses are tried again. -/
def waitOver (s : State) : Bool :=
  let c := ctxOf s
  match c.wait with
  | .none => false
  | .flags =>
    let c1 := releaseMeets c
    !(readyPcs s c1 (candidates c1)).isEmpty
  | .counter which n => decide (counterOf c (which + 1) ≤ n)
  | .timeline which n => decide (n ≤ (tcAt s.gang which).value)
  | .barrier b phase => c.met || (barAt s.gang b).phase != phase
  | .gridBarrier _ => c.met || c.suspended.any (·.released)
  | .page va write => pageReady s va write
  | .object space table slots _ => !(slots.any fun slot => (entryAt s space table slot).busy)
  | .fill n => (gAt c n).resident
  | .lineBudget => lineRoom s 1
  | .energy => energyOk s s.launch.region (myDie s)
  | .contextSlot => (takeSlot s s.launch (fromReservation s.launch s.warp.id)).isSome || (stageRoom s s.launch).isSome
  | .matrixPrevious => !matrixBusy s
  | .interruptionPoint => matrixAtPoint s s.warp.id
  | .retirement => false
  | .contextPage va => (firstUnmapped s [va]).isNone
  | .published writes => !publishing s writes
  | .earlier | .pending _ | .quiet _ => true

/-- Whether the word a warp waits at finds its condition met when it issues again, whatever comes between. -/
def waitStays (w : WaitFor) : Bool :=
  match w with
  | .barrier .. | .published _ => true
  | .none | .flags | .counter .. | .timeline .. | .gridBarrier _ | .page .. | .object .. | .fill _ | .lineBudget | .energy
  | .contextSlot | .matrixPrevious | .interruptionPoint | .retirement | .contextPage _ | .earlier | .pending _ | .quiet _ => false

/-- The wait of a warp ended if its condition holds. -/
def wakeIf (w : WarpId) (s : State) : State :=
  withFocus w (fun s1 =>
    if waitOver s1 then refreshRecord w [] { s1 with warp := unpark (waitStays s1.warp.ctx.wait) s1.warp } else s1) s

/-- Whether the die that a warp's core lies on is saved, so that nothing of the warp moves (spec/02 R43). -/
def dieHalted (s : State) (w : Warp) : Bool := s.mgmt.saved.contains (dieOfCore w.core)

/-- WARP_WAKE. -/
def execWarpWake (w : WarpId) (s : State) : Outcome State Fault Refusal :=
  match findWarp s w with
  | some x => if x.stopped.isNone && !dieHalted s x then .next (wakeIf w s) else .next s
  | none => .next s

/-- MATRIX_WAIT_RELEASE (spec/18 R295): a warp held at a matrix word goes on once its earlier operation is complete. -/
def execMatrixWaitRelease (w : WarpId) (s : State) : Outcome State Fault Refusal :=
  match findWarp s w with
  | some x => if x.ctx.wait = .matrixPrevious ∧ dieHalted s x = false then .next (wakeIf w s) else .next s
  | none => .next s

/-! ### Register fills and spills (spec/05 R97, R98) -/

/-- A page of the issuing context's record is missing: its warp waits for it (R98); in trap mode that is a double fault (spec/10
R197). -/
def pageMissing (va : W64) (s : State) : State := if trapMode s then doubleFault s .contextPage else holdWarp s (.contextPage va)

/-- REGISTER_FILL_RETURN: the line lands, and the word that missed issues again; a record page that is missing is waited for, and
that of a trap context's record is a double fault. -/
def execRegisterFillReturn (w : WarpId) (n : Nat) (s : State) : Outcome State Fault Refusal :=
  match findWarp s w with
  | some x =>
    if x.ctx.wait = .fill n ∧ dieHalted s x = false then
      .next (withFocus w (fun s1 =>
        match firstUnmapped s1 [gVa (ctxOf s1) n] with
        | some va => pageMissing va s1
        | none =>
          if lineLost s1 (ctxOf s1) n then toCommandProcessor s1 .uncorrectableMemory (gVa (ctxOf s1) n) (gVa (ctxOf s1) n) false else
          let filled := if s1.warp.res && !s1.warp.leaving && lineRoom s1 1 then
              { s1.warp with ctx := setGReg s1.warp.ctx n { gAt s1.warp.ctx n with resident := true } }
            else s1.warp
          { s1 with warp := unpark false filled }) s)
    else .next s
  | none => .next s

/-- REGISTER_FILL_TIMEOUT: after 64 clocks the warp parks with PARK = 6. -/
def execRegisterFillTimeout (w : WarpId) (n : Nat) (s : State) : Outcome State Fault Refusal :=
  match findWarp s w with
  | some x =>
    if x.ctx.wait = .fill n ∧ x.state = .active ∧ dieHalted s x = false then
      .next (modWarp s w fun y => { y with state := .parked, parkedAt := s.clock })
    else .next s
  | none => .next s

/-- A line of the issuing warp spilled (R97): of the context that issues, or of the interrupted one. A warp that waits for nothing
waits for a record page that is missing (R98). -/
def spillOne (n : Nat) (s : State) : State :=
  if n < 96 then
    (if spillable (ctxOf s) n then
       (match firstUnmapped s [gVa (ctxOf s) n] with
        | some va => if (ctxOf s).wait = .none then pageMissing va s else s
        | none => spillHere n s)
     else s)
  else match s.warp.trap with
    | some t =>
      if spillable t.intr (n - 96) then
        (match firstUnmapped s [gVa t.intr (n - 96)] with
         | some va => if (ctxOf s).wait = .none then holdWarp s (.contextPage va) else s
         | none => spillIntr t (n - 96) s)
      else s
    | none => s

/-- LINE_SPILL: of the context that issues (0 to 95), or of the interrupted one (96 to 191). -/
def execLineSpill (w : WarpId) (n : Nat) (s : State) : Outcome State Fault Refusal :=
  .next (withFocus w (fun s1 => if s1.warp.id ≠ w ∨ dieHalted s1 s1.warp then s1 else spillOne n s1) s)

/-- LINE_BUDGET_WAKE. -/
def execLineBudgetWake (w : WarpId) (s : State) : Outcome State Fault Refusal :=
  match findWarp s w with
  | some x => if x.ctx.wait = .lineBudget ∧ dieHalted s x = false then .next (wakeIf w s) else .next s
  | none => .next s

/-- A zeroed page mapped local, readable and writable, in a fresh frame (spec/08 R160, log 9). -/
def freshPage (root : Nat) (va : W64) (s : State) : Option State :=
  if !pageServed s root va then none else
  match takeFrame s with
  | none => none
  | some (f, s1) => mapPage (clearFrame s1 f) root (va &&& ~~~(0xFFF : W64)) (leafPte 0 0 f)

/-- The record page a warp waits for: for its deactivation, or at a word. -/
def pageWanted (w : Warp) : Option W64 :=
  match w.evicting with
  | some va => some va
  | none =>
    match w.ctx.wait with
    | .contextPage va => some va
    | .none | .flags | .counter .. | .timeline .. | .barrier .. | .gridBarrier _ | .page .. | .object .. | .fill _ | .lineBudget
    | .energy | .contextSlot | .matrixPrevious | .interruptionPoint | .retirement | .earlier | .pending _ | .published _
    | .quiet _ => none

/-- A warp no longer waits for a record page: one that waited at a word goes on, one that is to be deactivated waits as before. -/
def pageDone (w : Warp) : Warp := if w.evicting.isSome then { w with evicting := none } else unpark false w

/-- CONTEXT_PAGE (spec/05 R98): a service core makes the page present, or the cause goes to the command processor. -/
def execContextPage (w : WarpId) (present : Bool) (s : State) : Outcome State Fault Refusal :=
  match ((findWarp s w).filter fun x => !dieHalted s x).bind pageWanted with
  | some va =>
    .next (withFocus w (fun s1 =>
      if present then
        (if (firstUnmapped s1 [va]).isNone then { s1 with warp := pageDone s1.warp }
         else match freshPage (rootOf_ s1) va s1 with
           | some s2 => { s2 with warp := pageDone s2.warp }
           | none => s1)
      else toCommandProcessor { s1 with warp := pageDone s1.warp } .contextPage va 0 false) s)
  | none => .next s

/-! ### Activation (spec/05 R101, R102) -/

/-- The active set of a core; a warp on its way out leaves it when its last line is written (R101). -/
def activeSet (s : State) (core : Nat) : List Warp :=
  (allWarps s).filter fun w => decide (0 < w.id.seq) && decide (w.core = core) &&
    (decide (w.state = .active) || w.leaving || (decide (w.state = .parked) && w.res))

/-- The candidates of a core. -/
def candidateWarps (s : State) (core : Nat) : List Warp :=
  (allWarps s).filter fun w => decide (0 < w.id.seq) && decide (w.core = core) && !w.leaving && !halted s w &&
    (decide (w.state = .dormant) || decide (w.state = .unborn))

/-- Whether a candidate comes before another. -/
def candidateBefore (s : State) (a b : Warp) : Bool :=
  let pa := warpPrio s a
  let pb := warpPrio s b
  decide (pb < pa) || (pa == pb && (decide (a.id.seq < b.id.seq) || (a.id.seq == b.id.seq &&
    (decide (a.id.gang < b.id.gang) || (a.id.gang == b.id.gang && decide (a.id.wid ≤ b.id.wid))))))

/-- Whether an unborn warp can have a context slot, and which: the one asked for if it is free (spec/02 R30). -/
def birthSlot (s : State) (w : Warp) (slot : Nat) : Option Nat :=
  match launchOf s w.id.seq with
  | none => none
  | some l =>
    let reserved := fromReservation l w.id
    match takeSlot s l reserved with
    | none => none
    | some i => if slotFree s l slot then some slot else some i

/-- The candidates that can be activated, in the order they are taken: an unborn one needs a slot. -/
def orderedCandidates (s : State) (core slot : Nat) : List Warp :=
  sortBy (candidateBefore s)
    ((candidateWarps s core).filter fun w => decide (w.state = .dormant) || (birthSlot s w slot).isSome)

/-- The victims a candidate of a priority may take, in their order: parked ones, the longest parked first, then the warp least
recently issued; of two that are equal in this, the first of the model's own list (DESIGN CHOICE, log 54). A warp that is on its way
out, or in trap mode (log 14), is none. -/
def victimOf (s : State) (core prio : Nat) : Option Warp :=
  let may := (activeSet s core).filter fun w => decide (warpPrio s w ≤ prio) && w.trap.isNone && !w.leaving && w.evicting.isNone
  match leastBy (·.parkedAt) (may.filter fun w => decide (w.state = .parked)) with
  | some w => some w
  | none =>
    match leastBy (·.lastIssue) may with
    | some w => if !w.ctx.inSeg && w.ctx.wait == .none then some w else none
    | none => none

/-- Pages of a space made present (spec/05 R98). -/
def ensurePages (root : Nat) : List W64 → State → Option State
  | [], s => some s
  | va :: vas, s =>
    if (keyIn s root va).isSome then ensurePages root vas s
    else match freshPage root va s with
      | some s1 => ensurePages root vas s1
      | none => none

/-- The issuing warp deactivated (R101): its lines and its header go to its record and its Deckle entries are freed. Its operations in
flight go on; a line that one of them writes follows when it lands. -/
def deactivate (s : State) : State :=
  let s1 := releaseViews s.warp.id s.warp.core s.warp.ctx s
  leaveOn s.warp.id { s1 with warp := { s1.warp with
    leaving := true, skip := 0, state := if s1.warp.state = .active then .dormant else s1.warp.state } }

/-- A victim deactivated; a page of its record that is missing is waited for first (R98). -/
def evictWarp (w : WarpId) (s : State) : State :=
  withFocus w (fun s1 =>
    match firstUnmapped s1 (recordPages (ctxOf s1).ctxp) with
    | none => deactivate s1
    | some va =>
      if s1.warp.state = .active then holdWarp s1 (.contextPage va) else { s1 with warp := { s1.warp with evicting := some va } }) s

/-- The pair with fewer active warps. -/
def freePair (s : State) (core : Nat) : Nat :=
  let n (p : Nat) : Nat := ((activeSet s core).filter fun w => decide (w.pair = p)).length
  if n 1 < n 0 then 1 else 0

/-- The lowest free activation slot of a core: which free slot a warp takes is open (DESIGN CHOICE, log 54). -/
def freeActSlot (s : State) (core : Nat) : Nat :=
  let used := (activeSet s core).map (·.actSlot)
  ((List.range Config.activeWarps).find? fun i => !used.contains i).getD 0

/-- The k registers at birth (spec/02 R30). -/
def birthK (w : WarpId) : Vector W64 24 :=
  ((Vector.replicate 24 (0 : W64)).set 0 (BitVec.ofNat 64 w.gang)).set 1 (BitVec.ofNat 64 w.seq)

/-- A warp of a grid gang before its birth (R30). -/
def unbornWarp (l : Launch) (core gang wid : Nat) : Warp :=
  let id : WarpId := { seq := l.seq, gang := gang, wid := wid }
  { Warp.zero with
    id := id, core := core, check := l.checkOn || l.eff.check,
    ctx := { Ctx.zero with
      pcs := Vector.replicate 32 (l.entry.setWidth 54), segh := l.entry.setWidth 54, k := birthK id,
      nbv := BitVec.ofNat 2 l.eff.nbv } }

/-- The issuing warp, unborn, is born in a slot; a continuation warp's registers stand in its record (spec/02 R37, R101: no lines
held). -/
def bornIn (slot : Nat) (s : State) : State :=
  let w := { s.warp with
      slot := slot, hasSlot := true, fromSlots := [], ctx := { s.warp.ctx with ctxp := slotVa s.launch slot } }
  saveLines w (plainTrap w.ctx) (linesOut w.ctx) { s with warp := w }

/-- The issuing warp, dormant, is active again: its views are registered again, and those its handler changed are checked as by
VDEF (spec/15 R245, R255). -/
def reactivate (s : State) : State :=
  let kept := { s.warp with ctx := (s.warp.reviews).foldl (fun c n => setView c n ((viewAt c n).setState 0)) s.warp.ctx }
  let r := reregister s kept s.launch.region
  let s1 := { r.2 with
    warp := { r.2.warp with ctx := r.1, reviews := [] },
    engines := r.2.engines.map fun e => if e.warp = s.warp.id then { e with paused := false } else e }
  reviewAll s.warp.reviews s1

/-- A warp whose record's header, views or k registers lie in a poisoned line when it is active again: UNCORRECTABLE_MEMORY goes to the
command processor (spec/22 R355; when it is found is a DESIGN CHOICE, log 55). -/
def headerRead (s : State) : State :=
  let va := (ctxOf s).ctxp
  if rangeLost s va 0x8C0 then toCommandProcessor s .uncorrectableMemory va va false else s

/-- A candidate becomes active. Among the warps that have issued it ranks as if it had issued now (DESIGN CHOICE, log 54). -/
def activate (core slot : Nat) (w : Warp) (s : State) : State :=
  let pair := freePair s core
  let act := freeActSlot s core
  let place (x : Warp) : Warp :=
    { x with state := .active, res := true, pair := pair, actSlot := act, skip := 0, lastIssue := s.clock }
  withFocus w.id (fun s1 =>
    if w.state = .unborn then
      (match birthSlot s1 s1.warp slot with
       | some i => let s2 := bornIn i s1; { s2 with warp := place s2.warp }
       | none => s1)
    else headerRead (reactivate { s1 with warp := place s1.warp })) s

/-- Whether there is room for a candidate: in the active set, and a line within its region's budget. -/
def roomFor (core : Nat) (w : Warp) (s : State) : Bool :=
  decide ((activeSet s core).length < Config.activeWarps) &&
    (match launchOf s w.id.seq with
     | some l => roomOn s core l.region 1
     | none => false)

/-- Whether a victim of a core is on its way out: its place is awaited (DESIGN CHOICE, log 14). -/
def victimLeaving (s : State) (core : Nat) : Bool := (activeSet s core).any fun w => w.leaving || w.evicting.isSome

/-- WARP_ACTIVATE: the core activates a candidate, choosing a victim when there is no room and none is on its way out. -/
def execWarpActivate (core slot : Nat) (s : State) : Outcome State Fault Refusal :=
  match orderedCandidates s core slot with
  | [] => .next s
  | w :: _ =>
    if roomFor core w s then .next (activate core slot w s)
    else if victimLeaving s core then .next s
    else match victimOf s core (warpPrio s w) with
      | none => .next s
      | some v =>
        let s1 := evictWarp v.id s
        if roomFor core w s1 then .next (activate core slot w s1) else .next s1

/-! ### Retirement (spec/06 R124, spec/02 R38) -/

/-- Whether a launch is complete: every gang handed out, every warp retired, no record staged (R38). -/
def launchDone (s : State) (l : Launch) : Bool :=
  decide (l.state = .started) && decide (l.handed = l.gangs) && decide (l.retiredWarps.length = l.gangs * l.warps) &&
    l.staged.isEmpty && (warpsOf s l.seq).all fun w => decide (w.state = .retired)

/-- A complete launch is logged, its region settles, and class 0 is signalled; it is kept while its gangs are not retired. -/
def completeLaunch (seq : Nat) (s : State) : State :=
  match launchOf s seq with
  | none => s
  | some l =>
    if launchDone s l then
      let l1 := { l with state := .complete, reserved := 0 }
      signal (settleRegion l.region (freeSnapshots seq (logEntry l1 (modLaunch s seq fun _ => l1)))) l.region l.eff.irq 0
    else s

/-- The issuing warp retires: its lines, slots and Deckle entries are freed, its record says so (spec/05 R93), and it counts at every
grid barrier (R175). -/
def retireHere (s : State) : State :=
  let s1 := releaseViews s.warp.id s.warp.core s.warp.ctx s
  let w := { s1.warp with
    state := .retired, res := false, leaving := false, evicting := none, hasSlot := false, callSlot := none, preempt := false,
    ctx := { settleHaz s1.warp.ctx with g := Vector.replicate 96 GReg.dead, wait := .none, met := false } }
  let s2 := saveHeader w (plainTrap w.ctx) { s1 with warp := w }
  let s3 := if isContGang s2.warp.id.gang then s2
    else { s2 with launch := { s2.launch with retiredWarps := s2.launch.retiredWarps ++ [s2.warp.id] } }
  (List.range s3.launch.gbars).foldl (fun st n => settleGrid st s3.launch.seq n) s3

/-- Whether a warp may retire (R124, spec/10 R199). -/
def mayRetire (w : Warp) : Bool :=
  !w.leaving &&
  decide (0 < w.id.seq) && (decide (w.state = .active) || decide (w.state = .parked)) && w.trap.isNone && w.stopped.isNone &&
    w.held.isNone && decide (w.ctx.exited = allLanes) && decide (w.ctx.wait = .retirement) && drained w.ctx

/-- WARP_RETIRE. -/
def execWarpRetire (w : WarpId) (s : State) : Outcome State Fault Refusal :=
  match findWarp s w with
  | some x => if mayRetire x && !s.mgmt.saved.contains (dieOfCore x.core) then .next (completeLaunch w.seq (withFocus w retireHere s)) else .next s
  | none => .next s

/-! ### Gangs (spec/02 R28, R29, R33) -/

/-- The gangs on a core. -/
def gangsOn (s : State) (core : Nat) : List Gang :=
  (s.gang :: s.gangs).filter fun g => decide (0 < g.id.seq) && decide (g.core = core) && !g.spilled

/-- The scratchpad bytes of a core charged to a region of the tree (R21). -/
def regionSpad (s : State) (core region : Nat) : Nat :=
  (((gangsOn s core).filter fun g => match launchOf s g.id.seq with
    | some l => (budgetPath s l.region 8).any fun b => decide (b.region = region)
    | none => false).map (·.spadSize)).sum

/-- The dies with an enabled ring of a region (spec/21 R334). -/
def ringDies (s : State) (region : Nat) : List Nat :=
  ((s.fabric.rings.filter fun e => e.2.en && e.2.region == region).map fun e => e.1 / 64).eraseDups

/-- Whether a core has scratchpad for a gang of a launch (R21, R28). -/
def spadFits (s : State) (l : Launch) (core spad : Nat) : Bool :=
  decide (((gangsOn s core).map (·.spadSize)).sum + spad ≤ Config.coreSpad) &&
    ((budgetPath s l.region 8).all fun b => decide (regionSpad s core b.region + spad ≤ b.spad))

/-- Whether a core may take a gang with given allocations. -/
def coreGrants (s : State) (l : Launch) (core spad tags : Nat) : Bool :=
  decide (core < Config.dies * Config.coresPerDie) && !(coreAt s core).withdrawn &&
    !s.mgmt.saved.contains (dieOfCore core) && spadFits s l core spad &&
    decide (((gangsOn s core).map (·.tagSize)).sum + tags ≤ Config.coreTags) &&
    (match ringDies s l.region with
     | [d] => dieOfCore core == d
     | _ => true)

/-- A gang at birth; what its scratchpad holds is open (R28, log 5). -/
def freshGang (l : Launch) (core gang : Nat) : Gang :=
  { Gang.zero with id := { seq := l.seq, gang := gang }, core := core, born := true, spadSize := l.spad, tagSize := l.tags }

/-- The undefined scratchpad of a gang at birth (R28): free bytes. -/
def freeSpad (s : State) (n : Nat) : ByteMap :=
  (List.range (n / 8)).foldl (fun m i =>
    ByteMap.writeMany m (8 * i) (bytesOf 8 (Config.freeWord (s.freeCtr + i)).toNat)) []

/-- GANG_BIRTH: the next gang of a grid, on a core with room. -/
def execGangBirth (seq core : Nat) (s : State) : Outcome State Fault Refusal :=
  match launchOf s seq with
  | none => .next s
  | some l =>
    if 0 < seq ∧ l.state = .started ∧ l.handed < l.gangs ∧ coreGrants s l core l.spad l.tags then
      let g := { freshGang l core l.handed with spad := freeSpad s l.spad }
      let ws := (List.range l.warps).map (unbornWarp l core l.handed)
      .next (modLaunch { s with gangs := s.gangs ++ [g], warps := s.warps ++ ws, freeCtr := s.freeCtr + l.spad / 8 + 1 } seq
        fun x => { x with handed := x.handed + 1 })
    else .next s

/-- The warps of a gang. -/
def gangWarps (s : State) (g : GangId) : List Warp := (allWarps s).filter fun w => decide (gangOf w.id = g)

/-- Whether a gang may retire (R28). -/
def gangDone (s : State) (g : Gang) : Bool :=
  ((gangWarps s g.id).all fun w => decide (w.state = .retired) && (warpOps w).all fun o => match o.kind with
    | .result .. => true
    | .memory .. | .viewRetire .. | .ringClaim .. | .ringRelease .. | .keySet .. | .evict .. => false) &&
    (List.range 4).all fun n => decide ((tcAt g n).value = (tcAt g n).issued)

/-- A gang and its warps taken out of the lists. -/
def removeGang (g : GangId) (s : State) : State :=
  { s with
    warp := if gangOf s.warp.id = g then Warp.zero else s.warp,
    warps := s.warps.filter fun w => decide (gangOf w.id ≠ g),
    gang := if s.gang.id = g then Gang.zero else s.gang,
    gangs := s.gangs.filter fun x => decide (x.id ≠ g) }

/-- A complete launch with no gang left is no longer kept. -/
def sweepLaunch (seq : Nat) (s : State) : State :=
  match launchOf s seq with
  | some l => if l.state = .complete ∧ ((s.gang :: s.gangs).all fun g => decide (g.id.seq ≠ seq)) then removeLaunch seq s else s
  | none => s

/-- GANG_RETIRE. -/
def execGangRetire (g : GangId) (s : State) : Outcome State Fault Refusal :=
  match findGang s g with
  | some x => if 0 < g.seq ∧ gangDone s x ∧ s.mgmt.saved.contains (dieOfCore x.core) = false then .next (sweepLaunch g.seq (removeGang g s)) else .next s
  | none => .next s

/-- The bytes of a core's L1 written back to its die (spec/09 R187). -/
def flushCore (core : Nat) (s : State) : State := l1FlushKeys core (dirtyL1 s core) s

/-- A core's L1 emptied; dirty bytes are written back first, and what is on its way home stays. -/
def emptyL1 (core : Nat) (s : State) : State :=
  let s1 := flushCore core s
  { s1 with mem := { s1.mem with l1 := s1.mem.l1.filter fun e => decide (e.1 / 2 ^ 68 ≠ core) || e.2.dirty || e.2.sent.isSome } }

/-- Whether a core has a store on its way to its die's point. -/
def l1Sending (s : State) (core : Nat) : Bool := s.mem.l1.any fun e => decide (e.1 / 2 ^ 68 = core) && e.2.sent.isSome

/-- Whether a core needs scratchpad for a gang of a priority or above: one still to be handed out, or one to be restored (R33). -/
def spadWanted (s : State) (core prio : Nat) (not : GangId) : Bool :=
  (allLaunches s).any fun l =>
    decide (0 < l.seq) && decide (l.state = .started) && decide (prio ≤ l.eff.prio) &&
      (((decide (l.handed < l.gangs) || !l.staged.isEmpty) && !spadFits s l core l.spad) ||
        (s.gang :: s.gangs).any fun g => decide (g.id.seq = l.seq) && decide (g.id ≠ not) && g.spilled && !spadFits s l core g.spadSize)

/-- Slots for a gang's spill area, taken one after the other from its launch's reservation (R33). -/
def takeSpill (seq : Nat) (g : GangId) : Nat → State → Option State
  | 0, s => some s
  | n + 1, s =>
    match launchOf s seq with
    | none => none
    | some l =>
      match takeSlot s l true with
      | none => none
      | some i => takeSpill seq g n (modGang s g fun y => { y with spillSlots := y.spillSlots ++ [i] })

/-- The slots of a gang's spill area (R33). -/
def spillCount (g : Gang) : Nat := 1 + (g.spadSize + 16383) / 16384

/-- The bytes of the first slot of a spill area (R33): its layout is open, the model's is (DESIGN CHOICE, log 54) the barrier registers
from 0x000, the timeline counters from 0x080, the tag table from 0x1000. -/
def spillBytes (g : Gang) : List Byte :=
  let head := (g.bars.toList.flatMap fun b => bytesOf 8 (barWord b).toNat) ++
    (g.tc.toList.flatMap fun t => bytesOf 8 t.value ++ bytesOf 8 t.issued)
  let tags := g.tags.flatMap fun e => bytesOf 8 e.1.toNat ++ bytesOf 8 e.2.toNat
  head ++ List.replicate (0x1000 - head.length) 0 ++ tags ++ List.replicate (0x3000 - tags.length) 0

/-- Bytes written from an address on, page by page. -/
def savePages (root core : Nat) (va : W64) (bs : List Byte) (s : State) : State :=
  (List.range ((bs.length + 4095) / 4096)).foldl
    (fun st j => saveAt root core (va + BitVec.ofNat 64 (4096 * j)) ((bs.drop (4096 * j)).take 4096) st) s

/-- A gang's spill area written (R33). -/
def saveSpill (l : Launch) (g : Gang) (s : State) : State :=
  let pad := ByteMap.readMany g.spad 0 g.spadSize
  (g.spillSlots.zipIdx).foldl (fun st p =>
    savePages l.eff.ptRoot g.core (slotVa l p.1) (if p.2 = 0 then spillBytes g else (pad.drop (16384 * (p.2 - 1))).take 16384) st) s

/-- The spill area of a gang that is spilled brought up to date as its barrier registers and counters change (R33, spec/08 R171). -/
def refreshSpill (g : GangId) (s : State) : State :=
  match findGang s g, launchOf s g.seq with
  | some x, some l => if x.spilled && !x.spillSlots.isEmpty then flushCore x.core (saveSpill l x s) else s
  | _, _ => s

/-- A gang whose warps hold no lines spilled: to slots of its reservation, whose pages are made present (R33, spec/05 R98). -/
def spillGang (l : Launch) (x : Gang) (s : State) : State :=
  match takeSpill l.seq x.id (spillCount x) s with
  | none => s
  | some s1 =>
    match findGang s1 x.id with
    | none => s
    | some y =>
      match ensurePages l.eff.ptRoot (y.spillSlots.flatMap fun i => recordPages (slotVa l i)) s1 with
      | none => s
      | some s2 => modGang (flushCore x.core (saveSpill l y s2)) x.id fun z => { z with spilled := true }

/-- GANG_SPILL (R33, spec/09 R187): a gang of a grid with barriers, every warp of it parked or retired, whose core needs scratchpad for
another gang. -/
def execGangSpill (g : GangId) (s : State) : Outcome State Fault Refusal :=
  match findGang s g, launchOf s g.seq with
  | some x, some l =>
    let ws := gangWarps s g
    if 0 < g.seq ∧ 0 < l.gbars ∧ x.spilled = false ∧ isContGang g.gang = false ∧ spadWanted s x.core l.eff.prio g ∧
        s.mgmt.saved.contains (dieOfCore x.core) = false ∧
        (ws.all fun w => (decide (w.state = .parked) && w.trap.isNone && w.stopped.isNone) || decide (w.state = .retired)) then
      let s1 := flushCore x.core ((ws.filter fun w => w.res && !w.leaving).foldl (fun st w => evictWarp w.id st) s)
      if ((gangWarps s1 g).all fun w => !w.res) && !l1Sending s1 x.core then .next (spillGang l x s1) else .next s1
    else .next s
  | _, _ => .next s

/-- The warps of a gang moved to a core. -/
def moveWarps (g : GangId) (core : Nat) (s : State) : State :=
  let move (w : Warp) : Warp := if gangOf w.id = g then { w with core := core } else w
  { s with
    warp := move s.warp, warps := s.warps.map move,
    engines := s.engines.map fun e => if e.gang = g then { e with core := core } else e }

/-- The resident warps of a gang take their places on a core: pair, activation slot, Deckle entries. -/
def placeWarps (g : GangId) (core : Nat) (s : State) : State :=
  ((gangWarps s g).filter fun w => w.res).foldl (fun st w =>
    withFocus w.id (fun s1 =>
      let s2 := { s1 with warp := { s1.warp with pair := freePair s1 core, actSlot := freeActSlot s1 core } }
      let r := reregister s2 s2.warp s2.launch.region
      { r.2 with warp := { r.2.warp with ctx := r.1 } }) st) s

/-- The lines that the warps of a gang hold. -/
def gangLines (s : State) (g : GangId) : Nat := ((gangWarps s g).map warpLines).sum

/-- Whether a core has room for the resident warps of a gang of a region: in its active set, and for the lines they hold (spec/01 R8,
spec/02 R21). -/
def roomForGang (s : State) (g : GangId) (region core : Nat) : Bool :=
  decide ((activeSet s core).length + ((gangWarps s g).filter fun w => w.res).length ≤ Config.activeWarps) &&
    (decide (gangLines s g = 0) || roomOn s core region (gangLines s g))

/-- What a die still has to write back, written back: what a gang has stored there is seen wherever it goes (R33, spec/09 R185, R187). -/
def flushDie (d : Nat) (s : State) : State := dieFlushKeys d (dirtyDie s d) s

/-- Whether a gang may be restored on a core of its die or another: one taken off a withdrawn core, on another core of the same die. -/
def restoreCore (x : Gang) (core : Nat) : Bool := !x.keepDie || (dieOfCore x.core == dieOfCore core && x.core != core)

/-- What the core and, when a gang leaves it, the die of a gang have still to write back, written back. -/
def flushFor (x : Gang) (core : Nat) (s : State) : State :=
  let s1 := emptyL1 core (emptyL1 x.core s)
  if dieOfCore x.core = dieOfCore core then s1 else flushDie (dieOfCore x.core) s1

/-- Whether a die has a byte on its way home, or one that waits to be written back until it has applied what comes before. -/
def dieSending (s : State) (d : Nat) : Bool :=
  s.mem.die.any fun e => e.1 / 2 ^ 68 == d && (e.2.sent.isSome || (e.2.dirty && openWrite s d (e.1 % 2 ^ 68)))

/-- Whether what a gang has stored can be seen from a core that takes it (spec/09 R185, R187): its core's stores have reached their die's
point, and on another die every write of the old one has been applied there. -/
def storesSeen (s : State) (x : Gang) (core : Nat) : Bool :=
  !l1Sending s x.core && !l1Sending s core &&
    (dieOfCore x.core == dieOfCore core ||
      (!dieSending s (dieOfCore x.core) &&
        s.mem.writes.all fun w => w.die != dieOfCore x.core || bitAt w.applied (dieOfCore core)))

/-- Whether a slot of a gang's spill area meets a poisoned line (spec/22 R355). -/
def spillLost (s : State) (l : Launch) (x : Gang) : Bool :=
  x.spillSlots.any fun i => (recordPages (slotVa l i)).any fun va =>
    match keyIn s l.eff.ptRoot va with
    | some k => meetsPoison ((List.range 4096).map fun j => coreByte s x.core (k + j))
    | none => false

/-- A gang whose spill area is lost: UNCORRECTABLE_MEMORY stops every warp of it that has not retired (spec/22 R355; which of its warps
it stops is a DESIGN CHOICE, log 55). -/
def loseSpill (g : GangId) (s : State) : State :=
  ((gangWarps s g).filter fun w => decide (w.state ≠ .retired)).foldl (fun st w =>
    holdCause st w.id false
      { cause := .uncorrectableMemory, fpc := w.ctx.npc, word := 0, run := 0, lanes := 0, addr := 0, info := 0 }) s

/-- GANG_RESTORE (R33, spec/05 R107, spec/09 R187): on a core with room, once what the gang has stored can be seen there; the spill area
is free again. -/
def execGangRestore (g : GangId) (core : Nat) (s : State) : Outcome State Fault Refusal :=
  match findGang s g, launchOf s g.seq with
  | some x, some l =>
    if 0 < g.seq ∧ x.spilled = true ∧ coreGrants s l core x.spadSize x.tagSize ∧
        restoreCore x core ∧ s.mgmt.saved.contains (dieOfCore x.core) = false ∧ (x.core = core ∨ roomForGang s g l.region core) then
      let s0 := flushFor x core s
      if !storesSeen s0 x core then .next s0
      else
        let s1 := if spillLost s0 l x then loseSpill g s0 else s0
        let s2 := (gangWarps s1 g).foldl (fun st w => if w.res then releaseViews w.id x.core w.ctx st else st) s1
        .next (placeWarps g core (moveWarps g core (modGang s2 g fun y =>
          { y with spilled := false, core := core, spillSlots := [], keepDie := false })))
    else .next s
  | _, _ => .next s

/-! ### Continuation warps (spec/02 R36, R37, spec/06 R129, R130) -/

/-- The staged records that may be gathered. -/
def eligible (s : State) (l : Launch) : List Staged := l.staged.filter (releasedRecord s)

/-- Whether every warp of a launch is retired or parked. -/
def allResting (s : State) (l : Launch) : Bool :=
  decide (l.handed = l.gangs) &&
    (warpsOf s l.seq).all fun w => decide (w.state = .retired) || decide (w.state = .parked)

/-- The records of a list at some places, each place once. -/
def pickRecords (l : Launch) (picks : List Nat) : List Staged := picks.filterMap fun i => l.staged[i]?

/-- Whether a choice of records can be gathered into a warp now. -/
def mayGather (s : State) (l : Launch) (picks : List Nat) : Bool :=
  let rs := pickRecords l picks
  decide (0 < rs.length) && decide (rs.length ≤ 32) && decide (rs.length = picks.length) && decide (picks.eraseDups = picks) &&
    rs.all (releasedRecord s) && (rs.all fun r => r.entry == ((rs.map Staged.entry).headD 0)) &&
    (rs.length == 32 || allResting s l) && (takeSlot s l false).isSome

/-- The continuation warp of some records before its birth (R37). -/
def contWarp (l : Launch) (bad : WAddr → Bool) (core n : Nat) (rs : List Staged) : Warp :=
  let w := unbornWarp l core (contBase + n) 0
  let have_ := maskOf fun t => decide (t < rs.length)
  let pc : WAddr := (l.codeBase >>> 3).setWidth 54 + (((rs.map Staged.entry).headD 0).setWidth 54)
  let arg (t i : Nat) : W32 :=
    match rs[t]? with
    | some r => if i = 0 then r.tag else r.args.getD (i - 1) 0
    | none => 0
  { w with
    fromSlots := (rs.map (·.slot)).eraseDups, badEntry := if bad pc then some pc else none,
    ctx := { w.ctx with
      pcs := Vector.replicate 32 pc, segh := pc, exited := ~~~have_,
      g := Vector.ofFn fun i : Fin 96 =>
        if i.val < 15 then { val := lanesOf fun t => arg t i.val, live := allLanes, resident := false } else GReg.dead } }

/-- Whether a word address is no header of a launch's object (R35). -/
def noHeader (s : State) (l : Launch) (p : WAddr) : Bool :=
  match findObject s l.object l.eff.ptRoot with
  | some o => !o.headers.any fun h => h.setWidth 54 == p
  | none => false


/-- CONTINUATION_GATHER: released records of one entry form a continuation gang on a core with room. -/
def execContinuationGather (seq core : Nat) (picks : List Nat) (s0 : State) : Outcome State Fault Refusal :=
  let s := publishStaged seq s0
  match launchOf s seq with
  | none => .next s
  | some l =>
    if 0 < seq ∧ l.state = .started ∧ mayGather s l picks ∧ coreGrants s l core l.spad l.tags then
      let w := contWarp l (noHeader s l) core l.contCount (pickRecords l picks)
      let g := { freshGang l core w.id.gang with spad := freeSpad s l.spad }
      .next (modLaunch { s with gangs := s.gangs ++ [g], warps := s.warps ++ [w], freeCtr := s.freeCtr + l.spad / 8 + 1 } seq fun x =>
        { x with
          contCount := x.contCount + 1,
          staged := (x.staged.zipIdx.filter fun p => !picks.contains p.2).map (·.1) })
    else .next s

/-- CONTINUATION_RESUME (R36): a warp parked at a continuation word goes on when a staging slot frees. -/
def execContinuationResume (w : WarpId) (s : State) : Outcome State Fault Refusal :=
  match findWarp s w with
  | some x => if x.ctx.wait = .contextSlot ∧ dieHalted s x = false then .next (wakeIf w s) else .next s
  | none => .next s

/-- Whether a warp is parked with PARK = 9. -/
def parkedForSlot (w : Warp) : Bool := decide (w.state = .parked) && decide (w.ctx.wait = .contextSlot)

/-- Whether a launch's continuation staging cannot complete (R36): no slot is free for a warp or a record, whether or not a staged
record still waits for its release. -/
def stagingStuck (s : State) (l : Launch) : Bool :=
  decide (l.state = .started) && decide (l.handed = l.gangs) &&
    ((warpsOf s l.seq).all fun w => decide (w.state = .retired) || parkedForSlot w) &&
    (!l.staged.isEmpty || (warpsOf s l.seq).any parkedForSlot) &&
    (takeSlot s l false).isNone &&
    (allLaunches s).all fun o => decide (o.seq = l.seq) || decide (o.seq = 0) || !samePool o l ||
      (warpsOf s o.seq).all fun w => (warpSlots w).isEmpty || parkedForSlot w

/-- CONTINUATION_STALL_KILL (R36): reason 0x08. -/
def execContinuationStallKill (seq : Nat) (s0 : State) : Outcome State Fault Refusal :=
  let s := publishStaged seq s0
  match launchOf s seq with
  | some l => if 0 < seq ∧ stagingStuck s l then .next (killLaunch seq 8 s) else .next s
  | none => .next s

/-- Whether the issuing warp stands at a CALL. -/
def atCall (s : State) : Bool :=
  (ctxOf s).inSeg && (match fetchWord s (ctxOf s).npc with
    | .word w => slice w 61 3 == 5 && slice w 52 6 == 3
    | .bad _ | .wait _ | .hole _ => false)

/-- CALL_AREA_GRANT (spec/06 R125): a slot for the call area of a warp parked at a CALL. -/
def execCallAreaGrant (w : WarpId) (slot : Nat) (s : State) : Outcome State Fault Refusal :=
  match findWarp s w with
  | some x =>
    if x.ctx.wait = .contextSlot ∧ x.ctx.csp = 0 ∧ x.trap.isNone ∧ dieHalted s x = false then
      .next (withFocus w (fun s1 =>
        if atCall s1 && slotFree s1 s1.launch slot && (takeSlot s1 s1.launch (fromReservation s1.launch w)).isSome then
          let va := slotVa s1.launch slot
          let s2 := modCtx { s1 with warp := unpark false { s1.warp with callSlot := some slot } } fun c => { c with csp := va }
          clearDepths va s2
        else s1) s)
    else .next s
  | none => .next s

/-! ### Cores and partitions (spec/02 R43, spec/05 R107) -/

/-- Whether the management pair withdraws a core: the third CHECK_MISMATCH within its last 2^52 clocks has been raised (R107). -/
def withdrawDue (s : State) (core : Nat) : Bool :=
  !(coreAt s core).withdrawn && decide (3 ≤ ((coreAt s core).mismatches.filter fun c => decide (s.clock < c + 2 ^ 52)).length)

/-- CORE_WITHDRAW: the gangs of a core are taken off it until they are restored on another core of its die. -/
def execCoreWithdraw (core : Nat) (s : State) : Outcome State Fault Refusal :=
  if core < Config.dies * Config.coresPerDie ∧ withdrawDue s core then
    let off (g : Gang) : Gang := if g.core = core ∧ 0 < g.id.seq then { g with spilled := true, keepDie := true } else g
    let s1 := modCore (flushCore core s) core fun c => { c with withdrawn := true, last := [] }
    .next { s1 with gang := off s1.gang, gangs := s1.gangs.map off }
  else .next s

/-- CORE_RETURN_TO_SERVICE. -/
def execCoreReturnToService (core : Nat) (s : State) : Outcome State Fault Refusal :=
  .next (modCore s core fun c => { c with withdrawn := false, mismatches := [] })

/-- What is saved of a die: its warps and gangs, with register files and scratchpads, and its cores (R43). -/
def savedDie (s : State) (die : Nat) : SavedDie :=
  { die := die,
    warps := (allWarps s).filter fun w => decide (0 < w.id.seq) && dieOfCore w.core == die,
    gangs := (s.gang :: s.gangs).filter fun g => decide (0 < g.id.seq) && dieOfCore g.core == die,
    cores := (s.cores.drop (die * Config.coresPerDie)).take Config.coresPerDie }

/-- Two bits lost in what the Felt held of a warp of a die that is restored: the warp raises UNCORRECTABLE_MEMORY (spec/22 R356). -/
def feltError (die : Nat) (s : State) : State :=
  match nextStorage s with
  | some (.felt w) =>
    (match findWarp s w with
     | some x =>
       if dieOfCore x.core = die then
         holdCause (passStorage 8 die s) w false
           { cause := .uncorrectableMemory, fpc := x.ctx.npc, word := 0, run := 0, lanes := 0, addr := 0, info := 0 }
       else s
     | none => s)
  | some .corrected | some .register | some .scratchpad | some (.l1 ..) | some (.diePoint ..) | some (.translation _)
  | some .slotCache | some .deckle | none => s

/-- PARTITION_SWAP: a die halts while it is saved, and goes on when it is restored. -/
def execPartitionSwap (die : Nat) (save : Bool) (s : State) : Outcome State Fault Refusal :=
  let others := s.mgmt.saved.filter fun d => decide (d ≠ die)
  let copies := s.mgmt.felt.filter fun d => decide (d.die ≠ die)
  if save ∧ die < Config.dies then
    .next { s with mgmt := { s.mgmt with saved := others ++ [die], felt := copies ++ [savedDie s die] } }
  else .next (feltError die { s with mgmt := { s.mgmt with saved := others, felt := copies } })

end Sys2Proof.Machine
end

