-- ==== Sys2Proof/Machine/Services.lean ====
section
/-! DEFINITION. What the service cores do of their own: page faults, bindings, evictions and migrations (spec/08 R158, R160, spec/13
R220 to R223, spec/20 R316, R320, spec/22 R351, log 9). -/

namespace Sys2Proof.Machine

open Host (Outcome)

/-! ### Frames -/

/-- A run of n free frames at a place, cut out of one run. -/
def cutRun (start n : Nat) (run : Nat × Nat) : List (Nat × Nat) :=
  (if run.1 < start then [(run.1, start - run.1)] else []) ++
    (if start + n < run.1 + run.2 then [(start + n, run.1 + run.2 - (start + n))] else [])

/-- Whether a run holds n frames at a place. -/
def runHolds (start n : Nat) (run : Nat × Nat) : Bool := decide (run.1 ≤ start) && decide (start + n ≤ run.1 + run.2)

/-- n free frames at a place taken. -/
def takeAt (start n : Nat) : List (Nat × Nat) → Option (List (Nat × Nat))
  | [] => none
  | r :: rs => if runHolds start n r then some (cutRun start n r ++ rs) else (takeAt start n rs).map fun x => r :: x

/-- Where n free frames aligned to n stand first. -/
def firstRun (n : Nat) (runs : List (Nat × Nat)) : Option Nat :=
  (runs.map fun r => (ceilDiv r.1 n * n, r)).findSome? fun p => if runHolds p.1 n p.2 then some p.1 else none

/-- Whether the service cores of the slices that home n frames run (R351). -/
def framesUp (s : State) (f n : Nat) : Bool := serviceUp s (f * 4096) && (n == 1 || serviceUp s ((f + 1) * 4096))

/-- n aligned frames: those asked for if they are free and served, else the first (which ones is open). -/
def takeRun (s : State) (frame n : Nat) : Option (Nat × State) :=
  let at_ := if frame % n = 0 ∧ (takeAt frame n s.svc.free).isSome ∧ framesUp s frame n then some frame
    else if n = 1 then (takeFrame s).map (·.1)
    else (firstRun n s.svc.free).filter (framesUp s · n)
  match at_ with
  | none => none
  | some f => (takeAt f n s.svc.free).map fun runs => (f, { s with svc := { s.svc with free := runs } })

/-! ### PAGE_NOT_PRESENT -/

/-- The base of an address's 4 KiB page. -/
def pageBase (va : W64) : W64 := va &&& ~~~(0xFFF : W64)

/-- A service core asks the home of a cached page for a token of a level (spec/20 R316). -/
def askToken (peer region level : Nat) (s : State) : State :=
  let t := tokenAt s peer region
  putToken { t with pending := true, service := max t.service level } s

/-- A page of an allocation made present: a fresh zeroed frame, a leaf to the object's home, or a cached page once the token
covers the access; none while that cannot be done now. -/
def presentPage (root : Nat) (a : Alloc) (va : W64) (write : Bool) (frame : Nat) (s : State) : Option State :=
  let level := if write then 2 else 1
  if a.mode = 2 then
    let pa := allocPa a va
    if tokenState s a.peer (pa / 2 ^ 21) < level then some (askToken a.peer (pa / 2 ^ 21) level s)
    else
      let t := tokenAt s a.peer (pa / 2 ^ 21)
      mapPage (putToken { t with service := max t.service level } s) root (pageBase va) (leafPte 2 a.peer (pa / 4096))
  else if a.mode = 0 then
    match takeRun s frame 1 with
    | none => none
    | some (f, s1) => mapPage (clearFrame s1 f) root (pageBase va) (a.leaf ||| BitVec.ofNat 64 (f * 4096))
  else mapPage s root (pageBase va) (leafPte a.mode a.peer (allocPa a va / 4096))

/-- A page made present for a warp that waits for it. -/
def servePage (va : W64) (write : Bool) (frame : Nat) (s0 : State) : State :=
  let root := rootOf_ s0
  let s := notePage root va write s0
  match allocOf s root va with
  | none => s
  | some a =>
    match walk s root va with
    | .absent => (presentPage root a va write frame s).getD s
    | .leaf pte =>
      if a.mode = 2 ∧ leafMode pte = 2 ∧ tokenState s (leafPeer pte) (leafPa pte va / 2 ^ 21) < (if write then 2 else 1) then
        askToken (leafPeer pte) (leafPa pte va / 2 ^ 21) (if write then 2 else 1) s
      else s
    | .malformed | .hole _ | .poisoned => s

/-- PAGE_NOT_PRESENT: the service core of the page-table page serves a parked warp's page fault. -/
def execPageNotPresent (w : WarpId) (frame : Nat) (s : State) : Outcome State Fault Refusal :=
  match findWarp s w with
  | some x =>
    (match x.ctx.wait with
     | .page va write =>
       .next (withFocus w (fun s1 =>
         if pageServed s1 (rootOf_ s1) va then
           let s2 := servePage va write frame s1
           if pageReady s2 va write && !dieHalted s2 s2.warp then { s2 with warp := unpark false s2.warp } else s2
         else s1) s)
     | .none | .flags | .counter .. | .timeline .. | .barrier .. | .gridBarrier _ | .object .. | .fill _ | .lineBudget | .energy
     | .contextSlot | .matrixPrevious | .interruptionPoint | .retirement | .contextPage _ | .earlier | .pending _ | .published _
     | .quiet _ => .next s)
  | none => .next s

/-! ### OBJECT_ABSENT (spec/13 R220, R221) -/

/-- The MODE of a found object: local at home; else what the directory says, unless it is no residency of a peer's object
(DEDUCED, log 42). -/
def boundMode (s : State) (b : BindWait) (mode : Nat) : Option Nat :=
  if b.home = s.mgmt.self then some 0 else if 1 ≤ mode ∧ mode ≤ 3 then some mode else none

/-- The leaf of page i of a bound object. -/
def boundLeaf (mode peer base i : Nat) : W64 := leafPte mode (if mode = 0 then 0 else peer) (base / 4096 + i)

/-- What stood in a slot's range before a binding taken out of the tables: a mapping of another binding table's, or of privileged
software's, is overwritten (R218, R219). -/
def clearRange (b : BindWait) (n : Nat) (s : State) : State :=
  let s1 := (pageVas (slotBase b.slot) n).foldl (fun st va => unmapPage b.space va st) s
  dropTlb (fun t => decide (t.root = b.space) && inSlot b.slot t.page)
    { s1 with svc := { s1.svc with
        allocs := s1.svc.allocs.filter fun a => decide (a.root ≠ b.space) || decide (a.page ≠ (slotBase b.slot).toNat / 4096) } }

/-- The range of a found object mapped: its leaves, or for a cached object its allocation. -/
def mapObject (b : BindWait) (length mode base : Nat) (s0 : State) : Option State :=
  let n := pagesOf length
  let s := clearRange b n s0
  if mode = 2 then
    some { s with svc := { s.svc with
      allocs := s.svc.allocs ++ [{ root := b.space, page := (slotBase b.slot).toNat / 4096, pages := n, leaf := 0, peer := b.home,
                                   peerBase := base / 4096 * 4096, mode := 2, space := b.space, table := b.table, slot := b.slot, exclusive := [] }] } }
  else mapPages b.space (slotBase b.slot) (boundLeaf mode b.home base) n s

/-- A binding that fails: the slot is cleared, and every warp it parked learns the cause. -/
def failBinding (b : BindWait) (c : Cause) (s : State) : State :=
  let e := entryAt s b.space b.table b.slot
  let s1 := putEntry s b.space b.table b.slot { e with home := 0, index := 0, busy := false }
  let parked := (allWarps s).filter fun w => match w.ctx.wait with
    | .object space table slots byName => byName && decide (space = b.space) && table == b.table && slots.contains b.slot
    | _ => false
  { s1 with svc := { s1.svc with
      failed := s1.svc.failed ++ parked.map fun w => { warp := w.id, trap := w.trap.isSome, pc := w.ctx.npc, home := b.home, index := b.index, cause := c } } }

/-- A binding that succeeds. -/
def makeBound (b : BindWait) (length mode : Nat) (s : State) : State :=
  let e := entryAt s b.space b.table b.slot
  putEntry s b.space b.table b.slot
    { e with bound := true, busy := false, length := length, mode := mode, lbase := slotBase b.slot }

/-- A request taken off the list. -/
def dropBind (b : BindWait) (s : State) : State := { s with svc := { s.svc with binds := s.svc.binds.filter fun x => decide (x ≠ b) } }

/-- OBJECT_ABSENT: the service core that homes the entry has the directory's answer. -/
def execObjectAbsent (space : Nat) (table : W64) (slot : Nat) (answer : DirAnswer) (s : State) : Outcome State Fault Refusal :=
  match s.svc.binds.find? fun b => decide (b.space = space) && b.table == table && decide (b.slot = slot) with
  | none => .next s
  | some b =>
    if (match entryKey s b.space b.table b.slot with | some k => serviceUp s k | none => false) then
      match answer with
      | .unreachable => .next (failBinding b .peerUnreachable (dropBind b s))
      | .unknown => .next (failBinding b .objectUnknown (dropBind b s))
      | .found length mode base =>
        match boundMode s b mode with
        | none => .next (failBinding b .objectUnknown (dropBind b s))
        | some m =>
          if 2 ^ 36 < length then .next (failBinding b .objectUnknown (dropBind b s))
          else match mapObject b length m base s with
            | none => .next s
            | some s1 => .next (makeBound b length m (dropBind b s1))
    else .next s

/-! ### Evictions and migrations -/

/-- Whether some launch uses a binding table under a page-table root: an address space (R218). -/
def spaceExists (s : State) (space : Nat) (table : W64) : Bool :=
  (allLaunches s).any fun l => decide (0 < l.seq) && decide (l.eff.ptRoot = space) && l.eff.bindTable == table

/-- SERVICE_EVICT (spec/13 R223): never a slot with PIN = 1, and not while an access through it is under way. -/
def execServiceEvict (space : Nat) (table : W64) (slot : Nat) (s : State) : Outcome State Fault Refusal :=
  if !spaceExists s space table then .next s
  else
    let e := entryAt s space table slot
    if e.bound && !e.pin && !slotBusy s space table slot then .next (evictSlot space table slot s) else .next s

/-- The leaf of a migrated page: mode 0 at a frame (R158, R320). -/
def localLeaf (pte : W64) (frame : Nat) : W64 := (pte &&& 0xE7F) ||| BitVec.ofNat 64 (frame * 4096)

/-- The leaf of a migrating page replaced wherever it stands: a 64 KiB page has sixteen (spec/08 R156). -/
def putLeafs (m : Moving) (pte : W64) (s : State) : State :=
  if pageBits m.pte = 16 then (List.range 16).foldl (fun st i => putPte st (m.leafAt / 128 * 128 + 8 * i) pte) s
  else putPte s m.leafAt pte

/-- A page copied from its home to local frames. -/
def copyPages (k frame n : Nat) (s : State) : State :=
  (List.range n).foldl (fun st i => homeWrite1 st (frame * 4096 + i) (homeByte s (k + i))) s

/-- A migration that begins (R320, step 1): the leaf is taken out of the tables and the caches. -/
def beginMove (m : Moving) (s : State) : State :=
  let s1 := putLeafs m 0 s
  dropTlb (fun e => decide (e.root = m.root) && e.pte == m.pte && tlbCovers e (BitVec.ofNat 64 (m.page * 4096)))
    { s1 with svc := { s1.svc with moving := s1.svc.moving ++ [m] } }

/-- A migration over. -/
def endMove (m : Moving) (s : State) : State := { s with svc := { s.svc with moving := s.svc.moving.filter fun x => decide (x ≠ m) } }

/-- The first key of a migrating page at its home. -/
def moveKey (s : State) (m : Moving) : Nat := leafKey s m.pte (BitVec.ofNat 64 (m.page * 4096))

/-- A migration goes on (R320, steps 2 to 5): once every access through the leaf has been performed and what is dirty of the page has gone
home, the page is copied to local frames and its leaf becomes local; when the home no longer answers, the old leaf stands again. -/
def goMove (m : Moving) (frame : Nat) (s : State) : State :=
  let b := pageBits m.pte
  let k := moveKey s m
  if leafBusy s m.root m.page m.pte then s
  else if !reachableKey s k then endMove m (putLeafs m m.pte s)
  else
    let s1 := flushAllDies k (2 ^ b) (flushAllL1 k (2 ^ b) s)
    if leafBusy s1 m.root m.page m.pte then s1
    else match takeRun s1 frame (2 ^ (b - 12)) with
      | none => s1
      | some (f, s2) => endMove m (putLeafs m (localLeaf m.pte f) (dropCopies k (2 ^ b) (copyPages k f (2 ^ b) s2)))

/-- A requested migration starts, if its leaf is still one of mode 3. -/
def startMove (root : Nat) (va : W64) (s : State) : State :=
  match walk s root va, leafAddr s 5 root (va.toNat % 2 ^ 57) with
  | .leaf pte, some a =>
    if leafMode pte = 3 then beginMove { root := root, page := pageOf va / 2 ^ (pageBits pte - 12) * 2 ^ (pageBits pte - 12), pte := pte, leafAt := a } s
    else s
  | _, _ => s

/-- MIGRATION: a requested page moves, step by step. -/
def execMigration (root : Nat) (va : W64) (frame : Nat) (s : State) : Outcome State Fault Refusal :=
  if !pageServed s root va then .next s
  else match s.svc.moving.find? fun m => decide (m.root = root) && decide (pageOf va / 2 ^ (pageBits m.pte - 12) = m.page / 2 ^ (pageBits m.pte - 12)) with
    | some m => .next (goMove m frame s)
    | none =>
      match s.svc.moves.find? fun m => decide (m.1 = root) && decide (m.2 = pageOf va) with
      | none => .next s
      | some m => .next (startMove root va { s with svc := { s.svc with moves := s.svc.moves.filter fun x => decide (x ≠ m) } })

/-- SERVICE_CORE_RESTART (spec/22 R351): a service core stops, or the management pair restarts a stopped one; the requests it had not
finished stay raised, and the warps waiting on them parked. -/
def execServiceCoreRestart (core : Nat) (stops : Bool) (s : State) : Outcome State Fault Refusal :=
  .next (if s.mgmt.powered then { s with svc := { s.svc with running := setNth s.svc.running core (!stops) } } else s)

end Sys2Proof.Machine
end

