-- ==== Sys2Proof/Machine/EngineOps.lean ====
section
/-! DEFINITION. Engine operations in flight: their issuing context, their end, the causes they hold, and the accesses they make
through views (spec/01 R16, spec/04 R72, spec/10 R199, spec/15 R253, spec/16 R256 to R270). -/

namespace Sys2Proof.Machine

open Host (Outcome)

/-! ### The issuing context -/

/-- An operation by number. -/
def findEng (s : State) (id : Nat) : Option EngOp := s.engines.find? fun e => decide (e.id = id)

/-- An operation changed. -/
def modEng (s : State) (id : Nat) (f : EngOp → EngOp) : State :=
  { s with engines := s.engines.map fun e => if e.id = id then f e else e }

/-- The context of a warp that issued an operation changed, while it exists. -/
def onIssuer (e : EngOp) (f : Ctx → Ctx) (w : Warp) : Warp :=
  match e.trapIdx, w.trap with
  | none, none => { w with ctx := f w.ctx }
  | none, some t => { w with trap := some { t with intr := f t.intr } }
  | some i, some t => if t.idx = i then { w with ctx := f w.ctx } else w
  | some _, none => w

/-- The context that issued an operation changed. -/
def modIssuer (s : State) (e : EngOp) (f : Ctx → Ctx) : State := modWarp s e.warp (onIssuer e f)

/-- The context that issued an operation. -/
def issuerOf (s : State) (e : EngOp) : Option Ctx :=
  match findWarp s e.warp with
  | none => none
  | some w =>
    match e.trapIdx, w.trap with
    | none, none => some w.ctx
    | none, some t => some t.intr
    | some i, some t => if t.idx = i then some w.ctx else none
    | some _, none => none

/-- Whether an operation was issued by the trap context its warp is in. -/
def engOfTrap (s : State) (e : EngOp) : Bool :=
  match findWarp s e.warp with
  | some w => (match e.trapIdx, w.trap with
    | some i, some t => i == t.idx
    | some _, none | none, _ => false)
  | none => false

/-! ### The end of an operation -/

/-- The g registers that an operation writes. -/
def engLines (e : EngOp) : List Nat := (e.dst.toList.flatMap dstRegs).filterMap fun r => match r with
  | .g n => some n
  | .k _ | .p _ => none

/-- An operation completes: its number, its flag, its views (R16, R72, spec/15 R245); a record that is current follows, a warp that is
being deactivated goes on with that (spec/05 R93, R101), and the spill area of a spilled gang follows. -/
def finishEng (e : EngOp) (s : State) : State :=
  let s1 := { s with engines := s.engines.filter fun x => decide (x.id ≠ e.id) }
  let s2 := modGang s1 e.gang fun g => setTc g e.tc (finishNumber e.num (tcAt g e.tc))
  let s3 := modIssuer s2 e fun c => { dropFlag c e.flag with haz := c.haz.filter fun z => decide (z.op ≠ some e.id) }
  refreshSpill e.gang (leaveOn e.warp (refreshRecord e.warp (engLines e) (sweepDeckle e.core s3)))

/-- A cause of an operation held in its warp (spec/10 R199). -/
def engCause (s : State) (e : EngOp) (c : Cause) (addr info : W64) : State :=
  holdCause s e.warp (engOfTrap s e)
    { cause := c, fpc := e.fpc, word := e.word, run := e.run, lanes := e.run, addr := addr, info := info }

/-- Whether package writes of an operation are on their way. -/
def engWriting (s : State) (e : EngOp) : Bool := opWriting s e.id

/-- Whether package writes of one chunk or tile row are on their way. -/
def partWriting (s : State) (e : EngOp) (part : Nat) : Bool := s.mem.writes.any fun w => w.op == some e.id && w.pending && w.lane == part

/-! ### Order of views (spec/15 R252, R253) -/

/-- Whether an operation's access through one of its views is held by an earlier access through a view that meets it (R253). -/
def viewHeld (s : State) (e : EngOp) (c : Captured) : Bool := (findWarp s e.warp).any fun w => (earlierViews s w e.id).any (viewsConflict c)

/-- Whether an operation's writes are held by an earlier VRET (R252). -/
def writesHeld (s : State) (e : EngOp) : Bool := (findWarp s e.warp).any fun w => vretPending w e.id

/-- Whether an operation's access through its view of a number is held. -/
def sideHeld (s : State) (e : EngOp) (i : Nat) : Bool := (e.views[i]?).any (viewHeld s e)

/-- Whether the die of an operation is saved: its engines do nothing until it is restored (spec/02 R43). -/
def engSaved (s : State) (e : EngOp) : Bool := s.mgmt.saved.contains (dieOfCore e.core)

/-! ### Accesses of the engines -/

/-- One access of an engine: which of the operation's operands it is of (SIDE of R265, OPERAND of spec/18 R307), its address, its bytes,
what it wants. -/
structure EngAcc where
  side : Nat
  va : W64
  bytes : Nat
  want : Want
  deriving DecidableEq, Repr

/-- The checks of an engine's access (spec/08 R160, spec/13 R222); the issuing warp is the one that issues. -/
def engChk (s : State) (a : EngAcc) : LaneChk := checkGlobal s a.want a.bytes a.bytes a.va

/-- The place of an access in global memory. -/
def engKey (s : State) (a : EngAcc) : Nat := chkKey (engChk s a)

/-- What the checks of a list of accesses come to. -/
inductive EngChecked where
  | ok
  | wait (w : WaitFor)
  | bad (a : EngAcc) (c : Cause) (addr : W64)
  | hole (pa : Nat)
  deriving DecidableEq, Repr

/-- The token region that an access to an address of a cached page needs: of its leaf, or of the allocation it lies in. -/
def tokenRegionOf (s : State) (root : Nat) (va : W64) : Option (Nat × Nat) :=
  match walk s root va with
  | .leaf pte => if leafMode pte = 2 then some (leafPeer pte, leafPa pte va / 2 ^ 21) else none
  | .absent | .malformed | .hole _ | .poisoned =>
    match allocOf s root va with
    | some a => if a.mode = 2 then some (a.peer, allocPa a va / 2 ^ 21) else none
    | none => none

/-- Whether a wait of an operation's access is for a token that its home has refused the operation (spec/13 R221). -/
def waitRefused (s : State) (e : EngOp) (w : WaitFor) : Bool :=
  match w with
  | .page va _ => (match tokenRegionOf s (rootOf_ s) va with | some r => e.refused.contains r | none => false)
  | .none | .flags | .counter .. | .timeline .. | .barrier .. | .gridBarrier _ | .object .. | .fill _ | .lineBudget | .energy
  | .contextSlot | .matrixPrevious | .interruptionPoint | .retirement | .contextPage _ | .earlier | .pending _ | .published _
  | .quiet _ => false

/-- A captured view of an operation by its place in the list. -/
def engView (e : EngOp) (i : Nat) : View := (e.views[i]?).elim View.zero (·.view)

/-- The place in the list of views of the one that a side of an operation goes through (R265, spec/18 R307). -/
def sideIndex (e : EngOp) (side : Nat) : Nat :=
  match e.kind with
  | .matrix _ _ _ hasSw _ => if side = 4 ∧ !hasSw then 3 else side
  | .collCast _ => 0
  | .copy | .reduce .. | .gather | .laneCopy .. | .collReduce .. | .collGather | .tokenAcquire .. | .tokenRelease .. | .tokenQuery .. =>
    if side = 0 then 1 else if side = 1 then 0 else side

/-- The scope of a side's accesses: of its view, or of CPL. -/
def sideScope (e : EngOp) (side : Nat) : Nat :=
  match e.kind with
  | .laneCopy _ scope _ _ => scope
  | .copy | .reduce .. | .gather | .matrix .. | .collReduce .. | .collGather | .collCast _ | .tokenAcquire .. | .tokenRelease ..
  | .tokenQuery .. => (engView e (sideIndex e side)).scope

/-- The scope that an access of an operation reaches out at: a reduction is made at its element's home, whatever the scope (R261). -/
def reachScope (e : EngOp) (a : EngAcc) : Nat :=
  match e.kind with
  | .reduce .. => if a.want.writes then 3 else sideScope e a.side
  | .copy | .gather | .laneCopy .. | .matrix .. | .collReduce .. | .collGather | .collCast _ | .tokenAcquire .. | .tokenRelease ..
  | .tokenQuery .. => sideScope e a.side

/-- The first access of a list that does not pass; one that goes to a peer that does not answer fails with PEER_UNREACHABLE, one whose
token is refused with TOKEN_ABSENT; one that meets narrower stores on their way waits for them (spec/09 R181). -/
def checkAccs (s : State) (e : EngOp) : List EngAcc → EngChecked
  | [] => .ok
  | a :: as =>
    match engChk s a with
    | .ok (.global k _) _ =>
      if travels s e.core a.want.writes (reachScope e a) k a.bytes && !reachableKey s k then .bad a .peerUnreachable a.va
      else if accSettling s e.core (sideScope e a.side) (a.want.writes && decide (2 ≤ reachScope e a)) k a.bytes then .wait .earlier
      else checkAccs s e as
    | .ok .lost _ => .bad a .uncorrectableMemory a.va
    | .ok .. => checkAccs s e as
    | .bad _ c addr _ => .bad a c addr
    | .wait _ w => if waitRefused s e w then .bad a .tokenAbsent a.va else .wait w
    | .hole pa => .hole pa

/-- A service core serves the page an engine waits for. -/
def serveWait (w : WaitFor) (s : State) : State :=
  match w with
  | .page va write => if pageServed s (rootOf_ s) va then servePage va write 0 s else s
  | .none | .flags | .counter .. | .timeline .. | .barrier .. | .gridBarrier _ | .object .. | .fill _ | .lineBudget | .energy
  | .contextSlot | .matrixPrevious | .interruptionPoint | .retirement | .contextPage _ | .earlier | .pending _ | .published _
  | .quiet _ => s

/-- An operation waits for a page, which a service core serves; the token it needs is noted. -/
def engWait (e : EngOp) (w : WaitFor) (s : State) : State :=
  serveWait w (modEng s e.id fun x => { x with asked := match w with
    | .page va _ => tokenRegionOf s (rootOf_ s) va
    | .none | .flags | .counter .. | .timeline .. | .barrier .. | .gridBarrier _ | .object .. | .fill _ | .lineBudget | .energy
    | .contextSlot | .matrixPrevious | .interruptionPoint | .retirement | .contextPage _ | .earlier | .pending _ | .published _
    | .quiet _ => none })

/-- The translations an engine used, kept by the caches (spec/10 R207). -/
def noteEng (vas : List W64) (s : State) : State :=
  let root := rootOf_ s
  let used := leavesUsed s root vas
  used.foldl (fun st p => if (tlbFind st root p.2).any fun e => e.pte == p.1 then st else tlbPut st root p.2 p.1)
    (bumpFree (vas.any (tlbStale s root)) s)

/-- A byte read at a scope: its value, and whether it is poisoned. -/
def scopeByte (s : State) (core scope k : Nat) : Byte × Bool :=
  if scope = 0 then coreByte s core k
  else if scope = 3 ∧ isDirect k then (homeByte s k, linePoisoned s k)
  else dieByte s (dieOfCore core) k

/-- The narrower stores of a core and its die to what an engine reads at a wider scope, brought there first (spec/09 R181, spec/15
R253). -/
def engSettle (core scope k n : Nat) (s : State) : State :=
  if scope = 0 then s
  else
    let s1 := l1Flush core k n s
    if scope = 3 ∧ isDirect k then dieFlush (dieOfCore core) k n s1 else s1

/-- What the accesses of an operation read, brought to where they read it. -/
def settleAccs (e : EngOp) (accs : List EngAcc) (s : State) : State :=
  accs.foldl (fun st a => engSettle e.core (sideScope e a.side) (engKey s a) a.bytes st) s

/-- Bytes read by an engine at a scope: their number, and whether one met a poisoned line. -/
def engRead (s : State) (core scope k n : Nat) : Nat × Bool :=
  let xs := (List.range n).map fun i => scopeByte s core scope (k + i)
  (ofBytes (xs.map (·.1)), meetsPoison xs)

/-- The lines of some bytes poisoned everywhere: every copy of them goes home, and there they are marked (spec/22 R346, R355). -/
def poisonLines (k n : Nat) (s : State) : State :=
  let lo := k / 64 * 64
  let len := (k + n + 63) / 64 * 64 - lo
  markPoisons lo len (flushRange lo len s)

/-- The definition of the view that an operation writes through, for the release of it (spec/15 R252). -/
def engVia (e : EngOp) : List Nat := (e.views.filter (·.writes)).map (·.dno)

/-- Bytes of one 16-byte granule, in rising order of their keys, written by an engine at a scope for a part of an operation (spec/16
R269): core and die scope at the die point, wider ones as one package write, a host's memory at once. -/
def engGranule (e : EngOp) (part scope : Nat) (bad : Bool) (cells : List (Nat × Byte)) (s : State) : State :=
  let k := (cells.map (·.1)).headD 0
  if scope ≤ 1 then
    let s1 := storeDieCells s e.core cells (engVia e)
    if bad then poisonLines k 1 s1 else s1
  else
    let s1 := flushHome e.core k 1 s
    if scope = 3 ∧ isDirect k ∧ !byPacket k then
      let s2 := backCells s1 (dieOfCore e.core) cells false e.warp (some e.id) part
      if bad then poisonLines k 1 s2 else s2
    else pkgCells s1 (dieOfCore e.core) cells bad e.warp (some e.id) part

/-- A byte put among others in rising order of their keys; of two for one key the later stays, so that of two elements of a chunk of one
CPV at one place the later index stays (DESIGN CHOICE, log 58: spec/16 R260 does not specify which). -/
def putCell (c : Nat × Byte) : List (Nat × Byte) → List (Nat × Byte)
  | [] => [c]
  | d :: ds => if c.1 < d.1 then c :: d :: ds else if c.1 = d.1 then c :: ds else d :: putCell c ds

/-- Bytes in the order they are written, granule by granule: rising, each once. -/
def byGranule (cells : List (Nat × Byte)) : List (List (Nat × Byte)) :=
  let gs := (cells.map fun c => c.1 / 16).eraseDups
  gs.map fun g => (cells.filter fun c => c.1 / 16 == g).foldl (fun acc c => putCell c acc) []

/-- Bytes of a part of an operation written by an engine; those of `bad` derive from uncorrectable data. -/
def engWrite (e : EngOp) (part scope : Nat) (cells : List (Nat × Byte)) (bad : Nat → Bool) (s : State) : State :=
  (byGranule cells).foldl (fun st g => engGranule e part scope (g.any fun c => bad c.1) g st) s

/-- A cause recorded with its launch and signalled on class 1 (spec/22 R346). -/
def recordCause (seq : Nat) (c : Cause) (info : W64) (s : State) : State :=
  match activeLaunch s seq with
  | none => s
  | some l => signalLaunch l 1 (modLaunch s seq fun x => { x with cause := causeCode c, info := info })

/-- The FAULT_DOM of an operation's launch. -/
def engDom (s : State) (e : EngOp) : Nat := (launchOf s e.warp.seq).elim 0 (·.eff.faultDom)

/-- Data that a part of an operation read was uncorrectable: under FAULT_DOM 3 the operation goes on; else the cause goes to the
command processor, and the operation stops (spec/16 R264, spec/22 R346). -/
def engPoison (e : EngOp) (va : W64) (s : State) : State :=
  engCause (modEng s e.id fun x => { x with stopped := true }) e .uncorrectableMemory va va

end Sys2Proof.Machine
end

