-- ==== Sys2Proof/Machine/Fabric.lean ====
section
/-! DEFINITION. The memory system and the fabric on their own: write-backs, package-scope writes applied, packets and
acknowledgements, lost peers, tokens granted, refused and recalled (spec/20 R310 to R319, spec/09 R189). -/

namespace Sys2Proof.Machine

open Host (Outcome)

/-! ### Write-backs (R312, spec/09 R189) -/

/-- The bytes of an L1 line. -/
def lineBytes : Nat := 128

/-- Whether a unit has dirty bytes of a line: in a list of keyed bytes. -/
def lineOf (line k : Nat) : Bool := decide (k % 2 ^ 68 / lineBytes = line)

/-- L1_WRITEBACK: the core's dirty bytes of a line go to its die; else the die's go to their home; else the core's clean copies
are dropped. -/
def execL1Writeback (core line : Nat) (s : State) : Outcome State Fault Refusal :=
  let d := dieOfCore core
  let up := (dirtyL1 s core).filter (lineOf line)
  let out := (dirtyDie s d).filter (lineOf line)
  if !up.isEmpty then .next (l1FlushKeys core up s)
  else if !out.isEmpty then .next (dieFlushKeys d out s)
  else .next { s with mem := { s.mem with
    l1 := s.mem.l1.filter fun e => decide (e.1 / 2 ^ 68 ≠ core) || !lineOf line e.1 || e.2.sent.isSome } }

/-! ### Package-scope writes (R310, R311) -/

/-- A write that every die has applied is performed. -/
def sweepWrites (s : State) : State :=
  { s with mem := { s.mem with writes := s.mem.writes.filter fun w => !(w.home && w.applied == BitVec.allOnes 16) } }

/-- The value an atomic read, put into its operation, or kept for the peer it came from. -/
def returnValue (w : PkgWrite) (v : Nat) (s : State) : State :=
  match w.op with
  | none => { s with fabric := { s.fabric with
      inbound := s.fabric.inbound.map fun x => if x.write = some w.id then { x with old := v } else x } }
  | some op => modOp s w.warp op fun o => match o.kind with
    | .memory fn n sc accs vals view => { o with kind := .memory fn n sc accs (setLane vals w.lane v) view }
    | .result .. | .viewRetire .. | .ringClaim .. | .ringRelease .. | .keySet .. | .evict .. => o

/-- An atomic that met a poisoned line is not performed; its cause is held (spec/10 R199). A reduction of an engine stops its operation, but
under FAULT_DOM 3 goes on: the line stays poisoned (spec/16 R264, spec/22 R346). -/
def atomicLost (w : PkgWrite) (s : State) : State :=
  match w.op with
  | none => s
  | some op =>
    match findEng s op with
    | some e => if engDom s e = 3 then recordCause e.warp.seq .uncorrectableMemory 0 s else engPoison e 0 s
    | none =>
    match findOp s w.warp op with
    | some (x, o) =>
      let va := (match o.kind with
        | .memory _ _ _ accs _ _ => failVa accs (laneBit w.lane)
        | .result .. | .viewRetire .. | .ringClaim .. | .ringRelease .. | .keySet .. | .evict .. => 0)
      holdCause s w.warp (ofTrapCtx x op)
        { cause := .uncorrectableMemory, fpc := o.fpc, word := o.word, run := o.run, lanes := laneBit w.lane, addr := va, info := va }
    | none => s

/-- A write whose turn has come applied at its home: an atomic forms its bytes there. -/
def applyHome (w : PkgWrite) (s : State) : State :=
  match w.atom with
  | none => pkgAtHome s w w.bytes
  | some op =>
    let n := w.bytes.length
    if homePoison s w.key n then atomicLost w (pkgAtHome s w [])
    else
      let old := ofBytes (homeBytes s w.key n)
      returnValue w old (pkgAtHome s w (bytesOf n (atomNew op (8 * n) old w.x w.swap)))

/-- Whether a write's turn at its home has come (step 2 of R310). Where no die is the home, the writes in its causal past that have none
either come first; one of a device's memory is applied when its packet is (R313). -/
def homeDue (s : State) (w : PkgWrite) : Bool :=
  !w.home && !byPacket w.key && (match writeHome w with
    | some h => covers (clockOf s h) w.stamp
    | none => s.mem.writes.all fun x => x.home || byPacket x.key || (writeHome x).isSome || decide (w.stamp.getD x.die 0 < x.seq))

/-! ### What a peer's streams bring (R313) -/

/-- The landing die of a peer's stream, fixed for the stream (R313; which one is open, log 5). -/
def landingDie (peer die : Nat) : Nat := Config.freeNat (2 ^ 64 + peer * 16 + die) % Config.dies

/-- Whether a packet received has done what it has to before it is acknowledged: a write is performed at package scope, an atomic at its
home and, with the causal past of what it returns, at the landing die (R310), and a load comes after what came before it on its stream,
which is `ahead`. -/
def inboundDone (s : State) (ahead : List Inbound) (x : Inbound) : Bool :=
  match x.write with
  | some id => (match findWrite s id with
    | some w => x.atom && w.home && bitAt w.applied w.die
    | none => true)
  | none => !(ahead.any fun y => decide (y.peer = x.peer) && decide (y.die = x.die))

/-- The bytes an acknowledgement carries: of a load those at the landing die, none where they are not there or poisoned; of an atomic the
old value. -/
def replyBytes (s : State) (x : Inbound) : List Byte :=
  if x.write.isSome then (if x.atom then bytesOf x.bytes x.old else [])
  else
    let xs := (List.range x.bytes).map fun i => dieByte s (landingDie x.peer x.die) (x.pa + i)
    if memTop < x.pa + x.bytes ∨ meetsPoison xs then [] else xs.map (·.1)

/-- The packets received that are done acknowledged. -/
def serveInbound (s : State) : State :=
  let r := s.fabric.inbound.foldl (fun (acc : List Inbound × List Reply) x =>
    if inboundDone s acc.1 x then (acc.1, acc.2 ++ [{ peer := x.peer, die := x.die, seq := x.seq, bytes := replyBytes s x }])
    else (acc.1 ++ [x], acc.2)) ([], [])
  if r.2.isEmpty then s else { s with fabric := { s.fabric with inbound := r.1, replies := s.fabric.replies ++ r.2 } }

/-- PKG_WRITE_HOME_APPLY. -/
def execPkgWriteHomeApply (write : Nat) (s : State) : Outcome State Fault Refusal :=
  match findWrite s write with
  | some w => if homeDue s w then .next (serveInbound (sweepWrites (applyHome w s))) else .next s
  | none => .next s

/-- PKG_WRITE_DIE_APPLY. -/
def execPkgWriteDieApply (write die : Nat) (s : State) : Outcome State Fault Refusal :=
  match findWrite s write with
  | some w => if dieDue s w die then .next (serveInbound (sweepWrites (pkgAtDie s w die))) else .next s
  | none => .next s

/-! ### Packets (R313, R314) -/

/-- What a packet does at the peer when it is its turn, with the values its atomics return. -/
def applyPacket (p : Sent) (s : State) : State :=
  let s1 := match p.write.bind (findWrite s) with
    | some w => sweepWrites (applyHome w s)
    | none => s
  p.accs.foldl (fun st a =>
    match a.place with
    | .global k _ =>
      (match p.fn with
       | .store | .storeFull => homeCells st p.die (keyed k (bytesOf p.bytes a.data)) false p.warp p.op a.lane
       | .atomic op =>
         let old := ofBytes (homeBytes st k p.bytes)
         let st1 := homeCells st p.die (keyed k (bytesOf p.bytes (atomNew op (8 * p.bytes) old a.data a.swap))) false p.warp p.op a.lane
         modOp st1 p.warp (p.op.getD 0) fun o => match o.kind with
           | .memory fn n sc accs vals view => { o with kind := .memory fn n sc accs (setLane vals a.lane old) view }
           | .result .. | .viewRetire .. | .ringClaim .. | .ringRelease .. | .keySet .. | .evict .. => o
       | .load | .loadFull _ => st)
    | .scratch _ | .record _ | .lost => st) s1

/-- Whether a packet is the first outstanding one of its stream. -/
def firstSent (s : State) (p : Sent) : Bool :=
  s.fabric.sent.all fun q => decide (q.peer ≠ p.peer) || decide (q.die ≠ p.die) || decide (p.seq ≤ q.seq)

/-- A packet by its stream and number. -/
def findSent (s : State) (peer die seq : Nat) : Option Sent :=
  s.fabric.sent.find? fun p => decide (p.peer = peer) && decide (p.die = die) && decide (p.seq = seq)

/-- The number of the last packet of a peer's stream applied here. -/
def lastSeen (s : State) (peer die : Nat) : Nat :=
  ((s.fabric.seen.find? fun e => decide (e.1 = (peer, die))).map (·.2)).getD 0

/-- A packet of a stream counted as applied. -/
def markSeen (peer die seq : Nat) (s : State) : State :=
  { s with fabric := { s.fabric with
      seen := (s.fabric.seen.filter fun e => decide (e.1 ≠ (peer, die))) ++ [((peer, die), seq)] } }

/-- Bytes landed as package-scope writes of a die, in memory only. -/
def landWrite (die pa : Nat) (bs : List Byte) (atom : Option Nat) (x d : Nat) (s : State) : State :=
  if pa + bs.length ≤ memTop then pkgIssue s die pa bs atom x d outside none 0 else s

/-- A packet of a peer's stream: the next one is applied; a duplicate is acknowledged again and discarded; any other comes too early. -/
def receive (peer die seq : Nat) (k : State → State) (s : State) : State :=
  if seq = lastSeen s peer die + 1 then serveInbound (k (markSeen peer die seq s))
  else match s.fabric.replies.find? fun r => decide (r.peer = peer) && decide (r.die = die) && decide (r.seq = seq) with
    | some r => { s with fabric := { s.fabric with replies := s.fabric.replies ++ [r] } }
    | none => s

/-- A packet taken in, to be acknowledged when it is done. -/
def takeIn (x : Inbound) (s : State) : State := { s with fabric := { s.fabric with inbound := s.fabric.inbound ++ [x] } }

/-- A write or an atomic of a peer landed. -/
def landPacket (peer die seq pa : Nat) (bs : List Byte) (atom : Option Nat) (x d : Nat) (s : State) : State :=
  takeIn { peer := peer, die := die, seq := seq, write := some s.mem.nextWrite, atom := atom.isSome, old := 0, pa := pa, bytes := bs.length }
    (landWrite (landingDie peer die) pa bs atom x d s)

/-- A byte of a peer's memory written there by another agent: a local copy of it keeps what it holds until its token is granted anew
(R318, R319). -/
def peerStore1 (peer : Nat) (s : State) (c : Nat × Byte) : State :=
  let old := homeByte s c.1
  let s1 := homeWrite1 s c.1 c.2
  if tokenState s peer (keyPa c.1 / 2 ^ 21) = 0 ∨ (AList.find s.mem.cached c.1).isSome ∨ old = c.2 then s1
  else { s1 with mem := { s1.mem with cached := AList.put s1.mem.cached c.1 old } }

/-- FABRIC_PACKET_RECEIVE: an acknowledgement of one of this device's packets; a peer's packet, applied in sequence order and once; the
home's acknowledgement of a token given up; or what another agent has written to a peer's memory. -/
def execFabricPacketReceive (p : Packet) (s : State) : Outcome State Fault Refusal :=
  match p with
  | .ack peer die seq =>
    (match findSent s peer die seq with
     | some q =>
       if firstSent s q then
         let s1 := applyPacket q s
         .next { s1 with fabric := { s1.fabric with sent := s1.fabric.sent.filter fun x => decide (x ≠ q) } }
       else .next s
     | none => .next s)
  | .write peer die seq pa bytes => .next (receive peer die seq (landPacket peer die seq pa bytes none 0 0) s)
  | .atomic peer die seq pa op size x d =>
    if 0x04 ≤ op ∧ op ≤ 0x0C then
      .next (receive peer die seq (landPacket peer die seq pa (List.replicate size 0) (some op) x.toNat d.toNat) s)
    else .next s
  | .load peer die seq pa count =>
    .next (receive peer die seq
      (takeIn { peer := peer, die := die, seq := seq, write := none, atom := false, old := 0, pa := pa, bytes := count }) s)
  | .tokenAck peer region =>
    .next (if (tokenAt s peer region).giving then putToken { tokenAt s peer region with giving := false } s else s)
  | .stored peer pa bytes =>
    if pa + bytes.length ≤ 2 ^ 44 ∧ peer < 0xC0000 ∧ peer ≠ s.mgmt.self then
      .next ((keyed (peerKey peer pa) bytes).foldl (peerStore1 peer) s)
    else .next s

/-- FABRIC_RESEND_TIMEOUT: the packet is sent again, three times on its link and then by any other path; `link` is the link it takes,
and what the Strata count (spec/22 R357; log 46). -/
def execFabricResendTimeout (peer die seq link : Nat) (s : State) : Outcome State Fault Refusal :=
  match findSent s peer die seq with
  | none => .next s
  | some q =>
    if 32 ≤ link then .next s else
    .next (countStrata ((if q.resends < 3 then 3 else 13) * 2 ^ 20 + link) { s with fabric := { s.fabric with
    sent := s.fabric.sent.map fun p =>
      if p.peer = peer ∧ p.die = die ∧ p.seq = seq then { p with resends := p.resends + 1 } else p } })

/-! ### Lost peers (R315) -/

/-- Whether an engine operation has a part in flight with a peer: a token operation, or a collective with that member. -/
def engWith (peer : Nat) (e : EngOp) : Bool :=
  match e.kind with
  | .tokenAcquire p _ _ | .tokenRelease p _ | .tokenQuery p _ => p == peer
  | .collReduce .. | .collGather | .collCast _ => e.members.any fun m => m.1 == peer
  | .copy | .reduce .. | .gather | .laneCopy .. | .matrix .. => false

/-- The engine operation of a packet. -/
def packetEng (s : State) (p : Sent) : Option EngOp := p.op.bind (findEng s)

/-- The launches with an access to a peer in flight: in a packet, or in an engine operation with a part there. -/
def launchesWith (s : State) (peer : Nat) : List Nat :=
  ((((s.fabric.sent.filter fun p => decide (p.peer = peer)).map fun p => p.warp.seq) ++
    ((s.engines.filter (engWith peer)).map fun e => e.warp.seq)).filter fun n => decide (0 < n)).eraseDups

/-- The words of a launch with an access to a peer in flight: engine operations, and operations of warps. -/
def lostWords (s : State) (peer seq : Nat) : List EngOp × List (Warp × Op) :=
  let ps := s.fabric.sent.filter fun p => decide (p.peer = peer) && decide (p.warp.seq = seq)
  (ps.filterMap (packetEng s) ++ s.engines.filter (fun e => engWith peer e && decide (e.warp.seq = seq)),
   ps.filterMap fun p => p.op.bind (findOp s p.warp))

/-- PEER_LOST of one launch, for a word with an access to the peer in flight. Where the launch has nothing there but stores that a release
has written back, which are no word's any more, the warp that wrote them back has it, without a word (DESIGN CHOICE, log 33). -/
def raiseLost (peer seq : Nat) (s : State) : State :=
  let info := BitVec.ofNat 64 peer
  match lostWords s peer seq with
  | (_, (x, o) :: _) =>
    holdCause s x.id (ofTrapCtx x o.id)
      { cause := .peerLost, fpc := o.fpc, word := o.word, run := o.run, lanes := o.run, addr := 0, info := info }
  | (e :: _, []) => engCause s e .peerLost 0 info
  | ([], []) =>
    match s.fabric.sent.find? fun p => decide (p.peer = peer) && decide (p.warp.seq = seq) with
    | some p => holdCause s p.warp false { cause := .peerLost, fpc := 0, word := 0, run := 0, lanes := 0, addr := 0, info := info }
    | none => s

/-- A packet's effect done with nothing written. -/
def voidPacket (p : Sent) (s : State) : State :=
  match p.write.bind (findWrite s) with
  | some w => sweepWrites (pkgAtHome s w [])
  | none => s

/-- An operation whose packet is abandoned returns 0 in its lanes (spec/10 R199). -/
def zeroLanes (p : Sent) (s : State) : State :=
  match p.op with
  | none => s
  | some op => modOp s p.warp op fun o => match o.kind with
    | .memory fn n sc accs vals view => { o with kind := .memory fn n sc accs (p.accs.foldl (fun v a => setLane v a.lane 0) vals) view }
    | .result .. | .viewRetire .. | .ringClaim .. | .ringRelease .. | .keySet .. | .evict .. => o

/-- A packet abandoned, whether or not the peer has applied it (R315). -/
def abandon (s : State) (p : Sent) : State :=
  bumpFree true (zeroLanes p (if Config.freeBool s.freeCtr then applyPacket p s else voidPacket p s))

/-- What this device has under way with a peer and holds of it is over: packets are abandoned, tokens dropped with the copies of the
peer's memory, and operations that wait for the peer end. -/
def dropPeer (peer : Nat) (s : State) : State :=
  let gone := s.fabric.sent.filter fun p => decide (p.peer = peer)
  let s1 := gone.foldl abandon s
  let s2 := dropCached (peerKey peer 0) (2 ^ 44)
    { s1 with fabric := { s1.fabric with
        tokens := s1.fabric.tokens.filter fun t => decide (t.peer ≠ peer),
        sent := s1.fabric.sent.filter fun p => decide (p.peer ≠ peer),
        inbound := s1.fabric.inbound.filter fun x => decide (x.peer ≠ peer) } }
  (s2.engines.filter (engWith peer)).foldl (fun st e => finishEng e st) s2

/-- PEER_LOST: the management pair declares a peer lost. -/
def execPeerLost (peer : Nat) (s : State) : Outcome State Fault Refusal :=
  let s1 := (launchesWith s peer).foldl (fun st seq => raiseLost peer seq st) s
  let s2 := dropPeer peer s1
  .next { s2 with fabric := { s2.fabric with lost := (s2.fabric.lost ++ [peer]).eraseDups } }

/-- PEER_RESTORE. -/
def execPeerRestore (peer : Nat) (s : State) : Outcome State Fault Refusal :=
  .next { s with fabric := { s.fabric with
    lost := s.fabric.lost.filter fun p => decide (p ≠ peer), cut := s.fabric.cut.filter fun p => decide (p ≠ peer) } }

/-- LINK_FAILURE: a link is down, and the peers named have no path left. -/
def execLinkFailure (link : Nat) (cut : List Nat) (s : State) : Outcome State Fault Refusal :=
  if 32 ≤ link then .next s
  else .next { s with fabric := { s.fabric with
    links := s.fabric.links.filter fun l => decide (l ≠ link), cut := (s.fabric.cut ++ cut).eraseDups } }

/-! ### Tokens (R316 to R319) -/

/-- The first byte of a token region at its peer. -/
def regionKey (peer region : Nat) : Nat := peerKey peer (region * 2 ^ 21)

/-- Whether a write to a region, or to what this device has cached of it, is on its way. -/
def regionWriting (s : State) (peer region : Nat) : Bool := peerWriting s (regionKey peer region) (2 ^ 21)

/-- TOKEN_GRANT: the home answers a request; what this device has cached of the region is older than the grant. What the device has on its
way to the region reaches the home first. -/
def execTokenGrant (peer region : Nat) (exclusive : Bool) (s : State) : Outcome State Fault Refusal :=
  let t := tokenAt s peer region
  let level := max t.state (if exclusive then 2 else 1)
  if t.pending && decide (t.state < level) && !regionWriting s peer region then
    .next (putToken { t with state := level, pending := decide (level < max (holdLevel t) t.service) }
      (dropCached (regionKey peer region) (2 ^ 21) s))
  else .next s

/-- The acquiring operations that a token state does not cover. -/
def uncovered (t : Token) (e : EngOp) : Bool :=
  match e.kind with
  | .tokenAcquire p r x => p == t.peer && r == t.region && decide (t.state < (if x then 2 else 1))
  | .copy | .reduce .. | .gather | .laneCopy .. | .matrix .. | .collReduce .. | .collGather | .collCast _ | .tokenRelease ..
  | .tokenQuery .. => false

/-- A hold given back. -/
def lowerHold (x : Bool) (t : Token) : Token := if x then { t with xholds := t.xholds - 1 } else { t with sholds := t.sholds - 1 }

/-- An acquisition refused: TOKEN_ABSENT is held, the count it raised is lowered, and the operation is over. The reason that INFO
carries has no number in R318 (log 5). -/
def refuseAcquire (s : State) (e : EngOp) : State :=
  match e.kind with
  | .tokenAcquire p r x =>
    engCause (finishEng e (putToken (lowerHold x (tokenAt s p r)) (bumpFree true s))) e .tokenAbsent (BitVec.ofNat 64 e.tag)
      (Config.freeWord s.freeCtr &&& 0x1FF)
  | .copy | .reduce .. | .gather | .laneCopy .. | .matrix .. | .collReduce .. | .collGather | .collCast _ | .tokenRelease ..
  | .tokenQuery .. => s

/-- Whether a warp waits for a page of a cached object in a region. -/
def waitsForRegion (s : State) (peer region : Nat) (w : Warp) : Bool :=
  match w.ctx.wait, launchOf s w.id.seq with
  | .page va _, some l => tokenRegionOf s l.eff.ptRoot va == some (peer, region)
  | _, _ => false

/-- An engine operation learns that the token it asked for is refused. -/
def noteRefused (peer region : Nat) (e : EngOp) : EngOp :=
  if e.asked = some (peer, region) then { e with asked := none, refused := e.refused ++ [(peer, region)] } else e

/-- TOKEN_REFUSE (R318, spec/13 R221): the acquisitions not covered fail, and so do the accesses that wait for a page. -/
def execTokenRefuse (peer region : Nat) (s : State) : Outcome State Fault Refusal :=
  let t := tokenAt s peer region
  if t.pending then
    let waiting := (allWarps s).filter (waitsForRegion s peer region)
    let s1 := (s.engines.filter (uncovered t)).foldl refuseAcquire s
    let t1 := tokenAt s1 peer region
    let s2 := putToken { t1 with pending := false, service := min t1.service t1.state } s1
    .next { s2 with engines := s2.engines.map (noteRefused peer region), svc := { s2.svc with refused := s2.svc.refused ++ waiting.map fun w => (w.id, peer, region) } }
  else .next s

/-- The cached pages of a region: their root and address. -/
def cachedPages (s : State) (peer region : Nat) : List (Nat × W64) :=
  s.svc.allocs.flatMap fun a =>
    if a.mode = 2 ∧ a.peer = peer then
      (pageVas (BitVec.ofNat 64 (a.page * 4096)) a.pages).filterMap fun va =>
        match walk s a.root va with
        | .leaf pte => if leafPa pte va / 2 ^ 21 = region then some (a.root, va) else none
        | .absent | .malformed | .hole _ | .poisoned => none
    else []

/-- The service cores' use of a region given up (R316): its dirty lines go home, and its cached pages are made not present. -/
def evictRegion (peer region : Nat) (s : State) : State :=
  let pages := cachedPages s peer region
  let s1 := returnCopies (regionKey peer region) (2 ^ 21) s
  dropTlb (fun e => pages.any fun p => decide (e.root = p.1) && tlbCovers e p.2)
    (pages.foldl (fun st p => forgetExclusive p.1 p.2 (unmapPage p.1 p.2 st)) s1)

/-- TOKEN_RECALL: the home recalls or downgrades the service cores' use; the dirty lines go home, the cached pages are made not
present, and then the token is given up to what the program's holds need. -/
def execTokenRecall (peer region : Nat) (toShared : Bool) (s : State) : Outcome State Fault Refusal :=
  let t := tokenAt s peer region
  if t.state ≤ (if toShared then 1 else 0) ∨ t.state ≤ holdLevel t then .next s
  else if (cachedPages s peer region).any fun p => pageBusy s p.1 p.2 then .next s
  else
    let s1 := evictRegion peer region s
    .next (if regionWriting s1 peer region then s1 else putToken { tokenAt s1 peer region with service := 0, state := holdLevel t } s1)

end Sys2Proof.Machine
end

