-- ==== Sys2Proof/Machine/Engine.lean ====
section
/-! DEFINITION. The chunks of copies, reductions, gathers, lane copies and collectives, and the end of every engine operation
(spec/16 R256 to R270, spec/20 R318, R323, R324, spec/18 R301, R302). -/

namespace Sys2Proof.Machine

open Host (Outcome)

/-! ### Elements (R256, spec/15 R240) -/

/-- The index of an element from its number: dimension 0 varies fastest. -/
def indexFrom (v : View) : List Nat → Nat → List Nat
  | [], _ => []
  | k :: ks, n => n % v.ext k :: indexFrom v ks (n / v.ext k)

/-- The index of element n. -/
def View.index (v : View) (n : Nat) : List Nat := indexFrom v v.dims n

/-- The numbers of a chunk's elements. -/
def chunkElems (count c : Nat) : List Nat := ((List.range 64).map fun i => 64 * c + i).filter fun n => decide (n < count)

/-- The access of one element. -/
def elemAcc (side : Nat) (want : Want) (v : View) (idx : List Nat) : EngAcc :=
  { side := side, va := v.addr idx, bytes := v.esize, want := want }

/-! ### Moves -/

/-- One element moved by a chunk: from a source, or with a value already known, to a destination; `bad`: the value derives from
uncorrectable data. -/
structure Move where
  src : Option EngAcc
  value : Nat
  bad : Bool
  dst : EngAcc
  deriving DecidableEq, Repr

/-- The reads of some moves. -/
def movesReads (ms : List Move) : List EngAcc := ms.filterMap (·.src)

/-- The accesses of some moves, each source before its destination. -/
def movesAccs (ms : List Move) : List EngAcc := ms.flatMap fun m => (match m.src with | some a => [a] | none => []) ++ [m.dst]

/-- The moves of a copy's or reduction's chunk (R260). -/
def copyMoves (e : EngOp) (c : Nat) : List Move :=
  let d := engView e 0
  let v := engView e 1
  (chunkElems d.count c).map fun n =>
    { src := some (elemAcc 0 .read v (v.index n)), value := 0, bad := false, dst := elemAcc 1 .write d (d.index n) }

/-- The indices a gather has read, each with whether it was uncorrectable. -/
def gatherIndices (e : EngOp) : List (W64 × Bool) := e.matched.getD []

/-- The moves of a gather's chunk: rows with index 0xFFFFFFFF are skipped (R262); a row whose index was uncorrectable has no source, and
its destination is written poisoned (R264). -/
def gatherMoves (e : EngOp) (c : Nat) : List Move :=
  let d := engView e 0
  let v := engView e 1
  (chunkElems d.count c).filterMap fun n =>
    let idx := d.index n
    let entry := (gatherIndices e).getD (idx.getD 1 0) (0, false)
    let row := entry.1.toNat
    if entry.2 then some { src := none, value := 0, bad := true, dst := elemAcc 1 .write d idx }
    else if row = 0xFFFFFFFF then none
    else some { src := some (elemAcc 0 .read v [idx.getD 0 0, row]), value := 0, bad := false, dst := elemAcc 1 .write d idx }

/-- The moves of a lane of CPL to global memory (R263). -/
def laneMoves (bytes c : Nat) (pairs : List (Nat × W64 × W64)) : List Move :=
  (pairs.filter fun p => decide (p.1 = c)).map fun p =>
    { src := some { side := 0, va := p.2.1, bytes := bytes, want := .read }, value := 0, bad := false,
      dst := { side := 1, va := p.2.2, bytes := bytes, want := .write } }

/-- The moves of a collective's chunk: the combined values (spec/20 R323). -/
def collMoves (e : EngOp) (c : Nat) : List Move :=
  let d := engView e 0
  (chunkElems d.count c).map fun n =>
    let x := (e.matched.getD []).getD n (0, false)
    { src := none, value := x.1.toNat, bad := x.2, dst := elemAcc 1 .write d (d.index n) }

/-! ### Applying a chunk -/

/-- Whether a reduction of a scope goes to its home as a package write: at package scope, and to a device's memory (spec/20 R310,
R313). -/
def reduceTravels (scope k : Nat) : Bool := decide (2 ≤ scope) || byPacket k

/-- Whether a move reduces into a poisoned line at once; one that travels finds out at the home. -/
def reducePoison (s : State) (e : EngOp) (m : Move) : Bool :=
  match e.kind with
  | .reduce .. =>
    let k := engKey s m.dst
    !reduceTravels (sideScope e 1) k && homePoison s k m.dst.bytes
  | .copy | .gather | .laneCopy .. | .matrix .. | .collReduce .. | .collGather | .collCast _ | .tokenAcquire .. | .tokenRelease ..
  | .tokenQuery .. => false

/-- Whether what a move reads met a poisoned line. -/
def movePoison (s : State) (e : EngOp) (m : Move) : Bool :=
  (match m.src with
   | some a => (engRead s e.core (sideScope e a.side) (engKey s a) a.bytes).2
   | none => false) || reducePoison s e m

/-- The address of what a move read, for a cause. -/
def moveVa (m : Move) : W64 := m.src.elim m.dst.va (·.va)

/-- What a move puts where: a key, bytes in number, the value, and whether it derives from uncorrectable data. -/
structure EngPut where
  key : Nat
  bytes : Nat
  value : Nat
  bad : Bool
  deriving DecidableEq, Repr

/-- What a move comes to, with everything read as it stands. -/
def movePut (s : State) (e : EngOp) (m : Move) : EngPut :=
  { key := engKey s m.dst, bytes := m.dst.bytes,
    value := match m.src with
      | some a => (engRead s e.core (sideScope e a.side) (engKey s a) a.bytes).1
      | none => m.value,
    bad := m.bad || movePoison s e m }

/-- The bytes of some elements of one granule, in rising order of their keys. -/
def putCells (ps : List EngPut) : List (Nat × Byte) :=
  (ps.flatMap fun p => keyed p.key (bytesOf p.bytes p.value)).foldl (fun acc c => putCell c acc) []

/-- Some elements of one granule, each once, reduced into their destination (R260) as one write (R269): at package scope and to a device a
package write that forms them at the home; at a narrower scope at the home slice at once. -/
def reduceGranule (e : EngOp) (op ty part : Nat) (s : State) (ps : List EngPut) : State :=
  let x := cellSpan (putCells ps)
  let bad := ps.any (·.bad)
  let die := dieOfCore e.core
  let s0 := flushHome e.core x.1 x.2.1.length s
  if 2 ≤ sideScope e 1 then
    modWrite (pkgIssue s0 die x.1 (x.2.1.map fun _ => 0) (some (reduceCode op ty)) (ofBytes x.2.1) 0 e.warp (some e.id) part)
      s0.mem.nextWrite fun w => { w with gaps := x.2.2, bad := bad }
  else if byPacket x.1 then
    putWrite s0 { plainWrite s0 die x.1 (x.2.1.map fun _ => 0) e.warp (some e.id) part with
      atom := some (reduceCode op ty), x := ofBytes x.2.1, gaps := x.2.2, bad := bad }
  else
    let n := x.2.1.length
    let new := bytesOf n (atomNew (reduceCode op ty) (8 * n) (ofBytes (homeBytes s0 x.1 n)) (ofBytes x.2.1) 0)
    let s1 := backCells s0 die ((keyed x.1 new).filter fun c => !x.2.2.contains (c.1 - x.1)) false e.warp (some e.id) part
    if bad then poisonLines x.1 n s1 else s1

/-- How many earlier elements of a list have the destination of one. -/
def sameBefore (ps : List EngPut) (i : Nat) (p : EngPut) : Nat := ((ps.take i).filter fun q => q.key == p.key).length

/-- Elements in the order they are reduced: granule by granule, those that share a destination one after the other. That they go in
ascending order is the model's choice (DESIGN CHOICE, log 58). -/
def reduceOrder (ps : List EngPut) : List (List EngPut) :=
  ((ps.map fun p => p.key / 16).eraseDups).flatMap fun g =>
    let own := ps.filter fun p => p.key / 16 == g
    (List.range own.length).filterMap fun r =>
      let layer := (own.zipIdx.filter fun q => sameBefore own q.2 q.1 == r).map (·.1)
      if layer.isEmpty then none else some layer

/-- Whether a byte of some puts derives from uncorrectable data. -/
def putBad (ps : List EngPut) (k : Nat) : Bool := ps.any fun p => p.bad && decide (p.key ≤ k) && decide (k < p.key + p.bytes)

/-- The puts of a chunk performed, granule by granule: reductions at their homes, the bytes of anything else where they stand. -/
def putAll (e : EngOp) (part : Nat) (ps : List EngPut) (s : State) : State :=
  match e.kind with
  | .reduce op ty => (reduceOrder ps).foldl (reduceGranule e op ty part) s
  | .copy | .gather | .laneCopy .. | .matrix .. | .collReduce .. | .collGather | .collCast _ | .tokenAcquire .. | .tokenRelease ..
  | .tokenQuery .. => engWrite e part (sideScope e 1) (ps.flatMap fun p => keyed p.key (bytesOf p.bytes p.value)) (putBad ps) s

/-- A chunk marked applied (R266). -/
def markApplied (e : EngOp) (c : Nat) (s : State) : State :=
  modEng s e.id fun x => { x with applied := x.applied ++ [c], fetched := x.fetched.filter fun y => y.1 != c }

/-- The ENGINE code of R265. -/
def engineCode (e : EngOp) : Nat :=
  match e.kind with
  | .gather | .laneCopy .. => 1
  | .copy | .reduce .. | .matrix .. | .collReduce .. | .collGather | .collCast _ | .tokenAcquire .. | .tokenRelease ..
  | .tokenQuery .. => 0

/-- A chunk's check failed: the operation stops, and COPY_FAULT, or for a collective COLL_FAULT, is held (R264, R265, spec/20
R324). -/
def chunkFault (e : EngOp) (c : Nat) (a : EngAcc) (u : Cause) (addr : W64) (s : State) : State :=
  if u = .uncorrectableMemory then engPoison e addr s else
  let s1 := modEng s e.id fun x => { x with stopped := true }
  match e.kind with
  | .collReduce .. | .collGather | .collCast _ => engCause s1 e .collFault addr (BitVec.ofNat 64 (e.num % 2 ^ 16 * 2 ^ 12 + 2))
  | .copy | .reduce .. | .gather | .laneCopy .. | .matrix .. | .tokenAcquire .. | .tokenRelease .. | .tokenQuery .. =>
    engCause s1 e .copyFault addr
      (BitVec.ofNat 64 (c * 2 ^ 32 + engineCode e * 2 ^ 30 + a.side * 2 ^ 28 + e.num % 2 ^ 16 * 2 ^ 12 + causeCode u))

/-- The address of a checked access after its binding (spec/13 R222). -/
def engVa (s : State) (a : EngAcc) : W64 :=
  match engChk s a with
  | .ok _ va => va
  | .bad .. | .wait .. | .hole _ => a.va

/-- The moves of a chunk applied once every page they touch is translated (R256). -/
def applyMoves (e : EngOp) (c : Nat) (ms : List Move) (s : State) : Outcome State Fault Refusal :=
  match checkAccs s e (movesAccs ms) with
  | .hole pa => .fault (.physicalHole pa)
  | .wait w => .next (engWait e w s)
  | .bad a u addr => .next (chunkFault e c a u addr s)
  | .ok =>
    let s1 := settleAccs e (movesReads ms) s
    let poisoned := ms.filter (movePoison s1 e)
    if !poisoned.isEmpty && engDom s e != 3 then
      .next (engPoison e ((poisoned.map moveVa).headD 0) s)
    else
      let s2 := noteEng ((movesAccs ms).map (·.va)) (putAll e c (ms.map (movePut s1 e)) s1)
      let s3 := ms.foldl (fun st m => noteWrites st m.dst.bytes [engVa s m.dst]) s2
      let s4 := if poisoned.isEmpty then s3
        else recordCause e.warp.seq .uncorrectableMemory ((poisoned.map moveVa).headD 0) s3
      .next (markApplied e c s4)

/-! ### CPL to the scratchpad (R263, R257) -/

/-- The granules of a CPL that are wholly written once some lanes are applied: every lane that touches the granule. -/
def fullGranules (bytes : Nat) (pairs : List (Nat × W64 × W64)) (applied : List Nat) : List Nat :=
  let touch (p : Nat × W64 × W64) : List Nat := (List.range bytes).map fun i => granuleOf (p.2.2.toNat + i)
  ((pairs.flatMap touch).eraseDups).filter fun g => pairs.all fun p => !(touch p).contains g || applied.contains p.1

/-- The spoilt bytes of a scratchpad after some bytes are written. -/
def spoil (off n : Nat) (bad : Bool) (old : List Nat) : List Nat :=
  old.filter (fun i => decide (i < off) || decide (off + n ≤ i)) ++ (if bad then (List.range n).map fun i => off + i else [])

/-- A lane of CPL applied to the scratchpad of its gang. -/
def applyScratch (e : EngOp) (c bytes : Nat) (pairs : List (Nat × W64 × W64)) (s : State) : Outcome State Fault Refusal :=
  match pairs.find? fun p => decide (p.1 = c), findGang s e.gang with
  | some p, some g =>
    let a : EngAcc := { side := 0, va := p.2.1, bytes := bytes, want := .read }
    if g.spilled then .next s
    else
      (match checkAccs s e [a] with
       | .hole pa => .fault (.physicalHole pa)
       | .wait w => .next (engWait e w s)
       | .bad x u addr => .next (chunkFault e c x u addr s)
       | .ok =>
         let s0 := settleAccs e [a] s
         let r := engRead s0 e.core (sideScope e 0) (engKey s a) bytes
         if r.2 ∧ engDom s e ≠ 3 then .next (engPoison e a.va s)
         else
           let full := fullGranules bytes pairs (e.applied ++ [c])
           let s1 := modGang (noteEng [a.va] s0) e.gang fun x =>
             { x with
               spad := ByteMap.writeMany x.spad p.2.2.toNat (bytesOf bytes r.1),
               full := (x.full ++ full).eraseDups,
               spoilt := spoil p.2.2.toNat bytes r.2 x.spoilt }
           let s2 := if r.2 then recordCause e.warp.seq .uncorrectableMemory a.va s1 else s1
           .next (markApplied e c s2))
  | _, _ => .next s

/-- Whether an earlier lane of a CPL with an overlapping destination is still to be applied. -/
def laneHeld (e : EngOp) (c bytes : Nat) (pairs : List (Nat × W64 × W64)) : Bool :=
  match pairs.find? fun p => decide (p.1 = c) with
  | none => true
  | some p => pairs.any fun q => decide (q.1 < c) && !e.applied.contains q.1 && overlap q.2.2.toNat bytes p.2.2.toNat bytes

/-! ### GATH's indices (R262) -/

/-- The accesses of a gather's index view. -/
def indexAccs (e : EngOp) : List EngAcc :=
  let x := engView e 2
  (List.range x.count).map fun n => elemAcc 2 .read x (x.index n)

/-- An index out of range: its row and its value; of one that was uncorrectable nothing is known. Of several the lowest row is reported, where
R262 says only that it is some row (DESIGN CHOICE, log 61). -/
def badRow (limit : Nat) (is : List (W64 × Bool)) : Option (Nat × Nat) :=
  (is.zipIdx.find? fun p => !p.1.2 && decide (p.1.1.toNat ≠ 0xFFFFFFFF) && decide (limit ≤ p.1.1.toNat)).map fun p => (p.2, p.1.1.toNat)

/-- What an operation reads at once through one view: the values, each with whether it was uncorrectable, and the address of the first
that was. -/
def readAccs (e : EngOp) (accs : List EngAcc) (s : State) : List (W64 × Bool) × Option W64 :=
  let rs := accs.map fun a => (a, engRead s e.core (sideScope e a.side) (engKey s a) a.bytes)
  (rs.map fun r => (BitVec.ofNat 64 r.2.1, r.2.2), (rs.find? fun r => r.2.2).map fun r => r.1.va)

/-- A read of an operation done, and what it brought taken up: what is uncorrectable stops the operation, but under FAULT_DOM 3 it is
only recorded (R264, spec/22 R346). -/
def readDone (e : EngOp) (c : Nat) (accs : List EngAcc) (k : List (W64 × Bool) → State → State) (s : State) :
    Outcome State Fault Refusal :=
  match checkAccs s e accs with
  | .hole pa => .fault (.physicalHole pa)
  | .wait w => .next (engWait e w s)
  | .bad a u addr => .next (chunkFault e c a u addr s)
  | .ok =>
    let s1 := settleAccs e accs s
    let r := readAccs e accs s1
    match r.2 with
    | some va =>
      if engDom s e ≠ 3 then .next (engPoison e va s)
      else .next (k r.1 (recordCause e.warp.seq .uncorrectableMemory va (noteEng (accs.map (·.va)) s1)))
    | none => .next (k r.1 (noteEng (accs.map (·.va)) s1))

/-- The indices of a gather kept, or GATHER_INDEX held and the operation complete. -/
def takeIndices (e : EngOp) (is : List (W64 × Bool)) (s : State) : State :=
  match badRow ((engView e 1).ext 1) is with
  | some (row, i) => engCause (finishEng e s) e .gatherIndex 0 (BitVec.ofNat 64 (row * 2 ^ 32 + i))
  | none => modEng s e.id fun x => { x with matched := some is }

/-- The indices of a gather read. A COPY_FAULT of this read, which belongs to no chunk, reports the chunk whose turn had come (DESIGN CHOICE,
log 62). -/
def readIndices (e : EngOp) (c : Nat) (s : State) : Outcome State Fault Refusal := readDone e c (indexAccs e) (takeIndices e) s

/-! ### CHUNK_APPLY -/

/-- Whether the reads of an operation through its source view are held (spec/15 R253): a VRET does not hold them (R252). -/
def srcHeld (s : State) (e : EngOp) : Bool := sideHeld s e (sideIndex e 0)

/-- Whether the writes of an operation are held: by an earlier VRET, or through their view (spec/15 R252, R253). -/
def putHeld (s : State) (e : EngOp) : Bool := writesHeld s e || sideHeld s e (sideIndex e 1)

/-- What a chunk has read kept until its writes may be performed. -/
def keepFetched (e : EngOp) (c : Nat) (vals : List (W64 × Bool)) (s : State) : State :=
  modEng s e.id fun x => { x with fetched := x.fetched ++ [(c, vals)] }

/-- Moves with the values that were read for them. -/
def fillMoves : List Move → List (W64 × Bool) → List Move
  | [], _ => []
  | m :: ms, vs =>
    match m.src, vs with
    | some _, v :: rest => { m with src := none, value := v.1.toNat, bad := m.bad || v.2 } :: fillMoves ms rest
    | some _, [] | none, _ => m :: fillMoves ms vs

/-- The moves of a chunk made as far as nothing holds them: its reads, its writes with what has been read, or both at once. -/
def moveChunk (e : EngOp) (c : Nat) (ms : List Move) (s : State) : Outcome State Fault Refusal :=
  match e.fetched.find? fun x => x.1 == c with
  | some x => if putHeld s e then .next s else applyMoves e c (fillMoves ms x.2) s
  | none =>
    if putHeld s e then
      (if srcHeld s e || (movesReads ms).isEmpty then .next s else readDone e c (movesReads ms) (keepFetched e c) s)
    else if srcHeld s e && !(movesReads ms).isEmpty then .next s
    else applyMoves e c ms s

/-- A chunk of an operation applied, its issuing warp being the one that issues. -/
def chunkHere (e : EngOp) (c : Nat) (s : State) : Outcome State Fault Refusal :=
  match e.kind with
  | .copy | .reduce .. => moveChunk e c (copyMoves e c) s
  | .gather =>
    if e.matched.isNone then (if sideHeld s e 2 then .next s else readIndices e c s) else moveChunk e c (gatherMoves e c) s
  | .laneCopy bytes _ scratch pairs =>
    if laneHeld e c bytes pairs || writesHeld s e then .next s
    else if scratch then applyScratch e c bytes pairs s
    else applyMoves e c (laneMoves bytes c pairs) s
  | .collReduce .. | .collGather | .collCast _ => if e.matched.isSome then moveChunk e c (collMoves e c) s else .next s
  | .matrix .. | .tokenAcquire .. | .tokenRelease .. | .tokenQuery .. => .next s

/-- An outcome with the warp that issued before issuing next again. -/
def refocus (w : WarpId) : Outcome State Fault Refusal → Outcome State Fault Refusal
  | .next s => .next (focusOn w s)
  | .fault f => .fault f
  | .refused r => .refused r

/-- Whether a chunk may be applied now, or read (R256, R264, R266, R271). -/
def mayApply (s : State) (e : EngOp) (c : Nat) : Bool :=
  decide (c < e.chunks) && !e.applied.contains c && !e.stopped && !engSaved s e

/-- A chunk applied if it may be. -/
def applyChunk (op c : Nat) (s : State) : Outcome State Fault Refusal :=
  match findEng s op with
  | some e => if mayApply s e c then refocus s.warp.id (chunkHere e c (focusOn e.warp s)) else .next s
  | none => .next s

/-- CHUNK_APPLY. -/
def execChunkApply (op chunk : Nat) (s : State) : Outcome State Fault Refusal := applyChunk op chunk s

/-- CHUNK_RECEIVE (R267): a chunk that travelled arrives. A chunk already applied is only acknowledged; a bad CRC has it sent
again once, and the second raises UNCORRECTABLE_MEMORY. -/
def execChunkReceive (op chunk : Nat) (crcOk : Bool) (s : State) : Outcome State Fault Refusal :=
  match findEng s op with
  | none => .next s
  | some e =>
    if crcOk then applyChunk op chunk s
    else if !mayApply s e chunk then .next s
    else if e.retried.contains chunk then .next (engPoison e 0 s)
    else .next (modEng s op fun x => { x with retried := x.retried ++ [chunk] })

/-! ### CHUNK_DELIVERY (R257) -/

/-- The bytes of a chunk at their keys, for the L1 of the issuing core, and how many a delivery counts. -/
def chunkKeys (s : State) (e : EngOp) (c : Nat) : List (Nat × Nat) :=
  let of (ms : List Move) : List (Nat × Nat) := ms.map fun m => (engKey s m.dst, m.dst.bytes)
  match e.kind with
  | .copy | .reduce .. => of (copyMoves e c)
  | .gather => of (gatherMoves e c)
  | .laneCopy bytes _ scratch pairs => if scratch then [] else of (laneMoves bytes c pairs)
  | .collReduce .. | .collGather | .collCast _ => of (collMoves e c)
  | .matrix .. | .tokenAcquire .. | .tokenRelease .. | .tokenQuery .. => []

/-- The destination bytes of a chunk. -/
def chunkBytes (e : EngOp) (c : Nat) : Nat :=
  match e.kind with
  | .laneCopy bytes _ _ pairs => bytes * (pairs.filter fun p => decide (p.1 = c)).length
  | .copy | .reduce .. => ((copyMoves e c).map (·.dst.bytes)).sum
  | .gather => ((gatherMoves e c).map (·.dst.bytes)).sum
  | .matrix .. | .collReduce .. | .collGather | .collCast _ | .tokenAcquire .. | .tokenRelease .. | .tokenQuery .. => 0

/-- A chunk delivered: the issuing core's L1 lines over its bytes are invalidated, and its bytes counted against the barrier. -/
def deliverChunk (e : EngOp) (c : Nat) (s : State) : State :=
  let s1 := (chunkKeys s e c).foldl (fun st p =>
    l1Invalidate e.core (p.1 / lineBytes * lineBytes) (ceilDiv (p.1 % lineBytes + p.2) lineBytes * lineBytes) st) s
  let s2 := modEng s1 e.id fun x => { x with delivered := x.delivered ++ [c] }
  match e.barrier, findGang s2 e.gang with
  | some b, some g => refreshSpill e.gang (putBar s2 e.gang b (deliverBar (chunkBytes e c) (barAt g b)))
  | _, _ => s2

/-- CHUNK_DELIVERY: once the chunk's writes are performed at the destination's scope. -/
def execChunkDelivery (op chunk : Nat) (s : State) : Outcome State Fault Refusal :=
  match findEng s op with
  | some e =>
    if e.applied.contains chunk && !e.delivered.contains chunk && !partWriting s e chunk && !engSaved s e then
      .next (withFocus e.warp (deliverChunk e chunk) s)
    else .next s
  | none => .next s

/-! ### COLLECTIVE_MATCH (spec/20 R323) -/

/-- The elements this member contributes: their accesses. -/
def contribAccs (e : EngOp) : List EngAcc :=
  let v := match e.kind with
    | .collCast _ => engView e 0
    | .collReduce .. | .collGather | .copy | .reduce .. | .gather | .laneCopy .. | .matrix .. | .tokenAcquire .. | .tokenRelease ..
    | .tokenQuery .. => engView e 1
  (List.range v.count).map fun n => elemAcc 0 .read v (v.index n)

/-- Whether this member contributes elements: every one of XRED and XGATH, the root of XBCAST. -/
def contributes (e : EngOp) : Bool :=
  match e.kind with
  | .collReduce .. | .collGather => true
  | .collCast root => root == e.rank
  | .copy | .reduce .. | .gather | .laneCopy .. | .matrix .. | .tokenAcquire .. | .tokenRelease .. | .tokenQuery .. => false

/-- What a collective operation contributes read, or nothing for a member that brings nothing. -/
def contribute (e : EngOp) (s : State) : Outcome State Fault Refusal :=
  if contributes e then readDone e 0 (contribAccs e) (fun xs st => modEng st e.id fun x => { x with contrib := some xs }) s
  else .next (modEng s e.id fun x => { x with contrib := some [] })

/-- The contributions by rank: each element with whether it derives from uncorrectable data. -/
abbrev Contribs := List (Nat × List (W64 × Bool))

/-- The contribution of a rank. -/
def contribOf (cs : Contribs) (r : Nat) : List (W64 × Bool) := ((cs.find? fun p => decide (p.1 = r)).map (·.2)).getD []

/-- Two elements combined. -/
def combineTwo (op ty : Nat) (a b : Nat × Bool) : Nat × Bool := (reduceVal op ty a.1 b.1, a.2 || b.2)

/-- One level of the combining tree: s, then 2s, and so on while below SIZE. -/
def combineLevel (op ty size st : Nat) (v : List (List (Nat × Bool))) : List (List (Nat × Bool)) :=
  v.zipIdx.map fun p =>
    if p.2 % (2 * st) = 0 ∧ p.2 + st < size then List.zipWith (combineTwo op ty) p.1 (v.getD (p.2 + st) []) else p.1

/-- The combining tree of XRED. -/
def combineTree (op ty size : Nat) : Nat → Nat → List (List (Nat × Bool)) → List (List (Nat × Bool))
  | 0, _, v => v
  | fuel + 1, st, v => if st < size then combineTree op ty size fuel (2 * st) (combineLevel op ty size st v) else v

/-- The elements a member's vd receives; none for the root of XBCAST, which writes nothing. -/
def collValues (e : EngOp) (cs : Contribs) : List (W64 × Bool) :=
  match e.kind with
  | .collReduce op ty =>
    ((combineTree op ty e.size 17 1 ((List.range e.size).map fun r => (contribOf cs r).map fun x => (x.1.toNat, x.2))).headD []).map
      fun x => (BitVec.ofNat 64 x.1, x.2)
  | .collGather => (List.range e.size).flatMap (contribOf cs)
  | .collCast root => contribOf cs root
  | .copy | .reduce .. | .gather | .laneCopy .. | .matrix .. | .tokenAcquire .. | .tokenRelease .. | .tokenQuery .. => []

/-- The elements a contributing member brings. -/
def contribCount (e : EngOp) : Nat := (contribAccs e).length

/-- Whether every member that contributes has brought as many elements as it has to. -/
def contribsOk (e : EngOp) (cs : Contribs) : Bool :=
  match e.kind with
  | .collReduce .. | .collGather => (List.range e.size).all fun r => (contribOf cs r).length == contribCount e
  | .collCast root => (contribOf cs root).length == contribCount e
  | .copy | .reduce .. | .gather | .laneCopy .. | .matrix .. | .tokenAcquire .. | .tokenRelease .. | .tokenQuery .. => false

/-- An operation matched: the values its chunks will write; the root of XBCAST has none to write. -/
def setMatched (e : EngOp) (vals : List (W64 × Bool)) (x : EngOp) : EngOp :=
  match e.kind with
  | .collCast root =>
    if root = e.rank then { x with matched := some [], applied := List.range x.chunks, delivered := List.range x.chunks }
    else { x with matched := some vals }
  | .collReduce .. | .collGather | .copy | .reduce .. | .gather | .laneCopy .. | .matrix .. | .tokenAcquire .. | .tokenRelease ..
  | .tokenQuery .. => { x with matched := some vals }

/-- Whether an operation is a collective. -/
def isCollective (e : EngOp) : Bool :=
  match e.kind with
  | .collReduce .. | .collGather | .collCast _ => true
  | .copy | .reduce .. | .gather | .laneCopy .. | .matrix .. | .tokenAcquire .. | .tokenRelease .. | .tokenQuery .. => false

/-! A CRC-32C digest of an operation (spec/20 R323): the fields in the order of the rule, each in eight bytes, and a member by its device
and die; how they are laid out is not stated (DESIGN CHOICE, log 55), and shows only where two digests of different fields agree. -/

/-- Eight steps of CRC-32C. -/
def crcBits : Nat → BitVec 32 → BitVec 32
  | 0, c => c
  | n + 1, c => crcBits n (if bitAt c 0 then (c >>> 1) ^^^ 0x82F63B78 else c >>> 1)

/-- CRC-32C of some bytes. -/
def crc32c (bs : List Byte) : BitVec 32 := ~~~(bs.foldl (fun c b => crcBits 8 (c ^^^ b.setWidth 32)) 0xFFFFFFFF)

/-- The digest of a collective operation. -/
def collDigest (e : EngOp) : BitVec 32 :=
  let root := match e.kind with
    | .collCast r => r
    | .collReduce .. | .collGather | .copy | .reduce .. | .gather | .laneCopy .. | .matrix .. | .tokenAcquire .. | .tokenRelease ..
    | .tokenQuery .. => 0
  let ty := match e.kind with
    | .collReduce _ t => t
    | .collGather | .collCast _ | .copy | .reduce .. | .gather | .laneCopy .. | .matrix .. | .tokenAcquire .. | .tokenRelease ..
    | .tokenQuery .. => 0
  let fields := [(slice e.word 52 6).toNat, (slice e.word 33 2).toNat, ty, root, e.size, e.tag, contribCount e, (engView e 0).fmt] ++
    e.members.flatMap fun m => [m.1, m.2]
  crc32c (fields.flatMap (bytesOf 8))

/-- The operation of a member on a die of this device that matches one: the one with its tag and its number (spec/20 R321). -/
def mateOf (s : State) (e : EngOp) (die : Nat) : Option EngOp :=
  s.engines.find? fun x => isCollective x && decide (dieOfCore x.core = die) && decide (x.tag = e.tag) && decide (x.nth = e.nth)

/-- The matching operations of the members on this device with their ranks; none while one has not been issued or has not contributed. -/
def matesOf (s : State) (e : EngOp) : Option (List (Nat × EngOp)) :=
  (e.members.zipIdx.filter fun m => decide (m.1.1 = s.mgmt.self)).mapM fun m =>
    match mateOf s e m.1.2 with
    | some x => if x.contrib.isSome then some (m.2, x) else none
    | none => none

/-- Whether a collective operation may be matched now. -/
def mayMatch (s : State) (e : EngOp) : Bool := isCollective e && e.matched.isNone && !e.stopped && !engSaved s e

/-- COLL_FAULT at a member whose digest differs from another's: its operation is over, and nothing is written. -/
def collDiffers (e : EngOp) (s : State) : State :=
  engCause (finishEng e s) e .collFault 0 (BitVec.ofNat 64 (e.num % 2 ^ 16 * 2 ^ 12 + 1))

/-- The contributions of every member: of this device's what they have read, of the others' what came from outside. -/
def allContribs (s : State) (e : EngOp) (mates : List (Nat × EngOp)) (others : List (Nat × List W64)) : Contribs :=
  (mates.map fun m => (m.1, m.2.contrib.getD [])) ++
    (others.filter fun c => decide ((e.members.getD c.1 (s.mgmt.self, 0)).1 ≠ s.mgmt.self)).map fun c => (c.1, c.2.map fun x => (x, false))

/-- Whether the digests of the members agree: of this device's members, and, as `agree` says, of the others. -/
def digestsAgree (s : State) (e : EngOp) (mates : List (Nat × EngOp)) (agree : Bool) : Bool :=
  (mates.all fun m => collDigest m.2 == collDigest e) && (agree || e.members.all fun m => decide (m.1 = s.mgmt.self))

/-- The operations of this device's members matched, once every member has contributed. -/
def matchAll (e : EngOp) (mates : List (Nat × EngOp)) (others : List (Nat × List W64)) (agree : Bool) (s : State) : State :=
  let cs := allContribs s e mates others
  if !digestsAgree s e mates agree then mates.foldl (fun st m => collDiffers m.2 st) s
  else if contribsOk e cs then mates.foldl (fun st m => modEng st m.2.id (setMatched m.2 (collValues m.2 cs))) s
  else s

/-- COLLECTIVE_MATCH: an operation contributes, its elements read once its view allows it; then, with what the members on other devices
have contributed and whether their digests agree, the operations of this device's members are matched. -/
def execCollectiveMatch (op : Nat) (contributions : List (Nat × List W64)) (agree : Bool) (s : State) : Outcome State Fault Refusal :=
  match findEng s op with
  | none => .next s
  | some e =>
    if !mayMatch s e then .next s
    else if e.contrib.isNone then
      (if contributes e && sideHeld s e (sideIndex e 0) then .next s
       else refocus s.warp.id (contribute e (focusOn e.warp s)))
    else match matesOf s e with
      | some mates => .next (matchAll e mates contributions agree s)
      | none => .next s

/-! ### Token operations (spec/20 R318) -/

/-- The value TKQRY reads. -/
def tokenWordOf (t : Token) : W64 := BitVec.ofNat 64 (t.xholds * 2 ^ 40 + t.sholds * 2 ^ 16 + (t.pending || t.giving).toNat * 4 + t.state)

/-- A late result of an engine landed in the lanes that are still its own (spec/05 R90, R94). -/
def landEng (e : EngOp) (v : W64) (c : Ctx) : Ctx :=
  (c.haz.filter fun z => decide (z.op = some e.id)).foldl (fun x z =>
    match z.reg, e.dst with
    | .g n, some d =>
      let part := (match d.reg with | .g m => n - m | .k _ | .p _ => 0)
      landG n z.lanes (fun _ => BitVec.ofNat 32 (v.toNat / 2 ^ (32 * part))) x
    | .k n, some _ => setKReg x n v
    | .p _, _ | .g _, none | .k _, none => x) c

/-- The write-back of a region after its last exclusive hold is lowered (R318): its dirty lines go home, and once they are performed there the
token is settled; where that gives it up to a lower level, the home's acknowledgement comes last. -/
def returnRegion (e : EngOp) (peer region : Nat) (s : State) : State :=
  let s1 := if e.returning then returnCopies (regionKey peer region) (2 ^ 21) s else s
  if e.returning && regionWriting s1 peer region then s1
  else
    let s2 := settleToken peer region s1
    if (tokenAt s2 peer region).giving then modEng s2 e.id fun x => { x with settled := true } else finishEng e s2

/-- TKREL goes on (R318): the stores it waits for, the write-back of the release, then the hold is lowered, and the region goes home where
no exclusive hold is left. -/
def releaseToken (e : EngOp) (peer region : Nat) (s : State) : State :=
  if e.settled then (if (tokenAt s peer region).giving then s else finishEng e s)
  else if e.waits.any (opInFlight s e.warp) then s
  else if !e.published then
    let s1 := publish s e.core e.warp
    modEng s1 e.id fun x => { x with published := true, writes := publishedWrites s1 (dieOfCore e.core) }
  else if publishing s e.writes then s
  else if e.returning then returnRegion e peer region s
  else
    let t := tokenAt s peer region
    let t1 := lowerHold (decide (0 < t.xholds)) t
    let e1 := { e with returning := decide (0 < t.xholds ∧ t1.xholds = 0) }
    returnRegion e1 peer region (modEng (putToken t1 s) e.id fun _ => e1)

/-! ### ENGINE_OPERATION_COMPLETE -/

/-- The parts of an operation that have to be delivered. -/
def partsOf (e : EngOp) : List Nat :=
  match e.kind with
  | .laneCopy _ _ _ pairs => pairs.map (·.1)
  | .copy | .reduce .. | .gather | .matrix .. | .collReduce .. | .collGather | .collCast _ | .tokenAcquire .. | .tokenRelease ..
  | .tokenQuery .. => List.range e.chunks

/-- The tile rows done of a matrix operation: MROW.DONE of its context while there is one (spec/18 R297). -/
def rowsDone (s : State) (e : EngOp) : Nat :=
  match issuerOf s e with
  | some c => (lo32 c.mrow).toNat
  | none => e.row

/-- The issuing core's L1 copies of the C elements of a matrix operation dropped: its end acquires them (spec/18 R302). -/
def acquireOut (e : EngOp) (s : State) : State :=
  let c := engView e 0
  withFocus e.warp (fun s1 =>
    (List.range c.count).foldl (fun st n => l1Invalidate e.core (engKey s1 (elemAcc 0 .write c (c.index n))) c.esize st) s1) s

/-- ENGINE_OPERATION_COMPLETE (R270, spec/18 R302, spec/20 R318, R324). -/
def execEngineOperationComplete (op : Nat) (s : State) : Outcome State Fault Refusal :=
  match findEng s op with
  | none => .next s
  | some e =>
    if engSaved s e then .next s else
    match e.kind with
    | .copy | .reduce .. | .gather | .laneCopy .. =>
      if (partsOf e).all e.delivered.contains && !(e.matched.isNone && e.kind == .gather) then .next (finishEng e s) else .next s
    | .collReduce .. | .collGather | .collCast _ =>
      if e.matched.isSome && (partsOf e).all e.delivered.contains then .next (finishEng e s) else .next s
    | .matrix .. =>
      if decide (e.chunks ≤ rowsDone s e) && !e.rowStarted && !e.stopped && !e.paused && !engWriting s e then
        .next (finishEng e (acquireOut e s))
      else .next s
    | .tokenAcquire p r x =>
      if (if x then 2 else 1) ≤ (tokenAt s p r).state then .next (finishEng e s) else .next s
    | .tokenRelease p r => .next (releaseToken e p r s)
    | .tokenQuery p r => .next (finishEng e (modIssuer s e (landEng e (tokenWordOf (tokenAt s p r)))))

/-! ### Energy (spec/18 R301) -/

/-- A count after a refill of its die; a die over its limit gets none (spec/22 R358). -/
def refillCount (hot : List Nat) (limit die : Nat) (count : Int) : Int :=
  if hot.contains die then count else if limit = 0xFFFFFFFF then (limit : Int) else min (count + limit) limit

/-- ENERGY_REFILL: every count of every region. -/
def execEnergyRefill (s : State) : Outcome State Fault Refusal :=
  .next { s with cp := { s.cp with
    budgets := s.cp.budgets.map fun b => { b with counts := b.counts.zipIdx.map fun p => refillCount s.mgmt.hot b.energy p.2 p.1 } } }

end Sys2Proof.Machine
end

