-- ==== Sys2Proof/Machine/Int.lean ====
section
/-! DEFINITION. Integer, logic, shift, bit-field, compare, select, move and predicate words of class A3
(spec/06 R109 to R117). -/

namespace Sys2Proof.Machine

open Host (Outcome)

/-- The width of an element of a type (spec/06 R111). -/
def elemWidth : Ty → Nat
  | .ui16x2 | .s16x2 | .f16x2 | .bf16x2 => 16
  | .ui8x4 | .s8x4 => 8
  | .ui64 | .s64 | .f64 | .b64 => 64
  | .ui32 | .s32 | .f32 | .f16 | .bf16 | .b32 => 32

/-- The width of a type in a register: 32, or 64. -/
def tyWidth (t : Ty) : Nat := if tyIs64 t then 64 else 32

/-- Whether a type's elements are signed integers. -/
def tySigned : Ty → Bool
  | .s32 | .s64 | .s16x2 | .s8x4 => true
  | .ui32 | .ui64 | .f32 | .f64 | .f16 | .bf16 | .f16x2 | .bf16x2 | .ui16x2 | .ui8x4 | .b32 | .b64 => false

/-- Element e of a value as an integer (R111). -/
def elem (t : Ty) (n e : Nat) : Int :=
  let w := elemWidth t
  let x := fld n (w * e + w - 1) (w * e)
  if tySigned t then sext w x else x

/-- Elements put together, element 0 lowest. -/
def packElems (t : Ty) (f : Nat → Nat) : Nat :=
  let w := elemWidth t
  (List.range (tyWidth t / w)).foldl (fun acc e => acc + f e * 2 ^ (w * e)) 0

/-- The least and the greatest value of an element (R111). -/
def tyMin (t : Ty) : Int := if tySigned t then -(2 : Int) ^ (elemWidth t - 1) else 0
/-- The greatest value of an element (R111). -/
def tyMax (t : Ty) : Int := if tySigned t then (2 : Int) ^ (elemWidth t - 1) - 1 else (2 : Int) ^ elemWidth t - 1

/-- An exact result reduced to the element width (R111): clamped, or modulo 2^w. -/
def reduceElem (t : Ty) (sat : Bool) (v : Int) : Nat :=
  wrap (elemWidth t) (if sat then clampInt (tyMin t) (tyMax t) v else v)

/-- The effect of the integer mould on one lane (R114). -/
def intLane (t : Ty) (sat : Bool) (op : Int → Int → Int → Int) (a b c : Nat) : Nat :=
  packElems t fun e => reduceElem t sat (op (elem t a e) (elem t b e) (elem t c e))

/-- The separation of the integer words (spec/04 R68): 2, and for the multiplies 4, or 6 on 64-bit types. -/
def mulSep (t : Ty) : Nat := if tyIs64 t then 6 else 4

/-- The first source of an A3 word. -/
def useA (f : A3) (w : Nat) : Use := { reg := f.a, width := w, last := f.la }
/-- The second source of an A3 word. -/
def useB (f : A3) (w : Nat) : Use := { reg := f.b, width := w, last := f.lb }
/-- The third source of an A3 word. -/
def useC (f : A3) (w : Nat) : Use := { reg := f.c, width := w, last := f.lc }

/-- The mould of a data word: its sources read, its result written in the running lanes. -/
def dataWord (run : Mask) (us : List Use) (d : BitVec 7) (is64 signed : Bool) (sep : Nat) (f : State → Nat → Nat)
    (s : State) : Res :=
  reading s run us fun s1 => putReg s s1 run d is64 signed sep (f s)

/-- A one-source word of its type. -/
def unWord (f : A3) (sep : Nat) (op : Nat → Nat) (run : Mask) (s : State) : Res :=
  let w := tyWidth f.ty
  dataWord run [useA f w] f.d (tyIs64 f.ty) (f.ty == .s32) sep (fun s l => op (readNat s w f.a l)) s

/-- A two-source word of its type. -/
def binWord (f : A3) (sep : Nat) (op : Nat → Nat → Nat) (run : Mask) (s : State) : Res :=
  let w := tyWidth f.ty
  dataWord run [useA f w, useB f w] f.d (tyIs64 f.ty) (f.ty == .s32) sep
    (fun s l => op (readNat s w f.a l) (readNat s w f.b l)) s

/-- A three-source word of its type. -/
def triWord (f : A3) (sep : Nat) (op : Nat → Nat → Nat → Nat) (run : Mask) (s : State) : Res :=
  let w := tyWidth f.ty
  dataWord run [useA f w, useB f w, useC f w] f.d (tyIs64 f.ty) (f.ty == .s32) sep
    (fun s l => op (readNat s w f.a l) (readNat s w f.b l) (readNat s w f.c l)) s

/-- A shift word: b is a 32-bit amount (R115). -/
def shiftWord (f : A3) (op : Nat → Nat → Nat) (run : Mask) (s : State) : Res :=
  let w := tyWidth f.ty
  dataWord run [useA f w, useB f 32] f.d (tyIs64 f.ty) (f.ty == .s32) 2
    (fun s l => op (readNat s w f.a l) (readNat s 32 f.b l)) s

/-- A word whose result is 32 bits wide whatever its type (R115, R89). -/
def countWord (f : A3) (op : Nat → Nat) (run : Mask) (s : State) : Res :=
  let w := tyWidth f.ty
  dataWord run [useA f w] f.d false false 2 (fun s l => op (readNat s w f.a l)) s

/-! ### Arithmetic (R113) -/

/-- IADD. -/
def execIadd (f : A3) (s : State) : Outcome State Fault Refusal :=
  runWord (.iadd f) f.dist (binWord f 2 fun a b => intLane f.ty f.sat (fun x y _ => x + y) a b 0) s

/-- ISUB. -/
def execIsub (f : A3) (s : State) : Outcome State Fault Refusal :=
  runWord (.isub f) f.dist (binWord f 2 fun a b => intLane f.ty f.sat (fun x y _ => x - y) a b 0) s

/-- IMUL. -/
def execImul (f : A3) (s : State) : Outcome State Fault Refusal :=
  runWord (.imul f) f.dist (binWord f (mulSep f.ty) fun a b => intLane f.ty f.sat (fun x y _ => x * y) a b 0) s

/-- IMULH: the high half of the product, rounded down. -/
def execImulh (f : A3) (s : State) : Outcome State Fault Refusal :=
  runWord (.imulh f) f.dist
    (binWord f (mulSep f.ty) fun a b => intLane f.ty false (fun x y _ => (x * y) / (2 : Int) ^ elemWidth f.ty) a b 0) s

/-- IMAD. -/
def execImad (f : A3) (s : State) : Outcome State Fault Refusal :=
  runWord (.imad f) f.dist (triWord f (mulSep f.ty) fun a b c => intLane f.ty f.sat (fun x y z => x * y + z) a b c) s

/-- The 64-bit type of IMADW's sum. -/
def wideTy (t : Ty) : Ty := if t == .s32 then .s64 else .ui64

/-- IMADW: 32-bit a and b, 64-bit c and d. -/
def execImadw (f : A3) (s : State) : Outcome State Fault Refusal :=
  runWord (.imadw f) f.dist (fun run s =>
    dataWord run [useA f 32, useB f 32, useC f 64] f.d true false 4
      (fun s l => reduceElem (wideTy f.ty) f.sat
        (elem f.ty (readNat s 32 f.a l) 0 * elem f.ty (readNat s 32 f.b l) 0 + elem (wideTy f.ty) (readNat s 64 f.c l) 0)) s) s

/-- IMIN. -/
def execImin (f : A3) (s : State) : Outcome State Fault Refusal :=
  runWord (.imin f) f.dist (binWord f 2 fun a b => intLane f.ty false (fun x y _ => min x y) a b 0) s

/-- IMAX. -/
def execImax (f : A3) (s : State) : Outcome State Fault Refusal :=
  runWord (.imax f) f.dist (binWord f 2 fun a b => intLane f.ty false (fun x y _ => max x y) a b 0) s

/-- IABS. -/
def execIabs (f : A3) (s : State) : Outcome State Fault Refusal :=
  runWord (.iabs f) f.dist (unWord f 2 fun a => intLane f.ty f.sat (fun x _ _ => if x < 0 then -x else x) a 0 0) s

/-- INEG. -/
def execIneg (f : A3) (s : State) : Outcome State Fault Refusal :=
  runWord (.ineg f) f.dist (unWord f 2 fun a => intLane f.ty f.sat (fun x _ _ => -x) a 0 0) s

/-- LEA: a + b x 2^s; for the 64-bit types b is 32 bits, extended by the type. -/
def execLea (f : A3) (s : State) : Outcome State Fault Refusal :=
  runWord (.lea f) f.dist (fun run s =>
    let w := tyWidth f.ty
    dataWord run [useA f w, useB f 32] f.d (tyIs64 f.ty) false 2
      (fun s l =>
        let b := readNat s 32 f.b l
        wrap w ((readNat s w f.a l : Int) + (if f.ty == .s64 then sext 32 b else (b : Int)) * (2 : Int) ^ (f.aux.toNat % 64))) s) s

/-- ICLAMP: the lesser of c and the greater of a and b. -/
def execIclamp (f : A3) (s : State) : Outcome State Fault Refusal :=
  runWord (.iclamp f) f.dist (triWord f 2 fun a b c => intLane f.ty false (fun x y z => min z (max x y)) a b c) s

/-- IABSD: the distance, an unsigned element. -/
def execIabsd (f : A3) (s : State) : Outcome State Fault Refusal :=
  runWord (.iabsd f) f.dist
    (binWord f 2 fun a b => intLane f.ty false (fun x y _ => if x < y then y - x else x - y) a b 0) s

/-- IDOT4: vacant on this part; every running word raises ILLEGAL_OPCODE (spec/04 R80, R86). -/
def execIdot4 (f : A3) (s : State) : Outcome State Fault Refusal :=
  runWord (.idot4 f) f.dist (fun run s => raiseAt s .illegalOpcode run) s

/-! ### Logic, shifts, bit fields (R115, R116) -/

/-- AND. -/
def execAnd (f : A3) (s : State) : Outcome State Fault Refusal := runWord (.and f) f.dist (binWord f 2 fun a b => a &&& b) s

/-- OR. -/
def execOr (f : A3) (s : State) : Outcome State Fault Refusal := runWord (.or f) f.dist (binWord f 2 fun a b => a ||| b) s

/-- XOR. -/
def execXor (f : A3) (s : State) : Outcome State Fault Refusal := runWord (.xor f) f.dist (binWord f 2 fun a b => a ^^^ b) s

/-- A value's bits inverted within a width. -/
def notNat (w a : Nat) : Nat := 2 ^ w - 1 - a % 2 ^ w

/-- ANDN: a AND NOT b. -/
def execAndn (f : A3) (s : State) : Outcome State Fault Refusal :=
  runWord (.andn f) f.dist (binWord f 2 fun a b => a &&& notNat (tyWidth f.ty) b) s

/-- NOT. -/
def execNot (f : A3) (s : State) : Outcome State Fault Refusal :=
  runWord (.not f) f.dist (unWord f 2 (notNat (tyWidth f.ty))) s

/-- A left shift: 0 when n is at least w (R115). -/
def shlNat (w a n : Nat) : Nat := if w ≤ n then 0 else (a * 2 ^ n) % 2 ^ w

/-- A right shift filled with zeros: 0 when n is at least w (R115). -/
def shrNat (w a n : Nat) : Nat := if w ≤ n then 0 else a / 2 ^ n

/-- A right shift filled with the sign: all sign bits when n is at least w (R115). -/
def sarNat (w a n : Nat) : Nat := wrap w (sext w a / (2 : Int) ^ (min n w))

/-- A left rotation by n mod w (R115). -/
def rotNat (w a n : Nat) : Nat := let m := n % w; (a * 2 ^ m) % 2 ^ w + a / 2 ^ (w - m)

/-- SHL. -/
def execShl (f : A3) (s : State) : Outcome State Fault Refusal :=
  runWord (.shl f) f.dist (shiftWord f (shlNat (tyWidth f.ty))) s

/-- SHR. -/
def execShr (f : A3) (s : State) : Outcome State Fault Refusal :=
  runWord (.shr f) f.dist (shiftWord f (shrNat (tyWidth f.ty))) s

/-- SAR. -/
def execSar (f : A3) (s : State) : Outcome State Fault Refusal :=
  runWord (.sar f) f.dist (shiftWord f (sarNat (tyWidth f.ty))) s

/-- ROT. -/
def execRot (f : A3) (s : State) : Outcome State Fault Refusal :=
  runWord (.rot f) f.dist (shiftWord f (rotNat (tyWidth f.ty))) s

/-- FUNSH: bits 31:0 of b:a shifted right by c[5:0]. -/
def execFunsh (f : A3) (s : State) : Outcome State Fault Refusal :=
  runWord (.funsh f) f.dist (triWord f 2 fun a b c => ((b * 2 ^ 32 + a) / 2 ^ (c % 64)) % 2 ^ 32) s

/-- BFX (R116): the field of the value extended past bit 31 by zeros or by its sign, then extended itself. -/
def bfxNat (signed : Bool) (a b c : Nat) : Nat :=
  let q := min b 32
  let m := min c 32
  if m = 0 then 0
  else
    let ext : Nat := if signed then wrap 64 (sext 32 a) else a
    let field := (ext / 2 ^ q) % 2 ^ m
    if signed then wrap 32 (sext m field) else field

/-- BFX. -/
def execBfx (f : A3) (s : State) : Outcome State Fault Refusal :=
  runWord (.bfx f) f.dist (triWord f 2 (bfxNat (f.ty == .s32))) s

/-- BFI (R116): bits min(q + m, 32) - 1 to q of a replaced by the low bits of b. -/
def bfiNat (a b c : Nat) : Nat :=
  let q := min (c % 256) 32
  let m := min (c / 256 % 256) 32
  let k := min (q + m) 32 - q
  let field := (2 ^ k - 1) * 2 ^ q
  (a &&& notNat 32 field) + (b % 2 ^ k) * 2 ^ q

/-- BFI. -/
def execBfi (f : A3) (s : State) : Outcome State Fault Refusal := runWord (.bfi f) f.dist (triWord f 2 bfiNat) s

/-- Ones in the low w bits. -/
def popNat (w a : Nat) : Nat := ((List.range w).filter fun i => a.testBit i).length

/-- Leading zeros of the low w bits: w for 0. -/
def clzNat (w a : Nat) : Nat := ((List.range w).takeWhile fun i => !a.testBit (w - 1 - i)).length

/-- Trailing zeros of the low w bits: w for 0. -/
def ctzNat (w a : Nat) : Nat := ((List.range w).takeWhile fun i => !a.testBit i).length

/-- POPC. -/
def execPopc (f : A3) (s : State) : Outcome State Fault Refusal :=
  runWord (.popc f) f.dist (countWord f (popNat (tyWidth f.ty))) s

/-- CLZ. -/
def execClz (f : A3) (s : State) : Outcome State Fault Refusal :=
  runWord (.clz f) f.dist (countWord f (clzNat (tyWidth f.ty))) s

/-- CTZ. -/
def execCtz (f : A3) (s : State) : Outcome State Fault Refusal :=
  runWord (.ctz f) f.dist (countWord f (ctzNat (tyWidth f.ty))) s

/-- The low w bits reversed. -/
def brevNat (w a : Nat) : Nat :=
  (List.range w).foldl (fun acc i => acc + (if a.testBit (w - 1 - i) then 2 ^ i else 0)) 0

/-- The low w / 8 bytes reversed. -/
def bswpNat (w a : Nat) : Nat :=
  (List.range (w / 8)).foldl (fun acc i => acc + (a / 2 ^ (8 * (w / 8 - 1 - i)) % 256) * 2 ^ (8 * i)) 0

/-- BREV. -/
def execBrev (f : A3) (s : State) : Outcome State Fault Refusal :=
  runWord (.brev f) f.dist (unWord f 2 (brevNat (tyWidth f.ty))) s

/-- BSWP. -/
def execBswp (f : A3) (s : State) : Outcome State Fault Refusal :=
  runWord (.bswp f) f.dist (unWord f 2 (bswpNat (tyWidth f.ty))) s

/-- PRMT (R116): each byte by its 5-bit selector; a supplies bytes 4 to 7, b bytes 0 to 3. -/
def prmtNat (a b c : Nat) : Nat :=
  (List.range 4).foldl (fun acc i =>
    let sel := c / 2 ^ (5 * i) % 32
    let byte := (a * 2 ^ 32 + b) / 2 ^ (8 * (sel % 8)) % 256
    let v := if sel.testBit 4 then 0 else if sel.testBit 3 then 255 - byte else byte
    acc + v * 2 ^ (8 * i)) 0

/-- PRMT. -/
def execPrmt (f : A3) (s : State) : Outcome State Fault Refusal := runWord (.prmt f) f.dist (triWord f 2 prmtNat) s

/-! ### Compare, select, move, predicates (R117) -/

/-- The condition and the predicate of a compare (R52). -/
def condOf (d : BitVec 7) : Nat := d.toNat / 8
/-- The predicate of a compare (R52). -/
def predOf (d : BitVec 7) : Nat := d.toNat % 8

/-- ICMP. -/
def execIcmp (f : A3) (s : State) : Outcome State Fault Refusal :=
  runWord (.icmp f) f.dist (fun run s =>
    let w := tyWidth f.ty
    reading s run [useA f w, useB f w] fun s1 =>
      putPred s1 run (predOf f.d) 2 fun l =>
        intCond (condOf f.d) (elem f.ty (readNat s w f.a l) 0) (elem f.ty (readNat s w f.b l) 0)) s

/-- SEL. -/
def execSel (f : A3) (s : State) : Outcome State Fault Refusal :=
  runWord (.sel f) f.dist (fun run s =>
    let w := tyWidth f.ty
    reading s run [useA f w, useB f w] fun s1 =>
      putReg s (afterPred s1 run f.c.toNat) run f.d (tyIs64 f.ty) false 2 fun l =>
        if readP s f.c.toNat l then readNat s w f.a l else readNat s w f.b l) s

/-- MOV. -/
def execMov (f : A3) (s : State) : Outcome State Fault Refusal := runWord (.mov f) f.dist (unWord f 2 id) s

/-- PSET: bit 2 pa + pb of the truth table. -/
def execPset (f : A3) (s : State) : Outcome State Fault Refusal :=
  runWord (.pset f) f.dist (fun run s =>
    let s1 := bumpFree (readsEarly s run [.p f.a.toNat, .p f.b.toNat]) s
    putPred s1 run f.d.toNat 2 fun l =>
      f.aux.toNat.testBit ((if readP s f.a.toNat l then 2 else 0) + (if readP s f.b.toNat l then 1 else 0))) s

/-- The predicates of a thread packed: p0 in bit 0 to p6 in bit 6, bit 7 set (R117). -/
def packPreds (s : State) (l : Nat) : Nat := (List.range 8).foldl (fun acc i => acc + (if readP s i l then 2 ^ i else 0)) 0

/-- Predicates unpacked from a value by a mask of which to write (R117). -/
def unpackPreds (mask : BitVec 7) (run : Mask) (v : Nat → Nat) (c : Ctx) : Ctx :=
  (List.range 7).foldl (fun c i => if bitAt mask i then writeP i run 2 (fun l => (v l).testBit i) c else c) c

/-- PMOV: packs with aux zero, else unpacks. -/
def execPmov (f : A3) (s : State) : Outcome State Fault Refusal :=
  runWord (.pmov f) f.dist (fun run s =>
    if f.aux = 0 then
      roomed [] (putReg s (bumpFree (readsEarly s run ((List.range 7).map .p)) s) run f.d false false 2 (packPreds s))
    else
      reading s run [useA f 32] fun s1 => .done (modCtx s1 (unpackPreds f.aux run fun l => readNat s 32 f.a l))) s

end Sys2Proof.Machine
end

