-- ==== Sys2Proof/Machine/Imm.lean ====
section
/-! DEFINITION. The integer words of class AI (spec/06 R118). FADDI and FMULI stand with the floating-point words. -/

namespace Sys2Proof.Machine

open Host (Outcome)

/-- The source of an AI word. -/
def useAI (f : AI) (w : Nat) : Use := { reg := f.a, width := w, last := f.la }

/-- The immediate sign-extended from 32 bits. -/
def immS (f : AI) : Int := sext 32 f.imm.toNat

/-- The immediate as the type widens it: zero-extended for the unsigned and bit types, sign-extended for the signed. -/
def immT (f : AI) : Int := if tySigned f.ty then immS f else f.imm.toNat

/-- A one-source AI word of its type. -/
def immWord (f : AI) (sep : Nat) (op : Nat → Nat) (run : Mask) (s : State) : Res :=
  let w := tyWidth f.ty
  dataWord run [useAI f w] f.d (tyIs64 f.ty) (f.ty == .s32) sep (fun s l => op (readNat s w f.a l)) s

/-- IADDI: the immediate sign-extended, modulo 2^w. -/
def execIaddi (f : AI) (s : State) : Outcome State Fault Refusal :=
  runWord (.iaddi f) f.dist (immWord f 2 fun a => wrap (tyWidth f.ty) ((a : Int) + immS f)) s

/-- IMULI: the immediate sign-extended, modulo 2^w. -/
def execImuli (f : AI) (s : State) : Outcome State Fault Refusal :=
  runWord (.imuli f) f.dist (immWord f (mulSep f.ty) fun a => wrap (tyWidth f.ty) ((a : Int) * immS f)) s

/-- ANDI: the immediate zero-extended. -/
def execAndi (f : AI) (s : State) : Outcome State Fault Refusal :=
  runWord (.andi f) f.dist (immWord f 2 fun a => a &&& f.imm.toNat) s

/-- ORI. -/
def execOri (f : AI) (s : State) : Outcome State Fault Refusal :=
  runWord (.ori f) f.dist (immWord f 2 fun a => a ||| f.imm.toNat) s

/-- XORI. -/
def execXori (f : AI) (s : State) : Outcome State Fault Refusal :=
  runWord (.xori f) f.dist (immWord f 2 fun a => a ^^^ f.imm.toNat) s

/-- SHLI: n = imm[5:0]. -/
def execShli (f : AI) (s : State) : Outcome State Fault Refusal :=
  runWord (.shli f) f.dist (immWord f 2 fun a => shlNat (tyWidth f.ty) a (f.imm.toNat % 64)) s

/-- SHRI. -/
def execShri (f : AI) (s : State) : Outcome State Fault Refusal :=
  runWord (.shri f) f.dist (immWord f 2 fun a => shrNat (tyWidth f.ty) a (f.imm.toNat % 64)) s

/-- SARI. -/
def execSari (f : AI) (s : State) : Outcome State Fault Refusal :=
  runWord (.sari f) f.dist (immWord f 2 fun a => sarNat (tyWidth f.ty) a (f.imm.toNat % 64)) s

/-- MOVI: the bits as they are; widened by the type. -/
def execMovi (f : AI) (s : State) : Outcome State Fault Refusal :=
  runWord (.movi f) f.dist (fun run s =>
    roomed [] (putReg s s run f.d (tyIs64 f.ty) (f.ty == .s32) 2 fun _ => wrap (tyWidth f.ty) (immT f))) s

/-- MOVHI: the odd register of a pair, or bits 63:32 of a k register; the low half is kept. -/
def execMovhi (f : AI) (s : State) : Outcome State Fault Refusal :=
  runWord (.movhi f) f.dist (fun run s =>
    if isG f.d then
      roomed [] <| if lineRoom s 1 then .done (modCtx s (writeG (ctxOf s) (f.d.toNat + 1) run 2 fun _ => f.imm)) else .hold s .lineBudget
    else
      let s1 := bumpFree (readsEarly s run [.k (f.d.toNat - 96)]) s
      putReg s s1 run f.d true false 2 fun l => (readK s (f.d.toNat - 96) l).toNat % 2 ^ 32 + f.imm.toNat * 2 ^ 32) s

/-- ICMPI. -/
def execIcmpi (f : AI) (s : State) : Outcome State Fault Refusal :=
  runWord (.icmpi f) f.dist (fun run s =>
    let w := tyWidth f.ty
    reading s run [useAI f w] fun s1 =>
      putPred s1 run (predOf f.d) 2 fun l => intCond (condOf f.d) (elem f.ty (readNat s w f.a l) 0) (immT f)) s

/-- IMINI. -/
def execImini (f : AI) (s : State) : Outcome State Fault Refusal :=
  runWord (.imini f) f.dist (immWord f 2 fun a => wrap (tyWidth f.ty) (min (elem f.ty a 0) (immT f))) s

/-- IMAXI. -/
def execImaxi (f : AI) (s : State) : Outcome State Fault Refusal :=
  runWord (.imaxi f) f.dist (immWord f 2 fun a => wrap (tyWidth f.ty) (max (elem f.ty a 0) (immT f))) s

/-- LEAI: a + sext(imm[28:0]) x 2^imm[31:29]. -/
def execLeai (f : AI) (s : State) : Outcome State Fault Refusal :=
  runWord (.leai f) f.dist
    (immWord f 2 fun a => wrap (tyWidth f.ty) ((a : Int) + sext 29 f.imm.toNat * (2 : Int) ^ (fld f.imm.toNat 31 29))) s

end Sys2Proof.Machine
end

