-- ==== Sys2Proof/Machine/Float.lean ====
section
/-! DEFINITION. The floating-point words of class A3 but for the SFU's, and FADDI and FMULI (spec/07 R136 to R145). -/

namespace Sys2Proof.Machine

open Host (Outcome)

/-- The format of a type's elements (R136). -/
def tyFmt : Ty → Fmt
  | .f64 => fmt64
  | .f16 | .f16x2 => fmt16
  | .bf16 | .bf16x2 => fmtB16
  | .f32 | .ui32 | .s32 | .ui64 | .s64 | .ui16x2 | .s16x2 | .ui8x4 | .s8x4 | .b32 | .b64 => fmt32

/-- The number of bits of a format. -/
def fmtBits (f : Fmt) : Nat := 1 + f.exp + f.frac

/-- The elements of a floating-point type: two when packed. -/
def fpCount : Ty → Nat
  | .f16x2 | .bf16x2 => 2
  | .f32 | .f64 | .f16 | .bf16 | .ui32 | .s32 | .ui64 | .s64 | .ui16x2 | .s16x2 | .ui8x4 | .s8x4 | .b32 | .b64 => 1

/-- Element e of a value, its sign inverted when negated (R132, R136). -/
def fpElem (t : Ty) (neg : Bool) (v e : Nat) : Nat :=
  let f := tyFmt t
  negBits f neg (v / 2 ^ (16 * e) % 2 ^ fmtBits f)

/-- Elements put together with the OR of their flags (R135). -/
def fpPack (t : Ty) (g : Nat → FpRes) : FpRes :=
  (List.range (fpCount t)).foldl (fun acc e => (acc.1 + (g e).1 * 2 ^ (16 * e), acc.2 ||| (g e).2)) (0, 0)

/-- `.SAT` applied to a result (R136). -/
def satRes (f : Fmt) (sat : Bool) (r : FpRes) : FpRes := if sat then (saturate01 f r.1, r.2) else r

/-- The separation of the floating-point words (spec/04 R68): 6 with an F64 source or destination, else 4. -/
def fpSep (is64 : Bool) : Nat := if is64 then 6 else 4

/-- A floating-point data word: its result written, its flags raised in the running threads (R135). -/
def fpWord (run : Mask) (us : List Use) (d : BitVec 7) (is64 signed : Bool) (sep : Nat) (g : State → Nat → FpRes)
    (s : State) : Res :=
  reading s run us fun s1 =>
    putReg s (modCtx s1 (raiseFp run fun l => (g s l).2)) run d is64 signed sep fun l => (g s l).1

/-- A two-operand word of the mould (R137, R138), given the operation on element bits. -/
def fpBin (f : A3) (op : Nat → Nat → FpRes) (run : Mask) (s : State) : Res :=
  let w := tyWidth f.ty
  fpWord run [useA f w, useB f w] f.d (tyIs64 f.ty) false (fpSep (tyIs64 f.ty))
    (fun s l => fpPack f.ty fun e =>
      satRes (tyFmt f.ty) f.sat (op (fpElem f.ty f.na (readNat s w f.a l) e) (fpElem f.ty f.nb (readNat s w f.b l) e))) s

/-- A two-operand word whose operation acts on values. -/
def fpBinV (f : A3) (op : Fmt → Nat → Fp → Fp → FpRes) : Mask → State → Res :=
  fpBin f fun x y => op (tyFmt f.ty) f.rnd.toNat (unpackFp (tyFmt f.ty) x) (unpackFp (tyFmt f.ty) y)

/-- FADD. -/
def execFadd (f : A3) (s : State) : Outcome State Fault Refusal := runWord (.fadd f) f.dist (fpBinV f addFp) s

/-- FSUB. -/
def execFsub (f : A3) (s : State) : Outcome State Fault Refusal := runWord (.fsub f) f.dist (fpBinV f subFp) s

/-- FMUL. -/
def execFmul (f : A3) (s : State) : Outcome State Fault Refusal := runWord (.fmul f) f.dist (fpBinV f mulFp) s

/-- FFMA: a single rounding. -/
def execFfma (f : A3) (s : State) : Outcome State Fault Refusal :=
  runWord (.ffma f) f.dist (fun run s =>
    let w := tyWidth f.ty
    let fm := tyFmt f.ty
    fpWord run [useA f w, useB f w, useC f w] f.d (tyIs64 f.ty) false (fpSep (tyIs64 f.ty))
      (fun s l => fpPack f.ty fun e =>
        satRes fm f.sat (fmaFp fm f.rnd.toNat (unpackFp fm (fpElem f.ty f.na (readNat s w f.a l) e))
          (unpackFp fm (fpElem f.ty f.nb (readNat s w f.b l) e)) (unpackFp fm (fpElem f.ty f.nc (readNat s w f.c l) e)))) s) s

/-- FMIN. -/
def execFmin (f : A3) (s : State) : Outcome State Fault Refusal :=
  runWord (.fmin f) f.dist (fpBin f (minMaxFp (tyFmt f.ty) false)) s

/-- FMAX. -/
def execFmax (f : A3) (s : State) : Outcome State Fault Refusal :=
  runWord (.fmax f) f.dist (fpBin f (minMaxFp (tyFmt f.ty) true)) s

/-- FDOT2: two products and c, one rounding to F32 (R137). -/
def execFdot2 (f : A3) (s : State) : Outcome State Fault Refusal :=
  runWord (.fdot2 f) f.dist (fun run s =>
    let fm := tyFmt f.ty
    let el (neg : Bool) (v e : Nat) : Fp := unpackFp fm (fpElem f.ty neg v e)
    fpWord run [useA f 32, useB f 32, useC f 32] f.d false false 4
      (fun s l =>
        let a := readNat s 32 f.a l
        let b := readNat s 32 f.b l
        satRes fmt32 f.sat (dot2Fp fmt32 f.rnd.toNat (el f.na a 0) (el f.nb b 0) (el f.na a 1) (el f.nb b 1)
          (unpackFp fmt32 (negBits fmt32 f.nc (readNat s 32 f.c l))))) s) s

/-- FRND (R141). -/
def execFrnd (f : A3) (s : State) : Outcome State Fault Refusal :=
  runWord (.frnd f) f.dist (fun run s =>
    let w := tyWidth f.ty
    fpWord run [useA f w] f.d (tyIs64 f.ty) false (fpSep (tyIs64 f.ty))
      (fun s l => fpPack f.ty fun e => frndFp (tyFmt f.ty) f.rnd.toNat (fpElem f.ty false (readNat s w f.a l) e)) s) s

/-- FCVT (R139): scalar to scalar, or two F32 to a packed pair. -/
def execFcvt (f : A3) (s : State) : Outcome State Fault Refusal :=
  runWord (.fcvt f) f.dist (fun run s =>
    let src := auxTy f
    let ws := tyWidth src
    let sep := fpSep (tyIs64 f.ty || tyIs64 src)
    if f.ty = .f16x2 ∨ f.ty = .bf16x2 then
      fpWord run [useA f 32, useB f 32] f.d false false sep
        (fun s l => fpPack f.ty fun e =>
          cvtFp fmt32 (tyFmt f.ty) f.rnd.toNat (if e = 0 then readNat s 32 f.a l else readNat s 32 f.b l)) s
    else
      fpWord run [useA f ws] f.d (tyIs64 f.ty) false sep
        (fun s l => cvtFp (tyFmt src) (tyFmt f.ty) f.rnd.toNat (fpElem src false (readNat s ws f.a l) 0)) s) s

/-- F2I (R140): always saturates. -/
def execF2i (f : A3) (s : State) : Outcome State Fault Refusal :=
  runWord (.f2i f) f.dist (fun run s =>
    let src := auxTy f
    let ws := tyWidth src
    fpWord run [useA f ws] f.d (tyIs64 f.ty) (f.ty == .s32) (fpSep (tyIs64 src))
      (fun s l =>
        let r := toIntFp (tyFmt src) f.rnd.toNat (tyMin f.ty) (tyMax f.ty) (fpElem src false (readNat s ws f.a l) 0)
        (wrap (tyWidth f.ty) r.1, r.2)) s) s

/-- I2F (R139). -/
def execI2f (f : A3) (s : State) : Outcome State Fault Refusal :=
  runWord (.i2f f) f.dist (fun run s =>
    let src := auxTy f
    let ws := tyWidth src
    fpWord run [useA f ws] f.d (tyIs64 f.ty) false (fpSep (tyIs64 f.ty))
      (fun s l => ofIntFp (tyFmt f.ty) f.rnd.toNat (elem src (readNat s ws f.a l) 0)) s) s

/-- FCLASS (R141): a 32-bit mask, no flag. -/
def execFclass (f : A3) (s : State) : Outcome State Fault Refusal :=
  runWord (.fclass f) f.dist (fun run s =>
    let w := tyWidth f.ty
    dataWord run [useA f w] f.d false false (fpSep (tyIs64 f.ty))
      (fun s l => classFp (tyFmt f.ty) (fpElem f.ty false (readNat s w f.a l) 0)) s) s

/-- FSCALE (R141): a x 2^b with b read as S32. -/
def execFscale (f : A3) (s : State) : Outcome State Fault Refusal :=
  runWord (.fscale f) f.dist (fun run s =>
    let w := tyWidth f.ty
    fpWord run [useA f w, useB f 32] f.d (tyIs64 f.ty) false (fpSep (tyIs64 f.ty))
      (fun s l => satRes (tyFmt f.ty) f.sat
        (scaleFp (tyFmt f.ty) f.rnd.toNat (fpElem f.ty false (readNat s w f.a l) 0) (sext 32 (readNat s 32 f.b l)))) s) s

/-- The flags of a compare (R142): NV for any NaN under conditions 2 to 5, else for a signalling one. -/
def fcmpFlags (code : Nat) (a b : Fp) : FpFlags :=
  flagIf (if 2 ≤ code ∧ code ≤ 5 then isNan a || isNan b else isSnan a || isSnan b) flNV

/-- FCMP (R142). -/
def execFcmp (f : A3) (s : State) : Outcome State Fault Refusal :=
  runWord (.fcmp f) f.dist (fun run s =>
    let w := tyWidth f.ty
    let fm := tyFmt f.ty
    let x (l : Nat) : Fp := unpackFp fm (fpElem f.ty f.na (readNat s w f.a l) 0)
    let y (l : Nat) : Fp := unpackFp fm (fpElem f.ty f.nb (readNat s w f.b l) 0)
    reading s run [useA f w, useB f w] fun s1 =>
      putPred (modCtx s1 (raiseFp run fun l => fcmpFlags (condOf f.d) (x l) (y l))) run (predOf f.d) (fpSep (tyIs64 f.ty))
        fun l => floatCond (condOf f.d) (isNan (x l) || isNan (y l)) (ltFp (x l) (y l)) (eqFp (x l) (y l))) s

/-! ### Quantisation (R144, R145, spec/17 R277) -/

/-- Segment j of companding table t: base and slope. -/
def segOf (tables : List (List (Nat × Nat))) (t j : Nat) : Nat × Nat := (tables.getD t identityTable).getD j (0, 0)

/-- The expansion L of a code's magnitude before the sign, clamped to 32,767; whether it was clamped (spec/17 R277). -/
def expandMag (tables : List (List (Nat × Nat))) (t mag : Nat) : Nat × Bool :=
  if mag = 0 then (0, false)
  else
    let g := segOf tables t (mag / 8)
    let v := g.1 + g.2 * (mag % 8)
    if 32767 < v then (32767, true) else (v, false)

/-- The expansion L of an INT8 code (spec/17 R277): none for the poison code -128. -/
def expandCode (tables : List (List (Nat × Nat))) (t : Nat) (c : Int) : Option (Int × Bool) :=
  if c = -128 then none
  else
    let r := expandMag tables t c.natAbs
    some (if c < 0 then -(r.1 : Int) else r.1, r.2)

/-- Rounding num / den half to even, both of them naturals with den > 0, for a quotient below 0 taken as negative. -/
def halfEven (num : Int) (den : Nat) : Int :=
  let q := num / (den : Int)
  let r := num % (den : Int)
  if 2 * r > den ∨ (2 * r = den ∧ q % 2 = 1) then q + 1 else q

/-- The code of a magnitude m x 2^e under table t (R144). -/
def quantMag (tables : List (List (Nat × Nat))) (t m : Nat) (e : Int) : Nat :=
  let q := min e 0
  let scaled : Nat := m * 2 ^ (e - q).toNat
  let unit : Nat := 2 ^ (-q).toNat
  let j := ((List.range 16).filter fun j => decide ((segOf tables t j).1 * unit ≤ scaled)).getLastD 0
  let g := segOf tables t j
  let k := if g.2 = 0 then 0 else clampInt 0 7 (halfEven ((scaled : Int) - (g.1 * unit : Nat)) (g.2 * unit))
  8 * j + k.toNat

/-- The code of a rounded quotient u (R144): none for a NaN; an infinite u gives 127 with its sign; -0 is not below 0. -/
def quantCode (tables : List (List (Nat × Nat))) (t : Nat) (u : Fp) : Option Int :=
  match u with
  | .nan _ => none
  | .inf n => some (if n then -127 else 127)
  | .fin n m e => let c : Int := quantMag tables t m e; some (if n && m != 0 then -c else c)

/-- QNT of a value and a scale (R144). -/
def qntFp (tables : List (List (Nat × Nat))) (t : Nat) (x sc : Fp) : FpRes :=
  let u := divFp fmt32 0 x sc
  match quantCode tables t (unpackFp fmt32 u.1) with
  | none => (0, u.2 ||| flNV)
  | some c => (wrap 32 c, u.2)

/-- QNT. -/
def execQnt (f : A3) (s : State) : Outcome State Fault Refusal :=
  runWord (.qnt f) f.dist (fun run s =>
    fpWord run [useA f 32, useB f 32] f.d false false 4
      (fun s l => qntFp s.launch.compand f.aux.toNat (unpackFp fmt32 (negBits fmt32 f.na (readNat s 32 f.a l)))
        (unpackFp fmt32 (readNat s 32 f.b l))) s) s

/-- DQNT of a code and a scale (R145): the poison code gives the canonical NaN and NV. -/
def dqntFp (tables : List (List (Nat × Nat))) (t rnd : Nat) (code : Int) (sc : Fp) : FpRes :=
  match expandCode tables t code with
  | none => invalid fmt32
  | some (v, _) => mulFp fmt32 rnd (.fin (decide (v < 0)) v.natAbs 0) sc

/-- DQNT. -/
def execDqnt (f : A3) (s : State) : Outcome State Fault Refusal :=
  runWord (.dqnt f) f.dist (fun run s =>
    fpWord run [useA f 32, useB f 32] f.d false false 4
      (fun s l => dqntFp s.launch.compand f.aux.toNat f.rnd.toNat (sext 8 (readNat s 32 f.a l))
        (unpackFp fmt32 (readNat s 32 f.b l))) s) s

/-! ### Immediates (R143) -/

/-- A floating-point AI word. -/
def fpImm (f : AI) (op : Fmt → Nat → Fp → Fp → FpRes) (run : Mask) (s : State) : Res :=
  let fm := tyFmt f.ty
  fpWord run [useAI f 32] f.d false false 4
    (fun s l => fpPack f.ty fun e =>
      op fm 0 (unpackFp fm (fpElem f.ty false (readNat s 32 f.a l) e)) (unpackFp fm (fpElem f.ty false f.imm.toNat e))) s

/-- FADDI. -/
def execFaddi (f : AI) (s : State) : Outcome State Fault Refusal := runWord (.faddi f) f.dist (fpImm f addFp) s

/-- FMULI. -/
def execFmuli (f : AI) (s : State) : Outcome State Fault Refusal := runWord (.fmuli f) f.dist (fpImm f mulFp) s

end Sys2Proof.Machine
end

