-- ==== Sys2Proof/Machine/Matrix.lean ====
section
/-! DEFINITION. The tile rows of a matrix operation: when one starts and what it debits, the exact span sums, the drain, the write
of C and the status bits (spec/17 R273 to R289, spec/18 R293 to R307). -/

namespace Sys2Proof.Machine

open Host (Outcome)

/-! ### The operation's shape -/

/-- What a tile row is computed from. -/
structure MatrixOp where
  slot : W64
  energy : Nat
  nbv : BitVec 2
  c : View
  w : View
  x : View
  sw : Option View
  sa : Option View
  deriving DecidableEq, Repr

/-- The shape of an engine operation that is a matrix operation. -/
def matrixOf (e : EngOp) : Option MatrixOp :=
  match e.kind with
  | .matrix slot energy nbv hasSw hasSa =>
    some { slot := slot, energy := energy, nbv := nbv, c := engView e 0, w := engView e 1, x := engView e 2,
           sw := if hasSw then some (engView e 3) else none,
           sa := if hasSa then some (engView e (if hasSw then 4 else 3)) else none }
  | .copy | .reduce .. | .gather | .laneCopy .. | .collReduce .. | .collGather | .collCast _ | .tokenAcquire .. | .tokenRelease ..
  | .tokenQuery .. => none

/-- K. -/
def MatrixOp.k (o : MatrixOp) : Nat := o.w.ext 0
/-- N. -/
def MatrixOp.n (o : MatrixOp) : Nat := o.w.ext 1
/-- M. -/
def MatrixOp.m (o : MatrixOp) : Nat := o.x.ext 1
/-- The spans of K (spec/17 R282). -/
def MatrixOp.spans (o : MatrixOp) : Nat := ceilDiv o.k (spanLen o.slot)
/-- The output rows of a tile row (R290). -/
def MatrixOp.rows (o : MatrixOp) (r : Nat) : List Nat := ((List.range 128).map fun i => 128 * r + i).filter fun n => decide (n < o.n)
/-- The format of C. -/
def MatrixOp.fmt (o : MatrixOp) : Fmt := if slotOfmt o.slot = 0 then fmt32 else if slotOfmt o.slot = 1 then fmt16 else fmtB16

/-! ### Stops (R298, R306) -/

/-- Whether a matrix operation has to stop at its next interruption point: pre-emption and a trap concern every operation of the warp but
those of the trap context it is in, and none of a warp that has exited. A request that is pending stops it also while the warp is parked
mid-segment, where R40 acts on it only later: the operation then waits for the warp (DESIGN CHOICE, log 59). -/
def stopPending (s : State) (e : EngOp) : Bool :=
  match findWarp s e.warp with
  | none => false
  | some w =>
    !(w.trap.isNone && decide (w.ctx.exited = allLanes)) && decide (w.state ≠ .retired) &&
      (decide (w.ctx.wait = .interruptionPoint) || ((e.trapIdx.isNone || e.trapIdx == some noTrap) && (w.preempt || w.trap.isSome)))

/-! ### Energy (R300, R301) -/

/-- Units of a pass by energy class. -/
def energyUnits (cls : Nat) : Nat := if cls = 0 then 1 else if cls = 1 then 2 else if cls = 2 then 4 else 6

/-- What a tile row debits. -/
def rowDebit (o : MatrixOp) : Nat := o.k / 160 * slotPlanes o.slot * ceilDiv o.m 8 * energyUnits o.energy

/-- A budget that is not metered. -/
def unmetered (b : Budget) : Bool := b.energy == 0xFFFFFFFF

/-- The region of an operation's launch. -/
def engRegion (s : State) (e : EngOp) : Nat := (launchOf s e.warp.seq).elim 0 (·.region)

/-- Whether every energy count of an operation's path is above zero on its die; an effective BUD_ENERGY of 0 starts no row. -/
def rowEnergy (s : State) (e : EngOp) : Bool :=
  (budgetPath s (engRegion s e) 8).all fun b => b.energy != 0 && decide (0 < b.counts.getD (dieOfCore e.core) 0)

/-- A tile row debited from every count of an operation's path on its die. -/
def debitRow (e : EngOp) (units : Nat) (s : State) : State :=
  let path := (budgetPath s (engRegion s e) 8).map (·.region)
  { s with cp := { s.cp with
      budgets := s.cp.budgets.map fun b =>
        if path.contains b.region && !unmetered b then { b with counts := b.counts.modify (dieOfCore e.core) fun x => x - units }
        else b } }

/-! ### TILE_ROW_START -/

/-- Whether reading a side makes an access through its view. -/
def sideReads (o : MatrixOp) (side : Nat) : Bool :=
  if side = 0 then slotAcc o.slot else if side = 3 then o.sw.isSome else if side = 4 then o.sa.isSome else true

/-- Whether an earlier access holds a side's read (R305). -/
def readHeld (s : State) (e : EngOp) (o : MatrixOp) (side : Nat) : Bool := sideReads o side && sideHeld s e (sideIndex e side)

/-- Whether a matrix operation has a tile row to start and nothing but another operation of its core may hold it: a row whose reads an
earlier access holds (R305) does not start, so that an operation stops nowhere but at the points of R296. -/
def rowReady (s : State) (e : EngOp) : Bool :=
  (matrixOf e).isSome && !e.rowStarted && !e.stopped && !e.paused && !stopPending s e && decide (rowsDone s e < e.chunks) &&
    rowEnergy s e && !engSaved s e && !((matrixOf e).any fun o => [0, 1, 2, 3, 4].any (readHeld s e o))

/-- The effective priority of an operation: of its launch's region. -/
def engPrio (s : State) (e : EngOp) : Nat := (launchOf s e.warp.seq).elim 0 (·.eff.prio)

/-- Whether the sequencer takes an operation before another (R295). -/
def rowBefore (s : State) (a b : EngOp) : Bool :=
  decide (engPrio s b < engPrio s a) || (engPrio s a == engPrio s b &&
    (decide (a.warp.seq < b.warp.seq) || (a.warp.seq == b.warp.seq && decide (a.num < b.num))))

/-- TILE_ROW_START. -/
def execTileRowStart (op : Nat) (s : State) : Outcome State Fault Refusal :=
  match findEng s op with
  | none => .next s
  | some e =>
    match matrixOf e with
    | none => .next s
    | some o =>
      let mates := s.engines.filter fun x => decide (x.core = e.core)
      if rowReady s e && !(mates.any (·.rowStarted)) && !(mates.any fun x => rowReady s x && rowBefore s x e) then
        .next (modEng (debitRow e (rowDebit o) s) op fun x => { x with rowStarted := true, row := rowsDone s e, work := RowWork.zero })
      else .next s

/-! ### The operands of a tile row -/

/-- The part of K that a span covers (spec/17 R282). -/
def MatrixOp.spanKs (o : MatrixOp) (sp : Nat) : List Nat :=
  let len := spanLen o.slot
  (List.range (min len (o.k - len * sp))).map fun i => len * sp + i

/-- The index of a weight digit: a weight of more planes has a third dimension (spec/17 R274). -/
def weightIndex (o : MatrixOp) (n k p : Nat) : List Nat := if slotWfmt o.slot = 0 then [k, n] else [k, n, p]

/-- The accesses to the weights of output row n in a span. -/
def weightAccs (o : MatrixOp) (sp n : Nat) : List EngAcc :=
  (o.spanKs sp).flatMap fun k => (List.range (slotPlanes o.slot)).map fun p => elemAcc 1 .read o.w (weightIndex o n k p)

/-- The accesses to the activations of column m in a span. -/
def actAccs (o : MatrixOp) (sp m : Nat) : List EngAcc := (o.spanKs sp).map fun k => elemAcc 2 .read o.x [k, m]

/-- The access to the scale of a row or a column in a span, where there is a scale view. -/
def scaleAcc (side : Nat) (v : Option View) (sp i : Nat) : List EngAcc :=
  match v with
  | some x => [elemAcc side .read x [i, sp]]
  | none => []

/-- The accesses to the C elements of a tile row. -/
def outAccs (o : MatrixOp) (r : Nat) (want : Want) : List EngAcc :=
  (o.rows r).flatMap fun n => (List.range o.m).map fun m => elemAcc 0 want o.c [n, m]

/-- What a tile row reads through one side: 0 C under ACC 1, before the first span, 1 weights, 2 activations, 3 and 4 the scales. -/
def sideAccs (o : MatrixOp) (r sp side : Nat) : List EngAcc :=
  if side = 0 then (if slotAcc o.slot then outAccs o r .read else [])
  else if side = 1 then (o.rows r).flatMap (weightAccs o sp)
  else if side = 2 then (List.range o.m).flatMap (actAccs o sp)
  else if side = 3 then (o.rows r).flatMap (scaleAcc 3 o.sw sp)
  else (List.range o.m).flatMap (scaleAcc 4 o.sa sp)

/-- What a tile row reads and writes (R299). -/
def rowAccs (o : MatrixOp) (r : Nat) : List EngAcc :=
  sideAccs o r 0 0 ++ ((List.range o.spans).flatMap fun sp => [1, 2, 3, 4].flatMap (sideAccs o r sp)) ++ outAccs o r .write

/-- The value an access of an operation reads. -/
def readAcc (s : State) (e : EngOp) (a : EngAcc) : Nat := (engRead s e.core (sideScope e a.side) (engKey s a) a.bytes).1

/-! ### Weights, activations and scales (spec/17 R273 to R279) -/

/-- A digit of a T1 byte as a weight. -/
def digitOf (byte digit : Nat) : Int :=
  if 243 ≤ byte then 0 else match byte / 3 ^ digit % 3 with
    | 0 => 0
    | 1 => 1
    | _ => -1

/-- A weight with whether a byte of it was of 243 to 255: the sum of its digits' planes. -/
def weightAt (s : State) (e : EngOp) (o : MatrixOp) (n k : Nat) : Int × Bool :=
  let plane (p : Nat) : Int × Bool :=
    let i := weightIndex o n k p
    let b := readAcc s e (elemAcc 1 .read o.w i)
    (2 ^ p * digitOf b (o.w.digit i), decide (243 ≤ b))
  let ps := (List.range (slotPlanes o.slot)).map plane
  ((ps.map (·.1)).sum, ps.any (·.2))

/-- A status word with some bits set (R288): 0 BADPACK, 1 POISON, 2 SAT, 3 PSCALE, 4 CLAMP, 5 OFLOW. -/
def statusBit (i : Nat) (b : Bool) : W64 := if b then BitVec.ofNat 64 (2 ^ i) else 0

/-- An activation with its status: the poison code contributes 0. -/
def actAt (s : State) (e : EngOp) (o : MatrixOp) (k m : Nat) : Int × W64 :=
  match expandCode s.launch.compand (slotCtidx o.slot) (sext 8 (readAcc s e (elemAcc 2 .read o.x [k, m]))) with
  | none => (0, statusBit 1 true)
  | some (v, clamped) => (v, statusBit 4 clamped)

/-- The F32 pattern of a block scale's code (R279). -/
def scaleBits (code : Nat) : Nat :=
  let ex := code / 16 % 256
  if ex = 0 then 0 else if ex = 255 then nanBits fmt32 else ex * 2 ^ 23 + code % 16 * 2 ^ 19

/-- A scale's code: 1.0 where its view is omitted. -/
def scaleAt (s : State) (e : EngOp) (side : Nat) (v : Option View) (sp i : Nat) : Nat :=
  match v with
  | some x => readAcc s e (elemAcc side .read x [i, sp]) % 4096
  | none => 0x7F0

/-! ### The drain (spec/17 R281 to R284) -/

/-- An F32 value in the drain, with whether a rounding of finite operands gave an infinity. -/
abbrev Drained := Nat × Bool

/-- Whether an F32 pattern is finite. -/
def finite32 (x : Nat) : Bool := match unpackFp fmt32 x with | .fin .. => true | .inf _ | .nan _ => false

/-- Whether an F32 pattern is an infinity. -/
def inf32 (x : Nat) : Bool := match unpackFp fmt32 x with | .inf _ => true | .fin .. | .nan _ => false

/-- A rounding's overflow noted. -/
def noteOver (r : Nat) (above : Bool) (xs : List Nat) : Drained := (r, above || (inf32 r && xs.all finite32))

/-- A product in the drain. -/
def drainMul (a : Drained) (y : Nat) : Drained :=
  noteOver (mulFp fmt32 0 (unpackFp fmt32 a.1) (unpackFp fmt32 y)).1 a.2 [a.1, y]

/-- A sum in the drain. -/
def drainAdd (x : Drained) (y : Drained) : Drained :=
  noteOver (addFp fmt32 0 (unpackFp fmt32 x.1) (unpackFp fmt32 y.1)).1 (x.2 || y.2) [x.1, y.1]

/-- A fused product and sum in the drain. -/
def drainFma (a : Nat) (p out : Drained) : Drained :=
  noteOver (fmaFp fmt32 0 (unpackFp fmt32 a) (unpackFp fmt32 p.1) (unpackFp fmt32 out.1)).1 (p.2 || out.2) [a, p.1, out.1]

/-- Whether a span sum lies outside the accumulator. -/
def spanOver (x : Int) : Bool := decide (x < -(2 ^ 39)) || decide (2 ^ 39 - 1 < x)

/-- The value drained: the span sum, or the largest of its sign. -/
def spanValue (x : Int) : Int := if spanOver x then (if x < 0 then -(2 ^ 39 - 1) else 2 ^ 39 - 1) else x

/-- One span drained into an element (R283). -/
def drain (nbv : BitVec 2) (sum : Int) (sw sa : Nat) (out : Drained) : Drained :=
  let a := (ofIntFp fmt32 0 (spanValue sum)).1
  if nbv = 1 then drainAdd out (drainMul (drainMul (a, false) sw) sa) else drainFma a (drainMul (sw, false) sa) out

/-- The element written, with whether its rounding to OFMT overflowed (R284). -/
def outElement (f : Fmt) (osat : Nat) (x : Nat) : Nat × Bool :=
  let r := (cvtFp fmt32 f 0 x).1
  match unpackFp f r with
  | .inf neg => (if osat = 1 then withSign f neg (maxBits f) else r, finite32 x)
  | .fin .. | .nan _ => (r, false)

/-- What C holds before the first span: -0, or under ACC 1 the element read, widened (R283). -/
def startValue (s : State) (e : EngOp) (o : MatrixOp) (n m : Nat) : Nat :=
  if slotAcc o.slot then (cvtFp o.fmt fmt32 0 (readAcc s e (elemAcc 0 .read o.c [n, m]))).1 else signBit fmt32

/-! ### Reading the operands of a span (spec/18 R296) -/

/-- The sides of a span that are still to be read: the activations once the weights are (R296, steps 2 and 4). -/
def unreadSides (w : RowWork) : List Nat :=
  (if w.out.isNone then [0] else []) ++
    (if w.weights.isNone then [1] else if w.acts.isNone then [2] else []) ++
    (if w.rowScales.isNone then [3] else []) ++ (if w.colScales.isNone then [4] else [])

/-- A side of a tile row read as it stands. -/
def readSide (s : State) (e : EngOp) (o : MatrixOp) (side : Nat) (w : RowWork) : RowWork :=
  let rows := o.rows e.row
  let cols := List.range o.m
  if side = 0 then { w with out := some (rows.flatMap fun n => cols.map fun m => (startValue s e o n m, false)) }
  else if side = 1 then { w with weights := some (rows.map fun n => (o.spanKs w.span).map fun k => weightAt s e o n k) }
  else if side = 2 then { w with acts := some (cols.map fun m => (o.spanKs w.span).map fun k => actAt s e o k m) }
  else if side = 3 then { w with rowScales := some (rows.map fun n => scaleAt s e 3 o.sw w.span n) }
  else { w with colScales := some (cols.map fun m => scaleAt s e 4 o.sa w.span m) }

/-! ### The sums of a span and their checksums (spec/17 R281, R286, R287) -/

/-- A sum of products. -/
def dotInt (xs ys : List Int) : Int := (List.zipWith (fun x y => x * y) xs ys).sum

/-- Lists added place by place. -/
def addLists (xss : List (List Int)) (n : Nat) : List Int := (List.range n).map fun i => (xss.map fun xs => xs.getD i 0).sum

/-- The span sums, row by row and column by column. -/
def spanSums (ws as : List (List Int)) : List (List Int) := ws.map fun w => as.map fun a => dotInt w a

/-- What the soft errors of a span add to the accumulator of a row and a column. -/
def elementError (errs : List ArrayError) (n m : Nat) : Int :=
  (errs.map fun x => match x with
    | .element i j d => if i = n ∧ j = m then d else 0
    | .column .. | .row .. => 0).sum

/-- What they add to the weight checksum of a column. -/
def columnError (errs : List ArrayError) (m : Nat) : Int :=
  (errs.map fun x => match x with
    | .column j d => if j = m then d else 0
    | .element .. | .row .. => 0).sum

/-- What they add to the activation checksum of a row. -/
def rowError (errs : List ArrayError) (n : Nat) : Int :=
  (errs.map fun x => match x with
    | .row i d => if i = n then d else 0
    | .element .. | .column .. => 0).sum

/-- The element accumulators as accumulated: sums modulo 2^40, with what soft errors did to them. -/
def accumulators (errs : List ArrayError) (sums : List (List Int)) : List (List Int) :=
  sums.zipIdx.map fun r => r.1.zipIdx.map fun x => (x.1 + elementError errs r.2 x.2) % 2 ^ 40

/-- c(k): the weights of a tile summed over its rows, each plane times its power of two. -/
def weightColumn (ws : List (List Int)) (len : Nat) : List Int := addLists ws len

/-- r(k): the activations summed over the columns of the batch, which are all the columns of the operation (DEDUCED, log 12). -/
def actColumn (as : List (List Int)) (len : Nat) : List Int := addLists as len

/-- CW(m): the weight checksum of each column. -/
def weightChecks (errs : List ArrayError) (ws as : List (List Int)) (len : Nat) : List Int :=
  as.zipIdx.map fun a => (dotInt (weightColumn ws len) a.1 + columnError errs a.2) % 2 ^ 40

/-- CA(n): the activation checksum of each row. -/
def actChecks (errs : List ArrayError) (ws as : List (List Int)) (len : Nat) : List Int :=
  ws.zipIdx.map fun w => (dotInt w.1 (actColumn as len) + rowError errs w.2) % 2 ^ 40

/-- Whether every comparison of a drain is equal: the rows summed against CW, the columns summed against CA, modulo 2^40. -/
def checksAgree (accs : List (List Int)) (cw ca : List Int) : Bool :=
  (cw.zipIdx.all fun c => (accs.map fun r => r.getD c.2 0).sum % 2 ^ 40 == c.1) &&
    (ca.zipIdx.all fun c => (accs.getD c.2 []).sum % 2 ^ 40 == c.1)

/-- An accumulator's value as 40-bit two's complement. -/
def signed40 (x : Int) : Int := if x < 2 ^ 39 then x else x - 2 ^ 40

/-- The value drained of a span sum and its accumulator: OV and the sign are those of the sum (R281). -/
def drainValue (sum acc : Int) : Int := if spanOver sum then spanValue sum else signed40 acc

/-- Whether a scale code is the poison scale. -/
def poisonScale (code : Nat) : Bool := code / 16 % 256 == 255

/-- The operands of a span, all read: weights and activations as numbers. -/
structure SpanIn where
  ws : List (List Int)
  as : List (List Int)
  sws : List Nat
  sas : List Nat
  status : W64
  deriving DecidableEq, Repr

/-- The operands of a tile row's span, once every side is read. -/
def spanIn (w : RowWork) : SpanIn :=
  let ws := w.weights.getD []
  let as := w.acts.getD []
  let sws := w.rowScales.getD []
  let sas := w.colScales.getD []
  { ws := ws.map fun r => r.map (·.1), as := as.map fun c => c.map (·.1), sws := sws, sas := sas,
    status := as.foldl (fun x c => c.foldl (fun y a => y ||| a.2) x)
      (statusBit 0 (ws.any fun r => r.any (·.2)) ||| statusBit 3 (sws.any poisonScale || sas.any poisonScale)) }

/-- The elements of a span drained into what the earlier spans left (R283). -/
def drainSpan (o : MatrixOp) (i : SpanIn) (sums accs : List (List Int)) (out : List Drained) : List Drained :=
  let vals := (List.zipWith (fun (xs ys : List Int) => List.zipWith drainValue xs ys) sums accs).zipIdx.flatMap fun r =>
    r.1.zipIdx.map fun x => (x.1, i.sws.getD r.2 0, i.sas.getD x.2 0)
  List.zipWith (fun v x => drain o.nbv v.1 (scaleBits v.2.1) (scaleBits v.2.2) x) vals out

/-- A tile row after a span is drained: nothing read of the next one. -/
def nextSpan (out : List Drained) (status : W64) (w : RowWork) : RowWork :=
  { w with
    span := w.span + 1, again := false, out := some out, status := w.status ||| status, weights := none, acts := none,
    rowScales := none, colScales := none }

/-- A span cleared, to be streamed again from the same operands, which are read again (R287). -/
def streamAgain (w : RowWork) : RowWork :=
  { w with again := true, weights := none, acts := none, rowScales := none, colScales := none }

/-- An element of C to write: its indices and bits. -/
structure OutElem where
  n : Nat
  m : Nat
  bits : Nat
  deriving DecidableEq, Repr

/-- The elements of a tile row whose spans are all drained, and the status of the rounding (R284). -/
def outElems (o : MatrixOp) (r : Nat) (out : List Drained) : List OutElem × W64 :=
  let places := (o.rows r).flatMap fun n => (List.range o.m).map fun m => (n, m)
  let es := List.zipWith (fun p x => (p, x, outElement o.fmt (slotOsat o.slot) x.1)) places out
  (es.map fun x => { n := x.1.1, m := x.1.2, bits := x.2.2.1 }, statusBit 5 (es.any fun x => x.2.1.2 || x.2.2.2))

/-! ### TILE_ROW_COMPLETE -/

/-- The work of a tile row replaced. -/
def putWork (e : EngOp) (w : RowWork) (s : State) : State := modEng s e.id fun x => { x with work := w }

/-- The end of a tile row's work without a write. -/
def dropRow (e : EngOp) (s : State) : State := modEng s e.id fun x => { x with rowStarted := false, work := RowWork.zero }

/-- MTX_FAULT held: the row is discarded and the operation stops (R299, R307). -/
def rowFault (e : EngOp) (r : Nat) (a : EngAcc) (u : Cause) (addr : W64) (s : State) : State :=
  if u = .uncorrectableMemory then engPoison e addr (dropRow e s) else
  engCause (modEng (dropRow e s) e.id fun x => { x with stopped := true }) e .mtxFault addr
    (BitVec.ofNat 64 (r * 2 ^ 32 + a.side * 2 ^ 29 + e.num % 2 ^ 16 * 2 ^ 12 + causeCode u))

/-- Elements of C written at SCOPE(vC), granule by granule, each access translated in the state before; under FAULT_DOM 3 those of a row
with an uncorrectable operand are written poisoned (R299, R305). -/
def writeRow (e : EngOp) (o : MatrixOp) (es : List OutElem) (s : State) : State :=
  let cells := es.flatMap fun x =>
    let a := elemAcc 0 .write o.c [x.n, x.m]
    keyed (engKey s a) (bytesOf a.bytes x.bits)
  let s1 := engWrite e e.row o.c.scope cells (fun _ => e.work.bad) s
  es.foldl (fun st x => let a := elemAcc 0 .write o.c [x.n, x.m]; noteWrites st a.bytes [engVa s a]) s1

/-- MROW advanced and the status bits given to the issuing context (R288, R297); a record that is current follows (spec/05 R93). -/
def advanceRow (e : EngOp) (s : State) : State :=
  refreshRecord e.warp [] (modIssuer (modEng s e.id fun x => { x with rowStarted := false, row := e.row + 1, work := RowWork.zero }) e fun c =>
    { c with mst := c.mst ||| e.work.status, mrow := BitVec.ofNat 64 (e.row + 1) })

/-- A tile row's sums computed again after a first mismatch (R287, R301): counted, and debited again. -/
def recheckRow (e : EngOp) (o : MatrixOp) (s : State) : State := countStrata (6 * 2 ^ 20 + e.core) (debitRow e (rowDebit o) s)

/-- MTX_CHECKSUM: no element of the tile row is written, and the operation stops (R287, R307). -/
def checksumFault (e : EngOp) (s : State) : State :=
  engCause (modEng (dropRow e s) e.id fun x => { x with stopped := true }) e .mtxChecksum 0
    (BitVec.ofNat 64 (e.row * 2 ^ 32 + e.work.span))

/-- Accesses of a tile row checked, and what follows when they pass. -/
def rowChecked (e : EngOp) (accs : List EngAcc) (s : State) (k : Outcome State Fault Refusal) : Outcome State Fault Refusal :=
  match checkAccs s e accs with
  | .hole pa => .fault (.physicalHole pa)
  | .wait w => .next (engWait e w s)
  | .bad a u addr => .next (rowFault e e.row a u addr s)
  | .ok => k

/-- A side of a span read: an uncorrectable operand stops the operation, its row discarded, or under FAULT_DOM 3 is recorded (R299). -/
def readRow (e : EngOp) (o : MatrixOp) (side : Nat) (s : State) : Outcome State Fault Refusal :=
  let accs := sideAccs o e.row e.work.span side
  rowChecked e (if e.work = RowWork.zero then rowAccs o e.row else accs) s <|
    let s1 := noteEng (accs.map (·.va)) (settleAccs e accs s)
    let w := readSide s1 e o side e.work
    match (readAccs e accs s1).2 with
    | none => .next (putWork e w s1)
    | some va =>
      if engDom s e ≠ 3 then .next (engPoison e va (dropRow e s))
      else .next (putWork e { w with bad := true } (recordCause e.warp.seq .uncorrectableMemory va s1))

/-- A span whose operands are all read: its sums formed, checked, and drained (R281 to R287). -/
def sumSpan (e : EngOp) (o : MatrixOp) (s0 : State) : State :=
  let errs := s0.mgmt.arrays.headD []
  let s := { s0 with mgmt := { s0.mgmt with arrays := s0.mgmt.arrays.tail } }
  let i := spanIn e.work
  let len := (o.spanKs e.work.span).length
  let sums := spanSums i.ws i.as
  let accs := accumulators errs sums
  if checksAgree accs (weightChecks errs i.ws i.as len) (actChecks errs i.ws i.as len) then
    putWork e (nextSpan (drainSpan o i sums accs (e.work.out.getD [])) (i.status ||| statusBit 2 (sums.any fun r => r.any spanOver))
      e.work) s
  else if e.work.again then checksumFault e s
  else putWork e (streamAgain e.work) (recheckRow e o s)

/-- A tile row whose spans are all drained: C written, once C's view allows it. -/
def storeRow (e : EngOp) (o : MatrixOp) (s : State) : Outcome State Fault Refusal :=
  rowChecked e (outAccs o e.row .write) s <|
    let r := outElems o e.row (e.work.out.getD [])
    let s1 := noteEng ((outAccs o e.row .write).map (·.va)) (writeRow e o r.1 s)
    .next (putWork e { e.work with status := e.work.status ||| r.2, written := true } s1)

/-- Whether a stop is made now, at the boundary of a span that has been drained (R296, R298, R306: a span formed again is finished
first). -/
def stopsHere (s : State) (e : EngOp) : Bool :=
  let w := e.work
  let fresh := w.weights.isNone && w.acts.isNone && w.rowScales.isNone && w.colScales.isNone
  stopPending s e && !w.again && !w.written && fresh && decide (0 < w.span)

/-- The next step of a tile row: a side read, the sums of a span, C's write, or its end (R296). Rows follow one another, so a row reads
after the rows before it are written: of an input element that C also names it reads what they wrote, where R293 leaves open whether it
reads that or the value from before the operation (DESIGN CHOICE, log 60). -/
def rowStep (e : EngOp) (o : MatrixOp) (s : State) : Outcome State Fault Refusal :=
  let w := e.work
  if w.written then .next (if partWriting s e e.row then s else advanceRow e s)
  else if stopsHere s e then .next (dropRow e s)
  else if w.span < o.spans then
    (if (unreadSides w).isEmpty then .next (sumSpan e o s)
     else
       let sides := (unreadSides w).filter fun i => !readHeld s e o i
       match sides[Config.freeNat s.freeCtr % sides.length]? with
       | some side => readRow e o side (bumpFree (decide (1 < sides.length)) s)
       | none => .next s)
  else if sideHeld s e 0 || writesHeld s e then .next s
  else storeRow e o s

/-- TILE_ROW_COMPLETE: a tile row goes on by one step, in which order its operands are read being open; the issuing warp is the one that
issues meanwhile. -/
def execTileRowComplete (op : Nat) (s : State) : Outcome State Fault Refusal :=
  match findEng s op with
  | none => .next s
  | some e =>
    match matrixOf e with
    | none => .next s
    | some o => if !e.rowStarted || engSaved s e then .next s else refocus s.warp.id (rowStep e o (focusOn e.warp s))

end Sys2Proof.Machine
end

