-- ==== Sys2Proof/Machine/Ports.lean ====
section
/-! DEFINITION. The Ethernet and host ports: messages landed in rings, rings enabled, accesses of a host through its landing windows,
TDISP (spec/20 R325 to R332). -/

namespace Sys2Proof.Machine

open Host (Outcome)

/-! ### Records (R326) -/

/-- A message as its ring takes it: its payload bytes, its status (1 TAGFAIL), its key index. -/
structure Landed where
  payload : List Byte
  status : Nat
  key : Nat
  deriving DecidableEq, Repr

/-- The first 16 bits of a message, the key index among them. -/
def messageWord (m : List Byte) (i : Nat) : Nat := ofBytes ((m.drop (2 * i)).take 2)

/-- A record opened with the key its ring allows; none when R326 fails. -/
def openRecord (s : State) (r : Ring) (m : List Byte) : Option (List Byte) :=
  let idx := messageWord m 0
  if m.length < 32 ∨ 4096 ≤ idx ∨ messageWord m 1 ≠ 0 ∨ idx < r.kfirst ∨ r.kfirst + r.kcount ≤ idx then none
  else match s.fabric.keys.find? fun k => decide (k.1 = (r.pgroup, idx)) with
    | none => none
    | some k =>
      let n := m.length - 32
      gcmOpen k.2 ((m.drop 4).take 12) (m.take 16) ((m.drop 16).take n) (m.drop (16 + n))

/-- A message taken by a ring; what the key index of one of less than two bytes is, is open (log 5). -/
def takeMessage (s : State) (r : Ring) (m : List Byte) : Landed :=
  if !r.enc then { payload := m, status := 0, key := 0 }
  else
    let key := if m.length < 2 then (slice (Config.freeWord s.freeCtr) 0 12).toNat else messageWord m 0 % 4096
    match openRecord s r m with
    | some p => { payload := p, status := 0, key := key }
    | none => { payload := List.replicate (m.length - 32) 0, status := 1, key := key }

/-! ### MESSAGE_LAND (R327, R328) -/

/-- The LENGTH of a message. -/
def messageLength (r : Ring) (m : List Byte) : Nat := if r.enc then m.length - 32 else m.length

/-- The slots a message needs. -/
def messageSlots (r : Ring) (m : List Byte) : Nat := ceilDiv (32 + messageLength r m) r.slotSize

/-- The slots that are free. -/
def freeSlots (r : Ring) : Int := (r.slots : Int) - (r.written - r.free).toNat

/-- The header of an entry. -/
def entryHeader (seq : W64) (l : Landed) (n port : Nat) : List Byte :=
  bytesOf 8 seq.toNat ++ bytesOf 8 (l.payload.length * 2 ^ 32 + n * 2 ^ 14 + l.status * 2 ^ 12 + l.key) ++ bytesOf 8 port ++ bytesOf 8 0

/-- The bytes of an entry written to its slots, wrapping to slot 0. -/
def writeSlots (id : Nat) (r : Ring) (slot : Nat) (bs : List Byte) (s : State) : State :=
  (List.range (ceilDiv bs.length r.slotSize)).foldl (fun st i =>
    homeWrite st (slotPa id r ((slot + i) % r.slots)) ((bs.drop (i * r.slotSize)).take r.slotSize)) s

/-- A message decided at its enabled ring; the region learns of a drop, and of an entry in a ring that had none unclaimed. -/
def decideMessage (id port : Nat) (m : List Byte) (s : State) : State :=
  let r := ringAt s id
  let len := messageLength r m
  let n := messageSlots r m
  let r1 := { r with seq := r.seq + 1 }
  if 2 ^ 20 < len ∨ r.slots < n then
    signalRegion r.region 2 (putRing s id { r1 with omsg := r.omsg + 1, obyte := r.obyte + BitVec.ofNat 64 len })
  else
    let l := takeMessage s r m
    if freeSlots r < n then
      signalRegion r.region 2 (putRing s id { r1 with fmsg := r.fmsg + 1, fbyte := r.fbyte + BitVec.ofNat 64 len })
    else
      let slot := r.written.toNat % r.slots
      let s1 := writeSlots id r slot (entryHeader r.seq l n port ++ l.payload) (bumpFree (r.enc && decide (m.length < 2)) s)
      let s2 := putRing s1 id { r1 with
        written := r.written + BitVec.ofNat 64 n, lmsg := r.lmsg + 1, lbyte := r.lbyte + BitVec.ofNat 64 len,
        tmsg := r.tmsg + BitVec.ofNat 64 l.status, entries := r.entries ++ [(slot, n)] }
      if r.claim = r.written then signalRegion r.region 2 s2 else s2

/-- MESSAGE_LAND: a duplicate the transport detects is not decided; one whose resource index names no enabled ring is only
counted at its port. -/
def execMessageLand (m : EthMsg) (s : State) : Outcome State Fault Refusal :=
  let id := m.resource % 1024
  if 12 ≤ m.port then .next s
  else if m.reliable && m.duplicate then .next s
  else if (ringAt s id).en then .next (decideMessage id m.port m.bytes s)
  else .next { s with fabric := { s.fabric with unmatched := modNth s.fabric.unmatched m.port (· + 1) } }

/-! ### RING_ENABLE (R325) -/

/-- Whether a ring's slot area and key range are valid. An empty key range whose first key lies outside the region's is not (DESIGN
CHOICE, log 65): R325 does not say whether an empty range lies in another. -/
def ringValid (s : State) (r : Ring) : Bool :=
  let slotLog := (slice r.w0 40 4).toNat
  decide (8 ≤ slotLog) && decide (slotLog ≤ 14) && r.base % r.slotSize == 0 && decide (r.base + r.slots * r.slotSize ≤ 2 ^ 25) &&
    decide (r.kcount ≤ 4096) &&
    (match effectiveNow s r.region with
     | some e => decide (e.eff.keyBase ≤ r.kfirst) && decide (r.kfirst + r.kcount ≤ e.eff.keyBase + e.eff.keyCount)
     | none => false)

/-- RING_ENABLE: EN is set when it is 0 and the block is valid; CLAIM and FREE become WRITTEN, and no entry is left. -/
def execRingEnable (ring : Nat) (s : State) : Outcome State Fault Refusal :=
  let r := ringAt s ring
  if ring < 1024 ∧ r.en = false ∧ ringValid s r then
    .next (putRing s ring { r with w0 := setBit r.w0 47 true, claim := r.written, free := r.written, entries := [], claimed := [] })
  else .next s

/-! ### Host accesses (R331, R332) -/

/-- Whether a region is a top-level region with a valid entry: one that a virtual function stands for (spec/22 R338). -/
def topRegion (s : State) (i : Nat) : Bool := regionValid s i && (readRcb s (regionPa s i)).parent == 0

/-- What a port answers to a request for a region's function that it does not carry: while an interface is in the RUN state it carries only
that interface's region, on the bound IDE stream (R331). A function that is not there is an Unsupported Request too (PRESUMED, log 33). -/
def portRefuses (s : State) (port region stream : Nat) : Option HostAnswer :=
  if 2 ≤ port ∨ !topRegion s region then some .unsupported
  else match s.fabric.tdisp.getD port none with
    | some t => if t.region ≠ region then some .unsupported else if t.stream ≠ stream then some .rejected else none
    | none => none

/-- A landing window. -/
def windowAt (s : State) (region w : Nat) : Window :=
  ((s.fabric.windows.find? fun x => decide (x.1 = (region, w))).map (·.2)).getD
    { base := 0, pages := 0, en := false, wr := false, rd := false, drops := 0 }

/-- A landing window replaced. -/
def putWindow (region w : Nat) (x : Window) (s : State) : State :=
  { s with fabric := { s.fabric with windows := s.fabric.windows.filter (fun y => decide (y.1 ≠ (region, w))) ++ [((region, w), x)] } }

/-- The pieces of a range at an offset, cut at the 4 KiB pages; the fuel bounds their number. -/
def pagePieces : Nat → Nat → Nat → List (Nat × Nat)
  | 0, _, _ => []
  | fuel + 1, off, n =>
    let m := min n (4096 - off % 4096)
    if n = 0 then [] else (off, m) :: pagePieces fuel (off + m) (n - m)

/-- Where a host's access goes. -/
inductive HostChk where
  | ok (key : Nat)
  | refused
  | hole (pa : Nat)
  deriving DecidableEq, Repr

/-- The checks of a host's access to an address of a region's space (R332, spec/22 R353): its leaf is present, of mode 0, of
memory, and for a write not of a sealed frame. -/
def hostCheck (s : State) (root : Nat) (write : Bool) (va : W64) : HostChk :=
  if !canonical va then .refused
  else match translation s root va with
    | .leaf pte =>
      let k := leafKey s pte va
      if leafMode pte ≠ 0 ∨ (write && leafSealed s pte va) then .refused
      else match areaOf k with
        | .memory => .ok k
        | .hole => .hole k
        | .slots .. | .block .. | .doorbell .. => .refused
    | .absent | .malformed | .poisoned => .refused
    | .hole pa => .hole pa

/-- What the checks of a host's access come to: the pieces with their keys. -/
inductive HostPlan where
  | go (pieces : List (Nat × Nat × Nat))
  | refused
  | hole (pa : Nat)
  deriving DecidableEq, Repr

/-- The plan of an access, piece by piece: for each its offset in the access, its length and its key. -/
def planPieces (s : State) (root : Nat) (write : Bool) (base : W64) (start : Nat) : List (Nat × Nat) → HostPlan
  | [] => .go []
  | (off, m) :: rest =>
    match hostCheck s root write (base + BitVec.ofNat 64 off) with
    | .refused => .refused
    | .hole pa => .hole pa
    | .ok k =>
      match planPieces s root write base start rest with
      | .go ps => .go ((off - start, m, k) :: ps)
      | other => other

/-- The plan of n bytes at an offset of a region's landing windows. -/
def hostPlan (s : State) (region offset n : Nat) (write : Bool) : HostPlan :=
  let w := windowAt s region (offset / 2 ^ 36)
  let off := offset % 2 ^ 36
  if !w.en || !(if write then w.wr else w.rd) || decide (w.pages * 4096 < off + n) then .refused
  else match effectiveNow s region with
    | none => .refused
    | some e => planPieces s e.eff.ptRoot write w.base off (pagePieces (n / 4096 + 2) off n)

/-- The name under which a host port's writes are on their way. -/
def hostAgent (port : Nat) : WarpId := { seq := 0, gang := port + 1, wid := 0 }

/-- The die of a host port. -/
def hostDie (port : Nat) : Nat := Config.hostPortDie port % Config.dies

/-- A posted write dropped: counted, and event class 1 signalled. -/
def dropWrite (region offset : Nat) (s : State) : State :=
  let i := offset / 2 ^ 36
  let w := windowAt s region i
  signalRegion region 1 (putWindow region i { w with drops := w.drops + 1 } s)

/-- HOST_LANDING_WRITE: a package-scope write of the port's die. A posted write that the port does not carry has no effect. -/
def execHostLandingWrite (port region stream offset : Nat) (bytes : List Byte) (s : State) : Outcome State Fault Refusal :=
  if (portRefuses s port region stream).isSome || decide (2 ^ 40 < offset + bytes.length) || bytes.isEmpty then .next s
  else if (s.cp.leases.getD port Lease.zero).expired then .next (dropWrite region offset s)
  else match hostPlan s region offset bytes.length true with
    | .refused => .next (dropWrite region offset s)
    | .hole pa => .fault (.physicalHole pa)
    | .go ps =>
      .next (ps.foldl (fun st p => pkgIssue st (hostDie port) p.2.2 ((bytes.drop p.1).take p.2.1) none 0 0 (hostAgent port) none 0)
        (bumpFree true s))

/-- Whether a port's earlier posted writes are still to be applied at its die. -/
def postedAhead (s : State) (port : Nat) : Bool :=
  s.mem.writes.any fun w => decide (w.warp = hostAgent port) && !bitAt w.applied (hostDie port)

/-- A host's read answered. -/
def answerHost (a : HostAnswer) (s : State) : State :=
  { s with fabric := { s.fabric with delivered := s.fabric.delivered ++ [a] } }

/-- The bytes of a piece at package scope. -/
def readPiece (s : State) (die : Nat) (p : Nat × Nat × Nat) : List (Byte × Bool) :=
  (List.range p.2.1).map fun i => dieByte s die (p.2.2 + i)

/-- HOST_LANDING_READ: served after the port's earlier posted writes; a Completer Abort where the window does not allow it, and
where a line is poisoned. -/
def execHostLandingRead (port region stream offset count : Nat) (s : State) : Outcome State Fault Refusal :=
  if decide (2 ≤ port) || decide (2 ^ 40 < offset + count) || postedAhead s port then .next s
  else match portRefuses s port region stream with
  | some a => .next (answerHost a s)
  | none =>
    match hostPlan s region offset count false with
    | .refused => .next (answerHost .completerAbort s)
    | .hole pa => .fault (.physicalHole pa)
    | .go ps =>
      if ps.any fun p => meetsPoison (readPiece s (hostDie port) p) then .next (answerHost .completerAbort s)
      else .next (answerHost (.data (ps.flatMap fun p => (readPiece s (hostDie port) p).map (·.1))) (bumpFree true s))

/-- TDISP_MESSAGE (R331, spec/22 R352): an interface of a port enters or leaves the RUN state, bound to one of its eight streams, or
the device's identity is attested. -/
def execTdispMessage (port : Nat) (m : Tdisp) (s : State) : Outcome State Fault Refusal :=
  if 2 ≤ port then .next s
  else match m with
    | .run region stream =>
      if topRegion s region && decide (stream < 8) then
        .next { s with fabric := { s.fabric with tdisp := setNth s.fabric.tdisp port (some { region := region, stream := stream }) } }
      else .next s
    | .stop => .next { s with fabric := { s.fabric with tdisp := setNth s.fabric.tdisp port none } }
    | .attest => .next { s with mgmt := { s.mgmt with attested := s.mgmt.attested + 1 } }

end Sys2Proof.Machine
end

