-- ==== Sys2Proof/Machine/CommandProc.lean ====
section
/-! DEFINITION. The command processor: submissions, wait-for conditions, the start of a launch, causes settled by FAULT_DOM, replay,
region resets, the registers of the physical function (spec/02 R22 to R27, R33, R360, spec/17 R276 to R278, spec/22 R337 to
R350). -/

namespace Sys2Proof.Machine

open Host (Outcome)

/-! ### Submission (R338) -/

/-- A submission page of a port. -/
def pageAt (s : State) (port region : Nat) : Page :=
  ((s.cp.pages.find? fun x => decide (x.1 = (port, region))).map (·.2)).getD { accepts := 0, rejects := 0, lastSeq := 0, sel := 0 }

/-- A submission page replaced. -/
def putPage (port region : Nat) (x : Page) (s : State) : State :=
  { s with cp := { s.cp with pages := s.cp.pages.filter (fun y => decide (y.1 ≠ (port, region))) ++ [((port, region), x)] } }

/-- A submission rejected. -/
def rejectSubmission (port region : Nat) (s : State) : State :=
  let p := pageAt s port region
  putPage port region { p with rejects := p.rejects + 1 } s

/-- The words of a record's bytes. -/
def recordWords (bs : List Byte) : List W64 := (List.range 32).map fun i => BitVec.ofNat 64 (ofBytes ((bs.drop (8 * i)).take 8))

/-- The ROLE of a port. -/
def roleOf (s : State) (port : Nat) : Nat := (s.cp.leases.getD port Lease.zero).role

/-- SUBMIT. -/
def execSubmit (port region stream offset : Nat) (bytes : List Byte) (s : State) : Outcome State Fault Refusal :=
  let r := recordWords bytes
  if (portRefuses s port region stream).isSome then .next s
  else if offset ≠ 0 ∨ bytes.length ≠ 256 ∨ roleOf s port ≠ 1 then .next (rejectSubmission port region s)
  else if !regionBelow s (recRegion r) region || submissionFull s (recRegion r) then .next (rejectSubmission port region s)
  else
    let p := pageAt s port region
    .next (acceptRecord r port
      (putPage port region { p with accepts := p.accepts + 1, lastSeq := BitVec.ofNat 64 s.cp.reamHead } s))

/-- What a host reads at REAMDATA of a submission page: zero for another region's entry and for one that is overwritten. -/
def reamData (s : State) (port region : Nat) : ReamEntry :=
  let q := (pageAt s port region).sel.toNat
  let e := reamEntry s q
  if overwritten s q ∨ (slice (e.getD 1 0) 48 16).toNat ≠ region then List.replicate 8 0 else e

/-- What a host reads at entry i of REAMWIN: the last entry whose number is i modulo 2,048 (R337). -/
def reamWindow (s : State) (i : Nat) : ReamEntry :=
  let last := s.cp.reamHead - 1
  let back := (last + 2048 - i % 2048) % 2048
  if back < last then reamEntry s (last - back) else List.replicate 8 0

/-! ### Reads of the command processor through a region's tables (R26, spec/17 R278) -/

/-- What a read of the command processor comes to: the home key; not now; it cannot be read; an address that does not exist. -/
inductive CpRead where
  | ok (key : Nat)
  | again (s : State)
  | bad
  | hole (pa : Nat)
  deriving DecidableEq, Repr

/-- The home copy of a location. -/
def homeKey (k : Nat) : Nat := if isCached k then k - 2 ^ 66 else k

/-- A read at an address of a space: a page that is absent but allocated is made present first. -/
def cpRead (s : State) (root : Nat) (va : W64) : CpRead :=
  match walk s root va with
  | .leaf pte =>
    let k := homeKey (leafKey s pte va)
    if !bitAt pte 1 || homePoison s k 8 then .bad
    else if !reachableKey s k then .again s
    else if (keyPeer k).isSome then .ok k
    else (match areaOf k with
      | .memory => .ok k
      | .hole => .hole k
      | .slots .. | .block .. | .doorbell .. => .bad)
  | .absent =>
    (match allocOf s root va with
     | some a => .again (if pageServed s root va then (presentPage root a va false 0 s).getD s else s)
     | none => .bad)
  | .malformed | .poisoned => .bad
  | .hole pa => .hole pa

/-! ### Wait-for conditions (R26, R340) -/

/-- A condition of a launch found to hold. -/
def setHolds (seq i : Nat) (s : State) : State :=
  modLaunch s seq fun l => { l with waits := modNth l.waits i fun w => { w with holds := true } }

/-- The page-table root of a launch that has not started: of its region as it is now; what else is malformed is found when the
launch would start (spec/02 R360). -/
def queuedRoot (s : State) (l : Launch) : Option Nat :=
  if regionValid s l.region then some (pathWord 12 8 (regionLine s l.region)).toNat else none

/-- A KIND 1 condition of a queued launch read: it holds once the word is large enough; a word that cannot be read kills the
launch with reason 0x07. -/
def pollCondition (seq i : Nat) (s : State) : Outcome State Fault Refusal :=
  match activeLaunch s seq with
  | none => .next s
  | some l =>
    match l.waits[i]?, queuedRoot s l with
    | some w, some root =>
      if l.state ≠ .accepted ∨ w.kind ≠ 1 ∨ w.holds then .next s
      else (match cpRead s root w.word with
        | .ok k => .next (if w.value ≤ (homeWord s k).toNat then setHolds seq i s else s)
        | .again s1 => .next s1
        | .bad => .next (killLaunch seq 7 s)
        | .hole pa => .fault (.physicalHole pa))
    | _, _ => .next s

/-- Whether a condition's word lies in host or peer memory. -/
def remoteWord (s : State) (seq i : Nat) : Bool :=
  match activeLaunch s seq with
  | none => false
  | some l =>
    match l.waits[i]?, queuedRoot s l with
    | some w, some root =>
      (match walk s root w.word with
       | .leaf pte => leafMode pte != 0
       | .absent | .malformed | .hole _ | .poisoned => false)
    | _, _ => false

/-- WAIT_CONDITION_POLL: a word at a host or a peer is read again. -/
def execWaitConditionPoll (seq cond : Nat) (s : State) : Outcome State Fault Refusal :=
  if remoteWord s seq cond then pollCondition seq cond s else .next s

/-- WAIT_CONDITION_UPDATE: a local word is read again. -/
def execWaitConditionUpdate (seq cond : Nat) (s : State) : Outcome State Fault Refusal :=
  if remoteWord s seq cond then .next s else pollCondition seq cond s

/-- The four conditions read, one after the other. -/
def pollAll (seq : Nat) : List Nat → State → Outcome State Fault Refusal
  | [], s => .next s
  | i :: is, s =>
    match pollCondition seq i s with
    | .next s1 => pollAll seq is s1
    | .fault f => .fault f
    | .refused r => .refused r

/-- Whether a condition holds. -/
def conditionHolds (s : State) (w : WaitCond) : Bool :=
  if w.kind = 1 then w.holds else if w.kind = 2 then dependenceMet s w else true

/-! ### The start of a launch (R27, R33, R340, R344, R360) -/

/-- Whether the budgets of a region's path have room for a launch's reservation (R33). One for which they have none now, but whose
region's BUD_CTX is large enough, stays queued (DESIGN CHOICE, log 52). -/
def reservationFits (s : State) (l : Launch) (path : List (Rcb × Effective)) : Bool :=
  let n := match path with | (_, e) :: _ => reservation s l.record e.eff | [] => 0
  n == 0 || path.all fun p => decide (regionSlots s p.1.id + n ≤ p.2.ctx)

/-- The reason a launch fails with when it would start, by its region's values. -/
def startReason (s : State) (l : Launch) (e : Effective) : Option Nat :=
  if objectBad s l.record e.eff then some 4
  else if e.ctx < reservation s l.record e.eff then some 5
  else none

/-- Whether a queued launch could start now, or would fail if it did. -/
def startable (s : State) (l : Launch) : Bool :=
  decide (0 < l.seq) && decide (l.state = .accepted) && decide (regionState s l.region ≤ 1) && l.waits.all (conditionHolds s) &&
    (match regionValues s l.region with
     | some path => (path.head?.any fun p => (startReason s l p.2).isSome) || reservationFits s l path
     | none => true)

/-- The effective priority of a queued launch's region. -/
def queuedPrio (s : State) (l : Launch) : Nat := (effectiveNow s l.region).elim 0 (·.eff.prio)

/-- Whether the scheduler takes a queued launch before another: the lower number within a region, the higher priority between
regions. -/
def startsBefore (s : State) (a b : Launch) : Bool :=
  if a.region = b.region then decide (a.seq < b.seq) else decide (queuedPrio s b < queuedPrio s a)

/-- The companding tables' reads: the words, or why not. -/
inductive TableRead where
  | words (ws : List (Nat × Nat))
  | again (s : State)
  | bad
  | hole (pa : Nat)
  deriving DecidableEq, Repr

/-- Words of the companding tables read one after the other (spec/17 R276): base and slope. -/
def readTables (s : State) (root : Nat) : List W64 → TableRead
  | [] => .words []
  | va :: vas =>
    match cpRead s root va with
    | .again s1 => .again s1
    | .bad => .bad
    | .hole pa => .hole pa
    | .ok k =>
      let w := ofBytes (homeBytes s k 4)
      match readTables s root vas with
      | .words ws => .words ((w % 2 ^ 16, w / 2 ^ 16) :: ws)
      | other => other

/-- The eight tables of a launch. -/
def tablesOf (s : State) (root : Nat) (ctab : W64) : TableRead :=
  if ctab = 0 then .words (List.replicate 8 identityTable).flatten
  else readTables s root ((List.range 128).map fun i => ctab + BitVec.ofNat 64 (4 * i))

/-- The addresses of the pages of a launch's spans. -/
def spanPages (l : Launch) : List W64 := (l.spans.flatMap fun p => pageVas p.1 p.2).eraseDups

/-- The pages of a launch's spans marked copy-on-write, and the absent ones recorded (R344); what was stored to them before and is still
to be written back goes home first. -/
def markSpans (seq : Nat) (s : State) : State :=
  match launchOf s seq with
  | none => s
  | some l =>
    let at_ (va : W64) : Option Nat := match walk s l.eff.ptRoot va with
      | .leaf pte => some (leafKey s pte va / 4096)
      | .absent | .malformed | .hole _ | .poisoned => none
    let missing (va : W64) : Bool := match walk s l.eff.ptRoot va with
      | .absent => true
      | .leaf _ | .malformed | .hole _ | .poisoned => false
    let pages := ((spanPages l).filterMap at_).eraseDups
    modLaunch (pages.foldl (fun st p => flushAllDies (p * 4096) 4096 (flushAllL1 (p * 4096) 4096 st)) s) seq fun x =>
      { x with marked := pages, absent := (spanPages l).filter missing, snapshots := [], snapFailed := false }

/-- A launch begins, or begins again: nothing handed out, its reservation made, its spans marked. -/
def beginLaunch (seq : Nat) (s : State) : State :=
  markSpans seq (modLaunch s seq fun l =>
    { l with
      state := .started, handed := 0, contCount := 0, staged := [], stageSlot := 0, stageUsed := 0, retiredWarps := [],
      arrivals := [], reserved := reservation s l.record l.eff })

/-- The values a launch keeps from its first start (R360, spec/17 R278). -/
def keepValues (e : Effective) (tables : List (Nat × Nat)) (o : Object) (l : Launch) : Launch :=
  { l with
    eff := e.eff, compand := (List.range 8).map fun t => (tables.drop (16 * t)).take 16, codeBase := o.base, hasCall := o.hasCall }

/-- A launch whose turn has come, with the values of its region's path: checked once more, and started. -/
def startLaunch (l : Launch) (path : List (Rcb × Effective)) (e : Effective) (s : State) : Outcome State Fault Refusal :=
  match startReason s l e, findObject s l.object e.eff.ptRoot with
  | some reason, _ => .next (killLaunch l.seq reason s)
  | none, none => .next (killLaunch l.seq 4 s)
  | none, some o =>
    match tablesOf s e.eff.ptRoot l.ctab with
    | .hole pa => .fault (.physicalHole pa)
    | .again s1 => .next s1
    | .bad => .next (killLaunch l.seq 7 s)
    | .words ws => .next (beginLaunch l.seq (modLaunch (loadBudgets s path) l.seq (keepValues e ws o)))

/-- A launch tried, its conditions read. -/
def tryStart (seq : Nat) (s : State) : Outcome State Fault Refusal :=
  match activeLaunch s seq with
  | none => .next s
  | some l =>
    if startable s l = false ∨ ((allLaunches s).any fun x => startable s x && startsBefore s x l) then .next s
    else match regionValues s l.region with
      | some ((r, e) :: path) => startLaunch l ((r, e) :: path) e s
      | some [] | none => .next (killLaunch seq 2 s)

/-- LAUNCH_START: a launch whose dependence ended killed is killed with reason 0x06. -/
def execLaunchStart (seq : Nat) (s : State) : Outcome State Fault Refusal :=
  match activeLaunch s seq with
  | none => .next s
  | some l =>
    if l.state ≠ .accepted then .next s
    else if l.waits.any (dependenceKilled s) then .next (killLaunch seq 6 s)
    else match pollAll seq [0, 1, 2, 3] s with
      | .next s1 => tryStart seq s1
      | .fault f => .fault f
      | .refused r => .refused r

/-! ### Replay (R347) -/

/-- A package write carried on as far as its turn allows: at its home, then at every die. -/
def pushWrite (s : State) (id : Nat) : State :=
  let s1 := match findWrite s id with
    | some w => if homeDue s w then applyHome w s else s
    | none => s
  sweepWrites ((List.range Config.dies).foldl (fun st d => match findWrite st id with
    | some w => if dieDue st w d then pkgAtDie st w d else st
    | none => st) s1)

/-- Every package write performed. -/
def pushWrites (s : State) : State := (s.mem.writes.map (·.id)).foldl pushWrite s

/-- The packets of a launch performed at their peers; they only wait to be acknowledged. -/
def pushPackets (seq : Nat) (s : State) : State :=
  let mine := s.fabric.sent.filter fun p => decide (p.warp.seq = seq)
  let s1 := mine.foldl (fun st p => applyPacket p st) s
  { s1 with fabric := { s1.fabric with sent := s1.fabric.sent.map fun p => if p.warp.seq = seq then { p with accs := [], write := none } else p } }

/-- A page written back whole from its snapshot; every copy of it is dropped, and its poisoned lines are cured. -/
def restorePage (s : State) (x : Snapshot) : State :=
  let k := x.page * 4096
  giveFrame x.frame (homeWrite (dropCopies k 4096 s) k (ByteMap.readMany x.bytes k 4096))

/-- A page that was absent made absent again, and its frame freed. -/
def forgetPage (root : Nat) (s : State) (va : W64) : State :=
  match walk s root va with
  | .leaf pte =>
    let s1 := dropTlb (fun e => decide (e.root = root) && tlbCovers e va) (unmapPage root va s)
    if leafMode pte = 0 then giveFrame (leafPa pte va / 4096) (dropCopies (leafPa pte va / 4096 * 4096) 4096 s1) else s1
  | .absent | .malformed | .hole _ | .poisoned => s

/-- A launch replayed: its work discarded, its spans restored, and begun again with the values of its first start. The restart
reads the budget limits of its path again; a malformed path leaves those read last (DESIGN CHOICE, log 52). -/
def replayLaunch (l : Launch) (s : State) : State :=
  let s1 := dropWork l.seq (pushPackets l.seq (pushWrites s))
  let now := (launchOf s1 l.seq).getD l
  let s2 := modLaunch s1 l.seq fun x => { x with marked := [], snapshots := [], absent := [], replays := x.replays + 1, reserved := 0 }
  let s3 := now.snapshots.foldl restorePage s2
  let s4 := now.absent.foldl (forgetPage l.eff.ptRoot) s3
  let s5 := match regionValues s4 l.region with
    | some path => loadBudgets s4 path
    | none => s4
  beginLaunch l.seq s5

/-! ### Resets (R348) -/

/-- The regions a reset covers. -/
def coveredRegions (s : State) (top : Nat) (all_ : Bool) : List Nat :=
  if all_ then (s.cp.table.map (·.1)).filter fun i => regionBelow s i top else [top]

/-- The rings of a region disabled. -/
def disableRings (i : Nat) (s : State) : State :=
  { s with fabric := { s.fabric with
      rings := s.fabric.rings.map fun e => if e.2.region = i then (e.1, { e.2 with w0 := setBit e.2.w0 47 false }) else e } }

/-- The launches of a region that are not final. -/
def liveLaunches (s : State) (i : Nat) : List Launch :=
  (allLaunches s).filter fun l => decide (0 < l.seq) && decide (l.region = i) && !isFinal l

/-- One region reset or killed: the queued launches first, then the running ones; the launch whose cause started it has reason
0x10. -/
def resetRegion (reason : Nat) (kill : Bool) (cause : Option Nat) (s : State) (i : Nat) : State :=
  let end_ (st : State) (l : Launch) : State := killLaunch l.seq (if cause = some l.seq then 0x10 else reason) st
  let s1 := setRegionState i 2 s
  let s2 := ((liveLaunches s1 i).filter fun l => decide (l.state = .accepted)).foldl end_ s1
  let s3 := (liveLaunches s2 i).foldl end_ s2
  let s4 := signalRegion i 3 (disableRings i s3)
  restartBudget i (setRegionState i (if kill then 3 else 0) s4)

/-- A reset of a region by its scope. -/
def resetScope (top : Nat) (all_ : Bool) (reason : Nat) (kill : Bool) (cause : Option Nat) (s : State) : State :=
  (coveredRegions s top all_).foldl (resetRegion reason kill cause) s

/-- Whether a region's effective RESET_SCOPE covers its descendants. -/
def scopeAll (s : State) (i : Nat) : Bool := (effectiveNow s i).any fun e => e.eff.resetScope == 1

/-- GO cleared. -/
def clearGo (s : State) : State := { s with cp := { s.cp with go := false } }

/-- REGION_RESET: GO with ACTION 0. -/
def execRegionReset (s : State) : Outcome State Fault Refusal :=
  let i := s.cp.rgn.toNat
  if s.cp.action = 0 ∧ regionValid s i then .next (clearGo (resetScope i (scopeAll s i) 0x11 false none s)) else .next (clearGo s)

/-- REGION_KILL: GO with ACTION 1. -/
def execRegionKill (s : State) : Outcome State Fault Refusal :=
  let i := s.cp.rgn.toNat
  if s.cp.action = 1 ∧ regionValid s i then .next (clearGo (resetScope i (scopeAll s i) 0x12 true none s)) else .next (clearGo s)

/-- REGION_REVIVE: GO with ACTION 2 takes a region from 3 to 0; its energy counts start anew (spec/18 R301). -/
def execRegionRevive (s : State) : Outcome State Fault Refusal :=
  let i := s.cp.rgn.toNat
  if s.cp.action = 2 ∧ regionValid s i ∧ regionState s i = 3 then .next (clearGo (restartBudget i (setRegionState i 0 s)))
  else .next (clearGo s)

/-- FUNCTION_LEVEL_RESET: of a virtual function, asked for on an IDE stream, its region with RESET_SCOPE 1, unless the port does not carry
the request (spec/20 R331); of the physical function the port's own binding to an interface. -/
def execFunctionLevelReset (port : Nat) (vf : Option (Nat × Nat)) (s : State) : Outcome State Fault Refusal :=
  match vf with
  | some (i, stream) => if (portRefuses s port i stream).isSome then .next s else .next (resetScope i true 0x11 false none s)
  | none => .next { s with fabric := { s.fabric with tdisp := setNth s.fabric.tdisp port none } }

/-! ### Causes (R346, R359) -/

/-- The INFO the Ream keeps of a cause: the address of an uncorrectable line. -/
def stopInfo (c : CpStop) : W64 := if c.cause = .uncorrectableMemory then c.addr else c.info

/-- A logged entry with another CAUSE and INFO. -/
def entryCause (c : CpStop) (e : ReamEntry) : ReamEntry :=
  let w := e.getD 1 0
  (e.set 1 ((w &&& ~~~((0x1FF : W64) <<< 23)) ||| (BitVec.ofNat 64 (causeCode c.cause) <<< 23))).set 2 (stopInfo c)

/-- A cause recorded with a launch, and in its entry once it is logged. -/
def recordStop (seq : Nat) (c : CpStop) (s : State) : State :=
  let s1 := modLaunch s seq fun l => { l with cause := causeCode c.cause, info := stopInfo c }
  match AList.find s1.cp.ream seq with
  | some e => { s1 with cp := { s1.cp with ream := AList.put s1.cp.ream seq (entryCause c e) } }
  | none => s1

/-- A stopped warp goes on. -/
def resumeWarp (w : WarpId) (s : State) : State := modWarp s w fun x => { x with stopped := none }

/-- Whether a cause leaves its warp going on under FAULT_DOM 3. -/
def reportOnly (c : CpStop) : Bool :=
  (decide (c.cause = .uncorrectableMemory) || decide (c.cause = .peerLost)) && c.onMemoryWord

/-- A cause of a started launch settled by its FAULT_DOM. -/
def settleCause (w : WarpId) (l : Launch) (c : CpStop) (s : State) : State :=
  let killed (reason : Nat) : State := killLaunch l.seq reason s
  match l.eff.faultDom with
  | 0 => if l.rpl ∧ l.replays < 2 then replayLaunch l s else killed (if l.replays = 2 then 0x13 else 0x10)
  | 1 => killed 0x10
  | 2 => resetScope l.region (l.eff.resetScope == 1) 0x12 true (some l.seq) s
  | _ => if reportOnly c then resumeWarp w s else killed 0x10

/-- The causes that still wait of a launch that is replayed or killed: they are only recorded (R359). -/
def absorbCauses (seq : Nat) (s : State) : State :=
  let mine := s.cp.queue.filter fun q => decide (q.1.seq = seq)
  let s1 := { s with cp := { s.cp with queue := s.cp.queue.filter fun q => decide (q.1.seq ≠ seq) } }
  mine.foldl (fun st q => recordStop seq q.2 st) s1

/-- A launch whose snapshots failed (R343). -/
def failedSnapshots (s : State) : Option Launch := (allLaunches s).find? fun l => l.snapFailed && !isFinal l

/-- CP_CAUSE: a launch whose snapshots failed is killed with reason 0x09; else the next cause at the command processor. That of a launch whose last warp has retired finds it complete: it is
recorded, and what is left of the launch is discarded. -/
def execCpCause (s : State) : Outcome State Fault Refusal :=
  match failedSnapshots s with
  | some l => .next (absorbCauses l.seq (killLaunch l.seq 9 s))
  | none =>
  match s.cp.queue with
  | [] => .next s
  | (w, c) :: rest =>
    let s1 := recordStop w.seq c { s with cp := { s.cp with queue := rest } }
    match activeLaunch s1 w.seq, (findWarp s1 w).bind (·.stopped) with
    | some l, some _ =>
      let s2 := signalLaunch l 1 s1
      if isFinal l then .next (absorbCauses w.seq (removeLaunch w.seq (dropWork w.seq s2)))
      else
        let l1 := (launchOf s2 w.seq).getD l
        let s3 := settleCause w l1 c s2
        .next (if l1.eff.faultDom = 3 ∧ reportOnly c then s3 else absorbCauses w.seq s3)
    | _, _ => .next s1

/-! ### The registers of the physical function (R337, R338, R349, spec/20 R325, R332) -/

/-- REGION_TABLE_WRITE: discarded while the region has a launch that is not final, or is not idle. -/
def execRegionTableWrite (i : Nat) (v : W64) (s : State) : Outcome State Fault Refusal :=
  if 0xFFFF ≤ i ∨ (regionValid s i ∧ (regionBusy s i ∨ regionState s i ≠ 0)) then .next s
  else
    let x := v &&& ~~~(0xFE : W64)
    .next (restartBudget i { s with cp := { s.cp with
      table := if x = 0 then AList.drop s.cp.table i else AList.put s.cp.table i x } })

/-- A word of a ring block written by privileged software: while EN is 0 its fields but EN; while EN is 1 only EN cleared. -/
def writeRingWord (ring word : Nat) (v : W64) (s : State) : State :=
  let r := ringAt s ring
  if 1024 ≤ ring then s
  else if r.en then (if word = 0 ∧ bitAt v 47 = false then putRing s ring { r with w0 := setBit r.w0 47 false } else s)
  else match word with
    | 0 => putRing s ring { r with w0 := v &&& 0xFFFF7F0000000000 }
    | 1 => putRing s ring { r with w1 := v &&& 0x01FFFFFF0001FFFF }
    | 2 => putRing s ring { r with w2 := v &&& 0xFFFFFF8000000000 }
    | _ => s

/-- A port's lease changed. -/
def modLease (port : Nat) (f : Lease → Lease) (s : State) : State :=
  { s with cp := { s.cp with leases := modNth s.cp.leases port f } }

/-- REGISTER_WRITE: fields with no behaviour of their own; bits that read as zero stay zero. What a virtual function's page holds is written
only by a request that its port carries (spec/20 R331). -/
def execRegisterWrite (field : RegField) (s : State) : Outcome State Fault Refusal :=
  match field with
  | .action v => .next { s with cp := { s.cp with action := v } }
  | .rgn v => .next { s with cp := { s.cp with rgn := v } }
  | .loadpa v => .next { s with cp := { s.cp with loadpa := v &&& ~~~(0xFFF : W64) } }
  | .loadlen v => .next { s with cp := { s.cp with loadlen := v } }
  | .loadrgn v => .next { s with cp := { s.cp with loadrgn := v } }
  | .loadva v => .next { s with cp := { s.cp with loadva := v &&& ~~~(0xFFFF : W64) } }
  | .unloadh v => .next { s with cp := { s.cp with unloadh := v } }
  | .sel port region stream v =>
    .next (if (portRefuses s port region stream).isSome then s else putPage port region { pageAt s port region with sel := v } s)
  | .term port v => .next (if 1000 ≤ v.toNat ∧ v.toNat ≤ 60000000 then modLease port (fun l => { l with term := v }) s else s)
  | .windowBase region w v =>
    .next (if w < 16 then putWindow region w { windowAt s region w with base := v &&& ~~~(0xFFF : W64) } s else s)
  | .windowCtl region w pages en wr rd =>
    .next (if w < 16 ∧ pages.toNat ≤ 16777216 then
      putWindow region w { windowAt s region w with pages := pages.toNat, en := en, wr := wr, rd := rd } s else s)
  | .ringWord ring word v => .next (writeRingWord ring word v s)

/-! ### Two hosts (R349, R350) -/

/-- LEASE_RENEW: RENEW written with ROLE 1; a renewal after the expiry is discarded. -/
def execLeaseRenew (port : Nat) (s : State) : Outcome State Fault Refusal :=
  .next (if roleOf s port = 1 then modLease port (fun l => { l with renewed := s.clock }) s else s)

/-- LEASE_ROLE_WRITE: ROLE 1 only while the other port is not active; 3 is reserved. -/
def execLeaseRoleWrite (port role : Nat) (s : State) : Outcome State Fault Refusal :=
  if 2 ≤ port ∨ 3 ≤ role ∨ (role = 1 ∧ roleOf s (1 - port) = 1) then .next s
  else
    let s1 := modLease port (fun l => { l with role := role, expired := false, renewed := s.clock }) s
    .next (if role = 1 then deliverWaiting port s1 else s1)

/-- Every region with a valid entry told of an event class. -/
def signalAll (cls : Nat) (s : State) : State :=
  ((s.cp.table.map (·.1)).filter (regionValid s)).foldl (fun st i => signalRegion i cls st) s

/-- LEASE_EXPIRY: the port is no longer active; a standby takes over, and the old host's peer number becomes unreachable. When the
term is over is the management pair's to say. -/
def execLeaseExpiry (port : Nat) (s : State) : Outcome State Fault Refusal :=
  if 2 ≤ port ∨ roleOf s port ≠ 1 then .next s
  else
    let s1 := modLease port (fun l => { l with role := 0 }) s
    if roleOf s (1 - port) = 2 then
      let s2 := deliverWaiting (1 - port) (modLease port (fun l => { l with expired := true })
        (modLease (1 - port) (fun l => { l with role := 1, expired := false, renewed := s.clock }) s1))
      .next (signalAll 3 { s2 with fabric := { s2.fabric with
        lost := (s2.fabric.lost ++ [s2.mgmt.hosts.getD port 0]).eraseDups } })
    else .next s1

end Sys2Proof.Machine
end

