-- ==== Sys2Proof/Machine/CrossLane.lean ====
section
/-! DEFINITION. The cross-lane words (spec/07 R148 to R154): they read every running lane before any lane writes. -/

namespace Sys2Proof.Machine

open Host (Outcome)

/-- The result of a word that writes a register and a predicate: neither is written when the register refuses (R154). -/
def putBoth (s0 s : State) (run : Mask) (d : BitVec 7) (is64 : Bool) (sep : Nat) (f : Nat → Nat) (p : Nat) (q : Nat → Bool) :
    Res :=
  match putReg s0 s run d is64 false sep f with
  | .done s1 => .done (modCtx s1 (writeP p run sep q))
  | r => r

/-- The lane SHFL reads (R149): within sub-groups of w lanes, by mode. -/
def shflSource (mode w l b : Nat) : Nat :=
  let base := l - l % w
  let o := l % w
  let n := b % w
  base + (match mode with
    | 0 => n
    | 1 => (o + n) % w
    | 2 => o ^^^ n
    | _ => (n + w - o) % w)

/-- SHFL: a lane whose source does not run keeps its own value and sets pm. -/
def execShfl (f : A3) (s : State) : Outcome State Fault Refusal :=
  runWord (.shfl f) f.dist (fun run s =>
    let w := tyWidth f.ty
    let from_ (l : Nat) : Nat := shflSource (f.aux.toNat % 4) (2 ^ (f.aux.toNat / 4 + 1)) l (readNat s 32 f.b l)
    reading s run [useA f w, useB f 32] fun s1 =>
      putBoth s s1 run f.d (tyIs64 f.ty) 4
        (fun l => if bitAt run (from_ l) then readNat s w f.a (from_ l) else readNat s w f.a l)
        f.c.toNat fun l => !bitAt run (from_ l)) s

/-- The lanes of the running threads whose predicate, inverted when asked, is true (R150). -/
def voteMask (s : State) (run : Mask) (p : Nat) (neg : Bool) : Mask := maskOf fun l => bitAt run l && (readP s p l != neg)

/-- VOTE: all, any, or the mask of the lanes that vote true. -/
def execVote (f : A3) (s : State) : Outcome State Fault Refusal :=
  runWord (.vote f) f.dist (fun run s =>
    let m := voteMask s run f.a.toNat f.na
    let s1 := afterPred s run f.a.toNat
    match f.aux.toNat with
    | 0 => putPred s1 run f.d.toNat 4 fun _ => decide (m = run)
    | 1 => putPred s1 run f.d.toNat 4 fun _ => decide (m ≠ 0)
    | _ => roomed [] (putReg s s1 run f.d false false 4 fun _ => m.toNat)) s

/-- The combining step of REDUX and SCAN on two values (R151). -/
def combine (f : A3) (x y : Nat) : FpRes :=
  let w := tyWidth f.ty
  match f.aux.toNat % 8 with
  | 0 => if f.ty == .f32 then addFp fmt32 f.rnd.toNat (unpackFp fmt32 x) (unpackFp fmt32 y) else ((x + y) % 2 ^ w, 0)
  | 1 => if f.ty == .f32 then minMaxFp fmt32 false x y else (if elem f.ty x 0 ≤ elem f.ty y 0 then x else y, 0)
  | 2 => if f.ty == .f32 then minMaxFp fmt32 true x y else (if elem f.ty x 0 ≤ elem f.ty y 0 then y else x, 0)
  | 3 => (x &&& y, 0)
  | 4 => (x ||| y, 0)
  | _ => (x ^^^ y, 0)

/-- The identity of an exclusive scan (R151). -/
def scanIdentity (f : A3) : Nat :=
  match f.aux.toNat % 8 with
  | 1 => if f.ty == .f32 then infBits fmt32 else wrap 32 (tyMax f.ty)
  | 2 => if f.ty == .f32 then infBits fmt32 + signBit fmt32 else wrap 32 (tyMin f.ty)
  | 3 => 0xFFFFFFFF
  | _ => 0

/-- A partial result of a lane: a value or none, and the flags of the steps so far. -/
abbrev Partial := Option Nat × FpFlags

/-- The combination of two partial values: an absent one is absorbed without arithmetic. -/
def combPartial (f : A3) (x y : Option Nat) (fl : FpFlags) : Partial :=
  match x, y with
  | none, v | v, none => (v, fl)
  | some a, some b => let r := combine f a b; (some r.1, fl ||| r.2)

/-- One step of the tree of REDUX at distance d. -/
def reduxStep (f : A3) (v : Lanes Partial) (d : Nat) : Lanes Partial :=
  lanesOf fun l =>
    let lo := if l / d % 2 = 0 then l else l - d
    combPartial f (lane v lo).1 (lane v (lo + d)).1 (lane v l).2

/-- One step of the tree of SCAN at distance d. -/
def scanStep (f : A3) (v : Lanes Partial) (d : Nat) : Lanes Partial :=
  lanesOf fun l => if d ≤ l then combPartial f (lane v (l - d)).1 (lane v l).1 (lane v l).2 else lane v l

/-- The flags of every step in every lane (R151). -/
def partialFlags (v : Lanes Partial) : FpFlags := laneNums.foldl (fun m l => m ||| (lane v l).2) 0

/-- The values of the running lanes as partial results. -/
def partials (s : State) (run : Mask) (f : A3) : Lanes Partial :=
  lanesOf fun l => if bitAt run l then (some (readNat s (tyWidth f.ty) f.a l), 0) else (none, 0)

/-- A delivered value: every NaN of a reducing word is the canonical one, a lone lane's too (R133). -/
def canonicalOf (f : A3) (x : Nat) : Nat := if f.ty == .f32 && isNan (unpackFp fmt32 x) then nanBits fmt32 else x

/-- REDUX or SCAN, given the tree step and a lane's result. -/
def treeWord (f : A3) (step : Lanes Partial → Nat → Lanes Partial) (pick : Lanes Partial → Nat → Nat) (run : Mask)
    (s : State) : Res :=
  let v := [1, 2, 4, 8, 16].foldl step (partials s run f)
  reading s run [useA f (tyWidth f.ty)] fun s1 =>
    putReg s (modCtx s1 (raiseFp run fun _ => partialFlags v)) run f.d (tyIs64 f.ty) (f.ty == .s32) 6 fun l => canonicalOf f (pick v l)

/-- REDUX. -/
def execRedux (f : A3) (s : State) : Outcome State Fault Refusal :=
  runWord (.redux f) f.dist (treeWord f (reduxStep f) fun v l => (lane v l).1.getD 0) s

/-- A lane's result of SCAN: its own prefix, or the one before it (R151). -/
def scanPick (f : A3) (v : Lanes Partial) (l : Nat) : Nat :=
  if bitAt f.aux 3 then (if l = 0 then scanIdentity f else (lane v (l - 1)).1.getD (scanIdentity f))
  else (lane v l).1.getD 0

/-- SCAN. -/
def execScan (f : A3) (s : State) : Outcome State Fault Refusal :=
  runWord (.scan f) f.dist (treeWord f (scanStep f) (scanPick f)) s

/-- MATCH: the lanes that hold the same value; pm when all do. -/
def execMatchLanes (f : A3) (s : State) : Outcome State Fault Refusal :=
  runWord (.matchLanes f) f.dist (fun run s =>
    let w := tyWidth f.ty
    let same (l : Nat) : Mask := maskOf fun m => bitAt run m && decide (readNat s w f.a m = readNat s w f.a l)
    reading s run [useA f w] fun s1 =>
      putBoth s s1 run f.d false 4 (fun l => (same l).toNat) f.c.toNat fun l => decide (same l = run)) s

/-- The bits of an element, the elements of a register, of a transposition (R153). -/
def xposeWidth : Ty → Nat
  | .ui16x2 => 16
  | .ui8x4 => 8
  | _ => 32

/-- Register i, lane l after a transposition: element (r, j) is the old element (j, r) (R153). -/
def xposeValue (s : State) (n w i l : Nat) : Nat :=
  let per := 32 / w
  let rows := 8 * per
  let base := l - l % rows
  let j := l % rows
  (List.range per).foldl (fun acc h =>
    let r := per * i + h
    acc + fld (readG s (n + j / per) (base + r)).toNat (w * (j % per) + w - 1) (w * (j % per)) * 2 ^ (w * h)) 0

/-- The lanes of the groups that some running lane belongs to: XPOSE reads them all (R153). -/
def groupLanes (run : Mask) (rows : Nat) : Mask := maskOf fun l => (lanesIn run).any fun r => decide (r / rows = l / rows)

/-- XPOSE. -/
def execXpose (f : A3) (s : State) : Outcome State Fault Refusal :=
  runWord (.xpose f) f.dist (fun run s =>
    let n := f.d.toNat
    let w := xposeWidth f.ty
    let us : List Use := (List.range 8).map fun i => { reg := f.d + BitVec.ofNat 7 i, width := 32, last := false }
    reading s (groupLanes run (8 * (32 / w))) us fun s1 =>
      if lineRoom s1 8 then
        .done (modCtx s1 fun c =>
          (List.range 8).foldl (fun c i => writeG (ctxOf s) (n + i) run 7 (fun l => BitVec.ofNat 32 (xposeValue s n w i l)) c) c)
      else .hold s .lineBudget) s

end Sys2Proof.Machine
end

