-- ==== Sys2Proof/Machine/Paired.lean ====
section
/-! DEFINITION. Paired words (spec/04 R74, R75, spec/06 R119): both slots read before either writes. -/

namespace Sys2Proof.Machine

open Host (Outcome)

/-- The type of a slot (R74). -/
def slotTy (s : SlotArgs) : Ty :=
  match s.ty.toNat with
  | 0 => .ui32
  | 1 => .s32
  | 2 => .f32
  | _ => .b32

/-- An integer slot. -/
def slotInt (t : Ty) (op : Int → Int → Int) (x y : Nat) : FpRes := (intLane t false (fun a b _ => op a b) x y 0, 0)

/-- The meaning of a slot opcode on d and s (R119): that of the A3 instruction of its name. -/
def slotValue (op : SlotOp) (t : Ty) (x y : Nat) : FpRes :=
  match op with
  | .iadd => slotInt t (· + ·) x y
  | .isub => slotInt t (· - ·) x y
  | .imul => slotInt t (· * ·) x y
  | .imin => slotInt t min x y
  | .imax => slotInt t max x y
  | .and => (x &&& y, 0)
  | .or => (x ||| y, 0)
  | .xor => (x ^^^ y, 0)
  | .shl => (shlNat 32 x y, 0)
  | .shr => (shrNat 32 x y, 0)
  | .sar => (sarNat 32 x y, 0)
  | .mov => (y, 0)
  | .fadd => addFp fmt32 0 (unpackFp fmt32 x) (unpackFp fmt32 y)
  | .fmul => mulFp fmt32 0 (unpackFp fmt32 x) (unpackFp fmt32 y)
  | .fmin => minMaxFp fmt32 false x y
  | .fmax => minMaxFp fmt32 true x y
  | .not => (notNat 32 y, 0)

/-- The separation of a slot opcode (spec/04 R68). -/
def slotSep : SlotOp → Nat
  | .imul | .fadd | .fmul | .fmin | .fmax => 4
  | .iadd | .isub | .imin | .imax | .and | .or | .xor | .shl | .shr | .sar | .mov | .not => 2

/-- The separation of the word: it is one producer of both destinations (R119), so that of its slower slot. -/
def pairSep (slots : List Slot) : Nat := slots.foldl (fun m x => max m (slotSep x.op)) 0

/-- The sources of a slot: D and S (R75). -/
def slotUses (x : Slot) : List Use :=
  [{ reg := x.args.d, width := 32, last := false }, { reg := x.args.s, width := 32, last := x.args.lr }]

/-- A slot's result in a lane, from the state before the word. -/
def slotLane (s : State) (x : Slot) (l : Nat) : FpRes :=
  slotValue x.op (slotTy x.args) (readNat s 32 x.args.d l) (readNat s 32 x.args.s l)

/-- One slot's result written. -/
def putSlot (s0 : State) (run : Mask) (sep : Nat) (r : Res) (x : Slot) : Res :=
  match r with
  | .done s => putReg s0 s run x.args.d false (slotTy x.args == .s32) sep fun l => (slotLane s0 x l).1
  | other => other

/-- A paired word: its slots read, their flags raised, their results written. -/
def pairWord (op : SlotOp) (p : Ap) (run : Mask) (s : State) : Res :=
  let slots := apSlots op p
  let lines := (slots.map fun x => dstLines x.args.d 32).sum
  reading s run (slots.flatMap slotUses) fun s1 =>
    if lineRoom s1 lines then
      slots.foldl (putSlot s run (pairSep slots))
        (.done (modCtx s1 fun c => slots.foldl (fun c x => raiseFp run (fun l => (slotLane s x l).2) c) c))
    else .hold s .lineBudget

/-- IADD.AP. -/
def execIaddAp (p : Ap) (s : State) : Outcome State Fault Refusal :=
  runWord (.iaddAp p) p.dist (pairWord .iadd p) s

/-- ISUB.AP. -/
def execIsubAp (p : Ap) (s : State) : Outcome State Fault Refusal :=
  runWord (.isubAp p) p.dist (pairWord .isub p) s

/-- IMUL.AP. -/
def execImulAp (p : Ap) (s : State) : Outcome State Fault Refusal :=
  runWord (.imulAp p) p.dist (pairWord .imul p) s

/-- IMIN.AP. -/
def execIminAp (p : Ap) (s : State) : Outcome State Fault Refusal :=
  runWord (.iminAp p) p.dist (pairWord .imin p) s

/-- IMAX.AP. -/
def execImaxAp (p : Ap) (s : State) : Outcome State Fault Refusal :=
  runWord (.imaxAp p) p.dist (pairWord .imax p) s

/-- AND.AP. -/
def execAndAp (p : Ap) (s : State) : Outcome State Fault Refusal :=
  runWord (.andAp p) p.dist (pairWord .and p) s

/-- OR.AP. -/
def execOrAp (p : Ap) (s : State) : Outcome State Fault Refusal :=
  runWord (.orAp p) p.dist (pairWord .or p) s

/-- XOR.AP. -/
def execXorAp (p : Ap) (s : State) : Outcome State Fault Refusal :=
  runWord (.xorAp p) p.dist (pairWord .xor p) s

/-- SHL.AP. -/
def execShlAp (p : Ap) (s : State) : Outcome State Fault Refusal :=
  runWord (.shlAp p) p.dist (pairWord .shl p) s

/-- SHR.AP. -/
def execShrAp (p : Ap) (s : State) : Outcome State Fault Refusal :=
  runWord (.shrAp p) p.dist (pairWord .shr p) s

/-- SAR.AP. -/
def execSarAp (p : Ap) (s : State) : Outcome State Fault Refusal :=
  runWord (.sarAp p) p.dist (pairWord .sar p) s

/-- MOV.AP. -/
def execMovAp (p : Ap) (s : State) : Outcome State Fault Refusal :=
  runWord (.movAp p) p.dist (pairWord .mov p) s

/-- FADD.AP. -/
def execFaddAp (p : Ap) (s : State) : Outcome State Fault Refusal :=
  runWord (.faddAp p) p.dist (pairWord .fadd p) s

/-- FMUL.AP. -/
def execFmulAp (p : Ap) (s : State) : Outcome State Fault Refusal :=
  runWord (.fmulAp p) p.dist (pairWord .fmul p) s

/-- FMIN.AP. -/
def execFminAp (p : Ap) (s : State) : Outcome State Fault Refusal :=
  runWord (.fminAp p) p.dist (pairWord .fmin p) s

/-- FMAX.AP. -/
def execFmaxAp (p : Ap) (s : State) : Outcome State Fault Refusal :=
  runWord (.fmaxAp p) p.dist (pairWord .fmax p) s

/-- NOT.AP. -/
def execNotAp (p : Ap) (s : State) : Outcome State Fault Refusal :=
  runWord (.notAp p) p.dist (pairWord .not p) s

end Sys2Proof.Machine
end

