-- ==== Sys2Proof/Machine/Moving.lean ====
section
/-! DEFINITION. What an object image holds, and its translation for this part (spec/22 R354, spec/04 R87, R88). -/

namespace Sys2Proof.Machine

/-! ### The segments and words of an image -/

/-- Whether a segment of an image is a header and as many words as it says (spec/04 R64, R65). -/
def segShape (g : ImageSeg) : Bool :=
  match g.words with
  | [] => false
  | h :: ws => slice h 61 3 == 7 && decide ((slice h 55 6).toNat = ws.length) && decide (0 < ws.length)

/-- Whether a word holds an opcode of a class: 0 A3 by its eight bits, else by six. -/
def wordHolds (cls op : Nat) (w : W64) : Bool :=
  decide ((slice w 61 3).toNat = cls) && decide ((if cls = 0 then (slice w 50 8).toNat else (slice w 52 6).toNat) = op)

/-- Every word of an image after its headers. -/
def imageWords (m : Image) : List W64 := m.segs.flatMap fun g => g.words.tail

/-- The removed opcodes an image uses, as A3 opcodes: IDOT4 (R86). -/
def removedOps (m : Image) : List Nat := if (imageWords m).any (wordHolds 0 0x0D) then [0x0D] else []

/-- The next multiple of 64 KiB. -/
def up64k (n : Nat) : Nat := ceilDiv n 65536 * 65536

/-- The bytes of an image's code section. -/
def codeBytes (m : Image) : List Byte := (m.segs.flatMap (·.words)).flatMap fun w => bytesOf 8 w.toNat

/-- A section of an object: its offset from the base, its bytes, the bits of its leaves. -/
structure Section where
  offset : Nat
  bytes : List Byte
  leaf : Nat
  deriving DecidableEq, Repr

/-- The sections of an image: sealed code, read-only data, read-write data. -/
def sectionsOf (m : Image) : List Section :=
  let code := codeBytes m
  let ro := up64k code.length
  let rw := up64k (ro + m.ro.length)
  [{ offset := 0, bytes := code, leaf := 0x1B }, { offset := ro, bytes := m.ro, leaf := 0x03 },
   { offset := rw, bytes := m.rw, leaf := 0x07 }]

/-! ### Distances (spec/04 R68) -/

/-- The separation that a word requires of a later reader of what it writes (spec/04 R68); 0 for a word that writes nothing a separation
covers. -/
def sepOf : Instr → Nat
  | .iadd _ | .isub _ | .imin _ | .imax _ | .iabs _ | .ineg _ | .lea _ | .iclamp _ | .iabsd _ | .and _ | .or _ | .xor _ | .andn _
  | .not _ | .shl _ | .shr _ | .sar _ | .rot _ | .funsh _ | .bfi _ | .bfx _ | .popc _ | .clz _ | .ctz _ | .brev _ | .bswp _ | .prmt _
  | .icmp _ | .sel _ | .mov _ | .pset _ | .pmov _ | .iaddi _ | .andi _ | .ori _ | .xori _ | .shli _ | .shri _ | .sari _ | .movi _
  | .movhi _ | .icmpi _ | .imini _ | .imaxi _ | .leai _ => 2
  | .imul f | .imulh f | .imad f | .imadw f => mulSep f.ty
  | .imuli f => mulSep f.ty
  | .fadd f | .fsub f | .fmul f | .ffma f | .fmin f | .fmax f | .frnd f | .fclass f | .fscale f | .fdot2 f | .qnt f | .dqnt f
  | .fcmp f => fpSep (tyIs64 f.ty)
  | .fcvt f => fpSep (tyIs64 f.ty || tyIs64 (auxTy f))
  | .f2i f => fpSep (tyIs64 (auxTy f))
  | .i2f f => fpSep (tyIs64 f.ty)
  | .faddi _ | .fmuli _ | .shfl _ | .vote _ | .matchLanes _ | .vget _ | .vmeet _ | .mstat _ | .csrr _ => 4
  | .redux _ | .scan _ => 6
  | .xpose _ => 7
  | .iaddAp p => pairSep (apSlots .iadd p) | .isubAp p => pairSep (apSlots .isub p) | .imulAp p => pairSep (apSlots .imul p)
  | .iminAp p => pairSep (apSlots .imin p) | .imaxAp p => pairSep (apSlots .imax p) | .andAp p => pairSep (apSlots .and p)
  | .orAp p => pairSep (apSlots .or p) | .xorAp p => pairSep (apSlots .xor p) | .shlAp p => pairSep (apSlots .shl p)
  | .shrAp p => pairSep (apSlots .shr p) | .sarAp p => pairSep (apSlots .sar p) | .movAp p => pairSep (apSlots .mov p)
  | .faddAp p => pairSep (apSlots .fadd p) | .fmulAp p => pairSep (apSlots .fmul p) | .fminAp p => pairSep (apSlots .fmin p)
  | .fmaxAp p => pairSep (apSlots .fmax p) | .notAp p => pairSep (apSlots .not p)
  | _ => 0

/-- What a segment's distances are judged by: the distance of a word, the separation it requires, and what it reads and writes. -/
structure WordUse where
  dist : Nat
  sep : Nat
  srcs : List Nat
  dsts : List Nat
  deriving DecidableEq, Repr

/-- That of a word; one that is no instruction reads and writes nothing. -/
def wordUse (w : W64) : WordUse :=
  let d := (slice w 58 3).toNat
  match decode w with
  | .ok i => let c := fieldChk i; { dist := d, sep := sepOf i, srcs := c.srcs, dsts := c.dsts }
  | .error _ => { dist := d, sep := 0, srcs := [], dsts := [] }

/-- Whether every later reader of what a word writes stands far enough from it, `far` clocks being behind it so far. -/
def readersFar (p : WordUse) : Nat → List WordUse → Bool
  | _, [] => true
  | far, w :: ws =>
    (decide (p.sep ≤ far + w.dist) || !(p.dsts.any w.srcs.contains)) && readersFar p (far + w.dist) ws

/-- Whether the distances of some words are those that R68 requires. -/
def distancesOk : List WordUse → Bool
  | [] => true
  | p :: ws => readersFar p 0 ws && distancesOk ws

/-! ### Translation (spec/22 R354): which words take a word's place is the argument's, and so is every distance, as far as R68 leaves it
open (log 50) -/

/-- A word with a field of n bits from a place on changed. -/
def withField (w : W64) (place n : Nat) (v : W64) : W64 :=
  let mask : W64 := BitVec.ofNat 64 (2 ^ n - 1) <<< place
  (w &&& ~~~mask) ||| ((v <<< place) &&& mask)

/-- Whether a word is one whose pairing this part forbids (spec/04 R75). -/
def badPair (w : W64) : Bool :=
  match decode w with
  | .ok i => pairingBad i
  | .error _ => false

/-- Whether this part has removed a word's opcode or forbids its pairing (spec/04 R86, R75). -/
def mustRewrite (w : W64) : Bool := wordHolds 0 0x0D w || badPair w

/-- The words that a word becomes. -/
def movedWord (w : W64) (x : MovedWord) : List W64 :=
  if mustRewrite w then x.instead else [withField w 58 3 (BitVec.ofNat 64 x.dist)]

/-- A predicate block for some words, each with whether it runs where the predicate is true (spec/04 R76): a block of eight at most, and
another one for those that follow. -/
def blockWords (pb : W64) (ws : List (Bool × W64)) : List W64 :=
  (List.range (ceilDiv ws.length 8)).flatMap fun j =>
    let c := (ws.drop (8 * j)).take 8
    let pattern : W64 := BitVec.ofNat 64 (c.zipIdx.foldl (fun m x => if x.1.1 then m + 2 ^ x.2 else m) 0)
    let head := withField (withField pb 16 8 pattern) 12 4 (BitVec.ofNat 64 c.length)
    (if j = 0 then head else withField head 58 3 0) :: c.map (·.2)

/-- Whether the words of a predicate block leave its predicate alone as long as a further block has to sample it. -/
def blockKeeps (pb : W64) (ws : List (Bool × W64)) : Bool :=
  (ws.take (8 * (ceilDiv ws.length 8 - 1))).all fun x => !(wordUse x.2).dsts.contains (predNo (slice pb 49 3).toNat)

/-- A predicate block that is being translated: its word, how many words it governs, how many of them have been met, and what they have
become. -/
structure Block where
  pb : W64
  n : Nat
  met : Nat
  words : List (Bool × W64)
  deriving DecidableEq, Repr

/-- The block with one more word. -/
def Block.add (b : Block) (ws : List W64) : Block :=
  { b with met := b.met + 1, words := b.words ++ ws.map fun w => (bitAt b.pb (16 + b.met), w) }

/-- A block that another one or the end of the piece cuts off, which then raises ILLEGAL_PREFIX as before (spec/04 R77); none where its
words have grown. -/
def Block.cut (b : Block) : Option (List W64) := if b.words.length = b.met then some (b.pb :: b.words.map (·.2)) else none

/-- The words of a piece, predicate blocks growing with the words they govern; none where a block cannot be kept. -/
def movedPiece (last : Bool) : Option Block → List (W64 × MovedWord) → Option (List W64)
  | none, [] => some []
  | some b, [] => if last then b.cut else none
  | cur, (w, x) :: rest =>
    if wordHolds 5 0x11 w && decide (0 < (slice w 12 4).toNat) then
      let b1 : Block := { pb := withField w 58 3 (BitVec.ofNat 64 x.dist), n := (slice w 12 4).toNat, met := 0, words := [] }
      match cur with
      | none => movedPiece last (some b1) rest
      | some b => b.cut.bind fun ws => (movedPiece last (some b1) rest).map (ws ++ ·)
    else
      let ws := movedWord w x
      match cur with
      | none => (movedPiece last none rest).map (ws ++ ·)
      | some b =>
        let b1 := b.add ws
        if b1.met < b1.n then movedPiece last (some b1) rest
        else if blockKeeps b1.pb b1.words then (movedPiece last none rest).map (blockWords b1.pb b1.words ++ ·)
        else none

/-- The words of a segment, piece by piece. -/
def movedWords : List (List MovedWord) → List W64 → Option (List (List W64))
  | [], _ => some []
  | p :: ps, ws =>
    match movedPiece ps.isEmpty none ((ws.take p.length).zip p), movedWords ps (ws.drop p.length) with
    | some a, some b => some (a :: b)
    | _, _ => none

/-- A GOTO to the segment that follows. -/
def gotoNext : W64 := 0xA000000000000000

/-- The segments of a segment's pieces: each goes on to the next with a GOTO, and the first holds the entry and the flags to wait for. -/
def pieceSegs (header : W64) (entry : Bool) : List (List W64) → List ImageSeg
  | [] => []
  | p :: ps =>
    let ws := if ps.isEmpty then p else p ++ [gotoNext]
    { words := withField header 55 6 (BitVec.ofNat 64 ws.length) :: ws, entry := entry } :: pieceSegs (withField header 43 12 0) false ps

/-- The segments that take a segment's place. -/
def movedSeg (g : ImageSeg) (x : List (List MovedWord)) : Option (List ImageSeg) :=
  (movedWords x g.words.tail).map (pieceSegs (g.words.headD 0) g.entry)

/-- Whether a segment of a translation is one: a header and its words, its distances those of R68, its pairings those of R75. -/
def movedOk (g : ImageSeg) : Bool := segShape g && distancesOk (g.words.tail.map wordUse) && !(g.words.tail.any badPair)

/-- The word offsets from the object's base at which lists of segments begin. -/
def placesFrom (n : Nat) : List (List ImageSeg) → List Nat
  | [] => []
  | gs :: rest => n :: placesFrom (n + (gs.flatMap (·.words)).length) rest

/-- Whether a word names a segment in bits 47:24: GOTO, BRC, CALL, YIELD, CONTX, MEET and CONT; and in bits 23:0: BRC and CALL. -/
def namesSegment (high : Bool) (w : W64) : Bool :=
  (if high then [0, 1, 3, 6, 7, 0x10, 0x18] else [1, 3]).any fun op => wordHolds 5 op w

/-- A target field at a place of a word, naming what it named: `old` and `new` are the ends of the two segments, and a target that is no
header keeps its offset. -/
def movedTarget (heads : List (Nat × Nat)) (old new : Nat) (high : Bool) (w : W64) : W64 :=
  let at_ := if high then 24 else 0
  let t : Int := (old : Int) + ((slice w at_ 24).setWidth 24).toInt
  match (if namesSegment high w then heads.find? fun h => decide ((h.1 : Int) = t) else none) with
  | some h => withField w at_ 24 (BitVec.ofInt 64 ((h.2 : Int) - new))
  | none => w

/-- The targets of the pieces of a segment set: `old` is the end of the segment, n where the first piece begins. -/
def retarget (heads : List (Nat × Nat)) (old : Nat) : Nat → List ImageSeg → List ImageSeg
  | _, [] => []
  | n, g :: gs =>
    let e := n + g.words.length
    let own := if gs.isEmpty then g.words.tail else g.words.tail.dropLast
    let ws := own.map fun w => movedTarget heads old e false (movedTarget heads old e true w)
    { g with words := g.words.take 1 ++ ws ++ (if gs.isEmpty then [] else [gotoNext]) } :: retarget heads old e gs

/-- A byte of the object at its place after the translation: a header with its segment, a byte of data with its section. -/
def movedPlace (heads : List (Nat × Nat)) (before after : List Section) (o : Nat) : Nat :=
  match heads.find? fun h => decide (8 * h.1 = o) with
  | some h => 8 * h.2
  | none =>
    match (before.zip after).reverse.find? fun x => decide (x.1.offset ≤ o) with
    | some x => x.2.offset + (o - x.1.offset)
    | none => o

/-- A relocation with its value moved. -/
def movedReloc (place : Nat → Nat) (r : Reloc) : Reloc :=
  match r.value with
  | .place o => { r with value := .place (place o) }
  | .wordPlace o => { r with value := .wordPlace (place o) }
  | .handle => r

/-- Whether an argument has an entry for every word, and no empty piece. -/
def movedShape (m : Image) (x : List (List (List MovedWord))) : Bool :=
  decide (x.length = m.segs.length) &&
    (m.segs.zip x).all fun gx => decide (gx.2.flatten.length = gx.1.words.tail.length) && gx.2.all fun p => !p.isEmpty

/-- An image translated for this part, segments taking its segments' places; none where they are no segments of at most 63 words with the
distances and pairings of this part and without removed opcodes. -/
def placeParts (m : Image) (x : List (List (List MovedWord))) (parts : List (List ImageSeg)) : Option Image :=
  let olds := placesFrom 0 (m.segs.map fun g => [g])
  let heads := olds.zip (placesFrom 0 parts)
  let segs := ((m.segs.zip heads).zip parts).flatMap fun g => retarget heads (g.1.2.1 + g.1.1.words.length) g.1.2.2 g.2
  let m1 := { m with segs := segs, moved := none }
  let m2 := { m1 with relocs := m.relocs.map (movedReloc (movedPlace heads (sectionsOf m) (sectionsOf m1))) }
  if movedShape m x && segs.all movedOk && (removedOps m2).isEmpty then some m2 else none

/-- An image translated for this part. -/
def translated (m : Image) (x : List (List (List MovedWord))) : Option Image :=
  ((m.segs.zip x).mapM fun g => movedSeg g.1 g.2).bind (placeParts m x)

end Sys2Proof.Machine
end

