-- ==== Sys2Proof/Machine/Sign.lean ====
section
/-! DEFINITION. The checks of a signed image (spec/22 R352 names them): SHA-384, ECDSA P-384 and LMS with SHA-256. Their arithmetic
is taken from FIPS 180-4, FIPS 186-5 and NIST SP 800-208: PRESUMED, log 10. -/

namespace Sys2Proof.Machine

/-! ### SHA-2 -/

/-- The largest number below 2 ^ n whose k-th power is no larger than v. -/
def rootBelow (k n v : Nat) : Nat :=
  (List.range n).reverse.foldl (fun r i => if (r + 2 ^ i) ^ k ≤ v then r + 2 ^ i else r) 0

/-- The first eighty prime numbers. -/
def primes80 : List Nat :=
  (List.range 410).filter fun n => decide (1 < n) && (List.range 21).all fun d => decide (d < 2 ∨ n ≤ d ∨ n % d ≠ 0)

/-- The first 64 bits of the fraction of the cube root of each of those primes: the round constants of SHA-384, whose upper halves
are those of SHA-256. -/
def roundWords : List W64 := primes80.map fun p => BitVec.ofNat 64 (rootBelow 3 67 (p * 2 ^ 192))

/-- The first 64 bits of the fraction of the square root of a prime. -/
def startWord (p : Nat) : W64 := BitVec.ofNat 64 (rootBelow 2 69 (p * 2 ^ 128))

/-- The rotations and shifts of one member of the family: two of its rounds, two of its schedule. -/
structure Sha2 where
  big0 : Nat × Nat × Nat
  big1 : Nat × Nat × Nat
  small0 : Nat × Nat × Nat
  small1 : Nat × Nat × Nat

/-- A word rotated right three ways, and the three added. -/
def bigSum {w : Nat} (r : Nat × Nat × Nat) (x : BitVec w) : BitVec w :=
  x.rotateRight r.1 ^^^ x.rotateRight r.2.1 ^^^ x.rotateRight r.2.2

/-- A word rotated right two ways and shifted right once, and the three added. -/
def smallSum {w : Nat} (r : Nat × Nat × Nat) (x : BitVec w) : BitVec w :=
  x.rotateRight r.1 ^^^ x.rotateRight r.2.1 ^^^ (x >>> r.2.2)

/-- The schedule of a block: its sixteen words and as many more as the rounds need. -/
def shaSchedule {w : Nat} (f : Sha2) (rounds : Nat) (block : List (BitVec w)) : List (BitVec w) :=
  ((List.range (rounds - 16)).foldl (fun (last : List (BitVec w)) _ =>
    (smallSum f.small1 (last.getD 1 0) + last.getD 6 0 + smallSum f.small0 (last.getD 14 0) + last.getD 15 0) :: last)
    block.reverse).reverse

/-- One round on the eight working words. -/
def shaRound {w : Nat} (f : Sha2) (v : List (BitVec w)) (k m : BitVec w) : List (BitVec w) :=
  match v with
  | [a, b, c, d, e, g, h, i] =>
    let t1 := i + bigSum f.big1 e + ((e &&& g) ^^^ (~~~e &&& h)) + k + m
    let t2 := bigSum f.big0 a + ((a &&& b) ^^^ (a &&& c) ^^^ (b &&& c))
    [t1 + t2, a, b, c, d + t1, e, g, h]
  | _ => v

/-- One block taken into the eight words. -/
def shaBlock {w : Nat} (f : Sha2) (ks h block : List (BitVec w)) : List (BitVec w) :=
  let v := (ks.zip (shaSchedule f ks.length block)).foldl (fun v km => shaRound f v km.1 km.2) h
  List.zipWith (fun x y => x + y) h v

/-- A number of bytes read with the first byte uppermost. -/
def beNat (bs : List Byte) : Nat := bs.foldl (fun n b => n * 256 + b.toNat) 0

/-- A number written in n bytes, the uppermost first. -/
def beBytes (n v : Nat) : List Byte := (bytesOf n v).reverse

/-- A message padded to whole blocks of 16 words of n bytes. -/
def shaPad (n : Nat) (m : List Byte) : List Byte :=
  let tail := 1 + 2 * n
  let zeros := (16 * n - (m.length + tail) % (16 * n)) % (16 * n)
  m ++ [0x80] ++ List.replicate zeros 0 ++ beBytes (2 * n) (8 * m.length)

/-- The words of n bytes of a list of bytes. -/
def shaWords (w n : Nat) (bs : List Byte) : List (BitVec w) :=
  (List.range (bs.length / n)).map fun i => BitVec.ofNat w (beNat ((bs.drop (n * i)).take n))

/-- The hash of a message: words of n bytes, eight words at the start, the bytes kept of the last eight. -/
def sha2 (w n : Nat) (f : Sha2) (ks start : List (BitVec w)) (keep : Nat) (m : List Byte) : List Byte :=
  let ws := shaWords w n (shaPad n m)
  let h := (List.range (ws.length / 16)).foldl (fun h i => shaBlock f ks h ((ws.drop (16 * i)).take 16)) start
  (h.flatMap fun x => beBytes n x.toNat).take keep

/-- SHA-384 of a message. -/
def sha384 (m : List Byte) : List Byte :=
  sha2 64 8 { big0 := (28, 34, 39), big1 := (14, 18, 41), small0 := (1, 8, 7), small1 := (19, 61, 6) } roundWords
    (((primes80.drop 8).take 8).map startWord) 48 m

/-- SHA-256 of a message. -/
def sha256 (m : List Byte) : List Byte :=
  sha2 32 4 { big0 := (2, 13, 22), big1 := (6, 11, 25), small0 := (7, 18, 3), small1 := (17, 19, 10) }
    ((roundWords.take 64).map fun (k : W64) => (k >>> (32 : Nat)).setWidth 32) ((primes80.take 8).map fun (p : Nat) => (startWord p >>> (32 : Nat)).setWidth 32) 32 m

/-! ### ECDSA on P-384 -/

/-- The field of the curve P-384. -/
def p384 : Nat := 2 ^ 384 - 2 ^ 128 - 2 ^ 96 + 2 ^ 32 - 1

/-- The number of points of the curve. -/
def order384 : Nat := 0xFFFFFFFFFFFFFFFFFFFFFFFFFFFFFFFFFFFFFFFFFFFFFFFFC7634D81F4372DDF581A0DB248B0A77AECEC196ACCC52973

/-- The constant term of the curve: y squared is x cubed less 3 x, and this. -/
def coeff384 : Nat := 0xB3312FA7E23EE7E4988E056BE3F82D19181D9C6EFE8141120314088F5013875AC656398D8A2ED19D2A85C8EDD3EC2AEF

/-- The base point. -/
def base384 : Nat × Nat :=
  (0xAA87CA22BE8B05378EB1C71EF320AD746E1D3B628BA79B9859F741E082542A385502F25DBF55296C3A545E3872760AB7,
   0x3617DE4A96262C6F5D9E98BF9292DC29F8F41DBD289A147CE9DA3113B5F0B8C00A60B1CE1D7E819D7A431D7C90EA0E5F)

/-- A power modulo m, of an exponent below 2 ^ 384. -/
def powMod (m a e : Nat) : Nat :=
  (List.range 384).reverse.foldl (fun x i => let y := x * x % m; if e.testBit i then y * a % m else y) 1

/-- The inverse modulo a prime. -/
def invMod (m a : Nat) : Nat := powMod m a (m - 2)

/-- A difference in the field of the curve, of two of its members. -/
def sub384 (a b : Nat) : Nat := (a + (p384 - b)) % p384

/-- Whether a pair is a point of the curve. -/
def onCurve (q : Nat × Nat) : Bool :=
  decide (q.1 < p384) && decide (q.2 < p384) && decide (q.2 * q.2 % p384 = (q.1 * q.1 * q.1 + (p384 - 3) * q.1 + coeff384) % p384)

/-- A point as x over z squared and y over z cubed; z is 0 at infinity. -/
structure Point where
  x : Nat
  y : Nat
  z : Nat

/-- A point doubled. -/
def Point.double (a : Point) : Point :=
  let zz := a.z * a.z % p384
  let yy := a.y * a.y % p384
  let s := 4 * a.x * yy % p384
  let m := 3 * sub384 a.x zz * (a.x + zz) % p384
  let x := sub384 (m * m % p384) (2 * s % p384)
  { x := x, y := sub384 (m * sub384 s x % p384) (8 * yy * yy % p384), z := 2 * a.y * a.z % p384 }

/-- Two points added. -/
def Point.add (a b : Point) : Point :=
  if a.z = 0 then b
  else if b.z = 0 then a
  else
    let za := a.z * a.z % p384
    let zb := b.z * b.z % p384
    let ua := a.x * zb % p384
    let sa := a.y * zb * b.z % p384
    let h := sub384 (b.x * za % p384) ua
    let r := sub384 (b.y * za * a.z % p384) sa
    if h = 0 then (if r = 0 then a.double else { x := 1, y := 1, z := 0 })
    else
      let hh := h * h % p384
      let hhh := h * hh % p384
      let v := ua * hh % p384
      let x := sub384 (sub384 (r * r % p384) hhh) (2 * v % p384)
      { x := x, y := sub384 (r * sub384 v x % p384) (sa * hhh % p384), z := a.z * b.z * h % p384 }

/-- A point taken k times. -/
def Point.times (k : Nat) (q : Nat × Nat) : Point :=
  (List.range 384).reverse.foldl (fun (a : Point) i => let d := a.double; if k.testBit i then d.add { x := q.1, y := q.2, z := 1 } else d)
    { x := 1, y := 1, z := 0 }

/-- Whether a pair of numbers is a signature of a digest under a public key. -/
def ecdsaOk (key : Nat × Nat) (digest : List Byte) (r s : Nat) : Bool :=
  let w := invMod order384 s
  let q := (Point.times (beNat digest * w % order384) base384).add (Point.times (r * w % order384) key)
  let zi := invMod p384 q.z
  onCurve key && decide (0 < r) && decide (r < order384) && decide (0 < s) && decide (s < order384) && decide (q.z ≠ 0) &&
    decide (q.x * (zi * zi) % p384 % order384 = r)

/-! ### LMS -/

/-- What every hash of one tree begins with: the tree's identifier, a number of four bytes and one of two. -/
def lmsHash (i : List Byte) (n kind : Nat) (rest : List Byte) : List Byte := sha256 (i ++ beBytes 4 n ++ beBytes 2 kind ++ rest)

/-- The 34 numbers that a one-time signature signs: the bytes of the hash, and the two bytes of their checksum. -/
def lmotsDigits (h : List Byte) : List Nat :=
  h.map (·.toNat) ++ (beBytes 2 (h.foldl (fun n b => n + (255 - b.toNat)) 0)).map (·.toNat)

/-- The end of a chain of hashes that a signature enters at its digit. -/
def lmotsChain (i : List Byte) (q n digit : Nat) (y : List Byte) : List Byte :=
  (List.range (255 - digit)).foldl (fun x j => lmsHash i q n (beBytes 1 (digit + j) ++ x)) y

/-- The public key that a one-time signature gives for a message. -/
def lmotsKey (i : List Byte) (sig : LmsSig) (msg : List Byte) : List Byte :=
  let h := lmsHash i sig.leaf 0x8181 (sig.nonce ++ msg)
  lmsHash i sig.leaf 0x8080
    (((lmotsDigits h).zipIdx.zip sig.chains).flatMap fun x => lmotsChain i sig.leaf x.1.2 x.1.1 x.2)

/-- The root that a signature gives for a message: the hashes of the path from its leaf. -/
def lmsRoot (i : List Byte) (sig : LmsSig) (msg : List Byte) : List Byte :=
  let leaf := 2 ^ 20 + sig.leaf
  sig.path.zipIdx.foldl (fun x node =>
    lmsHash i (leaf / 2 ^ (node.2 + 1)) 0x8383 (if leaf / 2 ^ node.2 % 2 = 1 then node.1 ++ x else x ++ node.1))
    (lmsHash i leaf 0x8282 (lmotsKey i sig msg))

/-- Whether a signature has the shape that the two parameter sets ask for. -/
def lmsShape (sig : LmsSig) : Bool :=
  decide (sig.leaf < 2 ^ 20) && decide (sig.nonce.length = 32) && decide (sig.chains.length = 34) && decide (sig.path.length = 20) &&
    (sig.chains ++ sig.path).all fun x => decide (x.length = 32)

/-- Whether a signature is one of a message under a public key. -/
def lmsOk (i root : List Byte) (sig : LmsSig) (msg : List Byte) : Bool := lmsShape sig && decide (lmsRoot i sig msg = root)

/-! ### A signed image (R352) -/

/-- The bytes that an image's digest covers: all but those of its signature block. -/
def signedBytes (m : Signed) : List Byte := m.bytes.take m.blockAt ++ m.bytes.drop (m.blockAt + m.blockLen)

/-- The first of steps 1 to 3 of R352 that an image fails. Without keys in the fuses no signature verifies; that a digest which the
signature block states must be the computed one is DESIGN CHOICE, log 10. -/
def signedFailure (keys : Option OwnerKeys) (m : Signed) : Option Nat :=
  let d := sha384 (signedBytes m)
  if m.digest ≠ d then some 1
  else match keys with
    | none => some 2
    | some k =>
      if !ecdsaOk k.ecdsa d m.sigR m.sigS then some 2
      else if !lmsOk k.lmsId k.lmsRoot m.lms d then some 3
      else none

end Sys2Proof.Machine
end

