-- ==== Sys2Proof/Machine/Manage.lean ====
section
/-! DEFINITION. The root core and the management pair: objects loaded and unloaded, power, temperature, scrubbing and the Strata
(spec/22 R352 to R358, spec/04 R87). -/

namespace Sys2Proof.Machine

open Host (Outcome)

/-! ### The loader's checks (spec/22 R352, spec/04 R87) -/

/-- A failure code in LOADRES. -/
def loadFailure (n : Nat) : W64 := BitVec.ofNat 64 (2 ^ 63 + n)

/-- Whether an image uses an experimental opcode: TANH or GATH (R86). -/
def usesExperimental (m : Image) : Bool := (imageWords m).any fun w => wordHolds 0 0x67 w || wordHolds 4 0x0A w

/-- Whether the checks of R87 fail. -/
def loaderRejects (s : State) (e : Eff) (m : Image) : Bool :=
  (usesExperimental m && decide (m.stepping ≠ Config.stepping)) ||
    (removedOps m).any fun op => !(m.emulate.contains op && hasHandler s e op)

/-! ### The range of an object (R352) -/

/-- The bytes from an object's base to its end. -/
def spanOf (ss : List Section) : Nat := ss.foldl (fun n x => if x.bytes.isEmpty then n else max n (x.offset + x.bytes.length)) 0

/-- The address of the level-1 entry of a virtual address; none where a table above it is missing, or an entry on the way lies in a
poisoned line, which no warp reads: the request is refused as for a missing table (spec/22 R355; DESIGN CHOICE, log 55). -/
def levelOne (s : State) : Nat → Nat → Nat → Option Nat
  | 0, _, _ => none
  | lv + 1, table, va =>
    let a := table + 8 * (va >>> (12 + 9 * lv) % 512)
    if homePoison s a 8 then none
    else if lv = 0 then some a
    else
      let e := homeWord s a
      if bitAt e 0 && slice e 1 3 == 0 then levelOne s lv ((slice e 12 32).toNat * 4096) va else none

/-- Whether a page is free for an object: canonical, outside the local-range window, its level-1 entry there and not valid. -/
def pageFree (s : State) (root : Nat) (va : W64) : Bool :=
  canonical va && !inWindow va && (match levelOne s 5 root (va.toNat % 2 ^ 57) with
    | some a => !bitAt (homeWord s a) 0
    | none => false)

/-- Whether the range of an object is free and does not run past the top of the canonical space. -/
def rangeFree (s : State) (root : Nat) (base : W64) (n : Nat) : Bool :=
  decide (base.toNat % 2 ^ 57 + n ≤ 2 ^ 57) && (bitAt base 56 || decide (base.toNat % 2 ^ 57 + n ≤ 2 ^ 56)) &&
    (pageVas base (pagesOf n)).all (pageFree s root)

/-! ### Loading -/

/-- A frame of code sealed. -/
def sealFrame (f : Nat) (code : Bool) (s : State) : State :=
  if code then { s with mem := { s.mem with sealed := s.mem.sealed ++ [f] } } else s

/-- Pages of a section copied into fresh frames and mapped; the frames used. -/
def loadPages (root : Nat) (base : W64) (x : Section) : List Nat → State → Option (List Nat × State)
  | [], s => some ([], s)
  | i :: is, s =>
    match takeFrame s with
    | none => none
    | some (f, s1) =>
      let s2 := sealFrame f (x.leaf.testBit 4) (homeWrite (clearFrame s1 f) (f * 4096) ((x.bytes.drop (4096 * i)).take 4096))
      match mapPage s2 root (base + BitVec.ofNat 64 (x.offset + 4096 * i)) (BitVec.ofNat 64 (f * 4096 + x.leaf)) with
      | none => none
      | some s3 => (loadPages root base x is s3).map fun r => (f :: r.1, r.2)

/-- Sections loaded one after the other. -/
def loadSections (root : Nat) (base : W64) : List Section → State → Option (List Nat × State)
  | [], s => some ([], s)
  | x :: xs, s =>
    match loadPages root base x (List.range (pagesOf x.bytes.length)) s with
    | none => none
    | some (fs, s1) => (loadSections root base xs s1).map fun r => (fs ++ r.1, r.2)

/-- The word addresses of the headers of segments laid out from a word address on. -/
def headerAddrs (at_ : W64) : List ImageSeg → List (W64 × Bool)
  | [] => []
  | g :: gs => (at_, g.entry) :: headerAddrs (at_ + BitVec.ofNat 64 g.words.length) gs

/-- A handle: nonzero, bit 63 clear, never given before; what else it holds is open (log 5). -/
def freshHandle (s : State) : W64 := (Config.freeWord s.freeCtr &&& 0x7FFFFFFF00000000) ||| BitVec.ofNat 64 s.cp.nextHandle

/-- The value the loader writes for a relocation (spec/03 R57, R59). -/
def relocValue (base handle : W64) : RelocValue → W64
  | .place o => base + BitVec.ofNat 64 o
  | .wordPlace o => (base + BitVec.ofNat 64 o) >>> 3
  | .handle => handle

/-- Bytes of a section with new bytes at an offset; what would lie past its end is dropped. -/
def patched (bs new : List Byte) (o : Nat) : List Byte :=
  (bs.take o ++ new.take (bs.length - o)) ++ bs.drop (o + new.length)

/-- An image with one relocated value written into its data, little-endian; of a value that does not fit the width of its directive
the low bytes are written (DESIGN CHOICE, log 11). -/
def relocateOne (base handle : W64) (m : Image) (r : Reloc) : Image :=
  let new := bytesOf r.width (relocValue base handle r.value).toNat
  if r.writable then { m with rw := patched m.rw new r.offset } else { m with ro := patched m.ro new r.offset }

/-- An image whose data sections hold the relocated values (spec/22 R352, step 5). -/
def relocated (base handle : W64) (m : Image) : Image := m.relocs.foldl (relocateOne base handle) m

/-- The record of a loaded object. -/
def objectFrom (m : Image) (handle : W64) (root : Nat) (base : W64) (frames : List Nat) : Object :=
  let hs := headerAddrs (base >>> 3) m.segs
  { handle := handle, root := root, base := base, codeWords := (codeBytes m).length / 8,
    entries := (hs.filter (·.2)).map (·.1), headers := hs.map (·.1), emulate := m.emulate, removed := removedOps m,
    hasCall := (imageWords m).any (wordHolds 5 3), frames := frames, pages := pagesOf (spanOf (sectionsOf m)) }

/-- LOADRES written; LOADGO reads 0 again. -/
def loadDone (v : W64) (s : State) : State := { s with cp := { s.cp with loadres := v, loadgo := false } }

/-- The first of steps 1 to 3 that an image fails. -/
def signatureFailure (keys : Option OwnerKeys) (m : Image) : Option Nat :=
  if m.segs.isEmpty || !(m.segs.all segShape) then some 1 else signedFailure keys m.signed

/-- The image as it is placed: translated, where the root core translates it (R354). -/
def placedImage (m : Image) : Option Image :=
  match m.moved with
  | none => some m
  | some x => translated m x

/-- An image that verifies placed in the space of LOADRGN. With no frame left the load stays unfinished (log 9). -/
def placeObject (m : Image) (e : Eff) (s : State) : State :=
  if loaderRejects s e m then loadDone (loadFailure 4) s
  else if !rangeFree s e.ptRoot s.cp.loadva (spanOf (sectionsOf m)) then loadDone (loadFailure 7) s
  else match loadSections e.ptRoot s.cp.loadva (sectionsOf (relocated s.cp.loadva (freshHandle s) m)) s with
    | none => { s with cp := { s.cp with loadgo := true } }
    | some (fs, s1) =>
      let h := freshHandle s
      loadDone h { s1 with
        freeCtr := s1.freeCtr + 1,
        cp := { s1.cp with
          objects := s1.cp.objects ++ [objectFrom m h e.ptRoot s.cp.loadva fs], nextHandle := s1.cp.nextHandle + 1 } }

/-- OBJECT_LOAD: the image at LOADPA, as the root core parses it (log 11). An argument whose translation is none leaves no effect
(log 50). -/
def execObjectLoad (image : Image) (s : State) : Outcome State Fault Refusal :=
  if image.signed.bytes ≠ homeBytes s s.cp.loadpa.toNat s.cp.loadlen.toNat then .next s
  else if homePoison s s.cp.loadpa.toNat s.cp.loadlen.toNat then .next (loadDone (loadFailure 1) s)
  else match signatureFailure s.mgmt.owner image, placedImage image with
    | some n, _ => .next (loadDone (loadFailure n) s)
    | none, none => .next s
    | none, some m =>
      match (if regionValid s s.cp.loadrgn.toNat then effectiveNow s s.cp.loadrgn.toNat else none) with
      | none => .next (loadDone (loadFailure 7) s)
      | some e => .next (placeObject m e.eff s)

/-! ### Unloading (R353) -/

/-- Whether a launch that is not final names a handle. -/
def handleInUse (s : State) (h : W64) : Bool :=
  (allLaunches s).any fun l => decide (0 < l.seq) && !isFinal l && l.object == h

/-- The pages of an object unmapped, and its frames unsealed and freed. -/
def unmapObject (o : Object) (s : State) : State :=
  let s1 := (pageVas o.base o.pages).foldl (fun st va => unmapPage o.root va st) s
  let s2 := dropTlb (fun e => decide (e.root = o.root) && (pageVas o.base o.pages).any (tlbCovers e)) s1
  o.frames.foldl (fun st f => giveFrame f st) { s2 with mem := { s2.mem with sealed := s2.mem.sealed.filter fun f => !o.frames.contains f } }

/-- OBJECT_UNLOAD. -/
def execObjectUnload (s : State) : Outcome State Fault Refusal :=
  let done (v : W64) (st : State) : State := { st with cp := { st.cp with loadres := v, unloadgo := false } }
  match s.cp.objects.find? fun o => o.handle == s.cp.unloadh with
  | none => .next (done (loadFailure 6) s)
  | some o =>
    if handleInUse s o.handle then .next (done (loadFailure 5) s)
    else
      let s1 := unmapObject o s
      .next (done 0 { s1 with cp := { s1.cp with objects := s1.cp.objects.filter fun x => x.handle != o.handle } })

/-! ### Memory protection and the Strata (R355, R357) -/

/-- The pseudo-channel that holds a line: one of the 64 of its home slice (spec/01 R8; which is open, log 46). -/
def channelOf (line : Nat) : Nat := 64 * (homeSlice (line * 64)).getD 0 + Config.pseudoChannel line % 64

/-- The counter of a line's pseudo-channel. -/
def lineCounter (kind line : Nat) : Nat := kind * 2 ^ 20 + channelOf line

/-- A pin pair of a line's pseudo-channel found failed, counted once (R357). -/
def failPair (line : Nat) (pair : Option Nat) (s : State) : State :=
  match pair with
  | some p =>
    let key := 9 * 2 ^ 20 + 16 * channelOf line + p
    if p < 11 ∧ (AList.find s.mgmt.strata key).isNone ∧ (AList.find s.mgmt.pendingStrata key).isNone then countStrata key s else s
  | none => s

/-- A line found uncorrectable: poisoned until it is written whole. -/
def poisonLine (line : Nat) (s : State) : State :=
  countStrata (lineCounter 1 line) (loseSnapshots (line / 64) (markPoison (line * 64) s))

/-- Eight free words as a line's bytes. -/
def freeLine (s : State) : List Byte := (List.range 8).flatMap fun i => bytesOf 8 (Config.freeWord (s.freeCtr + i)).toNat

/-- SCRUB: the codeword of a line of device memory read with some symbol errors, by the scrub or by any read that comes next (log 55): up
to 8 are corrected, 9 to 16 are detected; of more, whether they are detected and what the line then holds is open. `pair` is the pin pair
that the errors show to have failed, if they do. -/
def execScrub (line errors : Nat) (pair : Option Nat) (s : State) : Outcome State Fault Refusal :=
  if memTop ≤ line * 64 ∨ errors = 0 then .next s
  else
    let s1 := failPair line pair s
    if errors ≤ 8 then .next (countStrata (lineCounter 0 line) s1)
    else if errors ≤ 16 ∨ Config.freeBool s.freeCtr then .next (poisonLine line (bumpFree (decide (16 < errors)) s1))
    else .next (homeWrite { s1 with freeCtr := s.freeCtr + 9 } (line * 64) (freeLine { s with freeCtr := s.freeCtr + 1 }))

/-- The withdrawal state of every core in the Strata. -/
def withdrawalStrata (cores : List CoreState) (t : AList Nat) : AList Nat :=
  cores.zipIdx.foldl (fun m c =>
    if c.1.withdrawn then AList.put m (2 * 2 ^ 20 + c.2) 1 else AList.drop m (2 * 2 ^ 20 + c.2)) t

/-- The clocks since the last update counted as power-on clocks. -/
def countClocks (s : State) : State :=
  let s1 := if s.mgmt.counted < s.clock then addStrata (12 * 2 ^ 20) (s.clock - s.mgmt.counted) s else s
  { s1 with mgmt := { s1.mgmt with counted := s.clock } }

/-- The Strata updated: the counts since the last update added, the withdrawal state as it is. -/
def writeStrata (s0 : State) : State :=
  let s := countClocks s0
  let m := s.mgmt
  { s with mgmt := { m with
      strata := withdrawalStrata s.cores
        (m.pendingStrata.foldl (fun t e => AList.put t e.1 ((AList.find t e.1).getD 0 + e.2)) m.strata),
      pendingStrata := [] } }

/-- What the management pair measures, added to the histograms: a temperature of each die, in order, and the package power. -/
def sample (temps : List Nat) (power : Nat) (s : State) : State :=
  addStrata (11 * 2 ^ 20 + min power 0xFFFFF) 1
    ((temps.take Config.dies).zipIdx.foldl (fun st t => countStrata (10 * 2 ^ 20 + 4096 * t.2 + min t.1 4095) st) s)

/-- STRATA_UPDATE, with what is measured then. -/
def execStrataUpdate (temps : List Nat) (power : Nat) (s : State) : Outcome State Fault Refusal :=
  .next (if s.mgmt.powered then writeStrata (sample temps power s) else s)

/-! ### Power and temperature (R358) -/

/-- The frames the service cores start with (log 9): the last 16 GiB of device memory. -/
def firstFree : List (Nat × Nat) := [(memTop / 4096 - 2 ^ 22, 2 ^ 22)]

/-- Whether a device number is a host's (spec/01 R11). -/
def hostNumber (n : Nat) : Bool := decide (0xC0000 ≤ n) && decide (n ≤ 0xFFFFE)

/-- The owner's keys as the fuses hold them: once written they stay (R352). -/
def fused (s : State) (keys : Option OwnerKeys) : Option OwnerKeys := s.mgmt.owner.orElse fun _ => keys

/-- Whether every firmware image passes the checks of an image (R352). -/
def firmwareOk (keys : Option OwnerKeys) (f : Firmware) : Bool :=
  [f.pair, f.proc, f.service].all fun m => (signedFailure keys m).isNone

/-- POWER_ON: the dies, memory, links and firmware brought up, with the numbers of this device and of the two hosts. Where the fuses hold
no keys yet those of the argument are written into them; unless all the firmware passes the part stays without power (DESIGN CHOICE, log
10). -/
def execPowerOn (self host0 host1 : Nat) (fuses : Option OwnerKeys) (firmware : Firmware) (s : State) : Outcome State Fault Refusal :=
  if s.mgmt.powered ∨ 0xC0000 ≤ self ∨ !hostNumber host0 ∨ !hostNumber host1 then .next s
  else if !firmwareOk (fused s fuses) firmware then .next { s with mgmt := { s.mgmt with owner := fused s fuses } }
  else .next { s with
    mgmt := { s.mgmt with powered := true, self := self, hosts := [host0, host1], counted := s.clock, owner := fused s fuses },
    svc := { s.svc with running := List.replicate 32 true, free := firstFree } }

/-- POWER_DOWN: orderly, with the Strata written, or not; nothing but the Strata and the fuses stays. -/
def execPowerDown (orderly : Bool) (s : State) : Outcome State Fault Refusal :=
  if s.mgmt.powered then
    let kept := if orderly then (writeStrata s).mgmt.strata else s.mgmt.strata
    .next { State.reset with
      agenda := s.agenda, freeCtr := s.freeCtr, mgmt := { State.reset.mgmt with strata := kept, owner := s.mgmt.owner } }
  else .next s

/-- A die put into a list once. -/
def addDie (d : Nat) (ds : List Nat) : List Nat := if d < Config.dies then (ds.filter fun x => decide (x ≠ d)) ++ [d] else ds

/-- THERMAL_LIMIT: energy refills of a die withheld, and its clock lowered. -/
def execThermalLimit (die : Nat) (s : State) : Outcome State Fault Refusal :=
  .next { s with mgmt := { s.mgmt with hot := addDie die s.mgmt.hot, clockLow := addDie die s.mgmt.clockLow } }

/-- THERMAL_LIMIT_CLEAR. -/
def execThermalLimitClear (die : Nat) (s : State) : Outcome State Fault Refusal :=
  .next { s with mgmt := { s.mgmt with
    hot := s.mgmt.hot.filter fun d => decide (d ≠ die), clockLow := s.mgmt.clockLow.filter fun d => decide (d ≠ die) } }

end Sys2Proof.Machine
end

