-- ==== Sys2Proof/Machine/Ref.lean ====
section
/-! DEFINITION. The special functions of the SFU (spec/07 R146, R147): their special and exact cases, and for every other
input the neighbours of the exact result that the bound of R146 admits, one of them taken by the free choice of Config.sfuBits
(log 6). The exact result is found in fixed point with 320 fraction bits. -/

namespace Sys2Proof.Machine

/-- Fraction bits of the reference arithmetic. -/
def refBits : Nat := 320

/-- One in fixed point. -/
def refOne : Nat := 2 ^ refBits

/-- Pi in fixed point, rounded down. -/
def refPi : Nat := 0x3243f6a8885a308d313198a2e03707344a4093822299f31d0082efa98ec4e6c89452821e638d01377

/-- The natural logarithm of 2 in fixed point, rounded down. -/
def refLn2 : Nat := 0xb17217f7d1cf79abc9e3b39803f2f6af40f343267298b62d8a0d175b8baafa2be7b876206debac98

/-- The sum of y^k / k! from a term on: `fuel` terms. -/
def expSum : Nat → Nat → Nat → Nat → Nat → Nat
  | 0, _, _, _, acc => acc
  | n + 1, y, k, term, acc =>
    let t := term * y / refOne / k
    expSum n y (k + 1) t (acc + t)

/-- e^y for 0 <= y < 1 in fixed point. -/
def refExp (y : Nat) : Nat := expSum 90 y 1 refOne refOne

/-- The alternating sum of the sine or cosine series: each term is the last times y^2 / (k (k + 1)). -/
def altSum : Nat → Nat → Nat → Nat → Bool → Int → Int
  | 0, _, _, _, _, acc => acc
  | n + 1, y2, k, term, neg, acc =>
    let t := term * y2 / refOne / (k * (k + 1))
    altSum n y2 (k + 2) t (!neg) (acc + if neg then -(t : Int) else t)

/-- sin y for 0 <= y < 1 in fixed point. -/
def refSin (y : Nat) : Nat := (altSum 50 (y * y / refOne) 2 y true y).toNat

/-- cos y for 0 <= y < 1 in fixed point. -/
def refCos (y : Nat) : Nat := (altSum 50 (y * y / refOne) 1 refOne true refOne).toNat

/-- The sum of z^(2k+1) / (2k+1) from a term on. -/
def atanhSum : Nat → Nat → Nat → Nat → Nat → Nat
  | 0, _, _, _, acc => acc
  | n + 1, z2, k, term, acc =>
    let t := term * z2 / refOne
    atanhSum n z2 (k + 2) t (acc + t / k)

/-- The natural logarithm of t, 1 <= t < 2, in fixed point. -/
def refLn (t : Nat) : Nat :=
  let z := (t - refOne) * refOne / (t + refOne)
  2 * atanhSum 110 (z * z / refOne) 3 z z

/-- A magnitude as m x 2^e, by its bits; infinity counts as the power of two above the finite values. -/
def magnitude (f : Fmt) (bits : Nat) : Nat × Int :=
  let x := bits / 2 ^ f.frac
  if x = 0 then (bits, minExp f - f.frac) else (2 ^ f.frac + bits % 2 ^ f.frac, (x : Int) - biasOf f - f.frac)

/-- Whether a magnitude of the format lies within so many ulps of m x 2^e, an ulp being that of the exact result (R146). -/
def withinUlps (f : Fmt) (bound m : Nat) (e : Int) (bits : Nat) : Bool :=
  let y := magnitude f bits
  let u := max (leadExp m e) (minExp f) - f.frac
  let z := min (min e y.2) u
  decide (((y.1 * 2 ^ (y.2 - z).toNat : Nat) - (m * 2 ^ (e - z).toNat : Nat) : Int).natAbs < bound * 2 ^ (u - z).toNat)

/-- The magnitudes of the format that the bound of R146 admits; infinity too where the exact result is past the finite values. -/
def admitted (f : Fmt) (bound m : Nat) (e : Int) : List Nat :=
  let below := (roundFin f 1 false m e).1
  let near := (List.range (3 * bound + 2)).filterMap fun i =>
    let y := below + i - 2 * bound
    if 2 * bound ≤ below + i ∧ y ≤ infBits f ∧ withinUlps f bound m e y then some y else none
  if (biasOf f : Int) < leadExp m e ∧ !near.contains (infBits f) then near ++ [infBits f] else near

/-- A bounded result (R146): the magnitude m x 2^e is not representable and its last bit stands for every bit below it;
`choice` takes one of the magnitudes within the bound. NX is set, UF for a tiny result, OF for an infinite one (R135, R147). -/
def bounded (f : Fmt) (bound choice : Nat) (neg : Bool) (m : Nat) (e : Int) : FpRes :=
  let ys := admitted f bound m e
  let mag := ys.getD (choice % ys.length) 0
  (withSign f neg mag, flNX ||| flagIf (decide (mag < 2 ^ f.frac)) flUF ||| flagIf (decide (mag = infBits f)) flOF)

/-- A fixed-point magnitude not representable: an odd last bit below it. -/
def boundedFix (f : Fmt) (bound choice : Nat) (neg : Bool) (v : Nat) (scale : Int) : FpRes :=
  bounded f bound choice neg (2 * v + 1) (scale - refBits - 1)

/-- An exactly representable result, or one that overflows or underflows as a rounded one does. -/
def exactFp (f : Fmt) (neg : Bool) (m : Nat) (e : Int) : FpRes := packFp f 0 (.fin neg m e)

/-- The function codes of the SFU (spec/04 R80). -/
def sfuChoice (fn : Nat) (f : Fmt) (bits : Nat) : Nat :=
  (Config.sfuBits fn (if f.exp = 11 then 1 else 0) (BitVec.ofNat 64 bits)).toNat

/-- Whether a positive number is a power of two. -/
def isPow2 (m : Nat) : Bool := decide (2 ^ Nat.log2 m = m)

/-- RCP. -/
def rcpFp (f : Fmt) (bits : Nat) : FpRes :=
  match unpackFp f bits with
  | .nan s => (nanBits f, flagIf s flNV)
  | .inf n => (withSign f n 0, 0)
  | .fin n m e =>
    if m = 0 then (withSign f n (infBits f), flDZ)
    else if isPow2 m then exactFp f n 1 (-(leadExp m e))
    else let q := quotient 1 m (-e); bounded f 1 (sfuChoice 0x60 f bits) n q.1 q.2

/-- 1 / sqrt of m x 2^e as a magnitude whose last bit stands for every bit below it. -/
def invRootOf (m : Nat) (e : Int) : Nat × Int :=
  let j : Nat := if e % 2 = 0 then 0 else 1
  let r := isqrt (2 ^ (400 + j) / m)
  (2 * r + 1, (-e - j) / 2 - 200 - 1)

/-- RSQ. -/
def rsqFp (f : Fmt) (bits : Nat) : FpRes :=
  match unpackFp f bits with
  | .nan s => (nanBits f, flagIf s flNV)
  | .inf n => if n then invalid f else (0, 0)
  | .fin n m e =>
    if m = 0 then (withSign f n (infBits f), flDZ)
    else if n then invalid f
    else if isPow2 m && decide (leadExp m e % 2 = 0) then exactFp f false 1 (-(leadExp m e / 2))
    else let q := invRootOf m e; bounded f 1 (sfuChoice 0x61 f bits) false q.1 q.2

/-- A finite value in fixed point, when its exponent is not below the last fraction bit. -/
def toFix (m : Nat) (e : Int) : Nat := m * 2 ^ (e + refBits).toNat

/-- EXP2 (F32). -/
def exp2Fp (bits : Nat) : FpRes :=
  match unpackFp fmt32 bits with
  | .nan s => (nanBits fmt32, flagIf s flNV)
  | .inf n => (if n then 0 else infBits fmt32, 0)
  | .fin n m e =>
    if m = 0 then exactFp fmt32 false 1 0
    else if 9 < leadExp m e then (if n then bounded fmt32 2 (sfuChoice 0x63 fmt32 bits) false 1 (-1000) else exactFp fmt32 false 1 2000)
    else
      let a : Int := (if n then -1 else 1) * (toFix m e : Nat)
      let k := a / (refOne : Int)
      let y := (a % (refOne : Int)).toNat
      if y = 0 ∧ -149 ≤ k then exactFp fmt32 false 1 k
      else boundedFix fmt32 2 (sfuChoice 0x63 fmt32 bits) false (refExp (y * refLn2 / refOne)) k

/-- LOG2 (F32). -/
def log2Fp (bits : Nat) : FpRes :=
  match unpackFp fmt32 bits with
  | .nan s => (nanBits fmt32, flagIf s flNV)
  | .inf n => if n then invalid fmt32 else (infBits fmt32, 0)
  | .fin n m e =>
    if m = 0 then (withSign fmt32 true (infBits fmt32), flDZ)
    else if n then invalid fmt32
    else
      let k := leadExp m e
      if isPow2 m then ofIntFp fmt32 0 k
      else
        let part := refLn (m * 2 ^ (refBits - Nat.log2 m)) * refOne / refLn2
        let v : Int := k * (refOne : Int) + part
        boundedFix fmt32 2 (sfuChoice 0x64 fmt32 bits) (decide (v < 0)) v.natAbs 0

/-- sin(pi r) for 0 < r < 1/2, not a multiple of 1/2, in fixed point. -/
def refSinPi (r : Nat) : Nat :=
  if 4 * r ≤ refOne then refSin (r * refPi / refOne) else refCos ((refOne / 2 - r) * refPi / refOne)

/-- sin(pi a) for a fixed-point a >= 0 and a sign (R146, R147): exact at multiples of 1/2. `zeroNeg` is the sign of a zero. -/
def sinPiFix (choice : Nat) (neg zeroNeg : Bool) (a : Nat) : FpRes :=
  let r := a % (2 * refOne)
  let flip := decide (refOne ≤ r)
  let r1 := r % refOne
  if r1 = 0 then (withSign fmt32 zeroNeg 0, 0)
  else if 2 * r1 = refOne then exactFp fmt32 (neg != flip) 1 0
  else boundedFix fmt32 2 choice (neg != flip) (refSinPi (if refOne < 2 * r1 then refOne - r1 else r1)) 0

/-- SINPI (F32): an integer n gives +0 for n >= 0 and -0 for n < 0. -/
def sinpiFp (bits : Nat) : FpRes :=
  match unpackFp fmt32 bits with
  | .nan s => (nanBits fmt32, flagIf s flNV)
  | .inf _ => invalid fmt32
  | .fin n m e => if m = 0 then (withSign fmt32 n 0, 0) else sinPiFix (sfuChoice 0x65 fmt32 bits) n n (toFix m e)

/-- COSPI (F32): cos(pi a) = sin(pi (|a| + 1/2)), and n + 1/2 gives +0. -/
def cospiFp (bits : Nat) : FpRes :=
  match unpackFp fmt32 bits with
  | .nan s => (nanBits fmt32, flagIf s flNV)
  | .inf _ => invalid fmt32
  | .fin _ m e => sinPiFix (sfuChoice 0x66 fmt32 bits) false false (toFix m e + refOne / 2)

/-- tanh x for x not tiny, in fixed point: (E - 1) / (E + 1) with E = e^(2x). -/
def refTanh (x : Nat) : Nat :=
  let q := 2 * x * refOne / refLn2
  let big := refExp (q % refOne * refLn2 / refOne) * 2 ^ (q / refOne)
  (big - refOne) * refOne / (big + refOne)

/-- TANH (F32): a tiny input lies between its neighbour below and itself; past 32 the result lies just below 1. -/
def tanhFp (bits : Nat) : FpRes :=
  match unpackFp fmt32 bits with
  | .nan s => (nanBits fmt32, flagIf s flNV)
  | .inf n => exactFp fmt32 n 1 0
  | .fin n m e =>
    let c := sfuChoice 0x67 fmt32 bits
    if m = 0 then (withSign fmt32 n 0, 0)
    else if leadExp m e < -13 then bounded fmt32 3 c n (2 ^ 60 * m - 1) (e - 60)
    else if 4 < leadExp m e then bounded fmt32 3 c n (2 ^ 60 - 1) (-60)
    else boundedFix fmt32 3 c n (refTanh (toFix m e)) 0

end Sys2Proof.Machine
end

