-- ==== Sys2Proof/Machine/Sfu.lean ====
section
/-! DEFINITION. The SFU words (spec/07 R146, R147): their results land later, with a flag. -/

namespace Sys2Proof.Machine

open Host (Outcome)

/-- An SFU word: the results are fixed at issue, and land with their sticky flags when the operation completes. -/
def sfuWord (i : Instr) (f : A3) (us : List Use) (g : State → Nat → FpRes) (run : Mask) (s : State) : Res :=
  reading s run us fun s1 =>
    issueLater s s1 i run 0 f.d (tyWidth f.ty) (.result (lanesOf fun l => (g s l).1) (lanesOf fun l => (g s l).2))

/-- A one-source SFU word. -/
def sfuUn (i : Instr) (f : A3) (g : Nat → FpRes) : Mask → State → Res :=
  sfuWord i f [useA f (tyWidth f.ty)] fun s l => g (readNat s (tyWidth f.ty) f.a l)

/-- RCP. -/
def execRcp (f : A3) (s : State) : Outcome State Fault Refusal :=
  runWord (.rcp f) f.dist (sfuUn (.rcp f) f (rcpFp (tyFmt f.ty))) s

/-- RSQ. -/
def execRsq (f : A3) (s : State) : Outcome State Fault Refusal :=
  runWord (.rsq f) f.dist (sfuUn (.rsq f) f (rsqFp (tyFmt f.ty))) s

/-- SQRT: correctly rounded. -/
def execSqrt (f : A3) (s : State) : Outcome State Fault Refusal :=
  runWord (.sqrt f) f.dist
    (sfuUn (.sqrt f) f fun x => sqrtFp (tyFmt f.ty) f.rnd.toNat (unpackFp (tyFmt f.ty) x)) s

/-- EXP2. -/
def execExp2 (f : A3) (s : State) : Outcome State Fault Refusal := runWord (.exp2 f) f.dist (sfuUn (.exp2 f) f exp2Fp) s

/-- LOG2. -/
def execLog2 (f : A3) (s : State) : Outcome State Fault Refusal := runWord (.log2 f) f.dist (sfuUn (.log2 f) f log2Fp) s

/-- SINPI. -/
def execSinpi (f : A3) (s : State) : Outcome State Fault Refusal := runWord (.sinpi f) f.dist (sfuUn (.sinpi f) f sinpiFp) s

/-- COSPI. -/
def execCospi (f : A3) (s : State) : Outcome State Fault Refusal := runWord (.cospi f) f.dist (sfuUn (.cospi f) f cospiFp) s

/-- TANH. -/
def execTanh (f : A3) (s : State) : Outcome State Fault Refusal := runWord (.tanh f) f.dist (sfuUn (.tanh f) f tanhFp) s

/-- FDIV: correctly rounded. -/
def execFdiv (f : A3) (s : State) : Outcome State Fault Refusal :=
  runWord (.fdiv f) f.dist (fun run s =>
    let w := tyWidth f.ty
    let fm := tyFmt f.ty
    sfuWord (.fdiv f) f [useA f w, useB f w]
      (fun s l => divFp fm f.rnd.toNat (unpackFp fm (readNat s w f.a l)) (unpackFp fm (readNat s w f.b l))) run s) s

end Sys2Proof.Machine
end

