-- ==== Sys2Proof/Machine/Dispatch.lean ====
section
/-! DEFINITION. One arm for each instruction: the direct call of its meaning. -/

namespace Sys2Proof.Machine

/-- The meaning of an instruction (one for each row of spec/opcode_table.json). -/
def exec (i : Instr) (s : State) : Host.Outcome State Fault Refusal :=
  match i with
  | .iadd f => Sys2Proof.Machine.execIadd f s
  | .isub f => Sys2Proof.Machine.execIsub f s
  | .imul f => Sys2Proof.Machine.execImul f s
  | .imulh f => Sys2Proof.Machine.execImulh f s
  | .imad f => Sys2Proof.Machine.execImad f s
  | .imadw f => Sys2Proof.Machine.execImadw f s
  | .imin f => Sys2Proof.Machine.execImin f s
  | .imax f => Sys2Proof.Machine.execImax f s
  | .iabs f => Sys2Proof.Machine.execIabs f s
  | .ineg f => Sys2Proof.Machine.execIneg f s
  | .lea f => Sys2Proof.Machine.execLea f s
  | .iclamp f => Sys2Proof.Machine.execIclamp f s
  | .iabsd f => Sys2Proof.Machine.execIabsd f s
  | .idot4 f => Sys2Proof.Machine.execIdot4 f s
  | .and f => Sys2Proof.Machine.execAnd f s
  | .or f => Sys2Proof.Machine.execOr f s
  | .xor f => Sys2Proof.Machine.execXor f s
  | .andn f => Sys2Proof.Machine.execAndn f s
  | .not f => Sys2Proof.Machine.execNot f s
  | .shl f => Sys2Proof.Machine.execShl f s
  | .shr f => Sys2Proof.Machine.execShr f s
  | .sar f => Sys2Proof.Machine.execSar f s
  | .rot f => Sys2Proof.Machine.execRot f s
  | .funsh f => Sys2Proof.Machine.execFunsh f s
  | .bfx f => Sys2Proof.Machine.execBfx f s
  | .bfi f => Sys2Proof.Machine.execBfi f s
  | .popc f => Sys2Proof.Machine.execPopc f s
  | .clz f => Sys2Proof.Machine.execClz f s
  | .ctz f => Sys2Proof.Machine.execCtz f s
  | .brev f => Sys2Proof.Machine.execBrev f s
  | .bswp f => Sys2Proof.Machine.execBswp f s
  | .prmt f => Sys2Proof.Machine.execPrmt f s
  | .icmp f => Sys2Proof.Machine.execIcmp f s
  | .fcmp f => Sys2Proof.Machine.execFcmp f s
  | .sel f => Sys2Proof.Machine.execSel f s
  | .mov f => Sys2Proof.Machine.execMov f s
  | .pset f => Sys2Proof.Machine.execPset f s
  | .pmov f => Sys2Proof.Machine.execPmov f s
  | .fadd f => Sys2Proof.Machine.execFadd f s
  | .fsub f => Sys2Proof.Machine.execFsub f s
  | .fmul f => Sys2Proof.Machine.execFmul f s
  | .ffma f => Sys2Proof.Machine.execFfma f s
  | .fmin f => Sys2Proof.Machine.execFmin f s
  | .fmax f => Sys2Proof.Machine.execFmax f s
  | .frnd f => Sys2Proof.Machine.execFrnd f s
  | .fcvt f => Sys2Proof.Machine.execFcvt f s
  | .fclass f => Sys2Proof.Machine.execFclass f s
  | .fscale f => Sys2Proof.Machine.execFscale f s
  | .fdot2 f => Sys2Proof.Machine.execFdot2 f s
  | .qnt f => Sys2Proof.Machine.execQnt f s
  | .dqnt f => Sys2Proof.Machine.execDqnt f s
  | .f2i f => Sys2Proof.Machine.execF2i f s
  | .i2f f => Sys2Proof.Machine.execI2f f s
  | .rcp f => Sys2Proof.Machine.execRcp f s
  | .rsq f => Sys2Proof.Machine.execRsq f s
  | .sqrt f => Sys2Proof.Machine.execSqrt f s
  | .exp2 f => Sys2Proof.Machine.execExp2 f s
  | .log2 f => Sys2Proof.Machine.execLog2 f s
  | .sinpi f => Sys2Proof.Machine.execSinpi f s
  | .cospi f => Sys2Proof.Machine.execCospi f s
  | .tanh f => Sys2Proof.Machine.execTanh f s
  | .fdiv f => Sys2Proof.Machine.execFdiv f s
  | .shfl f => Sys2Proof.Machine.execShfl f s
  | .vote f => Sys2Proof.Machine.execVote f s
  | .redux f => Sys2Proof.Machine.execRedux f s
  | .scan f => Sys2Proof.Machine.execScan f s
  | .matchLanes f => Sys2Proof.Machine.execMatchLanes f s
  | .xpose f => Sys2Proof.Machine.execXpose f s
  | .iaddAp p => Sys2Proof.Machine.execIaddAp p s
  | .isubAp p => Sys2Proof.Machine.execIsubAp p s
  | .imulAp p => Sys2Proof.Machine.execImulAp p s
  | .iminAp p => Sys2Proof.Machine.execIminAp p s
  | .imaxAp p => Sys2Proof.Machine.execImaxAp p s
  | .andAp p => Sys2Proof.Machine.execAndAp p s
  | .orAp p => Sys2Proof.Machine.execOrAp p s
  | .xorAp p => Sys2Proof.Machine.execXorAp p s
  | .shlAp p => Sys2Proof.Machine.execShlAp p s
  | .shrAp p => Sys2Proof.Machine.execShrAp p s
  | .sarAp p => Sys2Proof.Machine.execSarAp p s
  | .movAp p => Sys2Proof.Machine.execMovAp p s
  | .faddAp p => Sys2Proof.Machine.execFaddAp p s
  | .fmulAp p => Sys2Proof.Machine.execFmulAp p s
  | .fminAp p => Sys2Proof.Machine.execFminAp p s
  | .fmaxAp p => Sys2Proof.Machine.execFmaxAp p s
  | .notAp p => Sys2Proof.Machine.execNotAp p s
  | .iaddi f => Sys2Proof.Machine.execIaddi f s
  | .imuli f => Sys2Proof.Machine.execImuli f s
  | .andi f => Sys2Proof.Machine.execAndi f s
  | .ori f => Sys2Proof.Machine.execOri f s
  | .xori f => Sys2Proof.Machine.execXori f s
  | .shli f => Sys2Proof.Machine.execShli f s
  | .shri f => Sys2Proof.Machine.execShri f s
  | .sari f => Sys2Proof.Machine.execSari f s
  | .movi f => Sys2Proof.Machine.execMovi f s
  | .movhi f => Sys2Proof.Machine.execMovhi f s
  | .icmpi f => Sys2Proof.Machine.execIcmpi f s
  | .faddi f => Sys2Proof.Machine.execFaddi f s
  | .fmuli f => Sys2Proof.Machine.execFmuli f s
  | .imini f => Sys2Proof.Machine.execImini f s
  | .imaxi f => Sys2Proof.Machine.execImaxi f s
  | .leai f => Sys2Proof.Machine.execLeai f s
  | .ld f => Sys2Proof.Machine.execLd f s
  | .st f => Sys2Proof.Machine.execSt f s
  | .ldx f => Sys2Proof.Machine.execLdx f s
  | .stx f => Sys2Proof.Machine.execStx f s
  | .atomAdd f => Sys2Proof.Machine.execAtomAdd f s
  | .atomMin f => Sys2Proof.Machine.execAtomMin f s
  | .atomMax f => Sys2Proof.Machine.execAtomMax f s
  | .atomAnd f => Sys2Proof.Machine.execAtomAnd f s
  | .atomOr f => Sys2Proof.Machine.execAtomOr f s
  | .atomXor f => Sys2Proof.Machine.execAtomXor f s
  | .atomXchg f => Sys2Proof.Machine.execAtomXchg f s
  | .atomCas f => Sys2Proof.Machine.execAtomCas f s
  | .atomFadd f => Sys2Proof.Machine.execAtomFadd f s
  | .pref f => Sys2Proof.Machine.execPref f s
  | .ldfe f => Sys2Proof.Machine.execLdfe f s
  | .stfe f => Sys2Proof.Machine.execStfe f s
  | .splook f => Sys2Proof.Machine.execSplook f s
  | .sptag f => Sys2Proof.Machine.execSptag f s
  | .spinv f => Sys2Proof.Machine.execSpinv f s
  | .cwait f => Sys2Proof.Machine.execCwait f s
  | .twait f => Sys2Proof.Machine.execTwait f s
  | .barInit f => Sys2Proof.Machine.execBarInit f s
  | .barArrive f => Sys2Proof.Machine.execBarArrive f s
  | .barWait f => Sys2Proof.Machine.execBarWait f s
  | .gbar f => Sys2Proof.Machine.execGbar f s
  | .ldp f => Sys2Proof.Machine.execLdp f s
  | .stp f => Sys2Proof.Machine.execStp f s
  | .ldn f => Sys2Proof.Machine.execLdn f s
  | .stn f => Sys2Proof.Machine.execStn f s
  | .peq f => Sys2Proof.Machine.execPeq f s
  | .padd f => Sys2Proof.Machine.execPadd f s
  | .pname f => Sys2Proof.Machine.execPname f s
  | .pres f => Sys2Proof.Machine.execPres f s
  | .cpl f => Sys2Proof.Machine.execCpl f s
  | .rgnext f => Sys2Proof.Machine.execRgnext f s
  | .rgrel f => Sys2Proof.Machine.execRgrel f s
  | .vdef f => Sys2Proof.Machine.execVdef f s
  | .vset f => Sys2Proof.Machine.execVset f s
  | .vget f => Sys2Proof.Machine.execVget f s
  | .vld f => Sys2Proof.Machine.execVld f s
  | .vst f => Sys2Proof.Machine.execVst f s
  | .vret f => Sys2Proof.Machine.execVret f s
  | .vmeet f => Sys2Proof.Machine.execVmeet f s
  | .cpv f => Sys2Proof.Machine.execCpv f s
  | .cpr f => Sys2Proof.Machine.execCpr f s
  | .gath f => Sys2Proof.Machine.execGath f s
  | .mmt f => Sys2Proof.Machine.execMmt f s
  | .mmv f => Sys2Proof.Machine.execMmv f s
  | .mstat f => Sys2Proof.Machine.execMstat f s
  | .mclr f => Sys2Proof.Machine.execMclr f s
  | .xred f => Sys2Proof.Machine.execXred f s
  | .xgath f => Sys2Proof.Machine.execXgath f s
  | .xbcast f => Sys2Proof.Machine.execXbcast f s
  | .tkacq f => Sys2Proof.Machine.execTkacq f s
  | .tkrel f => Sys2Proof.Machine.execTkrel f s
  | .tkqry f => Sys2Proof.Machine.execTkqry f s
  | .goto f => Sys2Proof.Machine.execGoto f s
  | .brc f => Sys2Proof.Machine.execBrc f s
  | .brx f => Sys2Proof.Machine.execBrx f s
  | .call f => Sys2Proof.Machine.execCall f s
  | .ret f => Sys2Proof.Machine.execRet f s
  | .exit f => Sys2Proof.Machine.execExit f s
  | .yield f => Sys2Proof.Machine.execYield f s
  | .contx f => Sys2Proof.Machine.execContx f s
  | .meet f => Sys2Proof.Machine.execMeet f s
  | .pb f => Sys2Proof.Machine.execPb f s
  | .cont f => Sys2Proof.Machine.execCont f s
  | .nop f paired => Sys2Proof.Machine.execNop f paired s
  | .trap f => Sys2Proof.Machine.execTrap f s
  | .deact f => Sys2Proof.Machine.execDeact f s
  | .ctxld f => Sys2Proof.Machine.execCtxld f s
  | .ctxst f => Sys2Proof.Machine.execCtxst f s
  | .tret f => Sys2Proof.Machine.execTret f s
  | .csrr f => Sys2Proof.Machine.execCsrr f s
  | .csrw f => Sys2Proof.Machine.execCsrw f s
  | .tlbi f => Sys2Proof.Machine.execTlbi f s
  | .pbind f => Sys2Proof.Machine.execPbind f s
  | .punbind f => Sys2Proof.Machine.execPunbind f s
  | .pevict f => Sys2Proof.Machine.execPevict f s
  | .mprgw f => Sys2Proof.Machine.execMprgw f s
  | .keyset f => Sys2Proof.Machine.execKeyset f s
  | .segmentBoundary w => Sys2Proof.Machine.execSegmentBoundary w s
  | .choose core pair => Sys2Proof.Machine.execChoose core pair s
  | .preemptRequest w => Sys2Proof.Machine.execPreemptRequest w s
  | .operationComplete w op => Sys2Proof.Machine.execOperationComplete w op s
  | .registerFillReturn w n => Sys2Proof.Machine.execRegisterFillReturn w n s
  | .registerFillTimeout w n => Sys2Proof.Machine.execRegisterFillTimeout w n s
  | .lineSpill w n => Sys2Proof.Machine.execLineSpill w n s
  | .lineBudgetWake w => Sys2Proof.Machine.execLineBudgetWake w s
  | .contextPage w present => Sys2Proof.Machine.execContextPage w present s
  | .warpActivate core slot => Sys2Proof.Machine.execWarpActivate core slot s
  | .warpWake w => Sys2Proof.Machine.execWarpWake w s
  | .warpRetire w => Sys2Proof.Machine.execWarpRetire w s
  | .gangBirth seq core => Sys2Proof.Machine.execGangBirth seq core s
  | .gangRetire g => Sys2Proof.Machine.execGangRetire g s
  | .gangSpill g => Sys2Proof.Machine.execGangSpill g s
  | .gangRestore g core => Sys2Proof.Machine.execGangRestore g core s
  | .continuationGather seq core picks => Sys2Proof.Machine.execContinuationGather seq core picks s
  | .continuationResume w => Sys2Proof.Machine.execContinuationResume w s
  | .continuationStallKill seq => Sys2Proof.Machine.execContinuationStallKill seq s
  | .callAreaGrant w slot => Sys2Proof.Machine.execCallAreaGrant w slot s
  | .coreWithdraw core => Sys2Proof.Machine.execCoreWithdraw core s
  | .partitionSwap die save => Sys2Proof.Machine.execPartitionSwap die save s
  | .pageNotPresent w frame => Sys2Proof.Machine.execPageNotPresent w frame s
  | .objectAbsent space table slot answer => Sys2Proof.Machine.execObjectAbsent space table slot answer s
  | .serviceEvict space table slot => Sys2Proof.Machine.execServiceEvict space table slot s
  | .migration root va frame => Sys2Proof.Machine.execMigration root va frame s
  | .l1Writeback core line => Sys2Proof.Machine.execL1Writeback core line s
  | .pkgWriteHomeApply write => Sys2Proof.Machine.execPkgWriteHomeApply write s
  | .pkgWriteDieApply write die => Sys2Proof.Machine.execPkgWriteDieApply write die s
  | .fabricPacketReceive p => Sys2Proof.Machine.execFabricPacketReceive p s
  | .fabricResendTimeout peer die seq link => Sys2Proof.Machine.execFabricResendTimeout peer die seq link s
  | .peerLost peer => Sys2Proof.Machine.execPeerLost peer s
  | .tokenGrant peer region exclusive => Sys2Proof.Machine.execTokenGrant peer region exclusive s
  | .tokenRefuse peer region => Sys2Proof.Machine.execTokenRefuse peer region s
  | .tokenRecall peer region toShared => Sys2Proof.Machine.execTokenRecall peer region toShared s
  | .chunkApply op chunk => Sys2Proof.Machine.execChunkApply op chunk s
  | .chunkDelivery op chunk => Sys2Proof.Machine.execChunkDelivery op chunk s
  | .chunkReceive op chunk crcOk => Sys2Proof.Machine.execChunkReceive op chunk crcOk s
  | .engineOperationComplete op => Sys2Proof.Machine.execEngineOperationComplete op s
  | .tileRowStart op => Sys2Proof.Machine.execTileRowStart op s
  | .tileRowComplete op => Sys2Proof.Machine.execTileRowComplete op s
  | .matrixWaitRelease w => Sys2Proof.Machine.execMatrixWaitRelease w s
  | .collectiveMatch op contributions agree => Sys2Proof.Machine.execCollectiveMatch op contributions agree s
  | .energyRefill => Sys2Proof.Machine.execEnergyRefill s
  | .messageLand m => Sys2Proof.Machine.execMessageLand m s
  | .ringEnable ring => Sys2Proof.Machine.execRingEnable ring s
  | .hostLandingWrite port region stream offset bytes => Sys2Proof.Machine.execHostLandingWrite port region stream offset bytes s
  | .hostLandingRead port region stream offset count => Sys2Proof.Machine.execHostLandingRead port region stream offset count s
  | .submit port region stream offset bytes => Sys2Proof.Machine.execSubmit port region stream offset bytes s
  | .launchStart seq => Sys2Proof.Machine.execLaunchStart seq s
  | .waitConditionPoll seq cond => Sys2Proof.Machine.execWaitConditionPoll seq cond s
  | .waitConditionUpdate seq cond => Sys2Proof.Machine.execWaitConditionUpdate seq cond s
  | .cpCause => Sys2Proof.Machine.execCpCause s
  | .regionReset => Sys2Proof.Machine.execRegionReset s
  | .regionKill => Sys2Proof.Machine.execRegionKill s
  | .regionRevive => Sys2Proof.Machine.execRegionRevive s
  | .functionLevelReset port vf => Sys2Proof.Machine.execFunctionLevelReset port vf s
  | .regionTableWrite r v => Sys2Proof.Machine.execRegionTableWrite r v s
  | .objectLoad image => Sys2Proof.Machine.execObjectLoad image s
  | .objectUnload => Sys2Proof.Machine.execObjectUnload s
  | .leaseRenew port => Sys2Proof.Machine.execLeaseRenew port s
  | .leaseRoleWrite port role => Sys2Proof.Machine.execLeaseRoleWrite port role s
  | .leaseExpiry port => Sys2Proof.Machine.execLeaseExpiry port s
  | .registerWrite field => Sys2Proof.Machine.execRegisterWrite field s
  | .serviceCoreRestart core stops => Sys2Proof.Machine.execServiceCoreRestart core stops s
  | .scrub line errors pair => Sys2Proof.Machine.execScrub line errors pair s
  | .strataUpdate temps power => Sys2Proof.Machine.execStrataUpdate temps power s
  | .powerOn self host0 host1 fuses firmware => Sys2Proof.Machine.execPowerOn self host0 host1 fuses firmware s
  | .thermalLimit die => Sys2Proof.Machine.execThermalLimit die s
  | .peerRestore peer => Sys2Proof.Machine.execPeerRestore peer s
  | .linkFailure link cut => Sys2Proof.Machine.execLinkFailure link cut s
  | .coreReturnToService core => Sys2Proof.Machine.execCoreReturnToService core s
  | .powerDown orderly => Sys2Proof.Machine.execPowerDown orderly s
  | .thermalLimitClear die => Sys2Proof.Machine.execThermalLimitClear die s
  | .tdispMessage port m => Sys2Proof.Machine.execTdispMessage port m s

end Sys2Proof.Machine
end

