-- ==== Sys2Proof/Machine/Order.lean ====
section
/-! DEFINITION. How a step comes about: the next word of the issuing warp, the moves of the other agents in the order a step takes them
when it is told none (log 3), and a word placed where the next step fetches it (log 4). -/

namespace Sys2Proof.Machine

open Host (Outcome)

/-! ### The next word (spec/04 R62, R67, R85) -/

/-- A word that is no instruction issues: its decode cause is raised, or no thread runs it. -/
def undecoded (w : W64) (c : Cause) (s : State) : State :=
  let s1 := tick (slice w 58 3) s
  let run := runMask (ctxOf s1)
  if run = 0 then advance s1
  else takeCause s1 0 (ctxOf s1).npc w run
    { cause := if wordPrivileged w && !trapMode s1 then .privileged else c, lanes := run, addr := 0, info := 0 }

/-- A word of the issuing warp: an instruction runs. -/
def issueWord (w : W64) (s : State) : Outcome State Fault Refusal :=
  match parse w with
  | .ok i => exec i s
  | .error c => .next (undecoded w c s)

/-- The issuing group back at its header: a fetch inside a segment failed, and the PC of its cause, KIND 1, is the header (spec/10
R195). -/
def toHeader (c : Ctx) : Ctx :=
  { c with pcs := lanesOf fun t => if bitAt (groupMask c) t then c.segh else lane c.pcs t, inSeg := false, blocks := [] }

/-- The issuing warp goes on: at a boundary, or with its next word. -/
def issueHere (s : State) : Outcome State Fault Refusal :=
  if (ctxOf s).inSeg then
    match fetchWord s (ctxOf s).npc with
    | .word w => issueWord w s
    | .bad r =>
      let g := groupMask (ctxOf s)
      let t := takeCause (modCtx s toHeader) 1 (ctxOf s).segh 0 g { r with lanes := g }
      .next (if awaitsRecord t then holdWarp s (ctxOf t).wait else t)
    | .wait w => .next (holdWarp s w)
    | .hole pa => .fault (.physicalHole pa)
  else boundaryHere s

/-- Whether the issuing warp can go on. -/
def issueReady (s : State) : Bool := mayIssue s s.warp && decide ((ctxOf s).wait = .none)

/-! ### The moves of the other agents (log 3) -/

/-- The operations in flight, warp by warp, the oldest first. -/
def opMoves (s : State) : List Instr := (allWarps s).flatMap fun w => (warpOps w).map fun o => .operationComplete w.id o.id

/-- The package writes, at their homes and at the dies. -/
def writeMoves (s : State) : List Instr :=
  s.mem.writes.flatMap fun w => .pkgWriteHomeApply w.id :: (List.range Config.dies).map fun d => .pkgWriteDieApply w.id d

/-- The first chunk of an operation that is not applied. -/
def nextChunk (e : EngOp) : Nat :=
  match e.kind with
  | .laneCopy _ _ _ pairs => ((pairs.map (·.1)).find? fun c => !e.applied.contains c).getD 0
  | .copy | .reduce .. | .gather | .matrix .. | .collReduce .. | .collGather | .collCast _ | .tokenAcquire .. | .tokenRelease ..
  | .tokenQuery .. => ((List.range (e.applied.length + 1)).find? fun c => !e.applied.contains c).getD 0

/-- The moves of an engine operation. -/
def engineMoves (e : EngOp) : List Instr :=
  [.chunkApply e.id (nextChunk e)] ++
    (e.applied.filter fun c => !e.delivered.contains c).map (fun c => .chunkDelivery e.id c) ++
    [.tileRowStart e.id, .tileRowComplete e.id, .collectiveMatch e.id [] true, .engineOperationComplete e.id]

/-- The moves that end a warp's wait. -/
def wakeMoves (w : Warp) : List Instr :=
  if w.evicting.isSome then [.contextPage w.id true] else match w.ctx.wait with
  | .none => []
  | .fill n => [.registerFillReturn w.id n]
  | .page .. => [.pageNotPresent w.id 0, .warpWake w.id]
  | .contextPage _ => [.contextPage w.id true]
  | .contextSlot => [.callAreaGrant w.id 0, .continuationResume w.id]
  | .retirement => [.warpRetire w.id]
  | .lineBudget => [.lineBudgetWake w.id]
  | .matrixPrevious => [.matrixWaitRelease w.id]
  | .flags | .counter .. | .timeline .. | .barrier .. | .gridBarrier _ | .object .. | .energy | .interruptionPoint
  | .published _ => [.warpWake w.id]
  | .earlier | .pending _ | .quiet _ => []

/-- The cores that hold warps. -/
def coresInUse (s : State) : List Nat := ((allWarps s).filterMap fun w => if 0 < w.id.seq then some w.core else none).eraseDups

/-- The places of a launch's released records of the first entry, at most 32. -/
def gatherPicks (s : State) (l : Launch) : List Nat :=
  let ok := l.staged.zipIdx.filter fun p => releasedRecord s p.1
  ((ok.filter fun p => (ok.head?).any fun q => q.1.entry == p.1.entry).map (·.2)).take 32

/-- The first core that may take a gang of a launch. -/
def gangCore (s : State) (l : Launch) : Nat :=
  ((List.range (Config.dies * Config.coresPerDie)).find? fun c => coreGrants s l c l.spad l.tags).getD 0

/-- The moves of a launch. -/
def launchMoves (s : State) (l : Launch) : List Instr :=
  if l.seq = 0 then []
  else [.launchStart l.seq, .gangBirth l.seq (gangCore s l), .continuationGather l.seq (gangCore s l) (gatherPicks s l),
        .continuationStallKill l.seq]

/-- The moves of a gang: it retires, or is restored. -/
def gangMoves (s : State) (g : Gang) : List Instr :=
  if g.id.seq = 0 then []
  else if g.spilled then
    (match launchOf s g.id.seq with
     | some l => [.gangRestore g.id (gangCore s l)]
     | none => [])
  else [.gangRetire g.id]

/-- Whether a core takes its first candidate under the model's order: into free room, or for a parked warp, or for one that has issued
since this clock began. -/
def mayActivate (s : State) (core : Nat) : Bool :=
  match orderedCandidates s core 0 with
  | [] => false
  | w :: _ => roomFor core w s || (match victimOf s core (warpPrio s w) with
    | some v => decide (v.state = .parked) || decide (v.lastIssue < s.clock)
    | none => false)

/-- The moves of the other agents, in the order a step tries them. -/
def agentMoves (s : State) : List Instr :=
  opMoves s ++ writeMoves s ++ s.engines.flatMap engineMoves ++ [.cpCause] ++ (coresInUse s).map (fun c => .coreWithdraw c) ++ (allWarps s).flatMap wakeMoves ++
    (s.gang :: s.gangs).flatMap (gangMoves s) ++ (allLaunches s).flatMap (launchMoves s) ++
    ((coresInUse s).filter (mayActivate s)).map (fun c => .warpActivate c 0) ++ (s.svc.moves ++ s.svc.moving.map fun m => (m.root, m.page)).map fun m => .migration m.1 (BitVec.ofNat 64 (m.2 * 4096)) 0

/-- The first move of a list that changes something, if one does. -/
def firstMove (s : State) : List Instr → Option (Outcome State Fault Refusal)
  | [] => none
  | i :: is =>
    match exec i s with
    | .next t => if t = s then firstMove s is else some (.next t)
    | .fault f => some (.fault f)
    | .refused r => some (.refused r)

/-! ### Turns (log 3) -/

/-- Whether a warp waits at a word that it tries again, or has none to issue: its register miss starts, or it parks at its
boundary. -/
def triesAgain (s : State) (w : Warp) : Bool :=
  decide (0 < w.id.seq) && w.stopped.isNone && !halted s w &&
    (match w.ctx.wait with
     | .earlier | .pending _ | .quiet _ => true
     | .none => mayIssue s w && !warpReady s w
     | .flags | .counter .. | .timeline .. | .barrier .. | .gridBarrier _ | .page .. | .object .. | .fill _ | .lineBudget
     | .energy | .contextSlot | .matrixPrevious | .interruptionPoint | .retirement | .contextPage _ | .published _ => false)

/-- The warps that may take a turn: the choice of each pair, and those that try a word again. -/
def turnTakers (s : State) : List Warp :=
  ((coresInUse s).flatMap fun c => [pairChoice s c 0, pairChoice s c 1]).filterMap id ++ (allWarps s).filter (triesAgain s)

/-- The place of a warp in the order of the turns. -/
def turnKey (w : WarpId) : Nat := (w.seq * 2 ^ 64 + w.gang) * 64 + w.wid

/-- The warp of a list with the lowest place. -/
def leastKey (ws : List Warp) : Option Warp := leastBy (fun w => turnKey w.id) ws

/-- The warp whose turn is next: the one after the issuing warp, in a circle. -/
def nextTaker (s : State) : Option Warp :=
  let ws := turnTakers s
  match leastKey (ws.filter fun w => decide (turnKey s.warp.id < turnKey w.id)) with
  | some w => some w
  | none => leastKey ws

/-- A warp takes its turn: its pair chooses, or it tries its word again. -/
def takeTurn (s : State) (w : Warp) : Outcome State Fault Refusal :=
  if w.ctx.wait = .none ∧ warpReady s w then
    match execChoose w.core w.pair s with
    | .next t => issueHere t
    | .fault f => .fault f
    | .refused r => .refused r
  else
    let t := focusOn w.id (wakeIf w.id s)
    if issueReady t then issueHere t else .next t

/-- A step that is told no move: the warp that its pair has chosen for this clock issues its word; else another agent moves, else a warp
takes its turn, else time passes. -/
def moveOn (s : State) : Outcome State Fault Refusal :=
  if issueReady s && (ctxOf s).inSeg && chosenNow s s.warp then issueHere s
  else match firstMove s (agentMoves s) with
    | some o => o
    | none =>
      match nextTaker s with
      | some w => takeTurn s w
      | none => .next { s with clock := s.clock + 1 }

/-- A step of a part without power: only POWER_ON is a move (spec/22 R358). -/
def powerOff (s : State) : Outcome State Fault Refusal :=
  match s.agenda with
  | .powerOn self host0 host1 fuses firmware :: rest => execPowerOn self host0 host1 fuses firmware { s with agenda := rest }
  | _ :: rest => .next { s with agenda := rest }
  | [] => .next { s with clock := s.clock + 1 }

/-! ### A word placed where the next step fetches it (log 4) -/

/-- A physical address that the fetch of the issuing warp's next word reads, if it reads one. -/
def fetchKey (s : State) : Option Nat :=
  match checkGlobal s .exec 8 8 (wordVa (ctxOf s).npc) with
  | .ok (.global k _) _ => some k
  | .ok (.scratch _) _ | .ok (.record _) _ | .ok .lost _ | .bad .. | .wait .. | .hole _ => none

/-- Whether the next step fetches a word of the issuing warp. -/
def fetchesWord (s : State) : Bool :=
  s.mgmt.powered && s.agenda.isEmpty && issueReady s && (ctxOf s).inSeg && chosenNow s s.warp && (fetchKey s).isSome

/-- Bytes put into memory at a physical address. -/
def placeBytes (s : State) (pa : Nat) (bs : List Byte) : State :=
  { s with mem := { s.mem with home := ByteMap.writeMany s.mem.home pa bs } }

/-- The word address at which a word is placed when no warp fetches one. -/
def placedPc : WAddr := 0x2000

/-- The tables that map that address, from 0x1000 on, to the frame at 0x6000: executable; that frame is sealed. -/
def placeTables (s : State) : State :=
  [(0x1000, 0x2001), (0x2000, 0x3001), (0x3000, 0x4001), (0x4000, 0x5001), (0x5080, 0x601B)].foldl
    (fun st e => placeBytes st e.1 (bytesOf 8 e.2)) s

/-- The launch of a placed word: one gang of one warp, under those tables. -/
def placedLaunch (seq : Nat) : Launch :=
  { Launch.zero with
    seq := seq, warps := 1, gangs := 1, state := .started, handed := 1, entry := placedPc.setWidth 64 - 1,
    eff := { Eff.zero with ptRoot := 0x1000 } }

/-- The warp of a placed word: active, all its threads inside a segment of 63 words, its next word the placed one. -/
def placedWarp (seq : Nat) : Warp :=
  let w := unbornWarp (placedLaunch seq) 0 0 0
  { w with
    state := .active, res := true,
    ctx := { w.ctx with
      active := allLanes, segh := placedPc - 1, npc := placedPc, inSeg := true,
      seg := { length := 63, wait := 0, raiseA := 0, raiseB := 1, energy := 0, z := 0 } } }

/-- A machine whose next step fetches a word of such a warp, the one its pair has chosen. -/
def placeWarp (s : State) : State :=
  let seq := s.cp.reamHead
  placeTables { s with
    cores := modNth s.cores 0 fun c => { c with last := AList.put c.last 0 { warp := (placedWarp seq).id, clock := s.clock } },
    mem := { s.mem with sealed := if s.mem.sealed.contains 6 then s.mem.sealed else s.mem.sealed ++ [6] }, agenda := [],
    mgmt := { s.mgmt with powered := true }, cp := { s.cp with reamHead := seq + 1 },
    warp := placedWarp seq, warps := if 0 < s.warp.id.seq then s.warps ++ [s.warp] else s.warps,
    gang := freshGang (placedLaunch seq) 0 0, gangs := if 0 < s.gang.id.seq then s.gangs ++ [s.gang] else s.gangs,
    launch := placedLaunch seq, launches := if 0 < s.launch.seq then s.launches ++ [s.launch] else s.launches }

/-- A word placed where the next step fetches it. -/
def placeWord (s : State) (w : Nat) : State :=
  let s1 := if fetchesWord s then s else placeWarp s
  match fetchKey s1 with
  | some k => placeBytes s1 k (bytesOf 8 w)
  | none => s1

end Sys2Proof.Machine
end

