-- ==== Sys2Proof/Machine/Step.lean ====
section
/-! DEFINITION. One step of the part: the first move of the agenda, or, with none, the step the model's order gives (log 3). -/

namespace Sys2Proof.Machine

open Host (Outcome)

/-- One step. The agenda holds the moves of the other agents and the inputs from outside that come next. -/
def step (s : State) : Outcome State Fault Refusal :=
  if s.mgmt.powered then
    match s.agenda with
    | [] => moveOn s
    | i :: rest => exec i { s with agenda := rest }
  else powerOff s

/-- The state with a word stored where the next step fetches it; every word has 64 bits. -/
def State.withFetchWord (s : State) (_nbits w : Nat) : State := placeWord s w

end Sys2Proof.Machine
end

