-- ==== Sys2Proof/Safety.lean ====
section
/-! DEFINITION. The terms the statements use: when a word issues without a cause, what its operands hold, what a word writes
and what it leaves alone, what an operation in flight leaves, and the invariants of a run. -/

namespace Sys2Proof.Safety

open Sys2Proof.Machine
open Host (Outcome)

/-! ### Operands -/

/-- A special register (spec/05 R89); `zero` and anything else reads 0. -/
def specialOf (s : State) (n l : Nat) : Nat :=
  match n with
  | 121 => l % 2 ^ 32
  | 122 => (s.warp.id.wid * 32 + l) % 2 ^ 32
  | 123 => s.warp.id.gang % 2 ^ 32
  | 124 => s.warp.id.wid % 2 ^ 32
  | 125 => s.launch.argp.toNat
  | 126 => (ctxOf s).ctxp.toNat
  | _ => 0

/-- What a lane holds in a g register: nothing, when it is not live there (spec/05 R96). -/
def gValue (s : State) (n l : Nat) : Nat :=
  if bitAt (gAt (ctxOf s) n).live l then (lane (gAt (ctxOf s) n).val l).toNat else 0

/-- The g registers of an operand put together, the first one lowest (spec/05 R89, spec/08 R159). -/
def gSpan (s : State) (n l : Nat) : Nat → Nat
  | 0 => 0
  | c + 1 => gValue s n l + 2 ^ 32 * gSpan s (n + 1) l c

/-- A source operand of a width in bits (spec/05 R89, spec/06 R109): g registers, the low bits of a k register, or a special
register. -/
def source (s : State) (width : Nat) (r : BitVec 7) (l : Nat) : Nat :=
  if r.toNat < 96 then gSpan s r.toNat l (width / 32)
  else if r.toNat < 120 then (kAt (ctxOf s) (r.toNat - 96)).toNat % 2 ^ width
  else specialOf s r.toNat l % 2 ^ width

/-- Whether a thread sees a predicate true; p7 is true (spec/05 R91). -/
def predOn (s : State) (p l : Nat) : Bool := if p < 7 then bitAt (predMask (ctxOf s) p) l else decide (l < 32)

/-- The threads that run the next word, as a list. -/
def runners (s : State) : List Nat := lanesIn (runMask (ctxOf s))

/-! ### When a word issues without a cause -/

/-- No transient error is to come: in storage (spec/22 R356), or where the warp compares its words (spec/05 R105); what an error does has
statements of its own. -/
abbrev Undisturbed (s : State) : Prop := s.mgmt.storage = [] ∧ (s.warp.check = true → s.mgmt.upsets = [])

/-- Some thread runs the word, no decode cause stands against it, and no transient error (spec/04 R77, R85, spec/05 R107). -/
abbrev Ready (i : Instr) (s : State) : Prop :=
  runMask (ctxOf s) ≠ 0 ∧ decodeCause (ctxOf s).seg.raiseA (ctxOf s).seg.raiseB (trapMode s) i = none ∧ Undisturbed s

/-- Every result on these registers has been written: the separations of spec/04 R68 are kept. -/
abbrev Settled (s : State) (names : List Reg) : Prop := ∀ z ∈ (ctxOf s).haz, z.reg ∉ names

/-- No g register of the sources is out of the register file (spec/05 R97). -/
abbrev Present (s : State) (us : List Use) : Prop :=
  ∀ n ∈ us.flatMap useRegs, (gAt (ctxOf s) n).live = 0 ∨ (gAt (ctxOf s) n).resident = true

/-- A result of a word: a register field, its width in bits, whether a k register takes it sign-extended, its value a lane. -/
structure Put where
  d : BitVec 7
  w : Nat
  signed : Bool
  v : Nat → Nat

/-- A k register is written with one value (spec/05 R90). -/
abbrev Uniform (s : State) (ps : List Put) : Prop :=
  ∀ p ∈ ps, isK p.d = true → ∀ l ∈ runners s, p.v l = p.v (lowLane (runMask (ctxOf s)))

/-- The fresh lines a word's results take (spec/05 R94, R97). -/
def linesOf (ps : List Put) : Nat := (ps.map fun p => dstLines p.d p.w).sum

/-- The sources of a word and the predicates it reads, with the lanes its sources are read in. -/
structure Sources where
  us : List Use
  preds : List Nat
  lanes : Mask

/-- Everything a word reads is settled and present. -/
abbrev Readable (s : State) (r : Sources) : Prop :=
  Settled s (r.us.flatMap useNames ++ r.preds.map Reg.p) ∧ Present s r.us

/-! ### What a word of fixed latency leaves -/

/-- Nothing but the registers and what issuing a word moves on: memory, the engines, every other warp, the gang, the launch
and every other field of the context stay. -/
def OnlyRegisters (s t : State) : Prop :=
  t = { s with
    clock := t.clock
    warp := { s.warp with
      lastIssue := t.warp.lastIssue
      ctx := { s.warp.ctx with
        g := (ctxOf t).g, k := (ctxOf t).k, preds := (ctxOf t).preds, fpst := (ctxOf t).fpst, haz := (ctxOf t).haz,
        ops := (ctxOf t).ops, npc := (ctxOf t).npc, blocks := (ctxOf t).blocks, wait := (ctxOf t).wait,
        met := (ctxOf t).met, deadread := (ctxOf t).deadread } } }

/-- The warp stands at the next word, its clock moved by the word's distance (spec/04 R67, R76). -/
structure NextWord (s t : State) (dist : BitVec 3) : Prop where
  clock : t.clock = s.clock + max 1 dist.toNat
  issued : t.warp.lastIssue = t.clock
  npc : (ctxOf t).npc = (ctxOf s).npc + 1
  blocks : (ctxOf t).blocks = (ctxOf s).blocks.tail
  wait : (ctxOf t).wait = .none
  met : (ctxOf t).met = false
  flights : (ctxOf t).ops.map (fun o => { o with dsts := [] }) = (ctxOf s).ops.map (fun o => { o with dsts := [] })

/-- Whether a result covers a g register. -/
def Put.coversG (p : Put) (n : Nat) : Bool := isG p.d && decide (p.d.toNat ≤ n) && decide (n < p.d.toNat + p.w / 32)

/-- The last of the results that covers a g register. -/
def putG (ps : List Put) (n : Nat) : Option Put := ps.reverse.find? fun p => p.coversG n

/-- The last of the results that is a k register. -/
def putK (ps : List Put) (n : Nat) : Option Put := ps.reverse.find? fun p => isK p.d && decide (p.d.toNat = 96 + n)

/-- Whether a source with its last-read bit covers a g register (spec/05 R95). -/
def freed (us : List Use) (n : Nat) : Bool := us.any fun u => u.last && (useRegs u).contains n

/-- A value as a k register takes it (spec/05 R89). -/
def asK (p : Put) (v : Nat) : W64 :=
  if p.w = 64 then BitVec.ofNat 64 v else if p.signed then (BitVec.ofNat 32 v).signExtend 64 else (BitVec.ofNat 32 v).setWidth 64

/-- The g registers after a word: a running lane of a result holds its value and is live; in the line of a result another lane keeps
its value where it is live, and is 0 elsewhere; every other register keeps its values; a lane stays live unless a last-read bit frees it
(spec/05 R94, R95). -/
structure WroteG (s t : State) (us : List Use) (ps : List Put) : Prop where
  value : ∀ n < 96, ∀ l < 32, lane (gAt (ctxOf t) n).val l =
    match putG ps n with
    | some p => if bitAt (runMask (ctxOf s)) l then BitVec.ofNat 32 (p.v l / 2 ^ (32 * (n - p.d.toNat)))
                else if bitAt (gAt (ctxOf s) n).live l then lane (gAt (ctxOf s) n).val l else 0
    | none => lane (gAt (ctxOf s) n).val l
  live : ∀ n < 96, ∀ l < 32, bitAt (gAt (ctxOf t) n).live l =
    (if bitAt (runMask (ctxOf s)) l then (putG ps n).isSome || (bitAt (gAt (ctxOf s) n).live l && !freed us n)
     else bitAt (gAt (ctxOf s) n).live l)
  resident : ∀ n < 96, (gAt (ctxOf t) n).resident = ((putG ps n).isSome || (gAt (ctxOf s) n).resident)

/-- A k register after a word: a result's value, or what it held (spec/05 R89, R90). -/
def WroteK (s t : State) (ps : List Put) : Prop :=
  ∀ n < 24, kAt (ctxOf t) n =
    match putK ps n with
    | some p => asK p (p.v (lowLane (runMask (ctxOf s))))
    | none => kAt (ctxOf s) n

/-- The predicates after a word: a running thread's bit of a named predicate is the result; every other bit is kept
(spec/05 R91). -/
def WroteP (s t : State) (qs : List (Nat × (Nat → Bool))) : Prop :=
  ∀ n < 7, ∀ l < 32, bitAt (predMask (ctxOf t) n) l =
    match qs.reverse.find? (fun q => q.1 == n) with
    | some q => if bitAt (runMask (ctxOf s)) l then q.2 l else bitAt (predMask (ctxOf s) n) l
    | none => bitAt (predMask (ctxOf s) n) l

/-- The sticky flags after a word: those of a running thread gain the word's (spec/07 R135). -/
def WroteFlags (s t : State) (fl : Nat → FpFlags) : Prop :=
  ∀ l < 32, lane (ctxOf t).fpst l =
    if bitAt (runMask (ctxOf s)) l then lane (ctxOf s).fpst l ||| fl l else lane (ctxOf s).fpst l

/-- Whether some source reads a lane in which its register is not live (spec/05 R96). -/
def readsDeadLane (s : State) (r : Sources) : Bool :=
  r.us.any fun u => (useRegs u).any fun n => decide (r.lanes &&& ~~~(gAt (ctxOf s) n).live ≠ 0)

/-- What a word of fixed latency leaves: its results, the sticky flags it raises, DEADREAD when a source lane was not live,
and nothing else. -/
structure Wrote (s t : State) (dist : BitVec 3) (r : Sources) (ps : List Put) (qs : List (Nat × (Nat → Bool)))
    (fl : Nat → FpFlags) : Prop where
  only : OnlyRegisters s t
  next : NextWord s t dist
  g : WroteG s t r.us ps
  k : WroteK s t ps
  p : WroteP s t qs
  flags : WroteFlags s t fl
  dead : (ctxOf t).deadread = ((ctxOf s).deadread || readsDeadLane s r)

/-- Fresh lines can be had for a word's results once the lines that its last reads free are free (spec/05 R95, R97). -/
def RoomFor (s : State) (us : List Use) (n : Nat) : Prop := lineRoom (afterReads s (runMask (ctxOf s)) us) n = true

/-- A word of fixed latency has its effect, whenever it is ready, its sources are readable and its results can be written. -/
def Computes (i : Instr) (dist : BitVec 3) (src : State → Sources) (ps : State → List Put)
    (qs : State → List (Nat × (Nat → Bool))) (fl : State → Nat → FpFlags) : Prop :=
  ∀ s, Ready i s → Readable s (src s) → RoomFor s (src s).us (linesOf (ps s)) → Uniform s (ps s) →
    ∃ t, exec i s = .next t ∧ Wrote s t dist (src s) (ps s) (qs s) (fl s)

/-- Sources read in the running lanes. -/
def reads (us : List Use) (s : State) : Sources := { us := us, preds := [], lanes := runMask (ctxOf s) }

/-- A word that writes one register and nothing else. -/
def ComputesReg (i : Instr) (dist : BitVec 3) (us : List Use) (d : BitVec 7) (w : Nat) (signed : Bool)
    (v : State → Nat → Nat) : Prop :=
  Computes i dist (reads us) (fun s => [{ d := d, w := w, signed := signed, v := v s }]) (fun _ => []) (fun _ _ => 0)

/-- A word of two sources leaves its result open for a number of clocks of distance: until then an early reader may see what the
register held before (spec/04 R68, R70). -/
def Separates (i : Instr) (f : A3) (sep : Nat) : Prop :=
  ∀ s, Ready i s → Present s [useA f (tyWidth f.ty), useB f (tyWidth f.ty)] → isG f.d = true →
    RoomFor s [useA f (tyWidth f.ty), useB f (tyWidth f.ty)] (dstLines f.d (tyWidth f.ty)) →
    ∃ t, exec i s = .next t ∧ ∀ n < tyWidth f.ty / 32, ∀ l < 32, bitAt (runMask (ctxOf s)) l = true →
      ∃ z, hazAt (ctxOf t) (.g (f.d.toNat + n)) l = some z ∧ z.left = sep ∧ z.op = none ∧
        lane z.old l = BitVec.ofNat 64 (gValue s (f.d.toNat + n) l)

/-! ### What an operation in flight leaves (spec/04 R72, spec/08 R161, spec/05 R94) -/

/-- The addresses of a memory word (spec/08 R159): the base plus the offset, and for an indexed word plus the index times the
access size; modulo 2^32 in the scratchpad. -/
def addressOf (s : State) (f : MW) (indexed : Bool) (n l : Nat) : W64 :=
  let d : Int := sext 18 f.off.toNat + (if indexed then sext 32 (source s 32 f.x l) * n else 0)
  if f.space = 1 then BitVec.ofNat 64 (((source s 32 f.base l + d) % (2 : Int) ^ 32).toNat)
  else BitVec.ofNat 64 (((source s 64 f.base l + d) % (2 : Int) ^ 64).toNat)

/-- Everything stays but the registers claimed, the flags and counters, the operations in flight, what issuing moves on, the
translations noted (spec/10 R207, spec/08 R158), the launch's replay mark (spec/22 R345) and the gang's tag table: no byte of
memory changes. -/
def OnlyIssue (s t : State) : Prop :=
  t = { s with
    clock := t.clock
    freeCtr := t.freeCtr
    nextOp := t.nextOp
    gang := { s.gang with tags := t.gang.tags }
    launch := { s.launch with rpl := t.launch.rpl }
    mem := { s.mem with tlb := t.mem.tlb, migration := t.mem.migration }
    svc := { s.svc with moves := t.svc.moves }
    warp := { s.warp with
      lastIssue := t.warp.lastIssue
      ctx := { s.warp.ctx with
        g := (ctxOf t).g, haz := (ctxOf t).haz, ops := (ctxOf t).ops, cf := (ctxOf t).cf, spFlags := (ctxOf t).spFlags,
        ol := (ctxOf t).ol, os := (ctxOf t).os, sp := (ctxOf t).sp, npc := (ctxOf t).npc, blocks := (ctxOf t).blocks,
        wait := (ctxOf t).wait, met := (ctxOf t).met, deadread := (ctxOf t).deadread } } }

/-- A completion flag's count. -/
def flagCount (s : State) (j : Nat) : Nat := (ctxOf s).cf.toList.getD j 0

/-- The g registers the destinations of an operation span. -/
def claimsG (o : Op) (n : Nat) : Bool := (o.dsts.flatMap dstRegs).contains (.g n)

/-- An operation has issued, with `u` what the word does to the rest of the state: it is the newest in flight with the next number; its flag and its counter hold one more (spec/04
R72, spec/08 R161); its g destinations are live from the word on (spec/05 R94); the lanes its last-read bits name are freed; no
live lane changes its value. -/
structure Launched (u s t : State) (dist : BitVec 3) (r : Sources) (o : Op) : Prop where
  only : OnlyIssue u t
  clock : t.clock = s.clock + max 1 dist.toNat
  issued : t.warp.lastIssue = t.clock
  npc : (ctxOf t).npc = (ctxOf s).npc + 1
  blocks : (ctxOf t).blocks = (ctxOf s).blocks.tail
  wait : (ctxOf t).wait = .none
  number : o.id = s.nextOp ∧ t.nextOp = s.nextOp + 1
  newest : (ctxOf t).ops.getLast? = some o
  flights : (ctxOf t).ops.dropLast.map (fun x => { x with dsts := [] }) = (ctxOf s).ops.map (fun x => { x with dsts := [] })
  flag : ∀ j < 12, flagCount t j = flagCount s j + (if o.flag = some j then 1 else 0)
  counter : ∀ c, 1 ≤ c → c ≤ 3 → counterOf (ctxOf t) c = counterOf (ctxOf s) c + (if o.counter = c then 1 else 0)
  spFlags : (ctxOf t).spFlags = (ctxOf s).spFlags ++ (if o.counter = 3 then o.flag.toList else [])
  live : ∀ n < 96, ∀ l < 32, bitAt (gAt (ctxOf t) n).live l =
    (if bitAt (runMask (ctxOf s)) l then claimsG o n || (bitAt (gAt (ctxOf s) n).live l && !freed r.us n)
     else bitAt (gAt (ctxOf s) n).live l)
  value : ∀ n < 96, ∀ l < 32, bitAt (gAt (ctxOf s) n).live l = true → bitAt (gAt (ctxOf t) n).live l = true →
    (bitAt (runMask (ctxOf s)) l && freed r.us n) = false → lane (gAt (ctxOf t) n).val l = lane (gAt (ctxOf s) n).val l
  dead : (ctxOf t).deadread = ((ctxOf s).deadread || readsDeadLane s r)

/-- The operation a word starts. -/
def opOf (s : State) (i : Instr) (counter : Nat) (dsts : List Dst) (kind : OpKind) : Op :=
  { id := s.nextOp, fpc := (ctxOf s).npc, word := wordOf i, run := runMask (ctxOf s),
    flag := raisedFlag (ctxOf s).seg.raiseA (ctxOf s).seg.raiseB (flagSel i), counter := counter, dsts := dsts, kind := kind }

/-- A word starts an operation whose results land in a register field, whenever it is ready, its sources are readable, lines
can be had, its counter has room and a condition on its operands holds; the gang's tag table afterwards is the one given. -/
def IssuesTags (i : Instr) (dist : BitVec 3) (us : List Use) (d : BitVec 7) (width counter : Nat) (ok : State → Prop)
    (kind : State → OpKind) (tags : State → List (W64 × W32)) : Prop :=
  ∀ s, Ready i s → Readable s (reads us s) → RoomFor s us (dstLines d width) →
    counterOf (ctxOf s) counter < 65535 → ok s →
    ∃ t, exec i s = .next t ∧
      Launched s s t dist (reads us s) (opOf s i counter (laterDst d width (runMask (ctxOf s))) (kind s)) ∧ t.gang.tags = tags s

/-- A word that starts an operation and leaves the tag table alone. -/
def Issues (i : Instr) (dist : BitVec 3) (us : List Use) (d : BitVec 7) (width counter : Nat) (ok : State → Prop)
    (kind : State → OpKind) : Prop :=
  IssuesTags i dist us d width counter ok kind fun s => s.gang.tags

/-- Every running lane passes its checks. -/
abbrev AllOk (s : State) (chk : Nat → LaneChk) : Prop := ∀ l ∈ runners s, ∃ p va, chk l = .ok p va

/-! ### The families of data words -/

/-- The sources of a word of class A3, in the word's own width. -/
def srcA (f : A3) (s : State) (l : Nat) : Nat := source s (tyWidth f.ty) f.a l
/-- The second source. -/
def srcB (f : A3) (s : State) (l : Nat) : Nat := source s (tyWidth f.ty) f.b l
/-- The third source. -/
def srcC (f : A3) (s : State) (l : Nat) : Nat := source s (tyWidth f.ty) f.c l

/-- A word d, a of class A3 in one width. -/
def Unary (i : Instr) (f : A3) (v : Nat → Nat) : Prop :=
  ComputesReg i f.dist [useA f (tyWidth f.ty)] f.d (tyWidth f.ty) (f.ty == .s32) fun s l => v (srcA f s l)

/-- A word d, a, b of class A3 in one width. -/
def Binary (i : Instr) (f : A3) (v : Nat → Nat → Nat) : Prop :=
  ComputesReg i f.dist [useA f (tyWidth f.ty), useB f (tyWidth f.ty)] f.d (tyWidth f.ty) (f.ty == .s32)
    fun s l => v (srcA f s l) (srcB f s l)

/-- A word d, a, b, c of class A3 in one width. -/
def Ternary (i : Instr) (f : A3) (v : Nat → Nat → Nat → Nat) : Prop :=
  ComputesReg i f.dist [useA f (tyWidth f.ty), useB f (tyWidth f.ty), useC f (tyWidth f.ty)] f.d (tyWidth f.ty) (f.ty == .s32)
    fun s l => v (srcA f s l) (srcB f s l) (srcC f s l)

/-- A shift word: its amount is a 32-bit source (log 24). -/
def Shift (i : Instr) (f : A3) (v : Nat → Nat → Nat) : Prop :=
  ComputesReg i f.dist [useA f (tyWidth f.ty), useB f 32] f.d (tyWidth f.ty) (f.ty == .s32)
    fun s l => v (srcA f s l) (source s 32 f.b l)

/-- A word of class AI in one width. -/
def Immediate (i : Instr) (f : AI) (v : Nat → Nat) : Prop :=
  ComputesReg i f.dist [useAI f (tyWidth f.ty)] f.d (tyWidth f.ty) (f.ty == .s32) fun s l => v (source s (tyWidth f.ty) f.a l)

/-- A word with a floating-point result: its value is written, its flags are raised in the running threads (spec/07 R135). -/
def Floats (i : Instr) (dist : BitVec 3) (us : List Use) (d : BitVec 7) (w : Nat) (signed : Bool) (g : State → Nat → FpRes) : Prop :=
  Computes i dist (reads us) (fun s => [{ d := d, w := w, signed := signed, v := fun l => (g s l).1 }]) (fun _ => [])
    (fun s l => (g s l).2)

/-- Every element of a word's result by the two-operand rule of spec/07 R138: negated sources, the operation, saturation. -/
def fpResult2 (f : A3) (op : Nat → Nat → FpRes) (s : State) (l : Nat) : FpRes :=
  fpPack f.ty fun e =>
    satRes (tyFmt f.ty) f.sat (op (fpElem f.ty f.na (srcA f s l) e) (fpElem f.ty f.nb (srcB f s l) e))

/-- A two-operand floating-point word. -/
def FloatBinary (i : Instr) (f : A3) (op : Nat → Nat → FpRes) : Prop :=
  Floats i f.dist [useA f (tyWidth f.ty), useB f (tyWidth f.ty)] f.d (tyWidth f.ty) false (fpResult2 f op)

/-- The two-operand operation of a format on element bits. -/
def onBits (f : A3) (op : Fmt → Nat → Fp → Fp → FpRes) (x y : Nat) : FpRes :=
  op (tyFmt f.ty) f.rnd.toNat (unpackFp (tyFmt f.ty) x) (unpackFp (tyFmt f.ty) y)

/-- An SFU word: its results are on their way, with their flags (spec/07 R147). -/
def Sfu (i : Instr) (f : A3) (us : List Use) (g : State → Nat → FpRes) : Prop :=
  Issues i f.dist us f.d (tyWidth f.ty) 0 (fun _ => True) fun s => .result (lanesOf fun l => (g s l).1) (lanesOf fun l => (g s l).2)

/-- A one-source SFU word. -/
def SfuUnary (i : Instr) (f : A3) (g : Nat → FpRes) : Prop := Sfu i f [useA f (tyWidth f.ty)] fun s l => g (srcA f s l)

/-- The values of the running lanes where a tree of REDUX or SCAN starts (spec/07 R151). -/
def treeStart (f : A3) (s : State) : Lanes Partial :=
  lanesOf fun l => if bitAt (runMask (ctxOf s)) l then (some (srcA f s l), 0) else (none, 0)

/-- A tree word: every running thread gets the flags of every step. -/
def Tree (i : Instr) (f : A3) (step : Lanes Partial → Nat → Lanes Partial) (pick : Lanes Partial → Nat → Nat) : Prop :=
  Computes i f.dist (reads [useA f (tyWidth f.ty)])
    (fun s => [{ d := f.d, w := tyWidth f.ty, signed := f.ty == .s32,
                 v := pick ([1, 2, 4, 8, 16].foldl step (treeStart f s)) }])
    (fun _ => []) (fun s _ => partialFlags ([1, 2, 4, 8, 16].foldl step (treeStart f s)))

/-- A slot's result from the values before the word (spec/06 R119). -/
def slotResult (s : State) (x : Slot) (l : Nat) : FpRes :=
  slotValue x.op (slotTy x.args) (source s 32 x.args.d l) (source s 32 x.args.s l)

/-- A paired word: both slots read before either writes (spec/04 R75, spec/06 R119). -/
def Paired (op : SlotOp) (p : Ap) (i : Instr) : Prop :=
  Computes i p.dist (reads ((apSlots op p).flatMap slotUses))
    (fun s => (apSlots op p).map fun x =>
      { d := x.args.d, w := 32, signed := slotTy x.args == .s32, v := fun l => (slotResult s x l).1 })
    (fun _ => []) (fun s l => (apSlots op p).foldl (fun m x => m ||| (slotResult s x l).2) 0)

/-- The lanes of the running threads that hold a lane's value (spec/07 R152). -/
def sameLanes (f : A3) (s : State) (l : Nat) : Mask :=
  maskOf fun m => bitAt (runMask (ctxOf s)) m && decide (srcA f s m = srcA f s l)

/-- The running threads whose predicate, inverted when asked, is true (spec/07 R150). -/
def votes (s : State) (p : Nat) (neg : Bool) : Mask := maskOf fun l => bitAt (runMask (ctxOf s)) l && (predOn s p l != neg)

/-- The lane SHFL reads for a lane (spec/07 R149). -/
def shflFrom (f : A3) (s : State) (l : Nat) : Nat :=
  shflSource (f.aux.toNat % 4) (2 ^ (f.aux.toNat / 4 + 1)) l (source s 32 f.b l)

/-- The element of register i, lane l after a transposition of w-bit elements: the old element (j, r) becomes (r, j)
(spec/07 R153). -/
def xposed (s : State) (n w i l : Nat) : Nat :=
  let per := 32 / w
  let base := l - l % (8 * per)
  let j := l % (8 * per)
  (List.range per).foldl (fun acc h =>
    acc + fld (gValue s (n + j / per) (base + (per * i + h))) (w * (j % per) + w - 1) (w * (j % per)) * 2 ^ (w * h)) 0

/-! ### Memory words -/

/-- The checks of a memory word's lanes (spec/08 R160). -/
def laneChecks (s : State) (f : MW) (indexed : Bool) (want : Want) (l : Nat) : LaneChk :=
  checkLane s f.space.toNat want (sizeBytes f) (addressOf s f indexed (sizeBytes f) l)

/-- The checks of a full-empty word's lanes (spec/08 R167). -/
def granuleChecks (s : State) (f : MW) (l : Nat) : LaneChk := checkScratch s (sizeBytes f) (addressOf s f false (sizeBytes f) l)

/-- A k destination of a load needs one address (spec/08 R163). -/
abbrev OneAddress (s : State) (f : MW) (indexed : Bool) : Prop :=
  isK f.data = true → ∀ l ∈ runners s,
    addressOf s f indexed (sizeBytes f) l = addressOf s f indexed (sizeBytes f) (lowLane (runMask (ctxOf s)))

/-- A load: its lanes' accesses are on their way, or one for a k destination. -/
def Loads (i : Instr) (f : MW) (indexed : Bool) (us : List Use) : Prop :=
  Issues i f.dist us f.data (dataWidth (sizeBytes f)) (if f.space = 1 then 3 else 1)
    (fun s => AllOk s (laneChecks s f indexed .read) ∧ OneAddress s f indexed)
    fun s => .memory .load (sizeBytes f) f.scope.toNat
      (loadAccs (runMask (ctxOf s)) f.data (laneChecks s f indexed .read)) noVals none

/-- The accesses of a store: each running lane's data to its place, in ascending lanes. -/
def storesOf (s : State) (f : MW) (chk : Nat → LaneChk) : List Acc :=
  (runners s).map fun l =>
    accOf (chk l) l (source s (dataWidth (sizeBytes f)) f.data l % 2 ^ (8 * sizeBytes f)) 0

/-- A store. -/
def Stores (i : Instr) (f : MW) (indexed : Bool) (us : List Use) : Prop :=
  Issues i f.dist us 120 32 (if f.space = 1 then 3 else 2) (fun s => AllOk s (laneChecks s f indexed .write))
    fun s => .memory .store (sizeBytes f) f.scope.toNat (storesOf s f (laneChecks s f indexed .write)) noVals none

/-- Whether an atomic is the exchange a doorbell takes (spec/22 R339). -/
def isBell (f : MW) (op : Nat) : Bool := op == 0x0A && sizeBytes f == 8 && f.scope == 2

/-- An atomic by its opcode (spec/08 R164): with destination `zero` it returns nothing and is counted as a store. -/
def Atomics (i : Instr) (f : MW) (op : Nat) (us : List Use) : Prop :=
  Issues i f.dist us f.data (8 * sizeBytes f) (if f.space = 1 then 3 else if f.data = 120 then 2 else 1)
    (fun s => AllOk s (laneChecks s f false (.atomic (isBell f op))))
    fun s => .memory (.atomic op) (sizeBytes f) (if f.space = 0 then max 1 f.scope.toNat else 0)
      ((runners s).map fun l => accOf (laneChecks s f false (.atomic (isBell f op)) l) l (source s (8 * sizeBytes f) f.x l)
        (if op = 0x0B then source s (8 * sizeBytes f) f.data l else 0)) noVals none

/-- The tag table's answers and the table after a tag word (spec/08 R168). -/
def tagsAfter (s : State) (f : MW) (step : W64 → W32 → Nat → Tags → W32 × Tags) : Lanes Nat × Tags :=
  tagLanes step (fun l => BitVec.ofNat 64 (source s 64 f.base l)) (fun l => BitVec.ofNat 32 (source s 32 f.x l)) s.gang.tagSize
    (runners s) (noVals, s.gang.tags)

/-- A tag word: its answers are on their way, and the table is changed at its place in order. -/
def TagWord (i : Instr) (f : MW) (us : List Use) (step : W64 → W32 → Nat → Tags → W32 × Tags) (ok : State → Prop) : Prop :=
  IssuesTags i f.dist us f.data 32 3 ok (fun s => .result (tagsAfter s f step).1 (lanesOf fun _ => 0))
    fun s => (tagsAfter s f step).2

/-! ### Control words, and words that act on other parts of the state -/

/-- A word has acted on the state as `u` shows, and the warp stands at the next word: its reads and the move are all else. -/
structure Moved (u s t : State) (dist : BitVec 3) (us : List Use) : Prop where
  only : t = { u with
    clock := t.clock
    warp := { u.warp with
      lastIssue := t.clock
      ctx := { u.warp.ctx with
        g := (ctxOf t).g, haz := (ctxOf t).haz, deadread := (ctxOf t).deadread, npc := (ctxOf s).npc + 1,
        blocks := (ctxOf s).blocks.tail, wait := .none, met := false } } }
  clock : t.clock = s.clock + max 1 dist.toNat
  g : WroteG s t us []
  dead : (ctxOf t).deadread = ((ctxOf s).deadread || readsDeadLane s (reads us s))

/-- A word acts on the state, whenever it is ready, its sources are readable and a condition on its operands holds. -/
def Acts (i : Instr) (dist : BitVec 3) (us : List Use) (ok : State → Prop) (u : State → State) : Prop :=
  ∀ s, Ready i s → Readable s (reads us s) → ok s → ∃ t, exec i s = .next t ∧ Moved (u s) s t dist us

/-- A terminator has ended its segment (spec/06 R121): the running threads have their successors, or have exited; `u` shows
what the word does to the rest of the state. -/
structure Ended (u s t : State) (dist : BitVec 3) (us : List Use) (out : Mask) (next : Nat → WAddr) : Prop where
  only : t = { u with
    clock := t.clock
    warp := { u.warp with
      lastIssue := t.warp.lastIssue
      yielded := t.warp.yielded
      ctx := { u.warp.ctx with
        pcs := (ctxOf t).pcs, exited := (ctxOf t).exited, g := (ctxOf t).g, haz := (ctxOf t).haz,
        deadread := (ctxOf t).deadread, inSeg := false, midSeg := false, blocks := [], wait := .none, met := false } } }
  clock : t.clock = s.clock + max 1 dist.toNat
  pcs : ∀ l < 32, lane (ctxOf t).pcs l = if bitAt (runMask (ctxOf s)) l then next l else lane (ctxOf s).pcs l
  exited : (ctxOf t).exited = (ctxOf s).exited ||| out
  g : WroteG s t us []
  dead : (ctxOf t).deadread = ((ctxOf s).deadread || readsDeadLane s (reads us s))

/-- The warp waits at the word, which issues again (spec/05 R101): it parks but for the waits that only stall it. -/
structure Waits (s t : State) (dist : BitVec 3) (w : WaitFor) (parks : Bool) : Prop where
  only : t = { s with
    clock := t.clock
    warp := { s.warp with
      lastIssue := t.clock
      state := if parks then .parked else s.warp.state
      parkedAt := if parks then t.clock else s.warp.parkedAt
      ctx := { s.warp.ctx with haz := (ctxOf t).haz, wait := w, met := false, midSeg := (ctxOf s).inSeg } } }
  clock : t.clock = s.clock + max 1 dist.toNat

/-- A word waits whenever it is ready, its sources are readable and a condition on its operands holds. -/
def Holds (i : Instr) (dist : BitVec 3) (us : List Use) (ok : State → Prop) (w : State → WaitFor) (parks : Bool) : Prop :=
  ∀ s, Ready i s → Readable s (reads us s) → ok s → ∃ t, exec i s = .next t ∧ Waits s t dist (w s) parks

/-- The value TWAIT waits for (spec/08 R170): its immediate, or the largest over the running lanes. -/
def awaited (s : State) (f : XW) : Nat :=
  if bitAt f.f 21 then f.t.toNat else (runners s).foldl (fun m l => max m (source s 64 (xReg f 14) l)) 0

/-- The sources of TWAIT. -/
def twaitUses (f : XW) : List Use := if bitAt f.f 21 then [] else [{ reg := xReg f 14, width := 64, last := false }]

/-- The bytes BAR.ARRIVE announces (spec/08 R172). -/
def announced (s : State) (f : XW) : Nat :=
  if bitAt f.f 19 then f.t.toNat else source s 64 (xReg f 12) (lowLane (runMask (ctxOf s)))

/-- The sources of BAR.ARRIVE. -/
def arriveUses (f : XW) : List Use := if bitAt f.f 19 then [] else [{ reg := xReg f 12, width := 64, last := false }]

/-- A release has nothing to wait for and nothing to write back (spec/08 R176, spec/20 R312). -/
def NothingToRelease (s : State) : Prop :=
  allPerformed s = true ∧ dirtyL1 s s.warp.core = [] ∧ dirtyDie s (myDie s) = [] ∧ publishing s (publishedWrites s (myDie s)) = false

/-- The launch after the issuing warp's arrival at a grid barrier. -/
def arrivals (s : State) (n : Nat) : Launch := setArrived s.launch n (arrivedAt s.launch n ++ [s.warp.id])

/-- The records a continuation word emits (spec/06 R129): for each running thread its entry, its tag and its arguments. -/
def recordsOf (s : State) (f : XW) : List (W32 × W32 × List W32) :=
  (runners s).map fun l =>
    (contEntry s f, BitVec.ofNat 32 (source s 32 (xReg f 17) l),
     (List.range (fld f.f.toNat 9 6)).map fun i => BitVec.ofNat 32 (gValue s ((xReg f 10).toNat + i) l))

/-- A continuation word may emit its records at once: continuations are on, none was emitted before, and every record finds a
staging slot (spec/02 R36). -/
def RoomForRecords (s : State) (f : XW) : Prop :=
  s.launch.contOk = true ∧ s.warp.emitted = 0 ∧ (emitRecords s f (runners s) s).1 = []

/-- The launch and the L1 after the records of a continuation word: each record's 64 bytes stand in its staging slot (spec/02 R35). -/
def emitted (s : State) (f : XW) : State :=
  { s with launch := (emitRecords s f (runners s) s).2.launch, mem := { s.mem with l1 := (emitRecords s f (runners s) s).2.mem.l1 } }

/-! ### Rings (spec/20 R329) -/

/-- The entries of a ring that are landed and not claimed yet have these sizes, the next one first: they fill the ring from CLAIM to
WRITTEN, which are never further apart than its slots, before either counts past 2^64. -/
structure Unclaimed (r : Ring) (sizes : List Nat) : Prop where
  span : r.claim.toNat + sizes.sum = r.written.toNat ∧ sizes.sum ≤ r.slots
  sized : ∀ n ∈ sizes, 0 < n ∧ n ≤ 2 ^ 17
  placed : ∀ i < sizes.length, entrySlots r ((r.claim.toNat + (sizes.take i).sum) % r.slots) = sizes.getD i 0

/-! ### Taking an exception (spec/10 R193 to R195) -/

/-- A cause has been taken in trap mode: what stands in the frame, in the first k registers of the trap context and in the
interrupted context, and that nothing else changed but the clock, the notes of refused page faults and, in the core's L1, the header,
views and k registers of the interrupted context's record (spec/05 R93; that they are a core-scope store is log 8). -/
structure Entered (s t : State) (idx kind : Nat) (fpc : WAddr) (word : W64) (run : Mask) (r : Raised) (pc : WAddr) : Prop where
  only : t = { s with clock := t.clock, svc := { s.svc with refused := t.svc.refused }, mem := { s.mem with l1 := t.mem.l1 },
                      warp := { s.warp with lastIssue := t.warp.lastIssue, ctx := t.warp.ctx, trap := t.warp.trap } }
  saved : ∃ x, t.warp.trap = some x ∧ x.idx = idx ∧ x.deact = false ∧
    x.intr = { s.warp.ctx with
      pcs := x.intr.pcs, haz := x.intr.haz, npc := x.intr.npc, blocks := x.intr.blocks, midSeg := decide (kind = 0),
      inSeg := decide (kind = 0), wait := .none, met := false, frame := x.intr.frame } ∧
    (∀ l < 32, lane x.intr.pcs l = if (ctxOf s).inSeg && bitAt (groupMask (ctxOf s)) l then pc else lane (ctxOf s).pcs l) ∧
    x.intr.frame = { cause := causeCode r.cause, kind := kind, valid := true, trapIdx := idx, fpc := fpc, run := run,
                     lanes := r.lanes, addr := r.addr, word := word, busyCf := cfBits (ctxOf s), info := r.info }
  entry : ∀ l < 32, lane (ctxOf t).pcs l = s.launch.eff.trapEntry.setWidth 54
  saves : kAt (ctxOf t) 0 = BitVec.ofNat 64 (causeCode r.cause) ∧ kAt (ctxOf t) 1 = (ctxOf s).ctxp ∧
    kAt (ctxOf t) 2 = join32 r.lanes run ∧ kAt (ctxOf t) 3 = fpc.setWidth 64 ∧ kAt (ctxOf t) 4 = r.addr ∧ kAt (ctxOf t) 5 = word
  record : (ctxOf t).ctxp = s.launch.eff.trapPool + BitVec.ofNat 64 (idx * 16384)
  stored : t.mem.l1 = (saveTrap { s with warp := t.warp }).mem.l1
  fresh : (ctxOf t).exited = 0 ∧ (ctxOf t).inSeg = false ∧ (∀ n < 96, (gAt (ctxOf t) n).live = 0) ∧
    (∀ n, 6 ≤ n → n < 24 → kAt (ctxOf t) n = 0) ∧ (∀ n < 7, predMask (ctxOf t) n = 0) ∧ (ctxOf t).nbv = (ctxOf s).nbv

/-- A cause has gone to the command processor, and the warp has stopped (spec/10 R196, spec/22 R346). -/
structure ToCp (s t : State) (c : Cause) (info : W64) : Prop where
  only : t = { s with clock := t.clock, svc := { s.svc with refused := t.svc.refused }, cp := { s.cp with queue := t.cp.queue },
                      warp := { s.warp with lastIssue := t.warp.lastIssue, stopped := t.warp.stopped,
                                            ctx := { s.warp.ctx with haz := (ctxOf t).haz } } }
  queue : ∃ st : CpStop, st.cause = c ∧ st.info = info ∧ t.warp.stopped = some st ∧ t.cp.queue = s.cp.queue ++ [(s.warp.id, st)]

/-! ### Words of the views, the engines, the rings and trap mode -/

/-- Every thread that has not exited runs the word (spec/04 R77). -/
abbrev Whole (s : State) : Prop := ~~~(ctxOf s).exited &&& ~~~(runMask (ctxOf s)) = 0

/-- A register field holds one value in the running lanes (spec/05 R90). -/
abbrev SameSource (s : State) (w : Nat) (r : BitVec 7) : Prop := uniform (runMask (ctxOf s)) (source s w r) = true

/-- The value of a source in the lowest running lane. -/
def low (s : State) (w : Nat) (r : BitVec 7) : Nat := source s w r (lowLane (runMask (ctxOf s)))

/-- The operation of an engine that a word starts. -/
def engOf (s : State) (i : Instr) (tc : Nat) (kind : EngKind) : EngOp := freshEng s i (runMask (ctxOf s)) tc kind

/-- The barrier an engine word is bound to, if any. -/
def boundTo (imm : Nat) (bind : Bool) : Option Nat := if bind then some (imm % 16) else none

/-- A bound barrier is initialised (spec/16 R257). -/
abbrev BarrierReady (s : State) (imm : Nat) (bind : Bool) : Prop := bind = true → (barAt s.gang (imm % 16)).members ≠ 0

/-- Views used by a word: each defined, with the intent it needs (1 read, 2 write, 3 both). -/
def ViewsOk (s : State) (vs : List (Nat × Nat)) : Prop :=
  ∀ p ∈ vs, (viewAt (ctxOf s) p.1).defined = true ∧ intentHas (viewAt (ctxOf s) p.1).intent p.2 = true

/-- The interrupted context of the issuing warp; an empty one outside trap mode. -/
def intrOf (s : State) : Ctx := s.warp.trap.elim Ctx.zero (·.intr)

/-- A word that starts an operation after changing other parts of the state. -/
def Starts (i : Instr) (dist : BitVec 3) (us : List Use) (d : BitVec 7) (width counter : Nat) (ok : State → Prop)
    (u : State → State) (kind : State → OpKind) : Prop :=
  ∀ s, Ready i s → Readable s (reads us s) → RoomFor s us (dstLines d width) →
    counterOf (ctxOf s) counter < 65535 → ok s →
    ∃ t, exec i s = .next t ∧
      Launched (u s) s t dist (reads us s) (opOf s i counter (laterDst d width (runMask (ctxOf s))) (kind s))

/-- The names the lanes of LDP or LDN read, and what reading them leaves (spec/13 R228). -/
def namesRead (s : State) (f : MW) : WordRead × State :=
  readLanes (noteGlobal 0 ((runners s).map fun l => accOf (checkGlobal s .read 16 16 (addressOf s f false 16 l)) l 0 0) s)
    (runMask (ctxOf s)) f.scope.toNat fun l => chkKey (checkGlobal s .read 16 16 (addressOf s f false 16 l))

/-- LDP or LDN may read now: its addresses pass, no earlier access of the warp is in the way, and every lane is answered. -/
def NamesReady (s : State) (f : MW) : Prop :=
  AllOk s (fun l => checkGlobal s .read 16 16 (addressOf s f false 16 l)) ∧
  (∀ l ∈ runners s, isLost (checkGlobal s .read 16 16 (addressOf s f false 16 l)) = false ∧
    earlierAccess s f.scope.toNat (chkKey (checkGlobal s .read 16 16 (addressOf s f false 16 l))) 16 l = false ∧
    streamBusy s f.scope.toNat (chkKey (checkGlobal s .read 16 16 (addressOf s f false 16 l))) = false) ∧
  (namesRead s f).1.lost = 0 ∧ (namesRead s f).1.poison = 0

/-- A store of names. -/
def StoresNames (i : Instr) (f : MW) (w : Nat) (name : State → Nat → LaneVal) : Prop :=
  Issues i f.dist [useBase f, useData f w] 120 32 2
    (fun s => AllOk s (fun l => checkGlobal s .write 16 16 (addressOf s f false 16 l)) ∧ ∀ l ∈ runners s, ∃ v, name s l = .val v)
    fun s => .memory .store 16 f.scope.toNat
      ((runners s).map fun l => accOf (checkGlobal s .write 16 16 (addressOf s f false 16 l)) l ((name s l).get) 0) noVals none

/-- A pointer word whose results are known at the word. -/
def PointsTo (i : Instr) (f : MW) (us : List Use) (d : BitVec 7) (width : Nat) (v : State → Nat → LaneVal) : Prop :=
  Issues i f.dist us d width 1 (fun s => ∀ l ∈ runners s, ∃ x, v s l = .val x)
    fun s => .result (lanesOf fun l => (v s l).get) (lanesOf fun _ => 0)

/-- A word of fixed latency that has its effect only under a condition on the state. -/
def ComputesIf (i : Instr) (dist : BitVec 3) (ok : State → Prop) (src : State → Sources) (ps : State → List Put)
    (qs : State → List (Nat × (Nat → Bool))) : Prop :=
  ∀ s, Ready i s → ok s → Readable s (src s) → RoomFor s (src s).us (linesOf (ps s)) → Uniform s (ps s) →
    ∃ t, exec i s = .next t ∧ Wrote s t dist (src s) (ps s) (qs s) (fun _ => 0)

/-- The indices of a lane of VLD or VST (spec/15 R250). -/
def indexOf (s : State) (f : EW) (v : View) (l : Nat) : List Nat := v.dims.map fun k => gValue s (f.r2.toNat + k) l

/-- The running lanes that access an element: an index of 0xFFFFFFFF in the first index register skips the lane. -/
def elementLanes (s : State) (f : EW) : Mask :=
  maskOf fun l => bitAt (runMask (ctxOf s)) l && gValue s f.r2.toNat l != 0xFFFFFFFF

/-- The check of one element's access. -/
def elementChk (s : State) (f : EW) (v : View) (w : Want) (l : Nat) : LaneChk :=
  checkGlobal s w v.esize v.esize (v.addr (indexOf s f v l))

/-- VLD or VST may access its elements: the view is defined with the intent, the registers suit it, the indices are in range and
every address passes its checks. -/
def ElementsOk (s : State) (f : EW) (store : Bool) (w : Want) : Prop :=
  let v := viewAt (ctxOf s) f.va.toNat
  Whole s ∧ ViewsOk s [(f.va.toNat, if store then 2 else 1)] ∧ f.r2.toNat + v.rank ≤ 96 ∧ viewRegOk v f.r1 = true ∧
    (store = true → v.isT1 = false) ∧
    ∀ l ∈ lanesIn (elementLanes s f), badIndex v (indexOf s f v l) = none ∧ ∃ p va, elementChk s f v w l = .ok p va

/-- The width of the data register of VLD and VST. -/
def elementWidth (v : View) : Nat := if v.fmt = 3 then 64 else 32

/-- The address of VDEF in a lane (spec/15 R248). -/
def descriptorAt (s : State) (f : EW) (l : Nat) : W64 := BitVec.ofNat 64 (source s 64 f.r1 l) + BitVec.ofInt 64 f.imm.toInt

/-- What VDEF reads: the descriptor's bytes and the state after. -/
def descriptorRead (s : State) (f : EW) (k : Nat) : List Byte × Bool × State :=
  loadBytes (noteUse s (rootOf_ s) (myDie s) [descriptorAt s f (lowLane (runMask (ctxOf s)))]) s.warp.core 0 k 64

/-- VDEF may define its view: one address, which passes its checks at a key, nothing earlier in the way, no poisoned line, and a
descriptor that passes (spec/15 R241). -/
def DescriptorOk (s : State) (f : EW) (k mode : Nat) : Prop :=
  let va := descriptorAt s f (lowLane (runMask (ctxOf s)))
  Whole s ∧ (∀ l ∈ runners s, descriptorAt s f l = va) ∧ (∃ x, checkGlobal s .read 64 64 va = .ok (.global k mode) x) ∧
    earlierAccess s 0 k 64 0 = false ∧ (travels s s.warp.core false 0 k 64 = true → reachableKey s k = true) ∧ (ctxOf s).ol < 65535 ∧
    (descriptorRead s f k).2.1 = false ∧
    viewCheck s (viewOf (descriptorRead s f k).1) = none

/-- The views a matrix word uses, with the intents they need (spec/18 R292). -/
def matrixUses (f : EW) (fs : W64) : List (Nat × Nat) :=
  [(f.va.toNat, if slotAcc fs then 3 else 2), (f.vb.toNat, 1), (f.vc.toNat, 1)] ++
    (if bitAt f.imm 8 then [] else [((slice f.imm 4 4).toNat, 1)]) ++ (if bitAt f.imm 9 then [] else [((slice f.imm 0 4).toNat, 1)])

/-- A matrix word passes every row of spec/18 R292, and no matrix operation of the warp is in flight. -/
def MatrixOk (s : State) (f : EW) (limit : Nat) : Prop :=
  let fs := s.launch.slots.getD f.slot.toNat 0
  let c := ctxOf s
  Whole s ∧ matrixBusy s = false ∧ ViewsOk s (matrixUses f fs) ∧ slotBad fs = none ∧
    shapeRow limit fs
      { c := viewAt c f.va.toNat, w := viewAt c f.vb.toNat, x := viewAt c f.vc.toNat,
        sw := if bitAt f.imm 8 then none else some (viewAt c (slice f.imm 4 4).toNat),
        sa := if bitAt f.imm 9 then none else some (viewAt c (slice f.imm 0 4).toNat),
        rc := f.va.toNat, rw := f.vb.toNat, rx := f.vc.toNat, rsw := (slice f.imm 4 4).toNat, rsa := (slice f.imm 0 4).toNat } = none

/-- The operation a matrix word starts, MROW at 0 (spec/18 R297). -/
def matrixStarted (s : State) (i : Instr) (f : EW) : State :=
  let fs := s.launch.slots.getD f.slot.toNat 0
  modCtx (startEng s
    { engOf s i 0 (.matrix fs (ctxOf s).seg.energy.toNat (ctxOf s).nbv (!bitAt f.imm 8) (!bitAt f.imm 9)) with
      views := matrixCaptures (ctxOf s) f, chunks := ceilDiv ((viewAt (ctxOf s) f.vb.toNat).ext 1) 128 })
    fun c => { c with mrow := 0 }

/-- A copy word's operation: its barrier, its views and its chunks of 64 elements (spec/16 R256 to R261). -/
def copyStarted (s : State) (i : Instr) (f : EW) (tc : Nat) (kind : EngKind) (vs : List Captured) : State :=
  startEng s { engOf s i tc kind with
    barrier := boundTo f.imm.toNat (bitAt f.imm 4), views := vs, chunks := ceilDiv (viewAt (ctxOf s) f.va.toNat).count 64 }

/-- The source and the destination of a lane of CPL (spec/16 R263). -/
def copyFrom (s : State) (f : MW) (l : Nat) : W64 := w64 ((source s 64 f.base l : Int) + sext 18 f.off.toNat)
/-- The destination of a lane of CPL. -/
def copyTo (s : State) (f : MW) (l : Nat) : W64 := BitVec.ofNat 64 (source s (if f.space = 1 then 32 else 64) f.data l)

/-- The member table of a collective word (spec/20 R321): its address, the group word, the keys of its entries, what reading it
gives and leaves. -/
def tableVa (s : State) (f : EW) : W64 := kAt (ctxOf s) (f.r1.toNat - 96)
/-- The second k register of the group. -/
def groupWord (s : State) (f : EW) : W64 := kAt (ctxOf s) (f.r1.toNat - 95)
/-- The entries of the table, and the state after they are read. -/
def tableRead (s : State) (f : EW) : List W64 × Bool × State :=
  let size := groupSize (groupWord s f)
  readTable (noteUse s (rootOf_ s) (myDie s) ((List.range size).map fun j => tableVa s f + BitVec.ofNat 64 (8 * j)))
    (tableKeys s (tableVa s f) size)

/-- A collective word passes every case of spec/20 R323 and its table can be read. -/
def CollectiveOk (s : State) (f : EW) (vs : List (Nat × Nat)) (root : Nat) (shape : Nat → Option Nat) : Prop :=
  let size := groupSize (groupWord s f)
  Whole s ∧ ViewsOk s vs ∧ Settled s [.k (f.r1.toNat - 96), .k (f.r1.toNat - 95)] ∧
    (∃ p va, tableChk s (tableVa s f) size = .ok p va) ∧ isLost (tableChk s (tableVa s f) size) = false ∧
    (∀ k ∈ tableKeys s (tableVa s f) size, earlierAccess s 0 k 8 0 = false ∧
      (travels s s.warp.core false 0 k 8 = true → reachableKey s k = true)) ∧
    (tableRead s f).2.1 = false ∧
    collCase s { size := size, rank := groupRank (groupWord s f), root := root, entries := (tableRead s f).1,
                 shape := shape size } = none

/-- A collective word starts its operation with its group (spec/20 R321 to R323). -/
def collStarted (s : State) (i : Instr) (f : EW) (kind : EngKind) (caps : List Captured) (chunks : Nat) : State :=
  startEng (countColl (groupTag (groupWord s f)) (tableRead s f).2.2)
    { engOf s i 3 kind with
      views := caps, chunks := chunks, tag := groupTag (groupWord s f), size := groupSize (groupWord s f),
      rank := groupRank (groupWord s f), nth := nextColl s (groupTag (groupWord s f)), members := (tableRead s f).1.map (memberOf s) }

/-- A token word's address in the lowest running lane. -/
def tokenVa (s : State) (f : EW) : W64 := BitVec.ofNat 64 (low s 64 f.r1)

/-- The region a token word names, when its address has one (spec/20 R317). -/
def TokenAt (s : State) (f : EW) (p n : Nat) : Prop :=
  Whole s ∧ SameSource s 64 f.r1 ∧ tokenAddr s (tokenVa s f) = .region p n

/-- The translation of a token word's address noted. -/
def tokenNoted (s : State) (f : EW) : State := noteUse s (rootOf_ s) (myDie s) [tokenVa s f]

/-- The 32 key bytes of KEYSET in the lowest running lane (spec/20 R330). -/
def keyOf (s : State) (f : SW) : List Byte :=
  (List.range 32).map fun i =>
    slice (BitVec.ofNat 32 (gValue s (f.mid.toNat + i / 4) (lowLane (runMask (ctxOf s))))) (8 * (i % 4)) 8

/-- KEYSET's operands: the same index and key in every running lane, a zero field, an index of the region (spec/20 R330). -/
def KeyOk (s : State) (f : SW) : Prop :=
  let x : W32 := BitVec.ofNat 32 (low s 32 f.hi)
  SameSource s 32 f.hi ∧ (∀ i < 8, uniform (runMask (ctxOf s)) (gValue s (f.mid.toNat + i)) = true) ∧ slice x 14 17 = 0 ∧
    s.launch.eff.keyBase ≤ (slice x 0 12).toNat ∧ (slice x 0 12).toNat < s.launch.eff.keyBase + s.launch.eff.keyCount

/-- A register of the interrupted context can be copied now (spec/10 R205): no write of it is in flight, its page is there, and a line
that is read from the record is not poisoned (spec/22 R355). -/
def CopyReady (s : State) (sel : Nat) : Prop :=
  bitAt (pendBits (intrOf s)) sel = false ∧ copyPage s (intrOf s) sel = none ∧
    (sel < 96 → (gAt (intrOf s) sel).live ≠ 0 → (gAt (intrOf s) sel).resident = false → lineLost s (intrOf s) sel = false)

end Sys2Proof.Safety
end

