-- ==== Sys2Proof/Certificates/Slice0/Obligations.lean ====
section
/-! DEFINITION. The statements for the provers: encodings, issuing, exceptions, the families of words, the steps of the other
agents, and the invariants of a run. -/

open Sys2Proof Sys2Proof.Machine Sys2Proof.Safety
open Host (Outcome)

/-! ### Data words -/

/-- IADD, ISUB, IMUL, IMULH, IMAD, IMADW, IMIN, IMAX, IABS, INEG, LEA, ICLAMP and IABSD write their result, element by element,
and leave everything else alone (spec/06 R111 to R114). -/
def Claims.IntegerArithmetic : Prop :=
  ∀ f : A3,
    Binary (.iadd f) f (fun a b => intLane f.ty f.sat (fun x y _ => x + y) a b 0) ∧
    Binary (.isub f) f (fun a b => intLane f.ty f.sat (fun x y _ => x - y) a b 0) ∧
    Binary (.imul f) f (fun a b => intLane f.ty f.sat (fun x y _ => x * y) a b 0) ∧
    Binary (.imulh f) f (fun a b => intLane f.ty false (fun x y _ => x * y / (2 : Int) ^ elemWidth f.ty) a b 0) ∧
    Ternary (.imad f) f (fun a b c => intLane f.ty f.sat (fun x y z => x * y + z) a b c) ∧
    ComputesReg (.imadw f) f.dist [useA f 32, useB f 32, useC f 64] f.d 64 false (fun s l =>
      reduceElem (wideTy f.ty) f.sat
        (elem f.ty (source s 32 f.a l) 0 * elem f.ty (source s 32 f.b l) 0 + elem (wideTy f.ty) (source s 64 f.c l) 0)) ∧
    Binary (.imin f) f (fun a b => intLane f.ty false (fun x y _ => min x y) a b 0) ∧
    Binary (.imax f) f (fun a b => intLane f.ty false (fun x y _ => max x y) a b 0) ∧
    Unary (.iabs f) f (fun a => intLane f.ty f.sat (fun x _ _ => if x < 0 then -x else x) a 0 0) ∧
    Unary (.ineg f) f (fun a => intLane f.ty f.sat (fun x _ _ => -x) a 0 0) ∧
    ComputesReg (.lea f) f.dist [useA f (tyWidth f.ty), useB f 32] f.d (tyWidth f.ty) false (fun s l =>
      wrap (tyWidth f.ty) ((srcA f s l : Int) +
        (if f.ty == .s64 then sext 32 (source s 32 f.b l) else (source s 32 f.b l : Int)) * (2 : Int) ^ (f.aux.toNat % 64))) ∧
    Ternary (.iclamp f) f (fun a b c => intLane f.ty false (fun x y z => min z (max x y)) a b c) ∧
    Binary (.iabsd f) f (fun a b => intLane f.ty false (fun x y _ => if x < y then y - x else x - y) a b 0)

/-- IDOT4 is vacant on this part: a word that would run it takes ILLEGAL_OPCODE, in or out of trap mode, and does nothing else
(spec/04 R80, R85, R86). -/
def Claims.VacantOpcodeTraps : Prop :=
  ∀ (f : A3) (s : State), runMask (ctxOf s) ≠ 0 →
    exec (.idot4 f) s = .next (wordCause (tick f.dist s) (.idot4 f) (runMask (ctxOf s))
      { cause := .illegalOpcode, lanes := runMask (ctxOf s), addr := 0, info := 0 })

/-- Every element of an integer result, read back in the word's type, is the exact result: clamped to the type's range under
`.SAT`, else congruent to it modulo 2 to the element's width and in range (spec/06 R111). -/
def Claims.IntegerElements : Prop :=
  ∀ (t : Ty) (sat : Bool) (op : Int → Int → Int → Int) (a b c e : Nat), t ∈ intTypes → e < tyWidth t / elemWidth t →
    (let exact := op (elem t a e) (elem t b e) (elem t c e)
     let r := elem t (intLane t sat op a b c) e
     tyMin t ≤ r ∧ r ≤ tyMax t ∧
     (sat = true → r = (if exact < tyMin t then tyMin t else if tyMax t < exact then tyMax t else exact)) ∧
     (sat = false → (r - exact) % (2 : Int) ^ elemWidth t = 0))

/-- The logic, shift, rotate, funnel, bit-field, count, reverse and permute words, and MOV, write their result and leave
everything else alone (spec/06 R115, R116, R117). -/
def Claims.BitWords : Prop :=
  ∀ f : A3,
    Binary (.and f) f (fun a b => a &&& b) ∧
    Binary (.or f) f (fun a b => a ||| b) ∧
    Binary (.xor f) f (fun a b => a ^^^ b) ∧
    Binary (.andn f) f (fun a b => a &&& (2 ^ tyWidth f.ty - 1 - b % 2 ^ tyWidth f.ty)) ∧
    Unary (.not f) f (fun a => 2 ^ tyWidth f.ty - 1 - a % 2 ^ tyWidth f.ty) ∧
    Shift (.shl f) f (fun a n => if tyWidth f.ty ≤ n then 0 else a * 2 ^ n % 2 ^ tyWidth f.ty) ∧
    Shift (.shr f) f (fun a n => if tyWidth f.ty ≤ n then 0 else a / 2 ^ n) ∧
    Shift (.sar f) f (fun a n => wrap (tyWidth f.ty) (sext (tyWidth f.ty) a / (2 : Int) ^ min n (tyWidth f.ty))) ∧
    Shift (.rot f) f (fun a n => a * 2 ^ (n % tyWidth f.ty) % 2 ^ tyWidth f.ty + a / 2 ^ (tyWidth f.ty - n % tyWidth f.ty)) ∧
    Ternary (.funsh f) f (fun a b c => (b * 2 ^ 32 + a) / 2 ^ (c % 64) % 2 ^ 32) ∧
    Ternary (.bfx f) f (bfxNat (f.ty == .s32)) ∧
    Ternary (.bfi f) f bfiNat ∧
    ComputesReg (.popc f) f.dist [useA f (tyWidth f.ty)] f.d 32 false (fun s l =>
      ((List.range (tyWidth f.ty)).filter fun i => (srcA f s l).testBit i).length) ∧
    ComputesReg (.clz f) f.dist [useA f (tyWidth f.ty)] f.d 32 false (fun s l =>
      ((List.range (tyWidth f.ty)).takeWhile fun i => !(srcA f s l).testBit (tyWidth f.ty - 1 - i)).length) ∧
    ComputesReg (.ctz f) f.dist [useA f (tyWidth f.ty)] f.d 32 false (fun s l =>
      ((List.range (tyWidth f.ty)).takeWhile fun i => !(srcA f s l).testBit i).length) ∧
    Unary (.brev f) f (brevNat (tyWidth f.ty)) ∧
    Unary (.bswp f) f (bswpNat (tyWidth f.ty)) ∧
    Ternary (.prmt f) f prmtNat ∧
    Unary (.mov f) f id

/-- ICMP, SEL, PSET and PMOV: the predicate or the register they write, and nothing else (spec/06 R117). -/
def Claims.CompareAndSelect : Prop :=
  ∀ f : A3,
    Computes (.icmp f) f.dist (reads [useA f (tyWidth f.ty), useB f (tyWidth f.ty)]) (fun _ => [])
      (fun s => [(f.d.toNat % 8, fun l => intCond (f.d.toNat / 8) (elem f.ty (srcA f s l) 0) (elem f.ty (srcB f s l) 0))])
      (fun _ _ => 0) ∧
    Computes (.sel f) f.dist
      (fun s => { us := [useA f (tyWidth f.ty), useB f (tyWidth f.ty)], preds := [f.c.toNat], lanes := runMask (ctxOf s) })
      (fun s => [{ d := f.d, w := tyWidth f.ty, signed := false,
                   v := fun l => if predOn s f.c.toNat l then srcA f s l else srcB f s l }])
      (fun _ => []) (fun _ _ => 0) ∧
    Computes (.pset f) f.dist (fun s => { us := [], preds := [f.a.toNat, f.b.toNat], lanes := runMask (ctxOf s) }) (fun _ => [])
      (fun s => [(f.d.toNat, fun l =>
        f.aux.toNat.testBit ((if predOn s f.a.toNat l then 2 else 0) + (if predOn s f.b.toNat l then 1 else 0)))])
      (fun _ _ => 0) ∧
    (f.aux = 0 →
      Computes (.pmov f) f.dist (fun s => { us := [], preds := List.range 7, lanes := runMask (ctxOf s) })
        (fun s => [{ d := f.d, w := 32, signed := false,
                     v := fun l => (List.range 8).foldl (fun acc i => acc + (if predOn s i l then 2 ^ i else 0)) 0 }])
        (fun _ => []) (fun _ _ => 0)) ∧
    (f.aux ≠ 0 →
      Computes (.pmov f) f.dist (reads [useA f 32]) (fun _ => [])
        (fun s => ((List.range 7).filter fun i => bitAt f.aux i).map fun i => (i, fun l => (source s 32 f.a l).testBit i))
        (fun _ _ => 0))

/-- The words of class AI write their result and leave everything else alone (spec/06 R118, spec/07 R143). -/
def Obligations.ImmediateWords : Prop :=
  ∀ f : AI,
    Immediate (.iaddi f) f (fun a => wrap (tyWidth f.ty) ((a : Int) + sext 32 f.imm.toNat)) ∧
    Immediate (.imuli f) f (fun a => wrap (tyWidth f.ty) ((a : Int) * sext 32 f.imm.toNat)) ∧
    Immediate (.andi f) f (fun a => a &&& f.imm.toNat) ∧
    Immediate (.ori f) f (fun a => a ||| f.imm.toNat) ∧
    Immediate (.xori f) f (fun a => a ^^^ f.imm.toNat) ∧
    Immediate (.shli f) f (fun a => shlNat (tyWidth f.ty) a (f.imm.toNat % 64)) ∧
    Immediate (.shri f) f (fun a => shrNat (tyWidth f.ty) a (f.imm.toNat % 64)) ∧
    Immediate (.sari f) f (fun a => sarNat (tyWidth f.ty) a (f.imm.toNat % 64)) ∧
    ComputesReg (.movi f) f.dist [] f.d (tyWidth f.ty) (f.ty == .s32) (fun _ _ => wrap (tyWidth f.ty) (immT f)) ∧
    (isG f.d = true → ComputesReg (.movhi f) f.dist [] (f.d + 1) 32 false (fun _ _ => f.imm.toNat)) ∧
    (isG f.d = false → ComputesReg (.movhi f) f.dist [{ reg := f.d, width := 64, last := false }] f.d 64 false (fun s l =>
      source s 64 f.d l % 2 ^ 32 + f.imm.toNat * 2 ^ 32)) ∧
    Computes (.icmpi f) f.dist (reads [useAI f (tyWidth f.ty)]) (fun _ => [])
      (fun s => [(f.d.toNat % 8, fun l => intCond (f.d.toNat / 8) (elem f.ty (source s (tyWidth f.ty) f.a l) 0) (immT f))])
      (fun _ _ => 0) ∧
    Immediate (.imini f) f (fun a => wrap (tyWidth f.ty) (min (elem f.ty a 0) (immT f))) ∧
    Immediate (.imaxi f) f (fun a => wrap (tyWidth f.ty) (max (elem f.ty a 0) (immT f))) ∧
    Immediate (.leai f) f (fun a =>
      wrap (tyWidth f.ty) ((a : Int) + sext 29 f.imm.toNat * (2 : Int) ^ fld f.imm.toNat 31 29)) ∧
    Floats (.faddi f) f.dist [useAI f 32] f.d 32 false (fun s l => fpPack f.ty fun e =>
      addFp (tyFmt f.ty) 0 (unpackFp (tyFmt f.ty) (fpElem f.ty false (source s 32 f.a l) e))
        (unpackFp (tyFmt f.ty) (fpElem f.ty false f.imm.toNat e))) ∧
    Floats (.fmuli f) f.dist [useAI f 32] f.d 32 false (fun s l => fpPack f.ty fun e =>
      mulFp (tyFmt f.ty) 0 (unpackFp (tyFmt f.ty) (fpElem f.ty false (source s 32 f.a l) e))
        (unpackFp (tyFmt f.ty) (fpElem f.ty false f.imm.toNat e)))

/-- The paired words: each of the seventeen opcodes of a first slot computes both slots from the values before the word and
writes both results (spec/04 R75, spec/06 R119). That of two slots that name one k register the second's result stands is the model's
choice (log 47). -/
def Claims.PairedWords : Prop :=
  ∀ p : Ap,
    Paired .iadd p (.iaddAp p) ∧ Paired .isub p (.isubAp p) ∧ Paired .imul p (.imulAp p) ∧ Paired .imin p (.iminAp p) ∧
    Paired .imax p (.imaxAp p) ∧ Paired .and p (.andAp p) ∧ Paired .or p (.orAp p) ∧ Paired .xor p (.xorAp p) ∧
    Paired .shl p (.shlAp p) ∧ Paired .shr p (.shrAp p) ∧ Paired .sar p (.sarAp p) ∧ Paired .mov p (.movAp p) ∧
    Paired .fadd p (.faddAp p) ∧ Paired .fmul p (.fmulAp p) ∧ Paired .fmin p (.fminAp p) ∧ Paired .fmax p (.fmaxAp p) ∧
    Paired .not p (.notAp p)

/-- The floating-point words of class A3 write their rounded results, raise their sticky flags in the running threads and leave
everything else alone (spec/07 R136 to R145). -/
def Obligations.FloatWords : Prop :=
  ∀ f : A3,
    FloatBinary (.fadd f) f (onBits f addFp) ∧
    FloatBinary (.fsub f) f (onBits f subFp) ∧
    FloatBinary (.fmul f) f (onBits f mulFp) ∧
    Floats (.ffma f) f.dist [useA f (tyWidth f.ty), useB f (tyWidth f.ty), useC f (tyWidth f.ty)] f.d (tyWidth f.ty) false
      (fun s l => fpPack f.ty fun e => satRes (tyFmt f.ty) f.sat (fmaFp (tyFmt f.ty) f.rnd.toNat
        (unpackFp (tyFmt f.ty) (fpElem f.ty f.na (srcA f s l) e)) (unpackFp (tyFmt f.ty) (fpElem f.ty f.nb (srcB f s l) e))
        (unpackFp (tyFmt f.ty) (fpElem f.ty f.nc (srcC f s l) e)))) ∧
    FloatBinary (.fmin f) f (minMaxFp (tyFmt f.ty) false) ∧
    FloatBinary (.fmax f) f (minMaxFp (tyFmt f.ty) true) ∧
    Floats (.fdot2 f) f.dist [useA f 32, useB f 32, useC f 32] f.d 32 false (fun s l =>
      let el (neg : Bool) (v e : Nat) : Fp := unpackFp (tyFmt f.ty) (fpElem f.ty neg v e)
      satRes fmt32 f.sat (dot2Fp fmt32 f.rnd.toNat (el f.na (source s 32 f.a l) 0) (el f.nb (source s 32 f.b l) 0)
        (el f.na (source s 32 f.a l) 1) (el f.nb (source s 32 f.b l) 1)
        (unpackFp fmt32 (negBits fmt32 f.nc (source s 32 f.c l))))) ∧
    Floats (.frnd f) f.dist [useA f (tyWidth f.ty)] f.d (tyWidth f.ty) false (fun s l =>
      fpPack f.ty fun e => frndFp (tyFmt f.ty) f.rnd.toNat (fpElem f.ty false (srcA f s l) e)) ∧
    ((f.ty = .f16x2 ∨ f.ty = .bf16x2) → Floats (.fcvt f) f.dist [useA f 32, useB f 32] f.d 32 false (fun s l =>
      fpPack f.ty fun e =>
        cvtFp fmt32 (tyFmt f.ty) f.rnd.toNat (if e = 0 then source s 32 f.a l else source s 32 f.b l))) ∧
    (¬(f.ty = .f16x2 ∨ f.ty = .bf16x2) → Floats (.fcvt f) f.dist [useA f (tyWidth (auxTy f))] f.d (tyWidth f.ty) false (fun s l =>
      cvtFp (tyFmt (auxTy f)) (tyFmt f.ty) f.rnd.toNat (fpElem (auxTy f) false (source s (tyWidth (auxTy f)) f.a l) 0))) ∧
    Floats (.f2i f) f.dist [useA f (tyWidth (auxTy f))] f.d (tyWidth f.ty) (f.ty == .s32) (fun s l =>
      let r := toIntFp (tyFmt (auxTy f)) f.rnd.toNat (tyMin f.ty) (tyMax f.ty)
        (fpElem (auxTy f) false (source s (tyWidth (auxTy f)) f.a l) 0)
      (wrap (tyWidth f.ty) r.1, r.2)) ∧
    Floats (.i2f f) f.dist [useA f (tyWidth (auxTy f))] f.d (tyWidth f.ty) false (fun s l =>
      ofIntFp (tyFmt f.ty) f.rnd.toNat (elem (auxTy f) (source s (tyWidth (auxTy f)) f.a l) 0)) ∧
    ComputesReg (.fclass f) f.dist [useA f (tyWidth f.ty)] f.d 32 false (fun s l =>
      classFp (tyFmt f.ty) (fpElem f.ty false (srcA f s l) 0)) ∧
    Floats (.fscale f) f.dist [useA f (tyWidth f.ty), useB f 32] f.d (tyWidth f.ty) false (fun s l =>
      satRes (tyFmt f.ty) f.sat (scaleFp (tyFmt f.ty) f.rnd.toNat (fpElem f.ty false (srcA f s l) 0)
        (sext 32 (source s 32 f.b l)))) ∧
    Computes (.fcmp f) f.dist (reads [useA f (tyWidth f.ty), useB f (tyWidth f.ty)]) (fun _ => [])
      (fun s => [(f.d.toNat % 8, fun l =>
        let x := unpackFp (tyFmt f.ty) (fpElem f.ty f.na (srcA f s l) 0)
        let y := unpackFp (tyFmt f.ty) (fpElem f.ty f.nb (srcB f s l) 0)
        floatCond (f.d.toNat / 8) (isNan x || isNan y) (ltFp x y) (eqFp x y))])
      (fun s l => fcmpFlags (f.d.toNat / 8) (unpackFp (tyFmt f.ty) (fpElem f.ty f.na (srcA f s l) 0))
        (unpackFp (tyFmt f.ty) (fpElem f.ty f.nb (srcB f s l) 0))) ∧
    Floats (.qnt f) f.dist [useA f 32, useB f 32] f.d 32 false (fun s l =>
      qntFp s.launch.compand f.aux.toNat (unpackFp fmt32 (negBits fmt32 f.na (source s 32 f.a l)))
        (unpackFp fmt32 (source s 32 f.b l))) ∧
    Floats (.dqnt f) f.dist [useA f 32, useB f 32] f.d 32 false (fun s l =>
      dqntFp s.launch.compand f.aux.toNat f.rnd.toNat (sext 8 (source s 32 f.a l)) (unpackFp fmt32 (source s 32 f.b l)))

/-- A sum, a difference, a product and a fused multiply-add with a NaN operand give the canonical NaN, with NV exactly when an
operand is signalling; infinity minus infinity, and zero times infinity (also with a quiet NaN addend), give it with NV
(spec/07 R133, R135). -/
def Claims.FloatInvalid : Prop :=
  ∀ (f : Fmt) (rnd : Nat),
    (∀ (s : Bool) (x : Fp), addFp f rnd (.nan s) x = (nanBits f, if s || isSnan x then flNV else 0) ∧
      addFp f rnd x (.nan s) = (nanBits f, if s || isSnan x then flNV else 0) ∧
      mulFp f rnd (.nan s) x = (nanBits f, if s || isSnan x then flNV else 0) ∧
      mulFp f rnd x (.nan s) = (nanBits f, if s || isSnan x then flNV else 0)) ∧
    (∀ n : Bool, addFp f rnd (.inf n) (.inf (!n)) = (nanBits f, flNV) ∧ subFp f rnd (.inf n) (.inf n) = (nanBits f, flNV)) ∧
    (∀ (n k : Bool) (e : Int), mulFp f rnd (.inf n) (.fin k 0 e) = (nanBits f, flNV) ∧
      mulFp f rnd (.fin k 0 e) (.inf n) = (nanBits f, flNV) ∧
      fmaFp f rnd (.inf n) (.fin k 0 e) (.nan false) = (nanBits f, flNV))

/-- Rounding at a position of k bits: to nearest with ties to even, towards zero, down and up, and inexact exactly when bits are
lost (spec/07 R134). -/
def Claims.RoundingModes : Prop :=
  ∀ (neg : Bool) (m k : Nat) (e : Int), 0 < k →
    (let q := e + k;
     (let r := roundAt 0 neg m e q;
      2 * m ≤ 2 * r.1 * 2 ^ k + 2 ^ k ∧ 2 * r.1 * 2 ^ k ≤ 2 * m + 2 ^ k ∧
      ((2 * m = 2 * r.1 * 2 ^ k + 2 ^ k ∨ 2 * r.1 * 2 ^ k = 2 * m + 2 ^ k) → r.1 % 2 = 0)) ∧
     (roundAt 1 neg m e q).1 * 2 ^ k ≤ m ∧ m < ((roundAt 1 neg m e q).1 + 1) * 2 ^ k ∧
     (neg = false → (roundAt 2 neg m e q).1 = (roundAt 1 neg m e q).1 ∧ m ≤ (roundAt 3 neg m e q).1 * 2 ^ k ∧
       (roundAt 3 neg m e q).1 * 2 ^ k < m + 2 ^ k) ∧
     (neg = true → (roundAt 3 neg m e q).1 = (roundAt 1 neg m e q).1 ∧ m ≤ (roundAt 2 neg m e q).1 * 2 ^ k ∧
       (roundAt 2 neg m e q).1 * 2 ^ k < m + 2 ^ k) ∧
     ∀ rnd < 4, ((roundAt rnd neg m e q).2 = true ↔ (roundAt rnd neg m e q).1 * 2 ^ k ≠ m))

/-- A value a format holds rounds to itself under every mode, and raises no flag (spec/07 R134, R135). -/
def Claims.RepresentableIsExact : Prop :=
  ∀ f ∈ [fmt16, fmtB16, fmt32, fmt64], ∀ bits < 2 ^ fmtBits f, isNan (unpackFp f bits) = false →
    ∀ rnd < 4, packFp f rnd (unpackFp f bits) = (bits, 0)

/-- The SFU words start operations whose results land later with their flags: FDIV and SQRT correctly rounded, the others by
the special cases of the spec and, elsewhere, one free choice within its bound (spec/07 R146, R147; log 6). -/
def Obligations.SfuWords : Prop :=
  ∀ f : A3,
    SfuUnary (.rcp f) f (rcpFp (tyFmt f.ty)) ∧
    SfuUnary (.rsq f) f (rsqFp (tyFmt f.ty)) ∧
    SfuUnary (.sqrt f) f (fun x => sqrtFp (tyFmt f.ty) f.rnd.toNat (unpackFp (tyFmt f.ty) x)) ∧
    SfuUnary (.exp2 f) f exp2Fp ∧ SfuUnary (.log2 f) f log2Fp ∧ SfuUnary (.sinpi f) f sinpiFp ∧
    SfuUnary (.cospi f) f cospiFp ∧ SfuUnary (.tanh f) f tanhFp ∧
    Sfu (.fdiv f) f [useA f (tyWidth f.ty), useB f (tyWidth f.ty)] (fun s l =>
      divFp (tyFmt f.ty) f.rnd.toNat (unpackFp (tyFmt f.ty) (srcA f s l)) (unpackFp (tyFmt f.ty) (srcB f s l)))

/-- SHFL, VOTE, REDUX, SCAN, MATCH and XPOSE read every running lane before any lane writes (spec/07 R148 to R154). -/
def Obligations.CrossLaneWords : Prop :=
  ∀ f : A3,
    Computes (.shfl f) f.dist (reads [useA f (tyWidth f.ty), useB f 32])
      (fun s => [{ d := f.d, w := tyWidth f.ty, signed := false,
                   v := fun l => if bitAt (runMask (ctxOf s)) (shflFrom f s l) then srcA f s (shflFrom f s l) else srcA f s l }])
      (fun s => [(f.c.toNat, fun l => !bitAt (runMask (ctxOf s)) (shflFrom f s l))]) (fun _ _ => 0) ∧
    Computes (.vote f) f.dist (fun s => { us := [], preds := [f.a.toNat], lanes := runMask (ctxOf s) })
      (fun s => if f.aux = 2 then [{ d := f.d, w := 32, signed := false, v := fun _ => (votes s f.a.toNat f.na).toNat }] else [])
      (fun s => if f.aux = 0 then [(f.d.toNat, fun _ => decide (votes s f.a.toNat f.na = runMask (ctxOf s)))]
                else if f.aux = 1 then [(f.d.toNat, fun _ => decide (votes s f.a.toNat f.na ≠ 0))] else [])
      (fun _ _ => 0) ∧
    Tree (.redux f) f (reduxStep f) (fun v l => (lane v l).1.getD 0) ∧
    Tree (.scan f) f (scanStep f) (scanPick f) ∧
    Computes (.matchLanes f) f.dist (reads [useA f (tyWidth f.ty)])
      (fun s => [{ d := f.d, w := 32, signed := false, v := fun l => (sameLanes f s l).toNat }])
      (fun s => [(f.c.toNat, fun l => decide (sameLanes f s l = runMask (ctxOf s)))]) (fun _ _ => 0) ∧
    Computes (.xpose f) f.dist
      (fun s => { us := (List.range 8).map fun i => { reg := f.d + BitVec.ofNat 7 i, width := 32, last := false }, preds := [],
                  lanes := groupLanes (runMask (ctxOf s)) (8 * (32 / xposeWidth f.ty)) })
      (fun s => (List.range 8).map fun i => { d := f.d + BitVec.ofNat 7 i, w := 32, signed := false,
                                              v := xposed s f.d.toNat (xposeWidth f.ty) i })
      (fun _ => []) (fun _ _ => 0)

/-- REDUX.ADD of an integer type gives every running lane the sum over the running lanes, modulo 2 to the width (spec/07
R151). -/
def Obligations.ReduxAddSums : Prop :=
  ∀ (f : A3) (s : State) (l : Nat), f.aux.toNat % 8 = 0 → f.ty ∈ scalarTypes → runMask (ctxOf s) ≠ 0 → l < 32 →
    (lane ([1, 2, 4, 8, 16].foldl (reduxStep f) (treeStart f s)) l).1.map (· % 2 ^ tyWidth f.ty) =
      some (((runners s).map fun m => srcA f s m).sum % 2 ^ tyWidth f.ty)

/-! ### Memory words -/

/-- LD, LDX and LDFE start loads on `ol`, or on `sp` in the scratchpad: one access a running lane, one for a k destination (spec/08
R159 to R163, R167). -/
def Claims.LoadWords : Prop :=
  ∀ f : MW,
    Loads (.ld f) f false [useBase f] ∧
    Loads (.ldx f) f true [useBase f, useX f 32] ∧
    Issues (.ldfe f) f.dist [useBase f] f.data (dataWidth (sizeBytes f)) 3 (fun s => AllOk s (granuleChecks s f))
      (fun s => .memory (.loadFull (bitAt f.x 0)) (sizeBytes f) 0
        ((runners s).map fun l => accOf (granuleChecks s f l) l 0 0) noVals none)

/-- ST, STX and STFE start stores of the running lanes' data on `os`, or on `sp` in the scratchpad; PREF only reads its base
(spec/08 R159 to R165, R167). -/
def Claims.StoreWords : Prop :=
  ∀ f : MW,
    Stores (.st f) f false [useBase f, useData f (dataWidth (sizeBytes f))] ∧
    Stores (.stx f) f true [useBase f, useData f (dataWidth (sizeBytes f)), useX f 32] ∧
    Issues (.stfe f) f.dist [useBase f, useData f (dataWidth (sizeBytes f))] 120 32 3 (fun s => AllOk s (granuleChecks s f))
      (fun s => .memory .storeFull (sizeBytes f) 0 (storesOf s f (granuleChecks s f)) noVals none) ∧
    Computes (.pref f) f.dist (reads [useBase f]) (fun _ => []) (fun _ => []) (fun _ _ => 0)

/-- The nine atomics start their accesses with the operands of the running lanes (spec/08 R164). -/
def Claims.AtomicWords : Prop :=
  ∀ f : MW,
    (let us := [useBase f, useX f (8 * sizeBytes f)]
     Atomics (.atomAdd f) f 0x04 us ∧ Atomics (.atomMin f) f 0x05 us ∧ Atomics (.atomMax f) f 0x06 us ∧
     Atomics (.atomAnd f) f 0x07 us ∧ Atomics (.atomOr f) f 0x08 us ∧ Atomics (.atomXor f) f 0x09 us ∧
     Atomics (.atomXchg f) f 0x0A us ∧ Atomics (.atomFadd f) f 0x0C us) ∧
    Atomics (.atomCas f) f 0x0B [useBase f, useX f (8 * sizeBytes f), useData f (8 * sizeBytes f)]

/-- SPLOOK, SPTAG and SPINV act on the gang's tag table lane by lane at their place in order, and their answers land later
(spec/08 R168). -/
def Claims.TagWords : Prop :=
  ∀ f : MW,
    TagWord (.splook f) f [useKey f] tagLook (fun _ => True) ∧
    TagWord (.sptag f) f [useKey f, useX f 32] tagInstall (fun s => ∀ l ∈ runners s, source s 32 f.x l < 0xFFFFFFFE) ∧
    TagWord (.spinv f) f [useKey f] tagDrop (fun _ => True)

/-- One lane of the tag table: a lookup changes nothing; an install answers the old slot and leaves the new one, or enters the
key while the table has room, or leaves a full table alone; a removal answers the old slot and takes the key out; other keys keep
their slots (spec/08 R168). -/
def Claims.TagTable : Prop :=
  ∀ (key other : W64) (slot : W32) (cap : Nat) (t : List (W64 × W32)), other ≠ key →
    tagLook key slot cap t = ((tagFind t key).getD 0xFFFFFFFF, t) ∧
    (let r := tagInstall key slot cap t
     tagFind r.2 other = tagFind t other ∧
     (∀ old, tagFind t key = some old → r.1 = old ∧ tagFind r.2 key = some slot) ∧
     (tagFind t key = none → t.length < cap → r.1 = 0xFFFFFFFF ∧ tagFind r.2 key = some slot) ∧
     (tagFind t key = none → cap ≤ t.length → r.1 = 0xFFFFFFFE ∧ r.2 = t)) ∧
    (let r := tagDrop key slot cap t
     r.1 = (tagFind t key).getD 0xFFFFFFFF ∧ tagFind r.2 key = none ∧ tagFind r.2 other = tagFind t other)

/-! ### Waits, barriers, control -/

/-- CWAIT and TWAIT go on once their counter has fallen, or their timeline has risen, to the value they name, and park the warp
until then (spec/08 R169, R170). -/
def Claims.CounterWaits : Prop :=
  ∀ f : XW,
    (let which := fld f.f.toNat 23 22
     Acts (.cwait f) f.dist [] (fun s => counterOf (ctxOf s) (which + 1) ≤ fld f.f.toNat 15 0) id ∧
     Holds (.cwait f) f.dist [] (fun s => fld f.f.toNat 15 0 < counterOf (ctxOf s) (which + 1))
       (fun _ => .counter which (fld f.f.toNat 15 0)) true ∧
     Acts (.twait f) f.dist (twaitUses f) (fun s => awaited s f ≤ (tcAt s.gang which).value) id ∧
     Holds (.twait f) f.dist (twaitUses f) (fun s => (tcAt s.gang which).value < awaited s f)
       (fun s => .timeline which (awaited s f)) true)

/-- BAR.INIT, BAR.ARRIVE and BAR.WAIT: the barrier register they leave, the arrivals that are misuse, and the wait (spec/08 R171
to R174). -/
def Claims.BarrierWords : Prop :=
  ∀ f : XW,
    Acts (.barInit f) f.dist [] (fun _ => True) (fun s => putBar s s.gang.id (barField f)
      { Bar.zero with members := fld f.f.toNat 19 14, pending := fld f.f.toNat 19 14 }) ∧
    (∀ b, Acts (.barArrive f) f.dist (arriveUses f)
      (fun s => announced s f < 2 ^ 47 ∧ allPerformed s = true ∧ arriveBar (announced s f) (barAt s.gang (barField f)) = some b)
      (fun s => putBar s s.gang.id (barField f) b)) ∧
    (∀ s, Ready (.barArrive f) s → Readable s (reads (arriveUses f) s) → allPerformed s = true →
      arriveBar (announced s f) (barAt s.gang (barField f)) = none →
      exec (.barArrive f) s = .next (wordCause (tick f.dist s) (.barArrive f) (runMask (ctxOf s))
        { cause := .barrierMisuse, lanes := runMask (ctxOf s), addr := 0, info := 0 })) ∧
    Holds (.barArrive f) f.dist (arriveUses f) (fun s => announced s f < 2 ^ 47 ∧ allPerformed s = false) (fun _ => .earlier) false ∧
    Acts (.barWait f) f.dist []
      (fun s => (ctxOf s).met = true ∨ (barAt s.gang (barField f)).phase ≠ bitAt f.f 19) id ∧
    Holds (.barWait f) f.dist []
      (fun s => (ctxOf s).met = false ∧ (barAt s.gang (barField f)).phase = bitAt f.f 19)
      (fun _ => .barrier (barField f) (bitAt f.f 19)) true

/-- Arrivals at a fresh barrier of m members: after k of them the phase has completed k / m times and k mod m of the members of
the present phase have arrived (spec/08 R173). -/
def Claims.BarrierPhases : Prop :=
  ∀ m k : Nat, 1 ≤ m → m ≤ 33 →
    (List.range k).foldl (fun b _ => b.bind (arriveBar 0)) (some { Bar.zero with members := m, pending := m }) =
      some { Bar.zero with phase := k / m % 2 == 1, members := m, pending := m - k % m }

/-- A phase with announced bytes completes only when they have all been delivered: one thread arrives announcing n bytes at a
barrier of two members; k bytes less than n leave the phase, the rest complete it (spec/08 R172, R173). -/
def Claims.AnnouncedBytes : Prop :=
  ∀ n k : Nat, 0 < k → k < n → n < 2 ^ 47 →
    ∃ b, arriveBar n { Bar.zero with members := 2, pending := 2 } = some b ∧ b.phase = false ∧
      (deliverBar k b).phase = false ∧ (deliverBar (n - k) (deliverBar k b)).phase = true ∧
      (deliverBar (n - k) (deliverBar k b)).pending = 2

/-- GBAR by the last threads of a warp that has nothing to release: the warp arrives; it goes on when that completes the phase,
which releases the others, and else waits (spec/08 R175, R176, spec/02 R34). -/
def Obligations.GridBarrier : Prop :=
  ∀ (f : XW) (s : State), Ready (.gbar f) s → barField f < s.launch.gbars → isContGang s.warp.id.gang = false →
    liveThreads (ctxOf s) &&& ~~~(runMask (ctxOf s) ||| waitingAt (ctxOf s) (barField f)) = 0 →
    s.warp.id.seq = s.launch.seq → NothingToRelease s →
    ∃ t, exec (.gbar f) s = .next t ∧ (ctxOf t).npc = (ctxOf s).npc + 1 ∧ t.mem = s.mem ∧ (ctxOf t).g = (ctxOf s).g ∧
      (ctxOf t).k = (ctxOf s).k ∧ (ctxOf t).preds = (ctxOf s).preds ∧ t.gang = s.gang ∧
      (phaseComplete (arrivals s (barField f)) (barField f) = true →
        t.launch = setArrived (arrivals s (barField f)) (barField f) [] ∧ (ctxOf t).wait = .none ∧
        t.warp.state = s.warp.state ∧ t.warps = s.warps.map (releaseWarp s.launch.seq (barField f))) ∧
      (phaseComplete (arrivals s (barField f)) (barField f) = false →
        t.launch = arrivals s (barField f) ∧ (ctxOf t).wait = .gridBarrier (barField f) ∧ t.warp.state = .parked ∧
        t.warps = s.warps)

/-- GOTO, BRC, BRX, YIELD and EXIT end the segment: each running thread has its successor, or has exited (spec/06 R121 to
R124, spec/04 R66). -/
def Claims.Terminators : Prop :=
  ∀ (f : XW) (s : State),
    (Ready (.goto f) s → ∃ t, exec (.goto f) s = .next t ∧ Ended s s t f.dist [] 0 (fun _ => target (ctxOf s) f.t) ∧
      t.warp.yielded = s.warp.yielded ∧ t.warp.lastIssue = t.clock) ∧
    (Ready (.yield f) s → ∃ t, exec (.yield f) s = .next t ∧ Ended s s t f.dist [] 0 (fun _ => target (ctxOf s) f.t) ∧
      t.warp.yielded = true ∧ t.warp.lastIssue = 0) ∧
    (Ready (.brc f) s → Settled s [.p f.pred.toNat] → ∃ t, exec (.brc f) s = .next t ∧
      Ended s s t f.dist [] 0 (fun l =>
        if predOn s f.pred.toNat l != f.neg then target (ctxOf s) f.t else target (ctxOf s) f.f) ∧
      t.warp.yielded = s.warp.yielded ∧ t.warp.lastIssue = t.clock) ∧
    (let u : Use := { reg := xReg f 0, width := 64, last := bitAt f.f 7 }
     Ready (.brx f) s → Readable s (reads [u] s) →
     (∀ l ∈ runners s, wordAddrOk (BitVec.ofNat 64 (source s 64 (xReg f 0) l)) = true) →
     ∃ t, exec (.brx f) s = .next t ∧ Ended s s t f.dist [u] 0 (fun l => BitVec.ofNat 54 (source s 64 (xReg f 0) l)) ∧
      t.warp.yielded = s.warp.yielded ∧ t.warp.lastIssue = t.clock) ∧
    (Ready (.exit f) s → ∃ t, exec (.exit f) s = .next t ∧
      Ended s s t f.dist [] (runMask (ctxOf s)) (fun l => lane (ctxOf s).pcs l) ∧
      t.warp.yielded = s.warp.yielded ∧ t.warp.lastIssue = t.clock)

/-- CALL with a call area that is there pushes the return address and the meeting register of every running thread and goes to its
target; RET pops a level and goes back (spec/06 R125, R126); no word they read lies in a poisoned line (spec/22 R355). -/
def Claims.CallsAndReturns : Prop :=
  ∀ (f : XW) (s : State), (ctxOf s).csp ≠ 0 →
    (let csp := (ctxOf s).csp
     (Ready (.call f) s → firstUnmapped s (areaVas s csp (runMask (ctxOf s)) 0) = none →
      (∀ l ∈ runners s, areaLost s (depthVa csp l) = false ∧ depthOf s csp l < 31) →
      ∃ t, exec (.call f) s = .next t ∧
        Ended ((runners s).foldl (pushLevel (ctxOf s) csp (target (ctxOf s) f.f)) s) s t f.dist [] 0
          (fun _ => target (ctxOf s) f.t)) ∧
     (Ready (.ret f) s → firstUnmapped s (areaVas s csp (runMask (ctxOf s)) 1) = none →
      (∀ l ∈ runners s, areaLost s (depthVa csp l) = false ∧ 0 < depthOf s csp l ∧
        areaLost s (raddrVa csp (depthOf s csp l - 1) l) = false ∧ areaLost s (raddrVa csp (depthOf s csp l - 1) l + 8) = false) →
      ∃ t, exec (.ret f) s = .next t ∧
        Ended ((runners s).foldl (fun st l => areaWrite (depthVa csp l) 4 (depthOf st csp l - 1) st)
            (modCtx s (popMeet s csp (runMask (ctxOf s))))) s t f.dist [] 0
          (fun l => (areaWord s (raddrVa csp (depthOf s csp l - 1) l)).setWidth 54)))

/-- A CALL at level 31 raises CALL_DEPTH, and a RET at level 0 CALL_EMPTY, in every running thread (spec/06 R126). -/
def Claims.CallLimits : Prop :=
  ∀ (f : XW) (s : State), (ctxOf s).csp ≠ 0 → firstUnmapped s [(ctxOf s).csp] = none →
    (∀ l ∈ runners s, areaLost s (depthVa (ctxOf s).csp l) = false) →
    (Ready (.call f) s → (∃ l ∈ runners s, depthOf s (ctxOf s).csp l = 31) →
      exec (.call f) s = .next (wordCause (tick f.dist s) (.call f) (runMask (ctxOf s))
        { cause := .callDepth, lanes := runMask (ctxOf s), addr := 0, info := 0 })) ∧
    (Ready (.ret f) s → (∃ l ∈ runners s, depthOf s (ctxOf s).csp l = 0) →
      exec (.ret f) s = .next (wordCause (tick f.dist s) (.ret f) (runMask (ctxOf s))
        { cause := .callEmpty, lanes := runMask (ctxOf s), addr := 0, info := 0 }))

/-- MEET sets the meeting register of the running threads; PB samples its predicate and sets which threads run its block; NOP has
no effect (spec/06 R127, R128, spec/04 R76, R77). -/
def Claims.MeetBlockAndNop : Prop :=
  ∀ f : XW,
    Acts (.meet f) f.dist [] (fun _ => True) (fun s => modCtx s fun c =>
      { c with mv := c.mv ||| runMask c,
               meet := lanesOf fun l => if bitAt (runMask c) l then target c f.t else lane c.meet l }) ∧
    (∀ s, Ready (.pb f) s → Settled s [.p f.pred.toNat] → prefixBad s (fld f.f.toNat 15 12) = false →
      ∃ t, exec (.pb f) s = .next t ∧ OnlyRegisters s t ∧ (ctxOf t).npc = (ctxOf s).npc + 1 ∧ (ctxOf t).g = (ctxOf s).g ∧
        (ctxOf t).k = (ctxOf s).k ∧ (ctxOf t).preds = (ctxOf s).preds ∧ (ctxOf t).blocks.length = fld f.f.toNat 15 12 ∧
        ∀ j < fld f.f.toNat 15 12, ∀ l < 32, bitAt ((ctxOf t).blocks.getD j 0) l =
          ((predOn s f.pred.toNat l != f.neg) == bitAt f.f (16 + j))) ∧
    (∀ paired, Acts (.nop f paired) f.dist [] (fun _ => True) id)

/-- CONT stages one record a running thread and goes on; CONTX does so and its threads exit (spec/06 R129, spec/02 R35, R36). -/
def Obligations.Continuations : Prop :=
  ∀ (f : XW) (s : State), Readable s (reads (contUses f) s) → RoomForRecords s f →
    (Ready (.cont f) s → ∃ t, exec (.cont f) s = .next t ∧ Moved (emitted s f) s t f.dist (contUses f)) ∧
    (Ready (.contx f) s → ∃ t, exec (.contx f) s = .next t ∧
      Ended (emitted s f) s t f.dist (contUses f) (runMask (ctxOf s)) (fun l => lane (ctxOf s).pcs l)) ∧
    ((Ready (.cont f) s ∨ Ready (.contx f) s) →
      (emitted s f).launch.staged.take s.launch.staged.length = s.launch.staged ∧
      ((emitted s f).launch.staged.drop s.launch.staged.length).map (fun r => (r.entry, r.tag, r.args)) = recordsOf s f)

/-! ### Exceptions -/

/-- A word with a decode cause, outside trap mode, in a region with a handler and a free trap record, takes the exception and has
no other effect: the frame, the saved registers, the entry (spec/04 R85, spec/10 R193 to R195). Where the page of the warp's own record
is not mapped, the warp parks for it first, and nothing is entered (spec/05 R98). -/
def Claims.DecodeCauseTaken : Prop :=
  ∀ (i : Instr) (s : State) (c : Cause) (idx : Nat), (encode i).isSome → runMask (ctxOf s) ≠ 0 →
    decodeCause (ctxOf s).seg.raiseA (ctxOf s).seg.raiseB (trapMode s) i = some c → trapMode s = false →
    s.launch.eff.trapEntry ≠ 0 → freeRecord s = some idx →
    (firstUnmapped s [(ctxOf s).ctxp] = none →
      ∃ t, exec i s = .next t ∧
        Entered s t idx 0 (ctxOf s).npc (wordOf i) (runMask (ctxOf s))
          { cause := c, lanes := runMask (ctxOf s), addr := 0, info := 0 } (ctxOf s).npc) ∧
    (∀ va, firstUnmapped s [(ctxOf s).ctxp] = some va →
      ∃ t, exec i s = .next t ∧ t.warp.trap = none ∧ t.warp.state = .parked ∧ (ctxOf t).wait = .contextPage va ∧
        (ctxOf t).npc = (ctxOf s).npc ∧ (ctxOf t).g = (ctxOf s).g ∧ (ctxOf t).k = (ctxOf s).k ∧ t.mem = s.mem ∧ t.cp = s.cp)

/-- TRAP n takes SOFTWARE_n: the frame holds the word's address, and the group's PCs name the next word (spec/06 R128, spec/10
R195). -/
def Claims.SoftwareTrap : Prop :=
  ∀ (f : XW) (s : State) (idx : Nat), Ready (.trap f) s → trapMode s = false → s.launch.eff.trapEntry ≠ 0 →
    freeRecord s = some idx → firstUnmapped s [(ctxOf s).ctxp] = none →
    ∃ t, exec (.trap f) s = .next t ∧
      Entered s t idx 0 (ctxOf s).npc (wordOf (.trap f)) (runMask (ctxOf s))
        { cause := .software (f.f.setWidth 4), lanes := runMask (ctxOf s), addr := 0, info := 0 } ((ctxOf s).npc + 1)

/-- A word's handled cause in trap mode, or in a region without a handler, is DOUBLE_FAULT with the cause in INFO; with no trap
record free it is TRAP_POOL_EMPTY: both go to the command processor and the warp stops (spec/10 R197, R198). So it is of a decode cause,
of TRAP's, of NONUNIFORM_OPERAND, of what the checks of an access raise, and of any other cause that a word raises. -/
def Obligations.DoubleFaults : Prop :=
  ∀ s : State,
    (let ends (u : State) (out : Outcome State Fault Refusal) (c : Cause) : Prop :=
       ((trapMode s = true ∨ s.launch.eff.trapEntry = 0) →
         ∃ t, out = .next t ∧ ToCp u t .doubleFault (BitVec.ofNat 64 (causeCode c))) ∧
       (trapMode s = false → s.launch.eff.trapEntry ≠ 0 → freeRecord s = none → ∃ t, out = .next t ∧ ToCp u t .trapPoolEmpty 0)
     let handled (c : Cause) : Prop := (causeRoute c = .handler ∨ causeRoute c = .serviceCore) ∧ c ≠ .contextPage
     (∀ (i : Instr) (c : Cause), (encode i).isSome → runMask (ctxOf s) ≠ 0 →
       decodeCause (ctxOf s).seg.raiseA (ctxOf s).seg.raiseB (trapMode s) i = some c → ends s (exec i s) c) ∧
     (∀ f : XW, Ready (.trap f) s →
       ends (modCtx s fun c => { c with npc := c.npc + 1, blocks := c.blocks.tail, wait := .none, met := false })
         (exec (.trap f) s) (.software (f.f.setWidth 4))) ∧
     (∀ f : A3, Ready (.iadd f) s → Readable s (reads [useA f (tyWidth f.ty), useB f (tyWidth f.ty)] s) → isK f.d = true →
       (let v := fun l => intLane f.ty f.sat (fun x y _ => x + y) (srcA f s l) (srcB f s l) 0
        (∃ l ∈ runners s, v l ≠ v (lowLane (runMask (ctxOf s)))) → ends s (exec (.iadd f) s) .nonuniformOperand)) ∧
     (∀ (f : MW) (r : Raised), Ready (.ld f) s → Readable s (reads [useBase f] s) →
       decideChecks (runMask (ctxOf s)) (laneChecks s f false .read) = .raise r → handled r.cause → ends s (exec (.ld f) s) r.cause) ∧
     ∀ (i : Instr) (run : Mask) (r : Raised), handled r.cause → ends s (.next (wordCause s i run r)) r.cause)

/-- Outside trap mode a word of class S, DEACT and a word on the context space raise PRIVILEGED, whatever else is wrong with them
(spec/04 R85 row 1). -/
def Obligations.PrivilegedWords : Prop :=
  ∀ (i : Instr) (s : State), isPrivileged i = true → trapMode s = false → runMask (ctxOf s) ≠ 0 →
    ∃ d, exec i s = .next (wordCause (tick d s) i (runMask (ctxOf s))
      { cause := .privileged, lanes := runMask (ctxOf s), addr := 0, info := 0 })

/-- A word that no thread runs has no effect: the warp goes on to the next word, and no cause is raised (spec/04 R77). -/
def Obligations.NoThreadNoEffect : Prop :=
  ∀ (i : Instr) (s : State), (encode i).isSome → runMask (ctxOf s) = 0 →
    ∃ t d, exec i s = .next t ∧ Moved s s t d []

/-- TRET by a handler that stored no LIVE word and no view leaves trap mode: the interrupted context goes on with its registers as
they stand, its frame no longer valid, the warp active and memory as it was; after a DEACT the warp is dormant, it holds lines only while
it must, and what is stored is its record's: the lines without a write in flight and those spilled in part, then the header (spec/10 R208,
R209, spec/05 R93, R96, R101; that they are a core-scope store is log 8). -/
def Claims.TrapReturn : Prop :=
  ∀ (f : SW) (s : State) (x : TrapInfo), Ready (.tret f) s → s.warp.trap = some x → (ctxOf s).ops.any holdsTret = false →
    x.live0 = none → x.live1 = none → x.viewsWritten = [] →
    let goes := { x.intr with ops := x.intr.ops ++ (ctxOf s).ops.map orphan, vrets := x.intr.vrets + (ctxOf s).vrets }
    ∃ t, exec (.tret f) s = .next t ∧ t.warp.trap = none ∧ t.warp.state = (if x.deact then .dormant else .active) ∧
      ctxOf t = { x.intr with
        g := (if x.deact then writeBack goes else goes).g,
        ops := x.intr.ops ++ (ctxOf s).ops.map orphan, vrets := x.intr.vrets + (ctxOf s).vrets,
        frame := { x.intr.frame with valid := false }, haz := (ctxOf t).haz, inSeg := (ctxOf t).inSeg, midSeg := false,
        npc := (ctxOf t).npc, blocks := (ctxOf t).blocks, wait := .none, met := false } ∧
      (x.intr.midSeg = false → (ctxOf t).inSeg = false) ∧
      ((ctxOf t).inSeg = true → ∀ l ∈ lanesIn (groupMask x.intr), lane x.intr.pcs l = (ctxOf t).npc) ∧
      (x.deact = false → t.mem = s.mem ∧ t.warp.res = true ∧ t.warp.leaving = false) ∧
      (x.deact = true → t.warp.leaving = t.warp.res ∧ t.warp.res = mustStay (writeBack goes) ∧
        t.mem = (saveHeader t.warp (plainTrap (ctxOf t))
          (saveLines t.warp (plainTrap (ctxOf t)) (writtenLines goes) s)).mem ∧
        t.mem = { s.mem with l1 := t.mem.l1 }) ∧
      t.engines = (resumeMatrix s.warp.id x.deact s).engines ∧
      t.gang = s.gang ∧ t.launch = s.launch ∧ t.warps = s.warps ∧ t.cp = s.cp ∧ t.fabric = s.fabric

/-- NOP has no effect and serves only to carry a distance (spec/06 R128). -/
def Claims.NopWords : Prop := ∀ (f : XW) (paired : Bool), Acts (.nop f paired) f.dist [] (fun _ => True) id

/-! ### Words of trap mode -/

/-- CTXLD, CTXST, CSRR, CSRW and DEACT act on the interrupted context only, and on its record in memory (spec/10 R205, R206, R209,
spec/05 R93). -/
def Obligations.InterruptedContext : Prop :=
  ∀ f : SW,
    Starts (.ctxld f) f.dist [] f.hi (selWidth f.mid.toNat) 0 (fun s => CopyReady s f.mid.toNat) id
      (fun s => .result (lanesOf fun l => intrValue (intrOf s) f.mid.toNat l) (lanesOf fun _ => 0)) ∧
    (f.mid.toNat < 96 →
      Acts (.ctxst f) f.dist [useS f.hi 32] (fun s => CopyReady s f.mid.toNat ∧ RoomFor s [useS f.hi 32] 1)
        (fun s => modIntr s (storeG f.mid.toNat (runMask (ctxOf s)) fun l => BitVec.ofNat 32 (source s 32 f.hi l)))) ∧
    (96 ≤ f.mid.toNat →
      Acts (.ctxst f) f.dist [useS f.hi 64] (fun s => CopyReady s f.mid.toNat ∧ SameSource s 64 f.hi)
        (fun s => saveIntr (0x100 + (f.mid.toNat - 96)) 1
          (modIntr s fun c => setKReg c (f.mid.toNat - 96) (BitVec.ofNat 64 (low s 64 f.hi))))) ∧
    ComputesReg (.csrr f) f.dist [] f.hi 64 false (fun s _ =>
      s.warp.trap.elim 0 fun x => (csrValue s x f.csr.toNat f.lane.toNat).toNat) ∧
    Acts (.csrw f) f.dist [useS f.mid 64] (fun s => SameSource s 64 f.mid)
      (fun s => saveIntr 0x47 0x1B (modIntr s (csrWrite f.csr.toNat f.lane.toNat (BitVec.ofNat 64 (low s 64 f.mid))))) ∧
    (∀ g : XW,
      Acts (.deact g) g.dist [] (fun s => (s.warp.trap.elim false (·.deact)) = true) id ∧
      Acts (.deact g) g.dist []
        (fun s => (s.warp.trap.elim true (·.deact)) = false ∧ firstUnmapped s (recordPages (intrOf s).ctxp) = none)
        (fun s => s.warp.trap.elim s fun x => deactTrap x s))

/-- TLBI drops translations, MPRGW sets MROW, PBIND pins a binding and gives its pointer or a code, PUNBIND ends a binding once no
access through its slot and no write of its object is under way, and waits until then, PEVICT starts an eviction, KEYSET a key's
installation (spec/10 R207, spec/13 R220, R223, R224, R233, R234, spec/18 R295, spec/20 R330). -/
def Obligations.SystemServices : Prop :=
  ∀ f : SW,
    (let va := fun s => BitVec.ofNat 64 (low s 64 f.mid)
     let name := fun s => low s 128 f.mid
     Acts (.tlbi f) f.dist (if f.lane == 1 then [] else [useS f.mid 64])
       (fun s => (f.lane == 1 ∨ SameSource s 64 f.mid) ∧
         ∀ e ∈ s.mem.tlb, tlbiDrops s (f.lane == 1) (va s) e = true → entryBusy s e = false)
       (fun s => dropTlb (tlbiDrops s (f.lane == 1) (va s)) (clearRpl s)) ∧
     Acts (.mprgw f) f.dist [useS f.mid 64] (fun s => SameSource s 64 f.mid ∧ matrixAtPoint s s.warp.id = true)
       (fun s => saveIntr 0x61 1 (modIntr (clearRpl s) fun c => { c with mrow := (lo32 (va s)).setWidth 64 })) ∧
     (∀ slot ptr, Starts (.pbind f) f.dist [useS f.mid 128] f.hi 64 0
       (fun s => SameSource s 128 f.mid ∧ nameBad (name s) = false ∧ pbindResolve s (name s) = .bound slot ptr ∧
         missingPage (pinSlot s slot) slot = none)
       (fun s => pinSlot (dropFailures s) slot) (fun _ => .result (lanesOf fun _ => ptr) (lanesOf fun _ => 0))) ∧
     (∀ c, Starts (.pbind f) f.dist [useS f.mid 128] f.hi 64 0
       (fun s => SameSource s 128 f.mid ∧ pbindResolve s (name s) = .code c)
       dropFailures (fun _ => .result (lanesOf fun _ => causeCode c) (lanesOf fun _ => 0))) ∧
     Acts (.punbind f) f.dist [useS f.mid 64] (fun s => SameSource s 64 f.mid ∧ pointsNow s (va s) = false) clearRpl ∧
     Holds (.punbind f) f.dist [useS f.mid 64]
       (fun s => SameSource s 64 f.mid ∧ pointsNow s (va s) = true ∧
         slotBusy s (rootOf_ s) s.launch.eff.bindTable (ptrSlot (va s)) = true)
       (fun s => .quiet (rootOf_ s)) false ∧
     Acts (.punbind f) f.dist [useS f.mid 64]
       (fun s => SameSource s 64 f.mid ∧ pointsNow s (va s) = true ∧
         slotBusy s (rootOf_ s) s.launch.eff.bindTable (ptrSlot (va s)) = false ∧
         evictable s (rootOf_ s) s.launch.eff.bindTable (ptrSlot (va s)) = true)
       (fun s => unbindSlot (rootOf_ s) s.launch.eff.bindTable (ptrSlot (va s)) (clearRpl s)) ∧
     Starts (.pevict f) f.dist [useS f.mid 64] 120 32 0 (fun s => SameSource s 64 f.mid) id
       (fun s => if pointsNow s (va s) then .evict (rootOf_ s) s.launch.eff.bindTable (ptrSlot (va s)) (ptrGen (va s))
                 else .result noVals (lanesOf fun _ => 0)) ∧
     Starts (.keyset f) f.dist (keyUses f) 120 32 0 (fun s => KeyOk s f) id
       (fun s => .keySet (fld (low s 32 f.hi) 13 12) (fld (low s 32 f.hi) 11 0) ((low s 32 f.hi).testBit 31) (keyOf s f)))

/-! ### Pointers, rings, views, engines -/

/-- LDP, LDN, PEQ, PADD, PNAME and PRES start operations whose results are known at the word; STP and STN store names (spec/13 R227
to R232). -/
def Claims.PointerWords : Prop :=
  ∀ f : MW,
    Starts (.ldp f) f.dist [useBase f] f.data 64 1
      (fun s => NamesReady s f ∧ ∀ l ∈ runners s, ∃ v,
        resolveName (namesRead s f).2 (addressOf s f false 16 l) (lane (namesRead s f).1.vals l) = .val v)
      (fun s => dropFailures (namesRead s f).2)
      (fun s => .result
        (lanesOf fun l => (resolveName (namesRead s f).2 (addressOf s f false 16 l) (lane (namesRead s f).1.vals l)).get)
        (lanesOf fun _ => 0)) ∧
    Starts (.ldn f) f.dist [useBase f] f.data 128 1
      (fun s => NamesReady s f ∧ ∀ l ∈ runners s, nameBad (lane (namesRead s f).1.vals l) = false)
      (fun s => (namesRead s f).2) (fun s => .result (namesRead s f).1.vals (lanesOf fun _ => 0)) ∧
    StoresNames (.stp f) f 64 (fun s l => pointerName s (BitVec.ofNat 64 (source s 64 f.data l))) ∧
    StoresNames (.stn f) f 128 (fun s l =>
      if nameBad (source s 128 f.data l) then .bad 0 .nameMalformed 0 (nameHigh (source s 128 f.data l))
      else .val (source s 128 f.data l)) ∧
    PointsTo (.padd f) f [useBase f, useX f 64] f.data 64 (fun s l =>
      paddLane s (BitVec.ofNat 64 (source s 64 f.base l)) (BitVec.ofNat 64 (source s 64 f.x l)) (sext 18 f.off.toNat)) ∧
    PointsTo (.pname f) f [useBase f] f.data 128 (fun s l => pointerName s (BitVec.ofNat 64 (source s 64 f.base l))) ∧
    Starts (.pres f) f.dist [{ reg := f.base, width := 128, last := f.lb }] f.data 64 1
      (fun s => ∀ l ∈ runners s, ∃ v, resolveName s 0 (source s 128 f.base l) = .val v) dropFailures
      (fun s => .result (lanesOf fun l => (resolveName s 0 (source s 128 f.base l)).get) (lanesOf fun _ => 0))

/-- PEQ compares two short pointers by object and offset, two plain values as numbers; its predicate lands later (spec/13 R231). -/
def Claims.PointerEquality : Prop :=
  ∀ (f : MW) (s : State),
    bitAt f.off 0 = false → bitAt f.off 1 = false →
    (let us := [useBase f, useX f 64]
     let key := fun (r : BitVec 7) (l : Nat) =>
       let v : W64 := BitVec.ofNat 64 (source s 64 r l)
       if isAperture v then
         some (objectKey (myEntry s (ptrSlot v)).home (myEntry s (ptrSlot v)).index (ptrOff v))
       else some v.toNat
     let p := f.data.toNat % 8
     Ready (.peq f) s → Readable s (reads us s) → (ctxOf s).ol < 65535 →
     (∀ l ∈ runners s, ∀ r ∈ [f.base, f.x], isAperture (BitVec.ofNat 64 (source s 64 r l)) = true →
       pointsNow s (BitVec.ofNat 64 (source s 64 r l)) = true ∧
         myEntryLost s (ptrSlot (BitVec.ofNat 64 (source s 64 r l))) = false) →
     ∃ t, exec (.peq f) s = .next t ∧ ∃ vals,
       Launched s s t f.dist (reads us s) (opOf s (.peq f) 1
         (if p < 7 then [{ reg := .p p, count := 1, lanes := runMask (ctxOf s), part := 0 }] else [])
         (.result vals (lanesOf fun _ => 0))) ∧
       ∀ l ∈ runners s, lane vals l = if key f.base l = key f.x l then 1 else 0)

/-- RGNEXT and RGREL on enabled rings of the region and the die complete: RGNEXT with an operation that claims the next entry of each
lane's ring, RGREL with the release of the claimed entries its handles name (spec/20 R329). RGNEXT's claims are made as its operation
completes (spec/21 R335): it then lands what the fold of the claims over its running lanes, in ascending order, gives, each lane the
answer of its ring as the lanes before have left it: the empty answer, or the handle of the next entry, which is then claimed. In a ring
whose unclaimed entries lie one after the other, no two lanes are handed one entry. -/
def Obligations.RingWords : Prop :=
  ∀ (f : MW) (s : State),
    (let id := fun l => source s 32 f.base l
     let usable := fun l => id l < 1024 ∧ (ringAt s (id l)).region = s.launch.region ∧ id l / 64 = myDie s ∧ (ringAt s (id l)).en = true
     let handle := fun l => source s 64 f.data l
     let slot := fun l => handle l % 2 ^ 18
     (Ready (.rgnext f) s → Readable s (reads [{ reg := f.base, width := 32, last := f.lb }] s) →
      RoomFor s [{ reg := f.base, width := 32, last := f.lb }] (dstLines f.data 64) →
      (ctxOf s).ol < 65535 → (∀ l ∈ runners s, usable l) →
      ∃ t, exec (.rgnext f) s = .next t ∧
        Launched s s t f.dist (reads [{ reg := f.base, width := 32, last := f.lb }] s)
          (opOf s (.rgnext f) 1 (laterDst f.data 64 (runMask (ctxOf s))) (.ringClaim (lanesOf fun l => id l % 1024)))) ∧
     (Ready (.rgrel f) s →
      Readable s (reads [{ reg := f.base, width := 32, last := f.lb }, { reg := f.data, width := 64, last := f.ld }] s) →
      (ctxOf s).os < 65535 →
      (∀ l ∈ runners s, usable l ∧ (slot l, false) ∈ (ringAt s (id l)).claimed ∧
        entrySlots (ringAt s (id l)) (slot l) = handle l / 2 ^ 18) →
      ∃ t, exec (.rgrel f) s = .next t ∧
        Launched s s t f.dist (reads [{ reg := f.base, width := 32, last := f.lb }, { reg := f.data, width := 64, last := f.ld }] s)
          (opOf s (.rgrel f) 2 [] (.ringRelease ((runners s).map fun l => (id l, slot l)))))) ∧
  ∀ (ids : Nat → Nat) (core l : Nat) (s : State),
    (let r := ringAt s (ids l)
     (r.claim = r.written → claimLane core (ids l) s = (2 ^ 63, s)) ∧
     (r.claim ≠ r.written →
       (let n := entrySlots r (r.claim.toNat % r.slots)
        (claimLane core (ids l) s).1 = n * 2 ^ 18 + r.claim.toNat % r.slots ∧
        ringAt (claimLane core (ids l) s).2 (ids l) =
          { r with claim := r.claim + BitVec.ofNat 64 n, claimed := r.claimed ++ [(r.claim.toNat % r.slots, false)] } ∧
        ∀ other, other ≠ ids l → ringAt (claimLane core (ids l) s).2 other = ringAt s other))) ∧
    (let r := claimLanes core ids
     (∀ (o : Op) (rings : Lanes Nat), o ∈ (ctxOf s).ops → ((warpOps s.warp).map (·.id)).Nodup → o.kind = .ringClaim rings →
       s.mgmt.saved.contains (dieOfCore s.warp.core) = false →
       (let claimed := claimLanes s.warp.core (lane rings) (lanesIn o.run) (noVals, s)
        exec (.operationComplete s.warp.id o.id) s = exec (.operationComplete s.warp.id o.id)
          (modOp claimed.2 s.warp.id o.id fun x => { x with kind := .result claimed.1 (lanesOf fun _ => 0) }))) ∧
     (∀ run : Mask, (lanesIn run).Pairwise (· < ·) ∧ ∀ before m after, lanesIn run = before ++ m :: after →
       lane (r (lanesIn run) (noVals, s)).1 m = (claimLane core (ids m) (r before (noVals, s)).2).1) ∧
     ∀ (run : Mask) (sizes : List Nat) (a b : Nat), a ∈ lanesIn run → b ∈ lanesIn run → a ≠ b → ids a = ids b →
       Unclaimed (ringAt s (ids a)) sizes →
       (let v := (r (lanesIn run) (noVals, s)).1
        lane v a ≠ 2 ^ 63 → lane v b ≠ 2 ^ 63 → lane v a % 2 ^ 18 ≠ lane v b % 2 ^ 18))

/-- VDEF defines a view register from the descriptor in memory, VSET replaces one field of it, VGET reads one, VRET makes it
undefined and starts its release, VMEET tells whether two views can meet (spec/15 R246 to R249, R251, R252). -/
def Claims.ViewWords : Prop :=
  ∀ f : EW,
    (∀ k mode, Acts (.vdef f) f.dist [useE f.r1 64] (fun s => DescriptorOk s f k mode)
      (fun s => defineView (descriptorRead s f k).2.2 f.va.toNat ((viewOf (descriptorRead s f k).1).setState 0))) ∧
    (let w := if f.imm = 0 then 64 else 32
     ∀ v1, Acts (.vset f) f.dist [useE f.r1 w]
       (fun s => Whole s ∧ (viewAt (ctxOf s) f.va.toNat).defined = true ∧ SameSource s w f.r1 ∧
         setField (viewAt (ctxOf s) f.va.toNat) f.imm.toNat (BitVec.ofNat 64 (low s w f.r1)) = some v1 ∧
         viewCheck s (v1.setState 0) = none)
       (fun s => updateView s f.va.toNat v1)) ∧
    ComputesIf (.vget f) f.dist (fun s => Whole s ∧ (viewAt (ctxOf s) f.va.toNat).defined = true) (reads [])
      (fun s => [{ d := f.r1, w := if f.imm = 0 then 64 else 32, signed := decide (5 ≤ f.imm.toNat) && decide (f.imm.toNat ≤ 8),
                   v := fun _ => getField (viewAt (ctxOf s) f.va.toNat) f.imm.toNat }]) (fun _ => []) ∧
    Starts (.vret f) f.dist [] 120 32 0 (fun s => Whole s ∧ (viewAt (ctxOf s) f.va.toNat).defined = true)
      (fun s =>
        let v := viewAt (ctxOf s) f.va.toNat
        sweepDeckle s.warp.core (unnameView s.warp.id s.warp.core v (modCtx s fun c =>
          { setView c f.va.toNat (v.set 1 (setBit v.ctl 47 false)) with vrets := c.vrets + 1 })))
      (fun s => .viewRetire f.va.toNat (viewDef (ctxOf s) f.va.toNat) (viewAt (ctxOf s) f.va.toNat).scope none) ∧
    ComputesIf (.vmeet f) f.dist (fun s => Whole s ∧ (viewAt (ctxOf s) f.va.toNat).defined = true ∧
        (viewAt (ctxOf s) f.vb.toNat).defined = true) (reads []) (fun _ => [])
      (fun s => [(f.r1.toNat % 8, fun _ => canMeet (viewAt (ctxOf s) f.va.toNat) (viewAt (ctxOf s) f.vb.toNat))])

/-- VLD and VST start the accesses of the lanes that name an element; a skipped lane's part of the destination is not written
(spec/15 R250). -/
def Claims.ViewAccess : Prop :=
  ∀ (f : EW) (s : State),
    (let v := viewAt (ctxOf s) f.va.toNat
     let m := elementLanes s f
     (Ready (.vld f) s → Readable s (reads (viewUses f v false) s) → ElementsOk s f false .read →
      RoomFor s (viewUses f v false) (dstLines f.r1 (elementWidth v)) → (ctxOf s).ol < 65535 →
      ∃ t, exec (.vld f) s = .next t ∧
        Launched s s t f.dist (reads (viewUses f v false) s) (opOf s (.vld f) 1 (laterDst f.r1 (elementWidth v) m)
          (.memory .load v.esize v.scope
            ((lanesIn m).map fun l =>
              accOf (elementChk s f v .read l) l (if v.isT1 then v.digit (indexOf s f v l) + 1 else 0) 0) noVals
            (some (capture (ctxOf s) f.va.toNat false))))) ∧
     (Ready (.vst f) s → Readable s (reads (viewUses f v true) s) → ElementsOk s f true .write → (ctxOf s).os < 65535 →
      ∃ t, exec (.vst f) s = .next t ∧
        Launched s s t f.dist (reads (viewUses f v true) s) (opOf s (.vst f) 2 []
          (.memory .store v.esize v.scope
            ((lanesIn m).map fun l =>
              accOf (elementChk s f v .write l) l (source s (elementWidth v) f.r1 l % 2 ^ (8 * v.esize)) 0) noVals
            (some (capture (ctxOf s) f.va.toNat true))))))

/-- CPV, CPR, GATH and CPL number an operation on their timeline counter, raise its flag and start it with its views, its barrier
and its chunks (spec/16 R256 to R263). -/
def Obligations.CopyWords : Prop :=
  (∀ f : EW,
    Acts (.cpv f) f.dist [] (fun s => Whole s ∧ ViewsOk s [(f.va.toNat, 2), (f.vb.toNat, 1)] ∧
        copyRow (viewAt (ctxOf s) f.va.toNat) (viewAt (ctxOf s) f.vb.toNat) none = none ∧
        BarrierReady s f.imm.toNat (bitAt f.imm 4))
      (fun s => copyStarted s (.cpv f) f 1 .copy [capture (ctxOf s) f.va.toNat true, capture (ctxOf s) f.vb.toNat false]) ∧
    (let ty := (slice f.imm 5 2).toNat
     Acts (.cpr f) f.dist [] (fun s => Whole s ∧ ViewsOk s [(f.va.toNat, 3), (f.vb.toNat, 1)] ∧
        copyRow (viewAt (ctxOf s) f.va.toNat) (viewAt (ctxOf s) f.vb.toNat) (some ty) = none ∧
        BarrierReady s f.imm.toNat (bitAt f.imm 4))
      (fun s => copyStarted s (.cpr f) f 1 (.reduce f.variant.toNat ty)
        [capture (ctxOf s) f.va.toNat true, capture (ctxOf s) f.vb.toNat false])) ∧
    Acts (.gath f) f.dist [] (fun s => Whole s ∧ ViewsOk s [(f.va.toNat, 2), (f.vb.toNat, 1), (f.vc.toNat, 1)] ∧
        gatherBad (viewAt (ctxOf s) f.va.toNat) (viewAt (ctxOf s) f.vb.toNat) (viewAt (ctxOf s) f.vc.toNat) = false ∧
        BarrierReady s f.imm.toNat (bitAt f.imm 4))
      (fun s => copyStarted s (.gath f) f 2 .gather [capture (ctxOf s) f.va.toNat true, capture (ctxOf s) f.vb.toNat false,
        capture (ctxOf s) f.vc.toNat false])) ∧
  (∀ f : MW,
    (let sp := f.space == 1
     Acts (.cpl f) f.dist [{ reg := f.base, width := 64, last := f.lb }, { reg := f.data, width := if sp then 32 else 64, last := f.ld }]
       (fun s => BarrierReady s f.x.toNat (bitAt f.x 6) ∧ AllOk s fun l =>
         earlier (checkEarly s (sizeBytes f) (copyFrom s f l))
           (if f.space = 1 then checkScratch s (sizeBytes f) (copyTo s f l) else checkEarly s (sizeBytes f) (copyTo s f l)))
       (fun s => startEng s
         { engOf s (.cpl f) 2 (.laneCopy (sizeBytes f) f.scope.toNat sp ((runners s).map fun l => (l, copyFrom s f l, copyTo s f l))) with
           barrier := boundTo f.x.toNat (bitAt f.x 6), chunks := 32 })))

/-- MMT and MMV start a matrix operation of ceil(N / 128) tile rows with MROW at 0; MSTAT reads the matrix status; MCLR clears bits
of it (spec/18 R290 to R297, R303, R304). -/
def Obligations.MatrixWords : Prop :=
  ∀ f : EW,
    Acts (.mmt f) f.dist [] (fun s => MatrixOk s f (2 ^ 20)) (fun s => matrixStarted s (.mmt f) f) ∧
    Acts (.mmv f) f.dist [] (fun s => MatrixOk s f 8) (fun s => matrixStarted s (.mmv f) f) ∧
    ComputesIf (.mstat f) f.dist Whole (reads [])
      (fun s => [{ d := f.r1, w := 64, signed := false, v := fun _ => (ctxOf s).mst.toNat }]) (fun _ => []) ∧
    Acts (.mclr f) f.dist [] Whole (fun s => modCtx s fun c => { c with mst := c.mst &&& ~~~((slice f.imm 0 6).setWidth 64) })

/-- XRED, XGATH and XBCAST read their member table and start an operation of their peer group (spec/20 R321 to R323). -/
def Claims.CollectiveWords : Prop :=
  ∀ f : EW,
    (let d := fun s => viewAt (ctxOf s) f.va.toNat
     let v := fun s => viewAt (ctxOf s) f.vb.toNat
     let two := fun s => [capture (ctxOf s) f.va.toNat true, capture (ctxOf s) f.vb.toNat false]
     let ty := (slice f.imm 5 2).toNat
     Acts (.xred f) f.dist []
       (fun s => CollectiveOk s f [(f.va.toNat, 2), (f.vb.toNat, 1)] 0 (fun _ => reduceCase ty (d s) (v s)))
       (fun s => collStarted s (.xred f) f (.collReduce f.variant.toNat ty) (two s) (ceilDiv (d s).count 64)) ∧
     Acts (.xgath f) f.dist []
       (fun s => CollectiveOk s f [(f.va.toNat, 2), (f.vb.toNat, 1)] 0 (fun size => gatherCase size (d s) (v s)))
       (fun s => collStarted s (.xgath f) f .collGather (two s) (ceilDiv (d s).count 64)) ∧
     Acts (.xbcast f) f.dist []
       (fun s => CollectiveOk s f [(f.va.toNat, 3)] (slice f.imm 0 16).toNat (fun _ => collShape [d s] none))
       (fun s => collStarted s (.xbcast f) f (.collCast (slice f.imm 0 16).toNat) [capture (ctxOf s) f.va.toNat true]
         (ceilDiv (d s).count 64)))

/-- TKACQ raises a hold of the region its address names and starts an acquisition, TKREL starts a release, TKQRY a query whose
result lands later (spec/20 R316 to R318). -/
def Claims.TokenWords : Prop :=
  ∀ (f : EW) (p n : Nat),
    Acts (.tkacq f) f.dist [useE f.r1 64]
      (fun s => TokenAt s f p n ∧ (if f.variant = 1 then (tokenAt s p n).xholds else (tokenAt s p n).sholds) ≠ 2 ^ 24 - 1)
      (fun s => startEng (putToken (raiseHold (f.variant == 1) (tokenAt s p n)) (clearRpl (tokenNoted s f)))
        { engOf s (.tkacq f) 3 (.tokenAcquire p n (f.variant == 1)) with tag := (tokenVa s f).toNat }) ∧
    Acts (.tkrel f) f.dist [useE f.r1 64]
      (fun s => TokenAt s f p n ∧ ¬((tokenAt s p n).sholds = 0 ∧ (tokenAt s p n).xholds = 0))
      (fun s => startEng (clearRpl (tokenNoted s f))
        { engOf s (.tkrel f) 3 (.tokenRelease p n) with waits := pendingStores s.warp }) ∧
    (∀ s, Ready (.tkqry f) s → Readable s (reads [useE f.r1 64] s) → TokenAt s f p n → RoomFor s [useE f.r1 64] (dstLines f.r2 64) →
      ∃ t, exec (.tkqry f) s = .next t ∧
        t.engines = s.engines ++ [{ engOf s (.tkqry f) 3 (.tokenQuery p n) with
          dst := (laterDst f.r2 64 (runMask (ctxOf s))).head? }] ∧
        t.nextOp = s.nextOp + 1 ∧ t.gang = setTc s.gang 3 (issueNumber (tcAt s.gang 3)) ∧ t.fabric = s.fabric ∧
        t.mem.home = s.mem.home ∧ (ctxOf t).k = (ctxOf s).k ∧ (ctxOf t).preds = (ctxOf s).preds ∧
        (ctxOf t).npc = (ctxOf s).npc + 1 ∧
        ∀ n < 96, ∀ l < 32, bitAt (gAt (ctxOf t) n).live l = (bitAt (gAt (ctxOf s) n).live l ||
          (bitAt (runMask (ctxOf s)) l && isG f.r2 && (n == f.r2.toNat || n == f.r2.toNat + 1))))

/-! ### Warps, gangs, cores -/

/-- At a boundary of the issuing warp with a group that may be chosen and whose segment passes its checks, the lowest such group
starts its segment with its header; the registers stay (spec/02 R31, spec/04 R64, R65, R73). -/
def Claims.SegmentStarts : Prop :=
  ∀ (w : WarpId) (s : State), (findWarp s w).isSome →
    (let u := focusOn w s
     let c := releaseMeets (ctxOf u)
     let m := candidates c
     let ps := readyPcs u c m
     let p := choosePc c m ps
     ∀ word, atBoundary s u.warp = true → (ctxOf u).exited ≠ allLanes → energyOk u u.launch.region (myDie u) = true →
       (trapMode u = true ∨ u.warp.held = none ∧ (u.warp.preempt && matrixAtPoint u w) = false) → ps ≠ [] →
       (c.suspended.find? fun x => x.released && x.npc == p) = none → u.warp.badEntry ≠ some p → fetchSegment u p = .word word →
       ∃ t, exec (.segmentBoundary w) s = .next t ∧ t.warp.id = w ∧ (ctxOf t).active = groupAt c m p ∧ (ctxOf t).segh = p ∧
         (ctxOf t).npc = p + 1 ∧ (ctxOf t).seg = headerFields word ∧ (ctxOf t).inSeg = true ∧ (ctxOf t).blocks = [] ∧
         (ctxOf t).wait = .none ∧ (ctxOf t).mv = c.mv ∧ (ctxOf t).g = (ctxOf u).g ∧ (ctxOf t).k = (ctxOf u).k ∧
         (ctxOf t).preds = (ctxOf u).preds ∧ (ctxOf t).pcs = (ctxOf u).pcs ∧ (ctxOf t).exited = (ctxOf u).exited ∧
         t.mem.home = u.mem.home ∧ t.gang = u.gang ∧ t.launch = u.launch)

/-- The choice of a group: one of those offered; the lowest PC, unless some were passed over eight times, and then the lowest of
these (spec/02 R31). -/
def Claims.GroupChoice : Prop :=
  ∀ (c : Ctx) (m : Mask) (ps : List WAddr), ps ≠ [] →
    (let old := fun p => decide (8 ≤ passedOf c (groupAt c m p))
     let p := choosePc c m ps
     p ∈ ps ∧ ((∃ q ∈ ps, old q = true) → old p = true) ∧
       ∀ q ∈ ps, (old q = true ∨ ∀ r ∈ ps, old r = false) → p.toNat ≤ q.toNat)

/-- At a boundary outside trap mode a held cause is taken first, as KIND 2, and with none a pre-emption request, as KIND 3 (spec/10
R199, R203, spec/02 R40); the warp's own record is mapped (spec/05 R98). -/
def Obligations.BoundaryCauses : Prop :=
  ∀ (w : WarpId) (s : State) (idx : Nat), (findWarp s w).isSome →
    (let u := focusOn w s
     atBoundary s u.warp = true → (ctxOf u).exited ≠ allLanes → energyOk u u.launch.region (myDie u) = true →
     trapMode u = false → u.launch.eff.trapEntry ≠ 0 → freeRecord u = some idx → firstUnmapped u [(ctxOf u).ctxp] = none →
     (∀ h, u.warp.held = some h → causeRoute h.cause = .handler →
       ∃ t, exec (.segmentBoundary w) s = .next t ∧ t.warp.held = none ∧
         Entered { u with warp := { u.warp with held := none } } t idx 2 h.fpc h.word h.run
           { cause := h.cause, lanes := h.lanes, addr := h.addr, info := h.info } 0) ∧
     (u.warp.held = none → u.warp.preempt = true → matrixAtPoint u w = true →
       ∃ t, exec (.segmentBoundary w) s = .next t ∧ t.warp.preempt = false ∧
         Entered { u with warp := { u.warp with preempt := false } } t idx 3 0 0 (liveThreads (ctxOf u))
           { cause := .preempt, lanes := liveThreads (ctxOf u), addr := 0, info := 0 } 0))

/-- The group scheduler of a pair chooses a ready warp of the highest priority among its ready warps, one passed over 64 times
before others; it chooses none only when none is ready (spec/05 R103, R104). With none passed over so often, it stays with the warp chosen
last while that is inside its segment; and else takes them in turn: the first in activation slots after the one chosen last of that
priority. A warp that has run YIELD is chosen only when every ready warp of its priority has (spec/06 R122), or it was passed over 64
times. -/
def Obligations.SchedulerChoice : Prop :=
  ∀ (s : State) (core pair : Nat),
    (∀ w, pairChoice s core pair = some w → w ∈ readyWarps s core pair ∧
      ∀ x ∈ readyWarps s core pair, warpPrio s x ≤ warpPrio s w ∧
        (warpPrio s x = warpPrio s w → 64 ≤ x.skip → 64 ≤ w.skip) ∧
        (warpPrio s x = warpPrio s w → w.yielded = true → w.skip < 64 → x.yielded = true)) ∧
    (pairChoice s core pair = none → readyWarps s core pair = []) ∧
    (let r := rivals s core pair
     let stays (x : Warp) : Bool := choseLast s core pair x && x.ctx.inSeg && !x.yielded
     let turn (x : Warp) : Nat :=
       (x.actSlot + 64 - ((AList.find (coreAt s core).lastAt (16 * pair + r.2)).elim 0 (· + 1)) % 64) % 64
     ∀ w, pairChoice s core pair = some w → (∀ x ∈ r.1, x.skip < 64) →
       ((∃ x ∈ r.1, stays x = true) → stays w = true) ∧
       ((∀ x ∈ r.1, stays x = false) → ∀ x ∈ r.1, x.yielded = false → w.yielded = false ∧ turn w ≤ turn x))

/-- CHOOSE makes the chosen warp the issuing one and remembers it with the clock for its pair: its skip count is 0, that of every other
ready warp of its priority one higher, and no other warp's count changes; the YIELDs of the pair's warps have had their effect;
PREEMPT_REQUEST marks its warp (spec/05 R104, spec/06 R122, spec/02 R40). -/
def Claims.ChooseAndPreempt : Prop :=
  ∀ s : State,
    (∀ core pair x, core < s.cores.length → pairChoice s core pair = some x →
      ∃ t, exec (.choose core pair) s = .next t ∧ t.warp.id = x.id ∧ t.warp.skip = 0 ∧ t.warp.yielded = false ∧
        AList.find (coreAt t core).last pair = some { warp := x.id, clock := s.clock } ∧
        (let counted (y : Warp) : Warp := { y with
           yielded := y.yielded && !(decide (y.core = core) && decide (y.pair = pair))
           skip := if y.id = x.id then 0
             else if (rivals s core pair).1.any (fun z => decide (z.id = y.id)) then y.skip + 1 else y.skip }
         t = focusOn x.id { s with warp := counted s.warp, warps := s.warps.map counted, cores := t.cores }) ∧
        (∀ c, c ≠ core → coreAt t c = coreAt s c)) ∧
    (∀ w x, findWarp s w = some x → takesPreempt x = true →
      ∃ t, exec (.preemptRequest w) s = .next t ∧ findWarp t w = some { x with preempt := true } ∧ t.mem = s.mem ∧
        t.gang = s.gang ∧ t.launch = s.launch)

/-- Making another warp the issuing one loses no warp, gang or launch and changes none (spec/02 R28; the model's issuing warp, log
3). -/
def Obligations.FocusKeepsWarps : Prop :=
  ∀ (s : State) (w : WarpId), ((allWarps s).map (·.id)).Nodup → ((s.gang :: s.gangs).map (·.id)).Nodup →
    ((allLaunches s).map (·.seq)).Nodup → 0 < s.warp.id.seq → 0 < s.gang.id.seq → 0 < s.launch.seq → (findWarp s w).isSome →
    (findGang s (gangOf w)).isSome → (launchOf s w.seq).isSome →
    (focusOn w s).warp.id = w ∧ (∀ x, findWarp (focusOn w s) x = findWarp s x) ∧
    (∀ g, findGang (focusOn w s) g = findGang s g) ∧ ∀ n, launchOf (focusOn w s) n = launchOf s n

/-- A parked warp whose wait has ended goes on: by WARP_WAKE, MATRIX_WAIT_RELEASE, LINE_BUDGET_WAKE or CONTINUATION_RESUME, each for
its waits; with its lines it is active, without them dormant, and a record that is current shows it (spec/05 R93, R101, R97, spec/18
R295, spec/02 R36); a warp of a die whose partition is saved does not (spec/02 R43). -/
def Claims.WaitsEnd : Prop :=
  ∀ (w : WarpId) (s : State), (findWarp s w).isSome → dieHalted s (focusOn w s).warp = false →
    (let u := focusOn w s
     let woken (met : Bool) := focusOn s.warp.id (refreshRecord w [] { u with warp := { u.warp with
       state := if u.warp.state = .parked then (if u.warp.res && !u.warp.leaving then .active else .dormant) else u.warp.state,
       ctx := { u.warp.ctx with wait := .none, met := met } } })
     (u.warp.stopped = none → waitOver u = true → exec (.warpWake w) s = .next (woken (waitStays u.warp.ctx.wait))) ∧
     ((ctxOf u).wait = .matrixPrevious → matrixBusy u = false → exec (.matrixWaitRelease w) s = .next (woken false)) ∧
     ((ctxOf u).wait = .lineBudget → lineRoom u 1 = true → exec (.lineBudgetWake w) s = .next (woken false)) ∧
     ((ctxOf u).wait = .contextSlot → (stageRoom u u.launch).isSome → exec (.continuationResume w) s = .next (woken false)))

/-- A register fill returns its line and the word issues again; after 64 clocks without it the warp parks; a line spilled keeps its
values, is written to its record and is out of the register file; a page of the record that is missing is waited for (spec/05 R97,
R98). Nothing of a die whose partition is saved moves (spec/02 R43). -/
def Claims.RegisterFillsAndSpills : Prop :=
  ∀ (w : WarpId) (n : Nat) (s : State), (findWarp s w).isSome → n < 96 → dieHalted s (focusOn w s).warp = false →
    (let u := focusOn w s
     ((ctxOf u).wait = .fill n → u.warp.res = true → u.warp.leaving = false → firstUnmapped u [gVa (ctxOf u) n] = none →
       lineLost u (ctxOf u) n = false → lineRoom u 1 = true →
       ∃ c, exec (.registerFillReturn w n) s = .next (focusOn s.warp.id { u with warp := { u.warp with
           state := if u.warp.state = .parked then .active else u.warp.state, ctx := c } }) ∧
         c = { ctxOf u with g := c.g, wait := .none, met := false } ∧
         ∀ m < 96, gAt c m = if m = n then { gAt (ctxOf u) n with resident := true } else gAt (ctxOf u) m) ∧
     ((ctxOf u).wait = .fill n → u.warp.state = .active →
       ∃ t, exec (.registerFillTimeout w n) s = .next t ∧
         findWarp t w = some { u.warp with state := .parked, parkedAt := s.clock } ∧ t.mem = s.mem) ∧
     (spillable (ctxOf u) n = true → firstUnmapped u [gVa (ctxOf u) n] = none →
       ∃ c, exec (.lineSpill w n) s = .next (focusOn s.warp.id
           { saveLine u.warp (plainTrap (ctxOf u)) n u with warp := { u.warp with ctx := c } }) ∧
         c = { ctxOf u with g := c.g } ∧
         ∀ m < 96, gAt c m = if m = n then { gAt (ctxOf u) n with resident := false } else gAt (ctxOf u) m) ∧
     (∀ va, spillable (ctxOf u) n = true → firstUnmapped u [gVa (ctxOf u) n] = some va → (ctxOf u).wait = .none →
       trapMode u = false → exec (.lineSpill w n) s = .next (focusOn s.warp.id (holdWarp u (.contextPage va)))))

/-- A missing page of a record: a service core makes it present and the warp goes on, or the cause CONTEXT_PAGE with its address goes
to the command processor; CALL_AREA_GRANT gives a warp at a CALL its call area (spec/05 R98, spec/06 R125; that a continuation warp's
comes from the pool is log 63), unless its die's partition is saved (spec/02 R43). -/
def Claims.ContextPages : Prop :=
  ∀ (w : WarpId) (s : State), (findWarp s w).isSome → dieHalted s (focusOn w s).warp = false →
    (let u := focusOn w s
     (∀ va, pageWanted u.warp = some va →
       (firstUnmapped u [va] = none →
         exec (.contextPage w true) s = .next (focusOn s.warp.id { u with warp := pageDone u.warp })) ∧
       (∀ v, firstUnmapped u [va] = some va → freshPage (rootOf_ u) va u = some v →
         exec (.contextPage w true) s = .next (focusOn s.warp.id { v with warp := pageDone v.warp })) ∧
       (firstUnmapped u [va] = some va → freshPage (rootOf_ u) va u = none →
         exec (.contextPage w true) s = .next (focusOn s.warp.id u)) ∧
       exec (.contextPage w false) s = .next (focusOn s.warp.id
         (toCommandProcessor { u with warp := pageDone u.warp } .contextPage va 0 false))) ∧
     ((∀ va, u.warp.evicting = none → (ctxOf u).wait = .contextPage va → pageWanted u.warp = some va ∧ pageDone u.warp = unpark false u.warp)) ∧
     (∀ slot, (ctxOf u).wait = .contextSlot → (ctxOf u).csp = 0 → u.warp.trap = none → atCall u = true →
       slotFree u u.launch slot = true → (takeSlot u u.launch (fromReservation u.launch w)).isSome →
       exec (.callAreaGrant w slot) s = .next (focusOn s.warp.id (clearDepths (slotVa u.launch slot)
         (modCtx { u with warp := unpark false { u.warp with callSlot := some slot } } fun c =>
           { c with csp := slotVa u.launch slot })))))

/-- WARP_ACTIVATE takes the first candidate of its core: an unborn one is born into a context slot, and it is active, with its pair
and its activation slot, ranking as if it had issued then (which free slot, and that rank, are log 54's choice); with no room a victim is
deactivated first, unless one is on its way out (spec/05 R101, R102, spec/02 R30; which warps are no victims, and that such a one is
awaited, is log 14). -/
def Claims.Activation : Prop :=
  ∀ (core slot : Nat) (s : State) (x : Warp) (xs : List Warp), orderedCandidates s core slot = x :: xs →
    (roomFor core x s = true → exec (.warpActivate core slot) s = .next (activate core slot x s)) ∧
    (roomFor core x s = false → victimLeaving s core = true → exec (.warpActivate core slot) s = .next s) ∧
    (∀ v, roomFor core x s = false → victimLeaving s core = false → victimOf s core (warpPrio s x) = some v → roomFor core x (evictWarp v.id s) = true →
      exec (.warpActivate core slot) s = .next (activate core slot x (evictWarp v.id s))) ∧
    (x.id = s.warp.id → x.state = .unborn → ∀ i, birthSlot s s.warp slot = some i →
      (activate core slot x s).warp = { s.warp with
        slot := i, hasSlot := true, fromSlots := [], ctx := { s.warp.ctx with ctxp := slotVa s.launch i },
        state := .active, res := true, pair := freePair s core, actSlot := freeActSlot s core, skip := 0, lastIssue := s.clock })

/-- WARP_RETIRE: a warp whose threads have exited and whose accesses are done retires: its lines and slots are free, it counts as
retired in its launch, and what is stored is the header of the warp's record, as the retired warp stands (spec/05 R93, spec/06 R124,
spec/02 R38, spec/08 R175; that it is a core-scope store is log 8); a die whose partition is saved stands still (spec/02 R43). -/
def Claims.Retirement : Prop :=
  ∀ (w : WarpId) (s : State) (x : Warp), findWarp s w = some x → mayRetire x = true → s.mgmt.saved.contains (dieOfCore x.core) = false →
    exec (.warpRetire w) s = .next (completeLaunch w.seq (withFocus w retireHere s)) ∧
    (retireHere (focusOn w s)).warp.state = .retired ∧ (retireHere (focusOn w s)).warp.res = false ∧
    (retireHere (focusOn w s)).warp.hasSlot = false ∧ (retireHere (focusOn w s)).warp.callSlot = none ∧
    (∀ n < 96, gAt (ctxOf (retireHere (focusOn w s))) n = GReg.dead) ∧
    (let u := focusOn w s
     let gone := { u.warp with
       state := .retired, res := false, leaving := false, evicting := none, hasSlot := false, callSlot := none, preempt := false,
       ctx := { settleHaz (ctxOf u) with g := Vector.replicate 96 GReg.dead, wait := .none, met := false } }
     (retireHere u).mem = (saveHeader gone (plainTrap gone.ctx) u).mem) ∧
    (retireHere (focusOn w s)).mem = { s.mem with l1 := (retireHere (focusOn w s)).mem.l1 } ∧
    (isContGang w.gang = false → w ∈ (retireHere (focusOn w s)).launch.retiredWarps)

/-- GANG_BIRTH adds the next gang of a started launch on a core that grants its allocations, with its warps unborn: their PCs at the
entry, k0 the gang, k1 the launch, every other register as at birth (spec/02 R28 to R30). -/
def Claims.GangBirth : Prop :=
  ∀ (seq core : Nat) (s : State) (l : Launch), launchOf s seq = some l → 0 < seq → l.state = .started → l.handed < l.gangs →
    coreGrants s l core l.spad l.tags = true →
    ∃ t spad, exec (.gangBirth seq core) s = .next t ∧
      t.gangs = s.gangs ++ [{ Gang.zero with
        id := { seq := l.seq, gang := l.handed }, core := core, born := true, spadSize := l.spad, tagSize := l.tags, spad := spad }] ∧
      t.warps = s.warps ++ (List.range l.warps).map (unbornWarp l core l.handed) ∧
      launchOf t seq = some { l with handed := l.handed + 1 } ∧ t.mem = s.mem ∧ t.warp = s.warp ∧
      ∀ i, (unbornWarp l core l.handed i).state = .unborn ∧ (unbornWarp l core l.handed i).id = ⟨l.seq, l.handed, i⟩ ∧
        kAt (unbornWarp l core l.handed i).ctx 0 = BitVec.ofNat 64 l.handed ∧
        kAt (unbornWarp l core l.handed i).ctx 1 = BitVec.ofNat 64 l.seq ∧
        (∀ n, 2 ≤ n → kAt (unbornWarp l core l.handed i).ctx n = 0) ∧
        (∀ n < 96, (gAt (unbornWarp l core l.handed i).ctx n).live = 0) ∧
        ∀ t < 32, lane (unbornWarp l core l.handed i).ctx.pcs t = l.entry.setWidth 54

/-- GANG_RETIRE removes a gang whose warps are retired and whose operations are complete; GANG_SPILL takes a waiting gang of a grid
with barriers off a core that needs its scratchpad, into its spill area, once its core's stores have reached their die; GANG_RESTORE puts
it on a core that grants its allocations, once what its core, and its die if it leaves it, had still to write back can be seen there
(spec/02 R28, R33, spec/05 R107, spec/09 R185, R187; the wait is log 17's). A gang of a die whose partition is saved stays (spec/02 R43). -/
def Claims.GangsLeaveAndReturn : Prop :=
  ∀ (g : GangId) (s : State) (x : Gang), findGang s g = some x → 0 < g.seq → s.mgmt.saved.contains (dieOfCore x.core) = false →
    (gangDone s x = true → ∃ t, exec (.gangRetire g) s = .next t ∧ findGang t g = none ∧
      (∀ y ∈ allWarps t, gangOf y.id ≠ g) ∧ ∀ y ∈ allWarps s, gangOf y.id ≠ g → y ∈ allWarps t) ∧
    (∀ l, launchOf s g.seq = some l → 0 < l.gbars → x.spilled = false → isContGang g.gang = false →
      spadWanted s x.core l.eff.prio g = true →
      (∀ y ∈ gangWarps s g, (y.state = .parked ∧ y.trap = none ∧ y.stopped = none ∧ y.res = false) ∨
        (y.state = .retired ∧ y.res = false)) →
      (let u := flushCore x.core s
       exec (.gangSpill g) s = .next (if l1Sending u x.core then u else spillGang l x u))) ∧
    (∀ l core, launchOf s g.seq = some l → x.spilled = true → coreGrants s l core x.spadSize x.tagSize = true →
      restoreCore x core = true → (x.core = core ∨ roomForGang s g l.region core = true) →
      (∀ y ∈ gangWarps s g, y.res = false) →
      (let u := flushFor x core s
       (storesSeen u x core = false → exec (.gangRestore g core) s = .next u) ∧
       (storesSeen u x core = true → spillLost u l x = false →
         exec (.gangRestore g core) s = .next (moveWarps g core (modGang u g fun y =>
           { y with spilled := false, core := core, spillSlots := [], keepDie := false })))))

/-- CONTINUATION_GATHER makes a warp of released records of one entry: thread t has the tag of record t in g0 and its arguments from
g1 on, and the threads past the records have exited; its gang is the next continuation gang; g0 to g14 are live and no line of it is in the
register file (spec/05 R101), and an entry that is no header of its object is kept to be raised (spec/02 R35). A launch whose staging cannot
complete is killed with reason 8 (spec/02 R36, R37). -/
def Obligations.ContinuationWarps : Prop :=
  ∀ (seq core : Nat) (picks : List Nat) (s : State) (l : Launch), 0 < seq →
    launchOf (publishStaged seq s) seq = some l →
    (l.state = .started → mayGather (publishStaged seq s) l picks = true →
      coreGrants (publishStaged seq s) l core l.spad l.tags = true →
      ∃ t x, exec (.continuationGather seq core picks) s = .next t ∧ t.warps = (publishStaged seq s).warps ++ [x] ∧
        (launchOf t seq).map (·.contCount) = some (l.contCount + 1) ∧
        x.id = ⟨l.seq, 2 ^ 48 + l.contCount, 0⟩ ∧ x.state = .unborn ∧
        (∀ t < 32, bitAt x.ctx.exited t = decide ((pickRecords l picks).length ≤ t)) ∧
        (∀ n < 96, (gAt x.ctx n).resident = false ∧ (gAt x.ctx n).live = (if n < 15 then allLanes else 0)) ∧
        ∀ t r, (pickRecords l picks)[t]? = some r → t < 32 →
          lane (gAt x.ctx 0).val t = r.tag ∧
          (∀ i < 14, lane (gAt x.ctx (i + 1)).val t = r.args.getD i 0) ∧ lane x.ctx.pcs t = (l.codeBase >>> 3).setWidth 54 + r.entry.setWidth 54 ∧
          x.badEntry = if noHeader (publishStaged seq s) l (lane x.ctx.pcs t) then some (lane x.ctx.pcs t) else none) ∧
    (stagingStuck (publishStaged seq s) l = true →
      exec (.continuationStallKill seq) s = .next (killLaunch seq 8 (publishStaged seq s)))

/-- A word of a warp in check mode whose copies differ once issues again and has its effect; whose copies differ again raises
CHECK_MISMATCH to the command processor and has no effect, and counts against its core; an error that is to strike a result as it
returns leaves the word alone; one that reads a register with a double-bit error raises UNCORRECTABLE_MEMORY and has no effect (spec/05
R105, R107, spec/22 R356; that errors are inputs the state lists is the model's, log 12). -/
def Claims.CheckMode : Prop :=
  ∀ (i : Instr) (dist : BitVec 3) (body : Mask → State → Res), (∀ s, exec i s = runWord i dist body s) →
    ∀ s : State, runMask (ctxOf s) ≠ 0 → decodeCause (ctxOf s).seg.raiseA (ctxOf s).seg.raiseB (trapMode s) i = none →
      (∀ us, s.mgmt.storage = .register :: us → ∃ t, exec i s = .next t ∧
        t.warp.stopped = some { cause := .uncorrectableMemory, info := 0, addr := 0, onMemoryWord := false } ∧
        t.cp.queue = s.cp.queue ++ [(s.warp.id, { cause := .uncorrectableMemory, info := 0, addr := 0, onMemoryWord := false })] ∧
        ctxOf t = settleHaz (ctxOf (tick dist s)) ∧ t.gang = s.gang ∧ t.mem = s.mem ∧ t.engines = s.engines ∧ t.mgmt.storage = us) ∧
      (∀ (u : Upset) (us : List Upset), s.mgmt.storage = [] → s.warp.check = true → s.mgmt.upsets = u :: us →
        (u.late = true → exec i s = finish i (runMask (ctxOf s)) (body (runMask (ctxOf s)) (tick dist s))) ∧
        (u.late = false → u.fails = 0 → exec i s = finish i (runMask (ctxOf s)) (body (runMask (ctxOf s)) (dropUpset (tick dist s)))) ∧
        (u.late = false → u.fails = 1 → exec i s = finish i (runMask (ctxOf s)) (body (runMask (ctxOf s)) (countReissue (dropUpset (tick dist s))))) ∧
        (u.late = false → 2 ≤ u.fails → ∃ t, exec i s = .next t ∧
          t.warp.stopped = some { cause := .checkMismatch, info := 0, addr := 0, onMemoryWord := false } ∧
          t.cp.queue = s.cp.queue ++ [(s.warp.id, { cause := .checkMismatch, info := 0, addr := 0, onMemoryWord := false })] ∧
          ctxOf t = settleHaz (ctxOf (tick dist s)) ∧ t.gang = s.gang ∧ t.mem = s.mem ∧ t.engines = s.engines ∧ t.mgmt.upsets = us ∧
          (s.warp.core < s.cores.length → (coreAt t s.warp.core).mismatches = (coreAt s s.warp.core).mismatches ++ [(tick dist s).clock])))

/-- CORE_WITHDRAW, once three mismatches of a core lie within its last 2^52 clocks, takes every gang off it, to be placed on another core
of its die, writes its L1 back and marks it withdrawn (log 17), and before that does nothing; CORE_RETURN_TO_SERVICE ends that, and forgets
the mismatches (the model's choice, log 12); PARTITION_SWAP halts a die while it is saved, a copy of it in the Felt (spec/02 R43,
spec/05 R107). -/
def Claims.CoresAndPartitions : Prop :=
  ∀ s : State,
    (∀ core, core < 384 → s.cores.length = 384 → (coreAt s core).withdrawn = false →
      3 ≤ ((coreAt s core).mismatches.filter fun c => decide (s.clock < c + 2 ^ 52)).length →
      ∃ t, exec (.coreWithdraw core) s = .next t ∧ (coreAt t core).withdrawn = true ∧
      (∀ g ∈ t.gang :: t.gangs, g.core = core → 0 < g.id.seq → g.spilled = true ∧ g.keepDie = true) ∧
      (∀ c, c ≠ core → coreAt t c = coreAt s c) ∧ t.warp = s.warp ∧ t.warps = s.warps ∧
      t.mem = (flushCore core s).mem) ∧
    (∀ core, ((coreAt s core).mismatches.filter fun c => decide (s.clock < c + 2 ^ 52)).length < 3 →
      exec (.coreWithdraw core) s = .next s) ∧
    (∀ core, core < s.cores.length → ∃ t, exec (.coreReturnToService core) s = .next t ∧ (coreAt t core).withdrawn = false ∧
      (coreAt t core).mismatches = [] ∧ (∀ c, c ≠ core → coreAt t c = coreAt s c) ∧ t = { s with cores := t.cores }) ∧
    (∀ die save, die < 16 → s.mgmt.storage = [] → ∃ t, exec (.partitionSwap die save) s = .next t ∧
      (die ∈ t.mgmt.saved ↔ save = true) ∧ (∀ d, d ≠ die → (d ∈ t.mgmt.saved ↔ d ∈ s.mgmt.saved)) ∧
      ((∃ f ∈ t.mgmt.felt, f.die = die) ↔ save = true) ∧ (∀ f ∈ t.mgmt.felt, f.die = die → f = savedDie s die) ∧
      t = { s with mgmt := { s.mgmt with saved := t.mgmt.saved, felt := t.mgmt.felt } })

/-! ### Engines -/

/-- CHUNK_APPLY of an operation that may apply its chunk: a copy, reduction, gather with its indices, lane of CPL to global memory or
matched collective whose accesses pass and meet no poisoned line brings what it reads to where it reads it, moves every element of
the chunk, granule by granule, and marks it applied (that a chunk is one step is log 34); while its writes alone are held, by an earlier
VRET or through its view, it reads, and writes what it has read once they are not (spec/15 R252, R253);
CHUNK_RECEIVE with a good CRC does the same, the first bad CRC of a chunk is noted, the second raises UNCORRECTABLE_MEMORY (spec/16
R256, R260 to R263, R266, R267). -/
def Claims.Chunks : Prop :=
  ∀ (op c : Nat) (s : State) (e : EngOp), findEng s op = some e → mayApply s e c = true →
    (let u := focusOn e.warp s
     let read (ms : List Move) := settleAccs e (movesReads ms) u
     let applied (ms : List Move) := focusOn s.warp.id (markApplied e c
       (ms.foldl (fun st m => noteWrites st m.dst.bytes [engVa u m.dst])
         (noteEng ((movesAccs ms).map (·.va)) (putAll e c (ms.map (movePut (read ms) e)) (read ms)))))
     let passes (ms : List Move) := checkAccs u e (movesAccs ms) = .ok ∧ ∀ m ∈ ms, movePoison (read ms) e m = false
     let kept := e.fetched.find? fun x => x.1 == c
     (∀ ms,
       ((e.kind = .copy ∨ ∃ o t, e.kind = .reduce o t) ∧ ms = copyMoves e c) ∨
         (e.kind = .gather ∧ e.matched.isSome ∧ ms = gatherMoves e c) ∨
         (((∃ o t, e.kind = .collReduce o t) ∨ e.kind = .collGather ∨ ∃ r, e.kind = .collCast r) ∧ e.matched.isSome ∧
           ms = collMoves e c) →
       (kept = none → putHeld u e = false → (srcHeld u e = false ∨ movesReads ms = []) → passes ms →
         exec (.chunkApply op c) s = .next (applied ms)) ∧
       (kept = none → putHeld u e = true → srcHeld u e = false → movesReads ms ≠ [] →
         checkAccs u e (movesReads ms) = .ok → (readAccs e (movesReads ms) (read ms)).2 = none →
         exec (.chunkApply op c) s = .next (focusOn s.warp.id
           (keepFetched e c (readAccs e (movesReads ms) (read ms)).1 (noteEng ((movesReads ms).map (·.va)) (read ms))))) ∧
       (∀ vals, kept = some (c, vals) → putHeld u e = false → passes (fillMoves ms vals) →
         exec (.chunkApply op c) s = .next (applied (fillMoves ms vals)))) ∧
     (∀ n sc ps, e.kind = .laneCopy n sc false ps → laneHeld e c n ps = false → writesHeld u e = false → passes (laneMoves n c ps) →
       exec (.chunkApply op c) s = .next (applied (laneMoves n c ps))) ∧
     exec (.chunkReceive op c true) s = exec (.chunkApply op c) s ∧
     (e.retried.contains c = false →
       exec (.chunkReceive op c false) s = .next (modEng s op fun x => { x with retried := x.retried ++ [c] })) ∧
     (e.retried.contains c = true → exec (.chunkReceive op c false) s = .next (engPoison e 0 s)))

/-- CHUNK_DELIVERY invalidates the issuing core's L1 lines over the chunk's bytes, marks it delivered and counts its bytes against the
barrier; ENERGY_REFILL adds a limit's worth to every count, up to the limit (spec/16 R257, spec/18 R301). -/
def Claims.DeliveryAndEnergy : Prop :=
  ∀ s : State,
    (∀ op c e, findEng s op = some e → e.applied.contains c = true → e.delivered.contains c = false → partWriting s e c = false →
      engSaved s e = false →
      exec (.chunkDelivery op c) s = .next (focusOn s.warp.id (deliverChunk e c (focusOn e.warp s)))) ∧
    (∀ (b n : Nat) (count : Int), count ≤ n → n ≠ 0xFFFFFFFF →
      refillCount [] n b count = min (count + n) n ∧ refillCount [b] n b count = count) ∧
    (∀ (b : Nat) (count : Int), refillCount [] 0xFFFFFFFF b count = 0xFFFFFFFF) ∧
    ∃ t, exec .energyRefill s = .next t ∧ t = { s with cp := { s.cp with budgets := t.cp.budgets } } ∧
      t.cp.budgets.map (fun (b : Budget) => { b with counts := [] }) = s.cp.budgets.map (fun (b : Budget) => { b with counts := [] }) ∧
      ∀ (i d : Nat), (t.cp.budgets[i]?).map (fun (b : Budget) => b.counts[d]?) = (s.cp.budgets[i]?).map fun (b : Budget) =>
        (b.counts[d]?).map (refillCount s.mgmt.hot b.energy d)

/-- ENGINE_OPERATION_COMPLETE ends an operation once all of it is delivered: it leaves the list, its number completes on its timeline
counter and its flag falls; an acquisition ends when the token covers it, a release goes on and ends with the home's acknowledgement,
and a query lands its token word (spec/16 R270, spec/18 R302, spec/20 R318, R324). -/
def Claims.EngineEnds : Prop :=
  ∀ (op : Nat) (s : State) (e : EngOp), findEng s op = some e → engSaved s e = false →
    (((e.kind = .copy ∨ (∃ o t, e.kind = .reduce o t) ∨ (∃ n c b p, e.kind = .laneCopy n c b p) ∨
        (e.kind = .gather ∧ e.matched.isSome)) → (partsOf e).all e.delivered.contains = true →
      exec (.engineOperationComplete op) s = .next (finishEng e s)) ∧
    (((∃ o t, e.kind = .collReduce o t) ∨ e.kind = .collGather ∨ (∃ r, e.kind = .collCast r)) → e.matched.isSome →
      (partsOf e).all e.delivered.contains = true → exec (.engineOperationComplete op) s = .next (finishEng e s)) ∧
    ((∃ a b c d f, e.kind = .matrix a b c d f) → e.chunks ≤ rowsDone s e → e.rowStarted = false → e.stopped = false →
      e.paused = false → engWriting s e = false →
      exec (.engineOperationComplete op) s = .next (finishEng e (acquireOut e s))) ∧
    (∀ p r x, e.kind = .tokenAcquire p r x → (if x then 2 else 1) ≤ (tokenAt s p r).state →
      exec (.engineOperationComplete op) s = .next (finishEng e s)) ∧
    (∀ p r, e.kind = .tokenRelease p r → exec (.engineOperationComplete op) s = .next (releaseToken e p r s)) ∧
    (∀ p r, e.kind = .tokenQuery p r →
      exec (.engineOperationComplete op) s = .next (finishEng e (modIssuer s e (landEng e (tokenWordOf (tokenAt s p r)))))) ∧
    (findEng (finishEng e s) e.id = none ∧
      ∀ g, findGang s e.gang = some g → e.tc < 4 →
        (findGang (finishEng e s) e.gang).map (fun x => tcAt x e.tc) = some (finishNumber e.num (tcAt g e.tc))))

/-- A timeline counter shows n once the operations 1 to n have completed, in whatever order, and stays below every number that has
not (spec/01 R16). -/
def Claims.TimelineOrder : Prop :=
  ∀ (n : Nat) (done : List Nat), done.Nodup → (∀ k ∈ done, 1 ≤ k) →
    (let t := done.foldl (fun t k => finishNumber k t) Timeline.zero
     (∀ k, 1 ≤ k → k ≤ t.value → k ∈ done) ∧ (t.value + 1 ∉ done) ∧
       ((∀ k, 1 ≤ k → k ≤ n → k ∈ done) → n ≤ t.value))

/-- The combining tree of XRED with S32 ADD gives, element by element, the sum of the members' values modulo 2^32 (spec/20 R323), and
an element derives from uncorrectable data exactly when one of the members' does (spec/22 R346). -/
def Claims.CombiningTree : Prop :=
  ∀ (cs : List (List (Nat × Bool))) (n : Nat), 0 < cs.length → cs.length ≤ 65536 → (∀ c ∈ cs, c.length = n) →
    ((combineTree 0 1 cs.length 17 1 cs).headD []).map (fun x => (x.1 % 2 ^ 32, x.2)) =
      (List.range n).map fun j =>
        ((cs.map fun c => (c.getD j (0, false)).1).sum % 2 ^ 32, cs.any fun c => (c.getD j (0, false)).2)

/-- COLLECTIVE_MATCH: an operation first reads what it contributes, once its view allows it (in one step, log 34); then, once every
operation of this device's members has, differing digests (their bytes are log 55's, their peers' agreement an argument, log 39) end them
all: each leaves the list, COLL_FAULT with reason 1 is held in its warp, and no byte of memory is written, but those of a record that is
current and of a spill area; with agreeing ones and every contribution there the values of each are kept for its chunks (spec/20 R321,
R323, R324). -/
def Claims.CollectiveMatches : Prop :=
  ∀ (op : Nat) (s : State) (e : EngOp) (others : List (Nat × List W64)) (agree : Bool), findEng s op = some e →
    mayMatch s e = true →
    (let u := focusOn e.warp s
     let accs := contribAccs e
     let v := settleAccs e accs u
     (e.contrib = none → contributes e = true → sideHeld s e (sideIndex e 0) = true → exec (.collectiveMatch op others agree) s = .next s) ∧
     (e.contrib = none → contributes e = true → sideHeld s e (sideIndex e 0) = false → checkAccs u e accs = .ok →
       (readAccs e accs v).2 = none →
       exec (.collectiveMatch op others agree) s = .next (focusOn s.warp.id
         (modEng (noteEng (accs.map (·.va)) v) e.id fun x => { x with contrib := some (readAccs e accs v).1 }))) ∧
     (e.contrib = none → contributes e = false →
       exec (.collectiveMatch op others agree) s = .next (focusOn s.warp.id (modEng u e.id fun x => { x with contrib := some [] }))) ∧
     (e.contrib.isSome → matesOf s e = none → exec (.collectiveMatch op others agree) s = .next s) ∧
     (∀ mates, e.contrib.isSome → matesOf s e = some mates →
       (digestsAgree s e mates agree = false →
         exec (.collectiveMatch op others agree) s = .next (mates.foldl (fun st m => collDiffers m.2 st) s)) ∧
       (digestsAgree s e mates agree = true → contribsOk e (allContribs s e mates others) = true →
         exec (.collectiveMatch op others agree) s = .next (mates.foldl (fun st m =>
           modEng st m.2.id (setMatched m.2 (collValues m.2 (allContribs s e mates others)))) s)) ∧
       (digestsAgree s e mates agree = true → contribsOk e (allContribs s e mates others) = false →
         exec (.collectiveMatch op others agree) s = .next s)) ∧
     ∀ (x : EngOp) (v : State) (y : Warp), findWarp v x.warp = some y → y.state ≠ .retired →
       (y.trap.isSome = true ∨ y.ctx.exited ≠ allLanes) → engOfTrap v x = false →
       (let fault : Held := { cause := .collFault, fpc := x.fpc, word := x.word, run := x.run, lanes := x.run, addr := 0,
                              info := BitVec.ofNat 64 (x.num % 2 ^ 16 * 2 ^ 12 + 1) }
        findEng (collDiffers x v) x.id = none ∧
        (findWarp (collDiffers x v) x.warp).map (·.held) = some (holdLower y.held fault) ∧
        (collDiffers x v).mem = (refreshRecord x.warp []
          (modWarp (finishEng x v) x.warp fun z => { z with held := holdLower y.held fault })).mem ∧
        (recordOf y = none → y.leaving = false → (∀ g, findGang v x.gang = some g → g.spilled = false) →
          (collDiffers x v).mem = v.mem)))

/-! ### Service cores -/

/-- PAGE_NOT_PRESENT at the running service core of the page-table page: a fresh zeroed frame, or the object's page, is mapped where the
allocation says, and the warp goes on, unless its die's partition is saved (spec/02 R43); where that core has stopped, the warp stays parked
(spec/08 R160, spec/22 R351, log 9). -/
def Claims.PageService : Prop :=
  ∀ (w : WarpId) (frame : Nat) (s : State), (findWarp s w).isSome →
    (let u := focusOn w s
     ∀ va write, (ctxOf u).wait = .page va write → dieHalted u u.warp = false →
       (pageServed u (rootOf_ u) va = false → exec (.pageNotPresent w frame) s = .next (focusOn s.warp.id u)) ∧
       (pageServed u (rootOf_ u) va = true →
         (let v := servePage va write frame u
          (pageReady v va write = true →
            exec (.pageNotPresent w frame) s = .next (focusOn s.warp.id { v with warp := unpark false v.warp })) ∧
          (pageReady v va write = false → exec (.pageNotPresent w frame) s = .next (focusOn s.warp.id v)) ∧
          ∀ a f st x, (let n := notePage (rootOf_ u) va write u
            allocOf n (rootOf_ u) va = some a → walk n (rootOf_ u) va = .absent → a.mode = 0 → takeRun n frame 1 = some (f, st) →
            mapPage (clearFrame st f) (rootOf_ u) (pageBase va) (a.leaf ||| BitVec.ofNat 64 (f * 4096)) = some x → v = x))))

/-- OBJECT_ABSENT at the running service core that homes the entry: an unknown object, or an unreachable home, ends the binding and is
told to the warps it parked; a found one is mapped and its entry bound with its length and mode (spec/13 R220, R221). The rights of its
leaves, and the mode an object gets in a space it can not be bound in as asked, are the model's reading (log 42). -/
def Claims.BindingService : Prop :=
  ∀ (space : Nat) (table : W64) (slot : Nat) (s : State) (b : BindWait),
    (s.svc.binds.find? fun b => decide (b.space = space) && b.table == table && decide (b.slot = slot)) = some b →
    (∃ k, entryKey s b.space b.table b.slot = some k ∧ serviceUp s k = true) →
    exec (.objectAbsent space table slot .unknown) s = .next (failBinding b .objectUnknown (dropBind b s)) ∧
    exec (.objectAbsent space table slot .unreachable) s = .next (failBinding b .peerUnreachable (dropBind b s)) ∧
    ∀ length mode base m st, boundMode s b mode = some m → length ≤ 2 ^ 36 → mapObject b length m base s = some st →
      exec (.objectAbsent space table slot (.found length mode base)) s = .next (makeBound b length m (dropBind b st))

/-- SERVICE_EVICT never takes a pinned or busy slot and evicts a bound one; MIGRATION, asked for a page of a mode 3 leaf, takes it out of
use, waits until nothing through the whole leaf is under way, then copies it to local frames and makes its leaf local;
SERVICE_CORE_RESTART stops a service core or starts it again (spec/13 R223, spec/20 R320, spec/22 R351). -/
def Claims.EvictionAndMigration : Prop :=
  ∀ s : State,
    (∀ space table slot, spaceExists s space table = true →
      (let e := entryAt s space table slot
       ((e.bound = true ∧ e.pin = false ∧ slotBusy s space table slot = false) →
         exec (.serviceEvict space table slot) s = .next (evictSlot space table slot s)) ∧
       (slotBusy s space table slot = true → exec (.serviceEvict space table slot) s = .next s) ∧
       (e.pin = true → exec (.serviceEvict space table slot) s = .next s))) ∧
    (∀ root va frame, pageServed s root va = true →
      (let here := s.svc.moving.find? fun m =>
         decide (m.root = root) && decide (pageOf va / 2 ^ (pageBits m.pte - 12) = m.page / 2 ^ (pageBits m.pte - 12))
       (∀ m pte a, here = none → (s.svc.moves.find? fun m => decide (m.1 = root) && decide (m.2 = pageOf va)) = some m →
         walk s root va = .leaf pte → leafAddr s 5 root (va.toNat % 2 ^ 57) = some a → leafMode pte = 3 →
         (let n := 2 ^ (pageBits pte - 12)
          exec (.migration root va frame) s = .next (beginMove { root := root, page := pageOf va / n * n, pte := pte, leafAt := a }
            { s with svc := { s.svc with moves := s.svc.moves.filter fun x => decide (x ≠ m) } }))) ∧
       (∀ m, here = some m → leafBusy s m.root m.page m.pte = true → exec (.migration root va frame) s = .next s) ∧
       (∀ m, here = some m → leafBusy s m.root m.page m.pte = false →
         (let k := moveKey s m
          let b := pageBits m.pte
          let u := flushAllDies k (2 ^ b) (flushAllL1 k (2 ^ b) s)
          (reachableKey s k = false → exec (.migration root va frame) s = .next (endMove m (putLeafs m m.pte s))) ∧
          (∀ f v, reachableKey s k = true → leafBusy u m.root m.page m.pte = false → takeRun u frame (2 ^ (b - 12)) = some (f, v) →
            exec (.migration root va frame) s =
              .next (endMove m (putLeafs m (localLeaf m.pte f) (dropCopies k (2 ^ b) (copyPages k f (2 ^ b) v))))))))) ∧
    (∀ core stops, s.mgmt.powered = true → core < s.svc.running.length →
      ∃ t, exec (.serviceCoreRestart core stops) s = .next t ∧ t.svc.running.getD core false = !stops ∧
        t = { s with svc := { s.svc with running := t.svc.running } })

/-- TILE_ROW_START starts the next row of a matrix operation that may run, its energy debited. TILE_ROW_COMPLETE takes the row on: it
reads one side of the operands of a span, in an open order; with all of them read it forms the sums of the span, and compares them
with its checksums; after the last span it writes the elements of C, and once these are performed moves MROW on and gives the status
bits (spec/18 R296 to R301, R305). That one step reads a whole side of a span, and that the sides may come in any order but for
weights before activations, are the model's choices (log 34). -/
def Claims.TileRows : Prop :=
  ∀ (op : Nat) (s : State) (e : EngOp) (o : MatrixOp), findEng s op = some e → matrixOf e = some o →
    (rowReady s e = true → (∀ x ∈ s.engines, x.core = e.core → x.rowStarted = false ∧ (rowReady s x && rowBefore s x e) = false) →
      exec (.tileRowStart op) s = .next (modEng (debitRow e (rowDebit o) s) op fun x =>
        { x with rowStarted := true, row := rowsDone s e, work := RowWork.zero })) ∧
    (let u := focusOn e.warp s
     let w := e.work
     e.rowStarted = true → engSaved s e = false →
       (w.written = true → partWriting u e e.row = true → exec (.tileRowComplete op) s = .next (focusOn s.warp.id u)) ∧
       (w.written = true → partWriting u e e.row = false → exec (.tileRowComplete op) s = .next (focusOn s.warp.id (advanceRow e u))) ∧
       (w.written = false → stopsHere u e = true → exec (.tileRowComplete op) s = .next (focusOn s.warp.id (dropRow e u))) ∧
       (w.written = false → stopsHere u e = false →
         (w.span < o.spans → unreadSides w = [] → exec (.tileRowComplete op) s = .next (focusOn s.warp.id (sumSpan e o u))) ∧
         (let sides := (unreadSides w).filter fun i => !readHeld u e o i
          let v := bumpFree (decide (1 < sides.length)) u
          let accs := sideAccs o e.row w.span
          let x (side : Nat) := noteEng ((accs side).map (·.va)) (settleAccs e (accs side) v)
          w.span < o.spans → sides ≠ [] → (w = RowWork.zero → checkAccs v e (rowAccs o e.row) = .ok) →
            (∀ side ∈ sides, checkAccs v e (accs side) = .ok ∧ (readAccs e (accs side) (x side)).2 = none) →
            ∃ side ∈ sides, exec (.tileRowComplete op) s =
              .next (focusOn s.warp.id (putWork e (readSide (x side) e o side w) (x side)))) ∧
         (o.spans ≤ w.span → sideHeld u e 0 = false → writesHeld u e = false → checkAccs u e (outAccs o e.row .write) = .ok →
           (let r := outElems o e.row (w.out.getD [])
            exec (.tileRowComplete op) s = .next (focusOn s.warp.id
              (putWork e { w with status := w.status ||| r.2, written := true }
                (noteEng ((outAccs o e.row .write).map (·.va)) (writeRow e o r.1 u))))))))

/-- The checksums of a span: with no soft error every comparison is equal and the span is drained, and one wrong element of the
accumulators is always found; at the first mismatch the span is cleared, debited and streamed again, at the second MTX_CHECKSUM is
raised and no element is written (spec/17 R286, R287; that the errors are inputs is the model's, log 12). -/
def Claims.SpanChecksums : Prop :=
  (∀ (ws as : List (List Int)) (len : Nat), (∀ r ∈ ws, r.length = len) → (∀ c ∈ as, c.length = len) →
    checksAgree (accumulators [] (spanSums ws as)) (weightChecks [] ws as len) (actChecks [] ws as len) = true ∧
    ∀ n m d, n < ws.length → m < as.length → d % 2 ^ 40 ≠ 0 →
      (let errs := [ArrayError.element n m d]
       checksAgree (accumulators errs (spanSums ws as)) (weightChecks errs ws as len) (actChecks errs ws as len) = false)) ∧
  ∀ (e : EngOp) (o : MatrixOp) (s : State),
    (let errs := s.mgmt.arrays.headD []
     let u := { s with mgmt := { s.mgmt with arrays := s.mgmt.arrays.tail } }
     let i := spanIn e.work
     let len := (o.spanKs e.work.span).length
     let sums := spanSums i.ws i.as
     let ok := checksAgree (accumulators errs sums) (weightChecks errs i.ws i.as len) (actChecks errs i.ws i.as len)
     (ok = true → sumSpan e o s = putWork e (nextSpan (drainSpan o i sums (accumulators errs sums) (e.work.out.getD []))
       (i.status ||| statusBit 2 (sums.any fun r => r.any spanOver)) e.work) u) ∧
     (ok = false → e.work.again = false → sumSpan e o s = putWork e (streamAgain e.work) (recheckRow e o u)) ∧
     (ok = false → e.work.again = true → sumSpan e o s = checksumFault e u))

/-- The elements of one span with scales of 1.0 and no accumulation are the F32 of the exact dot products of their weights and
activations, with no overflow noted, while these are below 2^24 in magnitude (spec/17 R281 to R284). -/
def Claims.ExactDotProduct : Prop :=
  ∀ (o : MatrixOp) (i : SpanIn) (osat : Nat), o.nbv.toNat < 2 → i.sws = List.replicate i.ws.length 0x7F0 →
    i.sas = List.replicate i.as.length 0x7F0 →
    (let sums := spanSums i.ws i.as
     (∀ r ∈ sums, ∀ x ∈ r, x.natAbs < 2 ^ 24) →
     (drainSpan o i sums (accumulators [] sums) (List.replicate (i.ws.length * i.as.length) (signBit fmt32, false))).map
         (fun x => (outElement fmt32 osat x.1, x.2)) =
       (sums.flatMap id).map fun x => (((ofIntFp fmt32 0 x).1, false), false))

/-! ### The memory system and the fabric -/

/-- Bytes written at their home read back there, and every other byte of memory stays, but a local copy that shows its home (spec/09
R178, R179, spec/20 R312). -/
def Claims.HomeWrites : Prop :=
  ∀ (s : State) (k : Nat) (bs : List Byte), (∀ i < bs.length, ∀ r off, areaOf (k + i) ≠ .block r off) →
    (k + bs.length ≤ 2 ^ 66 ∨ 2 ^ 66 ≤ k) → ByteMap.wf s.mem.home = true → AList.sorted s.mem.cached = true →
    homeBytes (homeWrite s k bs) k bs.length = bs ∧
    (∀ j, (j < k ∨ k + bs.length ≤ j) → (isCached j = true → j - 2 ^ 66 < k ∨ k + bs.length ≤ j - 2 ^ 66) →
      homeByte (homeWrite s k bs) j = homeByte s j) ∧
    ByteMap.wf (homeWrite s k bs).mem.home = true ∧ AList.sorted (homeWrite s k bs).mem.cached = true ∧
    (homeWrite s k bs).warp = s.warp ∧ (homeWrite s k bs).gang = s.gang ∧ (homeWrite s k bs).fabric = s.fabric

/-- A core reads at core scope what it last stored at core scope, through whatever views, and at die scope while no narrower store of the
bytes is on its way; another byte reads as before; a core-scope store leaves every home byte and every die's point alone (spec/08 R162,
spec/09 R181). -/
def Claims.OwnStoresAreSeen : Prop :=
  ∀ (s : State) (core k : Nat) (bs : List Byte) (via : List Nat), k + bs.length ≤ 2 ^ 68 →
    (let t := storeCore s core k bs via
     (loadBytes t core 0 k bs.length).1 = bs ∧
     (∀ j < 2 ^ 68, (j < k ∨ k + bs.length ≤ j) → (coreByte t core j).1 = (coreByte s core j).1) ∧
     t.mem.home = s.mem.home ∧ t.mem.die = s.mem.die ∧
     ((∀ i < bs.length, ∀ r off, areaOf (k + i) ≠ .block r off) → ByteMap.wf s.mem.home = true →
       (∀ e ∈ s.mem.l1, e.2.sent = none) → (∀ i < bs.length, byPacket (k + i) = false) →
       (loadBytes (storeDie s core k bs via) core 0 k bs.length).1 = bs))

/-- An atomic performed by its die at its home answers the value that stood there and leaves the new one (spec/08 R164, spec/09 R191):
stated with nothing cached by a core or a die, and for a home that no packet has to reach. -/
def Claims.AtomicsAtHome : Prop :=
  ∀ (s : State) (core op k n x d : Nat) (w : WarpId) (id : Option Nat) (part : Nat), s.mem.l1 = [] → s.mem.die = [] →
    s.mem.poison = [] → k + n ≤ 2 ^ 66 → ByteMap.wf s.mem.home = true → byPacket k = false →
    (∀ i < n, ∀ r off, areaOf (k + i) ≠ .block r off) →
    (let old := ofBytes (homeBytes s k n)
     let r := atomHome s core op k n x d w id part
     r.1 = old ∧ r.2.1 = false ∧ homeBytes r.2.2 k n = bytesOf n (atomNew op (8 * n) old x d) ∧
       ∀ j, (j < k ∨ k + n ≤ j) → j < 2 ^ 66 → homeByte r.2.2 j = homeByte s j)

/-- The value an atomic leaves (spec/08 R164): ADD modulo the width, MIN and MAX signed, the bitwise operations, exchange, compare and
swap. -/
def Claims.AtomicValues : Prop :=
  ∀ w m x d : Nat, 0 < w → m < 2 ^ w → x < 2 ^ w →
    atomNew 0x04 w m x d = (m + x) % 2 ^ w ∧
    sext w (atomNew 0x05 w m x d) = min (sext w m) (sext w x) ∧ sext w (atomNew 0x06 w m x d) = max (sext w m) (sext w x) ∧
    (∀ i, (atomNew 0x07 w m x d).testBit i = (m.testBit i && x.testBit i)) ∧
    (∀ i, (atomNew 0x08 w m x d).testBit i = (m.testBit i || x.testBit i)) ∧
    (∀ i, (atomNew 0x09 w m x d).testBit i = (m.testBit i != x.testBit i)) ∧
    atomNew 0x0A w m x d = x ∧ atomNew 0x0B w m x d = (if m = x then d else m)

/-- OPERATION_COMPLETE on an operation whose results are known lands it: each running lane of its destination takes its value, its
flag and its counter fall, its sticky flags are raised, it is in flight no more; other registers stay (spec/04 R72, spec/05 R90,
R94, spec/08 R161). Memory keeps its bytes but for a record that is current: there the lines written that are not in the register file and
the status words are stored, and what a DEACT still had to write (spec/05 R93, R101, spec/10 R209; that they are a core-scope store is
log 8). Results of a check-mode warp that are to differ as they return are compared first (spec/05 R105, log 12). -/
def Obligations.ResultsLand : Prop :=
  ∀ (s : State) (o : Op) (vals : Lanes Nat) (fl : Lanes (BitVec 5)), o ∈ (ctxOf s).ops → ((warpOps s.warp).map (·.id)).Nodup →
    o.kind = .result vals fl → s.mgmt.saved.contains (dieOfCore s.warp.core) = false →
    (comparesLate s s.warp o = true → exec (.operationComplete s.warp.id o.id) s = .next (landUpset s.warp o s)) ∧
    (landMixed o.run (oneAccess o) (landVals o) o.dsts = false → s.warp.leaving = false → comparesLate s s.warp o = false →
     let stored := refreshRecord s.warp.id (landLines o) { s with warp := { s.warp with ctx := landCtx o (ctxOf s) } }
     ∃ t, exec (.operationComplete s.warp.id o.id) s = .next t ∧ ctxOf t = landCtx o (ctxOf s) ∧
      t.mem = (leaveOn s.warp.id stored).mem ∧ ((s.warp.trap.elim false (·.deact)) = false → t.mem = stored.mem) ∧
      (recordOf s.warp = none → t.mem = s.mem) ∧ t.mem = { s.mem with l1 := t.mem.l1 } ∧ t.gang = s.gang ∧
      t.warps = s.warps ∧ t.launch = s.launch ∧ t.engines = s.engines ∧ t.fabric = s.fabric ∧
      o.id ∉ (ctxOf t).ops.map (·.id) ∧ (∀ z ∈ (ctxOf t).haz, z.op ≠ some o.id) ∧
      (o.counter ≠ 3 → ∀ j < 12, flagCount t j = flagCount s j - (if o.flag = some j then 1 else 0)) ∧
      (∀ c, 1 ≤ c → c ≤ 3 → counterOf (ctxOf t) c = counterOf (ctxOf s) c - (if o.counter = c then 1 else 0)) ∧
      (∀ l < 32, lane (ctxOf t).fpst l = if bitAt o.run l then lane (ctxOf s).fpst l ||| lane fl l else lane (ctxOf s).fpst l) ∧
      (∀ n c lanes part, o.dsts = [{ reg := .g n, count := c, lanes := lanes, part := part }] → n + c ≤ 96 →
        (ctxOf t).k = (ctxOf s).k ∧ (ctxOf t).preds = (ctxOf s).preds ∧
        ∀ m < 96, ∀ l < 32, lane (gAt (ctxOf t) m).val l =
          if n ≤ m ∧ m < n + c ∧ bitAt lanes l then BitVec.ofNat 32 (lane vals l / 2 ^ (32 * (part + (m - n))))
          else lane (gAt (ctxOf s) m).val l) ∧
      (∀ n lanes part, o.dsts = [{ reg := .k n, count := 1, lanes := lanes, part := part }] → lanes ≠ 0 → n < 24 →
        (ctxOf t).g = (ctxOf s).g ∧ kAt (ctxOf t) n = BitVec.ofNat 64 (lane vals (lowLane o.run)) ∧
        ∀ m < 24, m ≠ n → kAt (ctxOf t) m = kAt (ctxOf s) m))

/-- In the scratchpad: what a store wrote a load of as many bytes reads, other bytes stay, an atomic answers the old value and leaves
its new one, a consuming load waits until its granule is full, and a filling store fills it (spec/08 R162, R163, R166); bytes
written from uncorrectable data give a load and an atomic no value until they are stored again (spec/22 R346). -/
def Claims.ScratchAccesses : Prop :=
  ∀ (g : Gang) (off n : Nat) (a b : Acc), ByteMap.wf g.spad = true →
    (let stored := (performScratch .store n off a g).2
     performScratch .load n off b stored = (.val (a.data % 2 ^ (8 * n)), stored) ∧
     (∀ j, (j < off ∨ off + n ≤ j) → ByteMap.read stored.spad j = ByteMap.read g.spad j) ∧
     (∀ op, spoiltAt g off n = false → performScratch (.atomic op) n off b g =
       (.val (ofBytes (ByteMap.readMany g.spad off n)),
        { g with
            spad := ByteMap.writeMany g.spad off
              (bytesOf n (atomNew op (8 * n) (ofBytes (ByteMap.readMany g.spad off n)) b.data b.swap)) })) ∧
     (∀ op, spoiltAt g off n = true → performScratch .load n off b g = (.poison, g) ∧
       performScratch (.atomic op) n off b g = (.poison, g)) ∧
     (performScratch (.loadFull false) n off b g).1 =
       (if g.full.contains (granuleOf off) then (if spoiltAt g off n then .poison else .val (ofBytes (ByteMap.readMany g.spad off n)))
        else .wait) ∧
     granuleOf off ∈ (performScratch .storeFull n off a g).2.full)

/-- A package write is applied at its home, and at each die, only when the die there has applied every write before it, and is then
counted there, and a peer's packet that this makes done is acknowledged (spec/20 R310, R313); before that the step changes nothing. -/
def Claims.PackageWrites : Prop :=
  ∀ (s : State) (id : Nat) (w : PkgWrite), findWrite s id = some w →
    (homeDue s w = true → exec (.pkgWriteHomeApply id) s = .next (serveInbound (sweepWrites (applyHome w s)))) ∧
    (homeDue s w = false → exec (.pkgWriteHomeApply id) s = .next s) ∧
    (∀ d, dieDue s w d = true → exec (.pkgWriteDieApply id d) s = .next (serveInbound (sweepWrites (pkgAtDie s w d)))) ∧
    (∀ d, dieDue s w d = false → exec (.pkgWriteDieApply id d) s = .next s) ∧
    (∀ d, homeDie w.key = some d → isCached w.key = false → d < 16 → d < s.mem.clocks.length → w.die < (clockOf s d).length →
      w.atom = none → 0 < w.seq → (clockOf (applyHome w s) d).getD w.die 0 = w.seq)

/-- L1_WRITEBACK writes a line's dirty bytes of the core to its die, else the die's to their home, else drops the core's copies of
it, and of no other line (spec/09 R189, spec/20 R312). -/
def Claims.WriteBacks : Prop :=
  ∀ (s : State) (core line : Nat),
    (let up := (dirtyL1 s core).filter (lineOf line)
     let out := (dirtyDie s (dieOfCore core)).filter (lineOf line)
     (up ≠ [] → exec (.l1Writeback core line) s = .next (l1FlushKeys core up s)) ∧
     (up = [] → out ≠ [] → exec (.l1Writeback core line) s = .next (dieFlushKeys (dieOfCore core) out s)) ∧
     (up = [] → out = [] → AList.sorted s.mem.l1 = true → ∃ t, exec (.l1Writeback core line) s = .next t ∧ t = { s with mem := { s.mem with l1 := t.mem.l1 } } ∧
       ∀ k < 2 ^ 68, lineOf line k = false → (coreByte t core k).1 = (coreByte s core k).1))

/-- Packets: an acknowledged one of the head of its stream has had its effect at the peer and is sent no more; a peer's packet lands
once, in sequence order, to be acknowledged when it is done; a duplicate of one acknowledged is acknowledged again, and any other
changes nothing; a resend is counted (spec/20 R313, R314). -/
def Claims.FabricPackets : Prop :=
  ∀ (s : State) (peer die seq : Nat),
    (∀ q, findSent s peer die seq = some q → firstSent s q = true →
      (let v := applyPacket q s
       exec (.fabricPacketReceive (.ack peer die seq)) s =
         .next { v with fabric := { v.fabric with sent := v.fabric.sent.filter fun x => decide (x ≠ q) } })) ∧
    (∀ pa bytes, seq = lastSeen s peer die + 1 →
      exec (.fabricPacketReceive (.write peer die seq pa bytes)) s =
        .next (serveInbound (landPacket peer die seq pa bytes none 0 0 (markSeen peer die seq s))) ∧
      lastSeen (markSeen peer die seq s) peer die = seq) ∧
    (∀ pa bytes, seq ≠ lastSeen s peer die + 1 →
      (let answered := s.fabric.replies.find? fun r => decide (r.peer = peer) && decide (r.die = die) && decide (r.seq = seq)
       (answered = none → exec (.fabricPacketReceive (.write peer die seq pa bytes)) s = .next s) ∧
       ∀ r, answered = some r → exec (.fabricPacketReceive (.write peer die seq pa bytes)) s =
         .next { s with fabric := { s.fabric with replies := s.fabric.replies ++ [r] } })) ∧
    (∀ pa count, seq = lastSeen s peer die + 1 → exec (.fabricPacketReceive (.load peer die seq pa count)) s =
      .next (serveInbound (takeIn { peer := peer, die := die, seq := seq, write := none, atom := false, old := 0, pa := pa, bytes := count }
        (markSeen peer die seq s)))) ∧
    (∀ pa op size x d, seq = lastSeen s peer die + 1 → 0x04 ≤ op → op ≤ 0x0C →
      exec (.fabricPacketReceive (.atomic peer die seq pa op size x d)) s = .next (serveInbound (landPacket peer die seq pa
        (List.replicate size 0) (some op) x.toNat d.toNat (markSeen peer die seq s)))) ∧
    (∀ link, (findSent s peer die seq).isSome → link < 32 → ∃ t, exec (.fabricResendTimeout peer die seq link) s = .next t ∧
      (findSent t peer die seq).map (·.resends) = (findSent s peer die seq).map (·.resends + 1) ∧ t.mem = s.mem ∧ t.warp = s.warp)

/-- A lost peer is unreachable, its tokens and its local copies are gone and nothing to it is in flight; PEER_RESTORE ends that;
LINK_FAILURE takes a link down and cuts the peers it names (spec/20 R315). -/
def Claims.PeersAndLinks : Prop :=
  ∀ (s : State) (peer : Nat),
    (∃ t, exec (.peerLost peer) s = .next t ∧ reachable t peer = false ∧ (∀ x ∈ t.fabric.tokens, x.peer ≠ peer) ∧
      (∀ p ∈ t.fabric.sent, p.peer ≠ peer) ∧ (∀ e ∈ t.mem.cached, ¬(peerKey peer 0 ≤ e.1 ∧ e.1 < peerKey peer 0 + 2 ^ 44))) ∧
    (∃ t, exec (.peerRestore peer) s = .next t ∧ peer ∉ t.fabric.lost ∧ peer ∉ t.fabric.cut ∧
      t = { s with fabric := { s.fabric with lost := t.fabric.lost, cut := t.fabric.cut } }) ∧
    (∀ link cut, link < 32 → ∃ t, exec (.linkFailure link cut) s = .next t ∧ link ∉ t.fabric.links ∧ (∀ p ∈ cut, p ∈ t.fabric.cut) ∧
      t = { s with fabric := { s.fabric with links := t.fabric.links, cut := t.fabric.cut } })

/-- Tokens: a grant raises a requested token and drops the copies older than it, once nothing of this device is on its way to the region; a
refusal ends each acquisition that the token does not cover, with TOKEN_ABSENT held in its warp and the count it raised lowered again (its
reason is free, log 5), and tells the warps and the engines that wait for a page of the region; a recall, once no access to a cached page of
the region is under way, returns the copies, makes those pages not present and drops their translations, and when the copies are home the
token falls to what the program holds (spec/20 R316 to R319; that a refused acquisition is complete is log 39). -/
def Claims.Tokens : Prop :=
  ∀ (s : State) (p r : Nat),
    (let t := tokenAt s p r
     let lo := cachedKey (regionKey p r)
     (∀ x : Bool, t.pending = true → t.state < max t.state (if x then 2 else 1) →
       (regionWriting s p r = true → exec (.tokenGrant p r x) s = .next s) ∧
       (regionWriting s p r = false →
         ∃ v, exec (.tokenGrant p r x) s = .next v ∧ (tokenAt v p r).state = (if x then 2 else 1) ∧
           (tokenAt v p r).sholds = t.sholds ∧ (tokenAt v p r).xholds = t.xholds ∧ v.mem.home = s.mem.home ∧
           (∀ e ∈ v.mem.cached, ¬(regionKey p r ≤ e.1 ∧ e.1 < regionKey p r + 2 ^ 21)) ∧
           (∀ e ∈ v.mem.l1, inKeys lo (2 ^ 21) (e.1 % 2 ^ 68) = true → e.2.sent.isSome = true) ∧
           (∀ e ∈ v.mem.die, inKeys lo (2 ^ 21) (e.1 % 2 ^ 68) = true → e.2.sent.isSome = true))) ∧
     (t.pending = true →
       (let u := (s.engines.filter (uncovered t)).foldl refuseAcquire s
        let v := putToken { tokenAt u p r with pending := false, service := min (tokenAt u p r).service (tokenAt u p r).state } u
        exec (.tokenRefuse p r) s = .next { v with
          engines := v.engines.map (noteRefused p r)
          svc := { v.svc with
            refused := v.svc.refused ++ ((allWarps s).filter (waitsForRegion s p r)).map fun w => (w.id, p, r) } })) ∧
     (∀ (e : EngOp) (x : Bool) (v : State) (y : Warp), e.kind = .tokenAcquire p r x → findWarp v e.warp = some y →
       y.state ≠ .retired → (y.trap.isSome = true ∨ y.ctx.exited ≠ allLanes) → engOfTrap v e = false → y.held = none →
       (let z := refuseAcquire v e
        findEng z e.id = none ∧ tokenAt z p r = lowerHold x (tokenAt v p r) ∧
          ∃ w h, findWarp z e.warp = some w ∧ w.held = some h ∧ h.cause = .tokenAbsent ∧ h.fpc = e.fpc ∧ h.run = e.run ∧
            h.lanes = e.run ∧ h.addr = BitVec.ofNat 64 e.tag)) ∧
     (∀ b : Bool, (if b then 1 else 0) < t.state → holdLevel t < t.state →
       ((∃ q ∈ cachedPages s p r, pageBusy s q.1 q.2 = true) → exec (.tokenRecall p r b) s = .next s) ∧
       ((∀ q ∈ cachedPages s p r, pageBusy s q.1 q.2 = false) →
         (let u := evictRegion p r s
          (regionWriting u p r = true → exec (.tokenRecall p r b) s = .next u) ∧
          (regionWriting u p r = false → ∃ v, exec (.tokenRecall p r b) s = .next v ∧
            v = putToken { tokenAt u p r with service := 0, state := holdLevel t } u ∧
            (tokenAt v p r).state = holdLevel t ∧ (tokenAt v p r).sholds = t.sholds ∧ (tokenAt v p r).xholds = t.xholds) ∧
          (∀ q ∈ cachedPages s p r, ∀ e ∈ u.mem.tlb, e.root = q.1 → tlbCovers e q.2 = false) ∧
          (∀ e ∈ u.mem.l1, inKeys lo (2 ^ 21) (e.1 % 2 ^ 68) = true → e.2.dirty = true → e.2.sent.isSome = true) ∧
          (∀ q, cachedPages s p r = [q] → ByteMap.wf s.mem.home = true → walk u q.1 q.2 = .absent)))))

/-! ### The ports -/

/-- MESSAGE_LAND at an enabled ring: an oversized message is counted, one without room is counted as dropped, and one that lands
takes the next slots with its header of sequence number, length, slots, status and key and its payload behind it, wrapping to slot 0; a
duplicate changes nothing, and a message without a ring is counted at its port (spec/20 R327, R328). -/
def Claims.MessagesLand : Prop :=
  ∀ (s : State) (m : EthMsg),
    (let id := m.resource % 1024
     let r := ringAt s id
     let len := messageLength r m.bytes
     let n := messageSlots r m.bytes
     m.port < 12 →
     ((m.reliable && m.duplicate) = true → exec (.messageLand m) s = .next s) ∧
     ((m.reliable && m.duplicate) = false → r.en = false → exec (.messageLand m) s =
       .next { s with fabric := { s.fabric with unmatched := modNth s.fabric.unmatched m.port (· + 1) } }) ∧
     ((m.reliable && m.duplicate) = false → r.en = true → (2 ^ 20 < len ∨ r.slots < n) → ∃ t, exec (.messageLand m) s = .next t ∧
       ringAt t id = { r with seq := r.seq + 1, omsg := r.omsg + 1, obyte := r.obyte + BitVec.ofNat 64 len } ∧ t.mem = s.mem) ∧
     ((m.reliable && m.duplicate) = false → r.en = true → len ≤ 2 ^ 20 → n ≤ r.slots → freeSlots r < n →
       ∃ t, exec (.messageLand m) s = .next t ∧
         ringAt t id = { r with seq := r.seq + 1, fmsg := r.fmsg + 1, fbyte := r.fbyte + BitVec.ofNat 64 len } ∧ t.mem = s.mem) ∧
     ((m.reliable && m.duplicate) = false → r.en = true → len ≤ 2 ^ 20 → n ≤ r.slots → (n : Int) ≤ freeSlots r →
       (let landed := takeMessage s r m.bytes
        let slot := r.written.toNat % r.slots
        ∃ t, exec (.messageLand m) s = .next t ∧
          ringAt t id = { r with
            seq := r.seq + 1, written := r.written + BitVec.ofNat 64 n, lmsg := r.lmsg + 1,
            lbyte := r.lbyte + BitVec.ofNat 64 len, tmsg := r.tmsg + BitVec.ofNat 64 landed.status,
            entries := r.entries ++ [(slot, n)] } ∧
          (∀ j, j ≠ id → ringAt t j = ringAt s j) ∧
          (ByteMap.wf s.mem.home = true → 256 ≤ r.slotSize → r.base + r.slots * r.slotSize ≤ 2 ^ 25 →
            homeBytes t (slotPa id r slot) 32 = bytesOf 8 r.seq.toNat ++
              bytesOf 8 (landed.payload.length * 2 ^ 32 + n * 2 ^ 14 + landed.status * 2 ^ 12 + landed.key) ++
              bytesOf 8 m.port ++ bytesOf 8 0 ∧
            (∀ j, j < landed.payload.length →
              homeByte t (slotPa id r ((slot + (32 + j) / r.slotSize) % r.slots) + (32 + j) % r.slotSize) = landed.payload.getD j 0)))))

/-- RING_ENABLE enables a disabled ring with a valid block: its positions meet and no entry is left (spec/20 R325). -/
def Claims.RingsEnabled : Prop :=
  ∀ (s : State) (ring : Nat),
    (let r := ringAt s ring
     (ring < 1024 → r.en = false → ringValid s r = true → ∃ t, exec (.ringEnable ring) s = .next t ∧
       ringAt t ring =
         { r with w0 := setBit r.w0 47 true, claim := r.written, free := r.written, entries := [], claimed := [] } ∧
       (∀ j, j ≠ ring → ringAt t j = ringAt s j) ∧ t.mem = s.mem) ∧
     ((1024 ≤ ring ∨ r.en = true ∨ ringValid s r = false) → exec (.ringEnable ring) s = .next s))

/-- A host's posted write through a landing window goes out as package writes of its port's die, piece by piece; what the window or
the leaves do not allow, or what comes after the port's lease ran out, is dropped and counted; one that the port does not carry has no
effect: while an interface is in RUN, one for another region, or on another stream than the bound one (spec/20 R331, R332, spec/22 R350,
R353). That a function that is not there is an Unsupported Request is presumed (log 33). -/
def Claims.HostWrites : Prop :=
  ∀ (s : State) (port region stream offset : Nat) (bytes : List Byte), offset + bytes.length ≤ 2 ^ 40 → bytes ≠ [] →
    ((portRefuses s port region stream).isSome → exec (.hostLandingWrite port region stream offset bytes) s = .next s) ∧
    (portRefuses s port region stream = none →
      ((s.cp.leases.getD port Lease.zero).expired = true ∨ hostPlan s region offset bytes.length true = .refused →
        ∃ t, exec (.hostLandingWrite port region stream offset bytes) s = .next t ∧
          (windowAt t region (offset / 2 ^ 36)).drops = (windowAt s region (offset / 2 ^ 36)).drops + 1 ∧ t.mem = s.mem) ∧
      (∀ ps, (s.cp.leases.getD port Lease.zero).expired = false → hostPlan s region offset bytes.length true = .go ps →
        ∃ t, exec (.hostLandingWrite port region stream offset bytes) s = .next t ∧ t.mem.home = s.mem.home ∧
          ((∀ p ∈ ps, byPacket p.2.2 = false) → t.fabric = s.fabric) ∧
          t.mem.writes.take s.mem.writes.length = s.mem.writes ∧
          (t.mem.writes.drop s.mem.writes.length).map (fun w => (w.die, w.key, w.bytes)) =
            ps.map (fun p => (hostDie port, p.2.2, (bytes.drop p.1).take p.2.1)))) ∧
    ∀ t, s.fabric.tdisp.getD port none = some t → port < 2 → topRegion s region = true →
      (region ≠ t.region → portRefuses s port region stream = some .unsupported) ∧
      (region = t.region → portRefuses s port region stream = if stream = t.stream then none else some .rejected)

/-- A host's read through a landing window is answered with the bytes at its port's die, or with a Completer Abort where the window
does not allow it or a line is poisoned, once the port's earlier posted writes are applied there (spec/20 R332); one that the port
does not carry is an Unsupported Request, or rejected (R331). Completer Abort for a poisoned line is the model's reading (log 44), and
an Unsupported Request for a function that is not there is presumed (log 33). -/
def Claims.HostReads : Prop :=
  ∀ (s : State) (port region stream offset count : Nat), port < 2 → offset + count ≤ 2 ^ 40 →
    (postedAhead s port = true → exec (.hostLandingRead port region stream offset count) s = .next s) ∧
    (∀ a, postedAhead s port = false → portRefuses s port region stream = some a →
      exec (.hostLandingRead port region stream offset count) s = .next (answerHost a s)) ∧
    (postedAhead s port = false → portRefuses s port region stream = none → hostPlan s region offset count false = .refused →
      exec (.hostLandingRead port region stream offset count) s = .next (answerHost .completerAbort s)) ∧
    (∀ ps, postedAhead s port = false → portRefuses s port region stream = none → hostPlan s region offset count false = .go ps →
      ((∃ p ∈ ps, meetsPoison (readPiece s (hostDie port) p) = true) →
        exec (.hostLandingRead port region stream offset count) s = .next (answerHost .completerAbort s)) ∧
      ((∀ p ∈ ps, meetsPoison (readPiece s (hostDie port) p) = false) →
        ∃ t, exec (.hostLandingRead port region stream offset count) s = .next t ∧ t.mem = s.mem ∧ t.warp = s.warp ∧
          t.fabric.delivered = s.fabric.delivered ++ [.data (ps.flatMap fun p => (List.range p.2.1).map fun i =>
            (dieByte s (hostDie port) (p.2.2 + i)).1)]))

/-- TDISP_MESSAGE: an interface enters RUN for a top-level region on one of eight streams, or leaves it; an attestation changes
nothing a program sees (spec/20 R331, spec/22 R352). -/
def Claims.Tdisp : Prop :=
  ∀ (s : State) (port : Nat), port < 2 →
    (∀ region stream, topRegion s region = true → stream < 8 → exec (.tdispMessage port (.run region stream)) s =
      .next { s with fabric := { s.fabric with tdisp := setNth s.fabric.tdisp port (some { region := region, stream := stream }) } }) ∧
    exec (.tdispMessage port .stop) s = .next { s with fabric := { s.fabric with tdisp := setNth s.fabric.tdisp port none } } ∧
    ∃ t, exec (.tdispMessage port .attest) s = .next t ∧ t = { s with mgmt := { s.mgmt with attested := s.mgmt.attested + 1 } }

/-! ### The command processor -/

/-- SUBMIT: a record that its page, its port's role and the region tree admit takes the next number, and is queued or fails with its
reason of R27; any other is counted as rejected (spec/22 R338, R341, spec/02 R27). -/
def Claims.Submissions : Prop :=
  ∀ (s : State) (port region stream offset : Nat) (bytes : List Byte), portRefuses s port region stream = none →
    (let r := recordWords bytes
     let admitted := offset = 0 ∧ bytes.length = 256 ∧ roleOf s port = 1 ∧ regionBelow s (recRegion r) region = true ∧
       submissionFull s (recRegion r) = false
     (¬admitted → ∃ t, exec (.submit port region stream offset bytes) s = .next t ∧
       pageAt t port region = { pageAt s port region with rejects := (pageAt s port region).rejects + 1 } ∧
       t.cp.reamHead = s.cp.reamHead ∧ t.launches = s.launches ∧ t.mem = s.mem) ∧
     (admitted → ∃ t, exec (.submit port region stream offset bytes) s = .next t ∧ t.cp.reamHead = s.cp.reamHead + 1 ∧
       pageAt t port region = { pageAt s port region with
         accepts := (pageAt s port region).accepts + 1, lastSeq := BitVec.ofNat 64 s.cp.reamHead } ∧
       (acceptReason s r s.cp.reamHead = none → ∃ l ∈ t.launches,
         l.seq = s.cp.reamHead ∧ l.state = .accepted ∧ l.record = r ∧ l.region = recRegion r ∧ l.src = port) ∧
       (∀ reason, 0 < s.cp.reamHead → acceptReason s r s.cp.reamHead = some reason →
         activeLaunch t s.cp.reamHead = none ∧ entryState t s.cp.reamHead = 4 ∧
         (slice ((reamEntry t s.cp.reamHead).getD 1 0) 32 8).toNat = reason)))

/-- WAIT_CONDITION_POLL at a word of a host or a peer, WAIT_CONDITION_UPDATE at a local one: the condition of a queued launch holds
once the word is large enough; a word that cannot be read kills the launch with reason 0x07 (spec/02 R26, R27, spec/22 R340). -/
def Claims.WaitConditions : Prop :=
  ∀ (s : State) (seq i root : Nat) (l : Launch) (w : WaitCond) (remote : Bool), activeLaunch s seq = some l →
    l.waits[i]? = some w → l.state = .accepted → w.kind = 1 → w.holds = false → queuedRoot s l = some root →
    remoteWord s seq i = remote →
    (let event : Instr := if remote then .waitConditionPoll seq i else .waitConditionUpdate seq i
     (∀ k, cpRead s root w.word = .ok k →
       exec event s = .next (if w.value ≤ (homeWord s k).toNat then setHolds seq i s else s)) ∧
     (cpRead s root w.word = .bad → exec event s = .next (killLaunch seq 7 s)) ∧
     exec (if remote then .waitConditionUpdate seq i else .waitConditionPoll seq i) s = .next s)

/-- LAUNCH_START: a launch whose conditions hold, whose path of regions is well formed, whose object and budgets suffice and before
which no other comes, starts with the values of its region as they are now; one that depends on a killed launch is killed
with reason 0x06, one of a malformed region with 0x02 (spec/22 R340, R344, spec/02 R27, R33, R360). -/
def Claims.LaunchesStart : Prop :=
  ∀ (s : State) (seq : Nat) (l : Launch), activeLaunch s seq = some l → l.state = .accepted →
    (l.waits.any (dependenceKilled s) = true → exec (.launchStart seq) s = .next (killLaunch seq 6 s)) ∧
    (l.waits.any (dependenceKilled s) = false → (∀ w ∈ l.waits, w.kind ≠ 1) →
      (startable s l = false → exec (.launchStart seq) s = .next s) ∧
      (startable s l = true → (∀ x ∈ allLaunches s, startable s x = true → startsBefore s x l = false) →
        (regionValues s l.region = none → exec (.launchStart seq) s = .next (killLaunch seq 2 s)) ∧
        (∀ r e path o ws, regionValues s l.region = some ((r, e) :: path) → startReason s l e = none →
          findObject s l.object e.eff.ptRoot = some o → tablesOf s e.eff.ptRoot l.ctab = .words ws →
          ∃ t x, exec (.launchStart seq) s = .next t ∧ launchOf t seq = some x ∧ x.state = .started ∧ x.handed = 0 ∧
            x.eff = e.eff ∧ x.codeBase = o.base ∧ x.hasCall = o.hasCall ∧ x.staged = [] ∧
            x.reserved = reservation s l.record e.eff ∧ t.mem = s.mem ∧ t.warp = s.warp)))

/-- CP_CAUSE settles the next cause of a started launch by its effective FAULT_DOM: 0 replays a replayable launch at most twice, 0 and 1
kill it, 2 resets its region, 3 lets a warp go on after a loss that only an access reports (spec/22 R346, R347, R359). A launch for
whose snapshots there was no memory is killed with reason 0x09 first (spec/22 R343). -/
def Claims.CausesSettled : Prop :=
  ∀ s : State, (∀ l, failedSnapshots s = some l → exec .cpCause s = .next (absorbCauses l.seq (killLaunch l.seq 9 s))) ∧
    (failedSnapshots s = none → s.cp.queue = [] → exec .cpCause s = .next s) ∧
    (∀ w c rest l x, failedSnapshots s = none → s.cp.queue = (w, c) :: rest →
      (let s1 := recordStop w.seq c { s with cp := { s.cp with queue := rest } }
       let s2 := signalLaunch l 1 s1
       activeLaunch s1 w.seq = some l → findWarp s1 w = some x → x.stopped.isSome → isFinal l = false →
         (l.eff.faultDom = 0 → l.rpl = true → l.replays < 2 → exec .cpCause s = .next (absorbCauses w.seq (replayLaunch l s2))) ∧
         (l.eff.faultDom = 0 → l.rpl = false → l.replays ≠ 2 →
           exec .cpCause s = .next (absorbCauses w.seq (killLaunch l.seq 0x10 s2))) ∧
         (l.eff.faultDom = 0 → l.replays = 2 → exec .cpCause s = .next (absorbCauses w.seq (killLaunch l.seq 0x13 s2))) ∧
         (l.eff.faultDom = 1 → exec .cpCause s = .next (absorbCauses w.seq (killLaunch l.seq 0x10 s2))) ∧
         (l.eff.faultDom = 2 → exec .cpCause s =
           .next (absorbCauses w.seq (resetScope l.region (l.eff.resetScope == 1) 0x12 true (some l.seq) s2))) ∧
         (l.eff.faultDom = 3 → reportOnly c = true → exec .cpCause s = .next (resumeWarp w s2)) ∧
         (l.eff.faultDom = 3 → reportOnly c = false → exec .cpCause s = .next (absorbCauses w.seq (killLaunch l.seq 0x10 s2)))))

/-- A killed launch is gone: it has no warp, gang, engine operation or launch left, and its Ream entry is final with its reason
(spec/22 R341, R343, R346). -/
def Claims.KilledLaunches : Prop :=
  ∀ (s : State) (seq reason : Nat) (l : Launch), activeLaunch s seq = some l → isFinal l = false → reason < 256 →
    (let t := killLaunch seq reason s
     activeLaunch t seq = none ∧ (∀ w ∈ allWarps t, w.id.seq ≠ seq) ∧ (∀ g ∈ t.gang :: t.gangs, g.id.seq ≠ seq) ∧ (∀ e ∈ t.engines, e.warp.seq ≠ seq) ∧
     entryState t seq = 4 ∧ (slice ((reamEntry t seq).getD 1 0) 32 8).toNat = reason)

/-- The resets: GO with its ACTION resets, kills or revives the region in RGN and reads 0 again; a function-level reset of a virtual
function that the port carries resets its region and every region below it, one it does not carry does nothing, and one of the physical
function ends the port's interface (the last is the model's choice, log 45); a region that is reset has no live launch and no enabled
ring left and its STATE is 0 again, 3 after a kill (spec/22 R337, R348, spec/20 R331). -/
def Claims.Resets : Prop :=
  ∀ s : State,
    (let i := s.cp.rgn.toNat
     (regionValid s i = true →
       (s.cp.action = 0 → exec .regionReset s = .next (clearGo (resetScope i (scopeAll s i) 0x11 false none s))) ∧
       (s.cp.action = 1 → exec .regionKill s = .next (clearGo (resetScope i (scopeAll s i) 0x12 true none s))) ∧
       (s.cp.action = 2 → regionState s i = 3 →
         exec .regionRevive s = .next (clearGo (restartBudget i (setRegionState i 0 s)))))) ∧
    (∀ port i stream, portRefuses s port i stream = none →
      exec (.functionLevelReset port (some (i, stream))) s = .next (resetScope i true 0x11 false none s)) ∧
    (∀ port i stream a, portRefuses s port i stream = some a → exec (.functionLevelReset port (some (i, stream))) s = .next s) ∧
    (∀ port, exec (.functionLevelReset port none) s =
      .next { s with fabric := { s.fabric with tdisp := setNth s.fabric.tdisp port none } }) ∧
    (∀ i reason kill cause, ((allLaunches s).map (·.seq)).Nodup →
      (let t := resetScope i false reason kill cause s
       liveLaunches t i = [] ∧ (∀ id, (ringAt t id).region = i → (ringAt t id).en = false) ∧
       (ByteMap.wf s.mem.home = true → regionPa s i + 256 ≤ memTop → homePoison t (regionPa s i) 256 = false →
         regionState t i = if kill then 3 else 0)))

/-- REGION_TABLE_WRITE replaces an entry of a region that is idle, its zero bits kept zero; of any other it is discarded (spec/22
R337). -/
def Claims.RegionTable : Prop :=
  ∀ (s : State) (i : Nat) (v : W64),
    (i < 0xFFFF → (regionValid s i = true → regionBusy s i = false ∧ regionState s i = 0) → AList.sorted s.cp.table = true →
      ∃ t, exec (.regionTableWrite i v) s = .next t ∧ tableEntry t i = v &&& ~~~(0xFE : W64) ∧
        (∀ j, j ≠ i → tableEntry t j = tableEntry s j) ∧ t.mem = s.mem ∧ t.launches = s.launches) ∧
    ((0xFFFF ≤ i ∨ (regionValid s i = true ∧ (regionBusy s i = true ∨ regionState s i ≠ 0))) →
      exec (.regionTableWrite i v) s = .next s)

/-- The leases: a renewal counts for an active port; a port becomes active only while the other is not, and the interrupts that found
no active host go to it (that they wait is the model's choice, log 33); when a term runs out a standby takes over and the old host's
number is unreachable (spec/22 R349, R350). That the event ends a term whatever time has passed, and that a write of the reserved ROLE 3
is discarded, are the model's choices (log 45). -/
def Claims.Leases : Prop :=
  ∀ (s : State) (port : Nat), port < 2 → s.cp.leases.length = 2 →
    (roleOf s port = 1 → ∃ t, exec (.leaseRenew port) s = .next t ∧
      t.cp.leases.getD port Lease.zero = { s.cp.leases.getD port Lease.zero with renewed := s.clock } ∧
      t = { s with cp := { s.cp with leases := t.cp.leases } }) ∧
    (∀ role, role < 3 → (role = 1 → roleOf s (1 - port) ≠ 1) → ∃ t, exec (.leaseRoleWrite port role) s = .next t ∧
      roleOf t port = role ∧ roleOf t (1 - port) = roleOf s (1 - port) ∧
      t.cp.irqs = s.cp.irqs.map (fun i => if role = 1 ∧ i.port = none then { i with port := some port } else i) ∧
      t = { s with cp := { s.cp with leases := t.cp.leases, irqs := t.cp.irqs } }) ∧
    (∀ role, 3 ≤ role ∨ (role = 1 ∧ roleOf s (1 - port) = 1) → exec (.leaseRoleWrite port role) s = .next s) ∧
    (roleOf s port = 1 → roleOf s (1 - port) = 2 → ∃ t, exec (.leaseExpiry port) s = .next t ∧ roleOf t port = 0 ∧
      roleOf t (1 - port) = 1 ∧ (t.cp.leases.getD port Lease.zero).expired = true ∧
      s.mgmt.hosts.getD port 0 ∈ t.fabric.lost ∧ t.mem = s.mem) ∧
    (roleOf s port = 1 → roleOf s (1 - port) ≠ 2 → ∃ t, exec (.leaseExpiry port) s = .next t ∧ roleOf t port = 0 ∧
      roleOf t (1 - port) = roleOf s (1 - port) ∧ t.fabric = s.fabric ∧ t.mem = s.mem)

/-- REGISTER_WRITE writes the one field it names, with the bits that read as zero kept zero; a page's selector is written only through
the port that carries its function; a term outside its range and a window beyond its largest size are discarded (log 45); a ring's
words are written only while the ring is disabled, and while it is enabled only EN is cleared (spec/22 R337, R338, R349, spec/20 R325,
R331, R332). -/
def Claims.RegisterWrites : Prop :=
  ∀ s : State,
    (∀ v, exec (.registerWrite (.action v)) s = .next { s with cp := { s.cp with action := v } }) ∧
    (∀ v, exec (.registerWrite (.rgn v)) s = .next { s with cp := { s.cp with rgn := v } }) ∧
    (∀ v, exec (.registerWrite (.loadpa v)) s = .next { s with cp := { s.cp with loadpa := v &&& ~~~(0xFFF : W64) } }) ∧
    (∀ v, exec (.registerWrite (.loadlen v)) s = .next { s with cp := { s.cp with loadlen := v } }) ∧
    (∀ v, exec (.registerWrite (.loadrgn v)) s = .next { s with cp := { s.cp with loadrgn := v } }) ∧
    (∀ v, exec (.registerWrite (.loadva v)) s = .next { s with cp := { s.cp with loadva := v &&& ~~~(0xFFFF : W64) } }) ∧
    (∀ v, exec (.registerWrite (.unloadh v)) s = .next { s with cp := { s.cp with unloadh := v } }) ∧
    (∀ port region stream v, portRefuses s port region stream = none → ∃ t, exec (.registerWrite (.sel port region stream v)) s = .next t ∧
      pageAt t port region = { pageAt s port region with sel := v } ∧
      (∀ p r, (p, r) ≠ (port, region) → pageAt t p r = pageAt s p r) ∧ t = { s with cp := { s.cp with pages := t.cp.pages } }) ∧
    (∀ port region stream v a, portRefuses s port region stream = some a →
      exec (.registerWrite (.sel port region stream v)) s = .next s) ∧
    (∀ port v, port < s.cp.leases.length → 1000 ≤ v.toNat → v.toNat ≤ 60000000 → ∃ t, exec (.registerWrite (.term port v)) s = .next t ∧
      t.cp.leases.getD port Lease.zero = { s.cp.leases.getD port Lease.zero with term := v } ∧
      (∀ p, p ≠ port → t.cp.leases.getD p Lease.zero = s.cp.leases.getD p Lease.zero) ∧
      t = { s with cp := { s.cp with leases := t.cp.leases } }) ∧
    (∀ port v, v.toNat < 1000 ∨ 60000000 < v.toNat → exec (.registerWrite (.term port v)) s = .next s) ∧
    (∀ region w v, w < 16 → ∃ t, exec (.registerWrite (.windowBase region w v)) s = .next t ∧
      windowAt t region w = { windowAt s region w with base := v &&& ~~~(0xFFF : W64) } ∧
      (∀ r x, (r, x) ≠ (region, w) → windowAt t r x = windowAt s r x) ∧ t = { s with fabric := { s.fabric with windows := t.fabric.windows } }) ∧
    (∀ region w pages en wr rd, w < 16 → pages.toNat ≤ 16777216 →
      ∃ t, exec (.registerWrite (.windowCtl region w pages en wr rd)) s = .next t ∧
        windowAt t region w = { windowAt s region w with pages := pages.toNat, en := en, wr := wr, rd := rd } ∧
        (∀ r x, (r, x) ≠ (region, w) → windowAt t r x = windowAt s r x) ∧ t = { s with fabric := { s.fabric with windows := t.fabric.windows } }) ∧
    (∀ region w pages en wr rd, w < 16 → 16777216 < pages.toNat → exec (.registerWrite (.windowCtl region w pages en wr rd)) s = .next s) ∧
    (∀ ring word v, ring < 1024 → word < 3 → (ringAt s ring).en = false → ∃ t, exec (.registerWrite (.ringWord ring word v)) s = .next t ∧
      ringAt t ring = (if word = 0 then { ringAt s ring with w0 := v &&& 0xFFFF7F0000000000 }
        else if word = 1 then { ringAt s ring with w1 := v &&& 0x01FFFFFF0001FFFF }
        else { ringAt s ring with w2 := v &&& 0xFFFFFF8000000000 }) ∧
      (∀ j, j ≠ ring → ringAt t j = ringAt s j) ∧ t = { s with fabric := { s.fabric with rings := t.fabric.rings } }) ∧
    (∀ ring v, ring < 1024 → (ringAt s ring).en = true → bitAt v 47 = false → ∃ t, exec (.registerWrite (.ringWord ring 0 v)) s = .next t ∧
      ringAt t ring = { ringAt s ring with w0 := setBit (ringAt s ring).w0 47 false } ∧
      (∀ j, j ≠ ring → ringAt t j = ringAt s j) ∧ t = { s with fabric := { s.fabric with rings := t.fabric.rings } }) ∧
    (∀ ring word v, (ringAt s ring).en = true → word ≠ 0 ∨ bitAt v 47 = true → exec (.registerWrite (.ringWord ring word v)) s = .next s)

/-! ### The root core and the management pair -/

/-- OBJECT_LOAD: an image that verifies is placed, translated where the root core translates it, at LOADVA of LOADRGN's space and
LOADRES takes its handle; each check that fails, in order, gives LOADRES its code; an image verifies when its segments have their
shape, its digest is SHA-384 of its signed bytes, and its two signatures verify under the owner's keys in the fuses (spec/22 R352,
R354, R355, spec/03 R57, spec/04 R87). -/
def Claims.ObjectsLoaded : Prop :=
  ∀ (s : State) (m : Image),
    (m.signed.bytes ≠ homeBytes s s.cp.loadpa.toNat s.cp.loadlen.toNat → exec (.objectLoad m) s = .next s) ∧
    (m.signed.bytes = homeBytes s s.cp.loadpa.toNat s.cp.loadlen.toNat →
      (homePoison s s.cp.loadpa.toNat s.cp.loadlen.toNat = true → exec (.objectLoad m) s = .next (loadDone (loadFailure 1) s)) ∧
      (homePoison s s.cp.loadpa.toNat s.cp.loadlen.toNat = false →
        (∀ n, signatureFailure s.mgmt.owner m = some n → exec (.objectLoad m) s = .next (loadDone (loadFailure n) s)) ∧
        (∀ x, signatureFailure s.mgmt.owner m = none → placedImage m = some x → regionValid s s.cp.loadrgn.toNat = false →
          exec (.objectLoad m) s = .next (loadDone (loadFailure 7) s)) ∧
        (∀ x e, signatureFailure s.mgmt.owner m = none → placedImage m = some x → regionValid s s.cp.loadrgn.toNat = true →
          effectiveNow s s.cp.loadrgn.toNat = some e →
          (loaderRejects s e.eff x = true → exec (.objectLoad m) s = .next (loadDone (loadFailure 4) s)) ∧
          (loaderRejects s e.eff x = false → rangeFree s e.eff.ptRoot s.cp.loadva (spanOf (sectionsOf x)) = false →
            exec (.objectLoad m) s = .next (loadDone (loadFailure 7) s)) ∧
          (∀ fs v, loaderRejects s e.eff x = false → rangeFree s e.eff.ptRoot s.cp.loadva (spanOf (sectionsOf x)) = true →
            loadSections e.eff.ptRoot s.cp.loadva (sectionsOf (relocated s.cp.loadva (freshHandle s) x)) s = some (fs, v) →
            ∃ t, exec (.objectLoad m) s = .next t ∧ t.cp.loadres = freshHandle s ∧ t.cp.loadgo = false ∧
              t.cp.objects = v.cp.objects ++ [objectFrom x (freshHandle s) e.eff.ptRoot s.cp.loadva fs] ∧
              t.cp.nextHandle = v.cp.nextHandle + 1 ∧ t.mem = v.mem)))) ∧
    ∀ keys, (signatureFailure keys m = none ↔ m.segs ≠ [] ∧ (∀ g ∈ m.segs, segShape g = true) ∧
      m.signed.digest = sha384 (signedBytes m.signed) ∧ ∃ k, keys = some k ∧
        ecdsaOk k.ecdsa (sha384 (signedBytes m.signed)) m.signed.sigR m.signed.sigS = true ∧
        lmsOk k.lmsId k.lmsRoot m.signed.lms (sha384 (signedBytes m.signed)) = true)

/-- OBJECT_UNLOAD: an object no live launch names is unmapped and forgotten: each of its pages' leaves is cleared, no kept translation
covers one, and its frames are unsealed and free again; one in use, or a handle of none, is refused with its code (spec/22 R352, R353;
that the frames go to the end of the list of free ones is the model's choice, log 9). -/
def Claims.ObjectsUnloaded : Prop :=
  ∀ s : State,
    ((∀ o ∈ s.cp.objects, o.handle ≠ s.cp.unloadh) → ∃ t, exec .objectUnload s = .next t ∧ t.cp.loadres = loadFailure 6 ∧
      t.cp.objects = s.cp.objects ∧ t.mem = s.mem) ∧
    (∀ o, s.cp.objects.find? (fun x => x.handle == s.cp.unloadh) = some o →
      (handleInUse s o.handle = true → ∃ t, exec .objectUnload s = .next t ∧ t.cp.loadres = loadFailure 5 ∧
        t.cp.objects = s.cp.objects ∧ t.mem = s.mem) ∧
      (handleInUse s o.handle = false →
        (let u := (pageVas o.base o.pages).foldl (fun st va => unmapPage o.root va st) s
         ∃ t, exec .objectUnload s = .next t ∧ t.cp.loadres = 0 ∧ t.cp.unloadgo = false ∧
          t.cp.objects = s.cp.objects.filter (fun x => x.handle != o.handle) ∧
          t.svc.free = u.svc.free ++ o.frames.map (·, 1) ∧
          t.mem = { u.mem with sealed := u.mem.sealed.filter (fun f => !o.frames.contains f), tlb := t.mem.tlb } ∧
          (∀ e, e ∈ t.mem.tlb ↔ e ∈ u.mem.tlb ∧
            ¬(e.root = o.root ∧ (pageVas o.base o.pages).any (tlbCovers e) = true)) ∧
          t = { u with mem := t.mem, svc := t.svc, cp := t.cp }))) ∧
    (∀ root va a, ByteMap.wf s.mem.home = true → leafAddr s 5 root (va.toNat % 2 ^ 57) = some a → a + 8 ≤ memTop →
      homeBytes (unmapPage root va s) a 8 = List.replicate 8 0 ∧
      (∀ k, k < memTop → k < a ∨ a + 8 ≤ k → homeByte (unmapPage root va s) k = homeByte s k)) ∧
    (∀ root va, leafAddr s 5 root (va.toNat % 2 ^ 57) = none → unmapPage root va s = s)

/-- POWER_ON brings an unpowered part up whose firmware verifies, with its own and its hosts' numbers; with firmware that does not it
stays without power (the model's choice, log 10). POWER_DOWN leaves it as reset, but the fuses and the Strata, which an orderly one
writes first (spec/01 R11, spec/22 R352, R357, R358). -/
def Claims.PowerStates : Prop :=
  ∀ s : State,
    (∀ self h0 h1 fuses firmware, s.mgmt.powered = false → self < 0xC0000 → 0xC0000 ≤ h0 → h0 ≤ 0xFFFFE → 0xC0000 ≤ h1 → h1 ≤ 0xFFFFE →
      (firmwareOk (fused s fuses) firmware = true → ∃ t,
        exec (.powerOn self h0 h1 fuses firmware) s = .next t ∧ t.mgmt.powered = true ∧ t.mgmt.self = self ∧ t.mgmt.hosts = [h0, h1] ∧
        t.mgmt.owner = fused s fuses ∧ t.svc.running = List.replicate 32 true ∧ t.mem = s.mem ∧ t.warp = s.warp ∧ t.cp = s.cp) ∧
      (firmwareOk (fused s fuses) firmware = false → exec (.powerOn self h0 h1 fuses firmware) s =
        .next { s with mgmt := { s.mgmt with owner := fused s fuses } })) ∧
    (∀ self h0 h1 fuses firmware, 0xC0000 ≤ self ∨ h0 < 0xC0000 ∨ 0xFFFFE < h0 ∨ h1 < 0xC0000 ∨ 0xFFFFE < h1 →
      exec (.powerOn self h0 h1 fuses firmware) s = .next s) ∧
    (∀ orderly : Bool, s.mgmt.powered = true → ∃ t, exec (.powerDown orderly) s = .next t ∧ t.mgmt.powered = false ∧
      t.mem = State.reset.mem ∧ t.cp = State.reset.cp ∧ t.warp = State.reset.warp ∧ t.launches = [] ∧
      t.mgmt.owner = s.mgmt.owner ∧ t.mgmt.strata = if orderly then (writeStrata s).mgmt.strata else s.mgmt.strata)

/-- THERMAL_LIMIT holds a die's energy refills back and lowers its clock until THERMAL_LIMIT_CLEAR; neither touches a program's state
(spec/22 R358, spec/18 R301). -/
def Claims.ThermalLimits : Prop :=
  ∀ (s : State) (die : Nat), die < Config.dies →
    (∃ t, exec (.thermalLimit die) s = .next t ∧ die ∈ t.mgmt.hot ∧ die ∈ t.mgmt.clockLow ∧
      t = { s with mgmt := { s.mgmt with hot := t.mgmt.hot, clockLow := t.mgmt.clockLow } }) ∧
    (∃ t, exec (.thermalLimitClear die) s = .next t ∧ die ∉ t.mgmt.hot ∧ die ∉ t.mgmt.clockLow ∧
      t = { s with mgmt := { s.mgmt with hot := t.mgmt.hot, clockLow := t.mgmt.clockLow } })

/-- SCRUB of a line of memory with symbol errors: up to 8 are corrected and counted by pseudo-channel, 9 to 16 poison the line; a line
stored whole is poisoned no more; STRATA_UPDATE adds the counts to the Strata (spec/22 R355, R357). The keys under which the Strata keep
their counts, and that a failed pin pair has one, are the model's choice (log 46); that SCRUB stands for any read of the line is too
(log 55). -/
def Claims.MemoryErrors : Prop :=
  ∀ (s : State) (line : Nat), line * 64 < memTop →
    (∀ n, 0 < n → n ≤ 8 → exec (.scrub line n none) s = .next (countStrata (lineCounter 0 line) s)) ∧
    (∀ n, 8 < n → n ≤ 16 → ∃ t, exec (.scrub line n none) s = .next t ∧ linePoisoned t (line * 64) = true ∧
      (∀ k, k / 64 ≠ line → linePoisoned t k = linePoisoned s k) ∧ t.mem.home = s.mem.home ∧
      t.mgmt = (countStrata (lineCounter 1 line) s).mgmt) ∧
    (∀ (n p : Nat), p < 11 → 0 < n → n ≤ 8 →
      (let key := 9 * 2 ^ 20 + 16 * channelOf line + p
       AList.find s.mgmt.strata key = none → AList.find s.mgmt.pendingStrata key = none →
         exec (.scrub line n (some p)) s = .next (countStrata (lineCounter 0 line) (countStrata key s)))) ∧
    (∀ bs : List Byte, bs.length = 64 → line * 64 < 2 ^ 44 → linePoisoned (homeWrite s (line * 64) bs) (line * 64) = false) ∧
    (∀ temps power, s.mgmt.powered = true → ∃ t, exec (.strataUpdate temps power) s = .next t ∧ t.mgmt.pendingStrata = [] ∧
      t = { s with mgmt := { s.mgmt with strata := t.mgmt.strata, pendingStrata := [], counted := s.clock } })

/-! ### Encodings, the step, reset, and the invariant of memory -/

/-- Words of every class as the spec writes them out, with their fields (spec/04 R65, R74, R79 and the worked words of spec/04, 06, 07,
08, 10, 14, 19, 20). -/
def Claims.SpecWords : Prop :=
  decode 0x0101020002000000 = .ok (.fadd
    { dist := 0, ty := .f32, d := 4, a := 0, b := 1, c := 0, rnd := 0, sat := false, na := false, nb := false, nc := false,
      la := false, lb := false, lc := false, flag := 0, aux := 0 }) ∧
  decode 0x1181028400000880 = .ok (.rcp
    { dist := 4, ty := .f32, d := 5, a := 4, b := 0, c := 0, rnd := 0, sat := false, na := false, nb := false, nc := false,
      la := true, lb := false, lc := false, flag := 1, aux := 0 }) ∧
  decode 0x0010430206108800 = .ok (.imad
    { dist := 0, ty := .s32, d := 6, a := 2, b := 3, c := 4, rnd := 0, sat := true, na := false, nb := false, nc := false,
      la := true, lb := false, lc := false, flag := 0, aux := 0 }) ∧
  decode 0x701400C200040000 = .ok (.st
    { dist := 4, size := 2, space := 0, scope := 0, data := 6, base := 8, x := 0, flag := 0, lb := false, lx := false,
      ld := true, off := 0 }) ∧
  decode 0x61500CB93C200006 = .ok (.padd
    { dist := 0, size := 0, space := 0, scope := 0, data := 101, base := 100, x := 120, flag := 1, lb := false, lx := false,
      ld := false, off := 6 }) ∧
  decode 0x8112310000000045 = .ok (.mmv
    { dist := 0, va := 2, vb := 3, vc := 1, slot := 0, flag := 0, variant := 0, r1 := 0, r2 := 0, imm := 0x45 }) ∧
  decode 0xA912000000033000 = .ok (.pb { dist := 2, pred := 1, neg := false, t := 0, f := 0x33000 }) ∧
  decode 0xA150000140080000 = .ok (.barArrive { dist := 0, pred := 0, neg := false, t := 0x140, f := 0x080000 }) ∧
  decode 0xC020000000000000 = .ok (.tret { dist := 0, hi := 0, mid := 0, flag := 0, lane := 0, z := 0, csr := 0 }) ∧
  headerFields 0xE180087800000000 =
    { length := 3, wait := 1, raiseA := 0, raiseB := 15, energy := 0, z := 0 } ∧
  decode 0xE180087800000000 = .error .illegalSegment

/-- Opcodes that name no instruction, and a class H word, are refused by their cause (spec/04 R63, R80 to R85). -/
def Claims.VacantWords : Prop :=
  ∀ w : W64,
    (slice w 61 3 = 0 → (slice w 50 8).toNat ∈ [0x0E, 0x0F, 0x22, 0x27, 0x2E, 0x3F, 0x4F, 0x5F, 0x69, 0x6F, 0x76, 0xFF] →
      decode w = .error .illegalOpcode) ∧
    (slice w 61 3 = 2 → 16 ≤ (slice w 50 8).toNat → decode w = .error .illegalOpcode) ∧
    (slice w 61 3 = 3 → (slice w 52 6).toNat ∈ [0x0D, 0x0F, 0x18, 0x1F, 0x26, 0x27, 0x29, 0x2F, 0x32, 0x3F] →
      decode w = .error .illegalOpcode) ∧
    (slice w 61 3 = 4 → (slice w 52 6).toNat ∈ [0x07, 0x0B, 0x0F, 0x14, 0x17, 0x1B, 0x1F, 0x3F] → decode w = .error .illegalOpcode) ∧
    (slice w 61 3 = 5 → (slice w 52 6).toNat ∈ [0x08, 0x0F, 0x1C, 0x3F] → decode w = .error .illegalOpcode) ∧
    (slice w 61 3 = 6 → 0x0B ≤ (slice w 52 6).toNat → decode w = .error .illegalOpcode) ∧
    (slice w 61 3 = 7 → decode w = .error .illegalSegment)

/-- Decoding an instruction's word gives the instruction back: no field of any well-formed word is lost or moved (spec/04 R63, R74,
R79 to R84, R204). -/
def Obligations.DecodeOfEncode : Prop := ∀ (i : Instr) (w : W64), WellFormed i → encode i = some w → decode w = .ok i

/-- Every word that decodes is the word of its instruction: no two words mean the same (spec/04 R74, R79). -/
def Obligations.EncodeOfDecode : Prop := ∀ (w : W64) (i : Instr), decode w = .ok i → encode i = some w

/-- A powered part's step runs what stands next: the first move of the agenda; else, inside a segment of the issuing warp, the word
its PC fetches, decoded and run, or the cause of its decoding; a word that cannot be fetched raises its cause with KIND 1 at the header,
the whole group back there (spec/04 R62, R67, R85, spec/10 R195; log 30). The agenda, and that the warp that its pair chose for this clock
issues before anything else moves, are the model's order (log 3). -/
def Obligations.StepRunsTheWord : Prop :=
  ∀ s : State, s.mgmt.powered = true →
    (∀ i rest, s.agenda = i :: rest → step s = exec i { s with agenda := rest }) ∧
    (s.agenda = [] → issueReady s = true → (ctxOf s).inSeg = true → chosenNow s s.warp = true →
      (∀ w i, fetchWord s (ctxOf s).npc = .word w → decode w = .ok i → step s = exec i s) ∧
      (∀ w i, fetchWord s (ctxOf s).npc = .word w → parse w = .ok i → step s = exec i s) ∧
      (∀ w c, fetchWord s (ctxOf s).npc = .word w → parse w = .error c → step s = .next (undecoded w c s)) ∧
      (∀ r, fetchWord s (ctxOf s).npc = .bad r →
        (let g := groupMask (ctxOf s)
         let back := modCtx s fun c => { c with
           pcs := lanesOf fun l => if bitAt g l then c.segh else lane c.pcs l, inSeg := false, blocks := [] }
         let t := takeCause back 1 (ctxOf s).segh 0 g { r with lanes := g }
         step s = .next (if awaitsRecord t then holdWarp s (ctxOf t).wait else t))) ∧
      (∀ w, fetchWord s (ctxOf s).npc = .wait w → step s = .next (holdWarp s w)))

/-- What a cold reset leaves, as far as the spec gives it: no lease, a term of 1,000,000 µs, the first sequence number 1, no region, no
enabled ring, registers and counters zero (spec/22 R337, R338, R342, R349, spec/20 R325). That the part has no power then is the model's
reading (log 4). -/
def Claims.ResetValues : Prop :=
  State.reset.cp.reamHead = 1 ∧ State.reset.cp.leases = [{ role := 0, term := 1000000, renewed := 0, expired := false },
    { role := 0, term := 1000000, renewed := 0, expired := false }] ∧
  (∀ i, regionValid State.reset i = false) ∧ State.reset.cp.loadres = 0 ∧ State.reset.cp.go = false ∧ State.reset.cp.loadgo = false ∧
  (∀ r, (ringAt State.reset r).en = false ∧ (ringAt State.reset r).written = 0 ∧ (ringAt State.reset r).lmsg = 0) ∧
  (∀ port region, (pageAt State.reset port region).accepts = 0 ∧ (pageAt State.reset port region).lastSeq = 0) ∧
  State.reset.mgmt.powered = false

/-- Memory is in its canonical form: addresses strictly rise, and no entry holds what an unlisted address reads as (log 1). -/
def Claims.ResetMemoryCanonical : Prop := ByteMap.wf State.reset.mem.home = true

/-- Whatever step a machine takes, its memory stays in canonical form (log 1 fixes what an unlisted address reads as). -/
def Obligations.MemoryStaysCanonical : Prop :=
  ∀ s t : State, ByteMap.wf s.mem.home = true → step s = .next t → ByteMap.wf t.mem.home = true

/-! ### Reads too early, misses, budgets, k registers -/

/-- An early read of a register sees, in each lane, what it held before or its result (spec/04 R70): of a fixed-latency result the one
or the other, of an operation in flight the old value, or its result once that is fixed; with no result open it is the register. Which
of the two is open (log 7). -/
def Claims.EarlyReads : Prop :=
  ∀ (s : State) (n l : Nat),
    (hazAt (ctxOf s) (.g n) l = none → (readG s n l).toNat = gValue s n l) ∧
    (∀ z, hazAt (ctxOf s) (.g n) l = some z → z.op = none →
      readG s n l = (lane z.old l).setWidth 32 ∨ (readG s n l).toNat = gValue s n l) ∧
    (∀ z op, hazAt (ctxOf s) (.g n) l = some z → z.op = some op →
      readG s n l = (lane z.old l).setWidth 32 ∨ ∃ v, comingValue s op (.g n) l = some v ∧ readG s n l = v.setWidth 32)

/-- The separations: a result of IADD is open for 2 clocks of distance, of IMUL for 4 or 6, of FADD for 4 or 6; what is open closes as
the words after it issue with their distances (spec/04 R67, R68). -/
def Claims.Separations : Prop :=
  (∀ f : A3, Separates (.iadd f) f 2 ∧ Separates (.imul f) f (if tyWidth f.ty = 64 then 6 else 4) ∧
    Separates (.fadd f) f (if f.ty = .f64 then 6 else 4)) ∧
  (∀ (d : Nat) (hs : List Haz) (z : Haz), z.op = none →
    (z ∈ tickHaz d hs ↔ ∃ y ∈ hs, y.op = none ∧ d < y.left ∧ z = { y with left := y.left - d }))

/-- A register miss stalls the warp at the word while a line for it can be had. A word without room for its result spills the lowest
line of its warp that may be spilled and is no operand, and issues again; with none to spill it parks (spec/05 R97; which line, and the
order, are log 19's choice). Different values for a k register raise NONUNIFORM_OPERAND for the threads that run the word, with no other
effect (spec/05 R90). -/
def Claims.MissesAndBudgets : Prop :=
  ∀ (f : A3) (s : State), Ready (.iadd f) s →
    (let us := [useA f (tyWidth f.ty), useB f (tyWidth f.ty)]
     let v := fun l => intLane f.ty f.sat (fun x y _ => x + y) (srcA f s l) (srcB f s l) 0
     let keep := us.flatMap useRegs
     (∀ n, missing s us = some n → lineRoom s 1 = true → ∃ t, exec (.iadd f) s = .next t ∧ Waits s t f.dist (.fill n) false) ∧
     (Present s us → isG f.d = true → ¬RoomFor s us (dstLines f.d (tyWidth f.ty)) →
       (victimLine (ctxOf s) keep = none → (∀ x, s.warp.trap = some x → victimLine x.intr [] = none) →
         ∃ t, exec (.iadd f) s = .next t ∧ Waits s t f.dist .lineBudget true) ∧
       (∀ n, victimLine (ctxOf s) keep = some n → firstUnmapped s [gVa (ctxOf s) n] = none →
         exec (.iadd f) s = .next (holdWarp (spillHere n (tick f.dist s)) .earlier))) ∧
     (Readable s (reads us s) → isK f.d = true → (∃ l ∈ runners s, v l ≠ v (lowLane (runMask (ctxOf s)))) →
       exec (.iadd f) s = .next (wordCause (tick f.dist s) (.iadd f) (runMask (ctxOf s))
         { cause := .nonuniformOperand, lanes := runMask (ctxOf s), addr := 0, info := 0 })))

/-- The rest of the tag table's rule: a slot of 0xFFFF_FFFE or above is TAG_RANGE in the lanes that name it; the fields that must be zero
are checked; a table is empty at its gang's birth, and never holds a key twice (spec/08 R168). -/
def Claims.TagRules : Prop :=
  (∀ (f : MW) (s : State), Ready (.sptag f) s → Readable s (reads [useKey f, useX f 32] s) →
    (∃ l ∈ runners s, 0xFFFFFFFE ≤ source s 32 f.x l) →
    exec (.sptag f) s = .next (wordCause (tick f.dist s) (.sptag f) (runMask (ctxOf s))
      { cause := .tagRange, lanes := maskOf fun l => bitAt (runMask (ctxOf s)) l && decide (0xFFFFFFFE ≤ source s 32 f.x l),
        addr := 0, info := 0 })) ∧
  (∀ f : MW, (f.size ≠ 0 ∨ f.space ≠ 0 ∨ f.scope ≠ 0 ∨ f.off ≠ 0 →
      staticCause (.splook f) = some .illegalEncoding ∧ staticCause (.sptag f) = some .illegalEncoding ∧
      staticCause (.spinv f) = some .illegalEncoding) ∧
    (f.x ≠ 0 → staticCause (.splook f) = some .illegalEncoding ∧ staticCause (.spinv f) = some .illegalEncoding)) ∧
  (∀ (l : Launch) (core gang : Nat), (freshGang l core gang).tags = [] ∧ (freshGang l core gang).tagSize = l.tags) ∧
  (∀ (key : W64) (slot : W32) (cap : Nat) (t : List (W64 × W32)), (t.map (·.1)).Nodup →
    ((tagInstall key slot cap t).2.map (·.1)).Nodup ∧ ((tagDrop key slot cap t).2.map (·.1)).Nodup)

/-- The bank rule of paired words: ILLEGAL_PAIRING exactly when both slots write g registers of one bank or one bank is read more than
twice, each slot counting its D and its S as reads; k and special registers have no bank (spec/04 R75). -/
def Claims.BankRule : Prop :=
  ∀ (op : SlotOp) (p : Ap), (chkAp op p).enc = false → (chkAp op p).bad = false →
    (let bank (r : BitVec 7) (b : Nat) : Bool := decide (r.toNat < 96) && r.toNat % 4 == b
     let fields := [p.own.d, p.own.s] ++ (match p.other with | some y => [y.args.d, y.args.s] | none => [])
     let clash := (∃ y b, p.other = some y ∧ bank p.own.d b = true ∧ bank y.args.d b = true) ∨
       ∃ b < 4, 2 < (fields.filter fun r => bank r b).length
     (clash → staticCause (apInstr op p) = some .illegalPairing) ∧ (¬clash → staticCause (apInstr op p) = none))

/-! ### The statements that join several clauses -/

/-- Integer arithmetic words write the exact result, reduced or clamped element by element, and nothing else. -/
def Obligations.IntegerWords : Prop :=
  Claims.IntegerArithmetic ∧ Claims.IntegerElements

/-- Bit, shift, move, compare and select words complete with their result and nothing else. -/
def Obligations.BitAndCompareWords : Prop :=
  Claims.BitWords ∧ Claims.CompareAndSelect

/-- Both slots of a paired word read before either writes; the bank rule decides ILLEGAL_PAIRING (one k register named twice: log 47). -/
def Obligations.PairedSlots : Prop :=
  Claims.PairedWords ∧ Claims.BankRule

/-- Invalid operations, rounding modes, and exactness of representable values. -/
def Obligations.FloatCorners : Prop :=
  Claims.FloatInvalid ∧ Claims.RoundingModes ∧ Claims.RepresentableIsExact

/-- Loads, stores, atomics, full-empty and tag words issue their accesses and change nothing else. -/
def Obligations.MemoryWords : Prop :=
  Claims.LoadWords ∧ Claims.StoreWords ∧ Claims.AtomicWords ∧ Claims.TagWords

/-- The tag table: lookups, installs, removals, their misuse, and unique keys. -/
def Obligations.TagTableRule : Prop :=
  Claims.TagTable ∧ Claims.TagRules ∧ Claims.TagWords

/-- Counter and timeline waits and the barrier words: when they go on, wait or are misuse. -/
def Obligations.WaitsAndBarriers : Prop :=
  Claims.CounterWaits ∧ Claims.BarrierWords

/-- A barrier phase completes after its members and its announced bytes. -/
def Obligations.BarrierPhases : Prop :=
  Claims.BarrierPhases ∧ Claims.AnnouncedBytes

/-- GOTO, BRC, BRX, EXIT, YIELD, MEET, PB and NOP have their effect and nothing else. -/
def Obligations.ControlWords : Prop :=
  Claims.Terminators ∧ Claims.MeetBlockAndNop

/-- CALL and RET push and pop return points; depth and empty stacks are causes. -/
def Obligations.CallsAndReturns : Prop :=
  Claims.CallsAndReturns ∧ Claims.CallLimits

/-- A word with a decode cause takes the exception and has no other effect; IDOT4 is vacant. -/
def Obligations.DecodeCauses : Prop :=
  Claims.DecodeCauseTaken ∧ Claims.VacantOpcodeTraps

/-- TRAP n takes software cause n with the PCs at the next word; NOP has no effect; TRET resumes. -/
def Obligations.SoftwareTraps : Prop :=
  Claims.SoftwareTrap ∧ Claims.NopWords ∧ Claims.TrapReturn

/-- Names and short pointers: LDP, STP, LDN, STN, PEQ, PADD, PNAME, PRES. -/
def Obligations.PointerWords : Prop :=
  Claims.PointerWords ∧ Claims.PointerEquality

/-- View words define, change, read, retire and access through views. -/
def Obligations.ViewWords : Prop :=
  Claims.ViewWords ∧ Claims.ViewAccess

/-- Collective and token words issue their operations. -/
def Obligations.FabricWords : Prop :=
  Claims.CollectiveWords ∧ Claims.TokenWords

/-- A segment boundary releases, chooses a group and starts its segment. -/
def Obligations.SegmentsAndGroups : Prop :=
  Claims.SegmentStarts ∧ Claims.GroupChoice

/-- Waits end when what they wait for has come; fills, spills and context pages. -/
def Obligations.WaitsEnd : Prop :=
  Claims.WaitsEnd ∧ Claims.RegisterFillsAndSpills ∧ Claims.ContextPages

/-- A warp is activated, and retires when all its threads have exited. -/
def Obligations.WarpLives : Prop :=
  Claims.Activation ∧ Claims.Retirement

/-- Gangs are born with empty allocations, retire, spill and are restored. -/
def Obligations.GangLives : Prop :=
  Claims.GangBirth ∧ Claims.GangsLeaveAndReturn

/-- Check mode, storage errors, cores withdrawn and returned, partitions swapped, a pair choosing, pre-emption requested. -/
def Obligations.CoresAndPartitions : Prop :=
  Claims.CheckMode ∧ Claims.CoresAndPartitions ∧ Claims.ChooseAndPreempt

/-- Words the spec writes out decode to their instructions; vacant opcodes are refused. -/
def Obligations.SpecWords : Prop :=
  Claims.SpecWords ∧ Claims.VacantWords

/-- What a cold reset leaves, and that its memory is canonical (log 1). -/
def Obligations.ResetState : Prop :=
  Claims.ResetValues ∧ Claims.ResetMemoryCanonical

/-- Early reads, separations, register misses, line budgets and nonuniform k results. -/
def Obligations.OperandHazards : Prop :=
  Claims.EarlyReads ∧ Claims.Separations ∧ Claims.MissesAndBudgets

/-- What is stored is read back at its place, and no other byte changes. -/
def Obligations.MemoryAtHome : Prop :=
  Claims.HomeWrites ∧ Claims.OwnStoresAreSeen ∧ Claims.ScratchAccesses

/-- An atomic at its home answers the old value and leaves the new one. -/
def Obligations.Atomics : Prop :=
  Claims.AtomicsAtHome ∧ Claims.AtomicValues

/-- Engine operations: chunks, deliveries, energy, tile rows, their end, collective matching. -/
def Obligations.EngineWork : Prop :=
  Claims.Chunks ∧ Claims.DeliveryAndEnergy ∧ Claims.EngineEnds ∧ Claims.CollectiveMatches ∧ Claims.TileRows

/-- Timeline counters, the combining tree, span checksums, and exact dot products. -/
def Obligations.EngineNumbers : Prop :=
  Claims.TimelineOrder ∧ Claims.CombiningTree ∧ Claims.SpanChecksums ∧ Claims.ExactDotProduct

/-- Package writes in order, write-backs, packets, lost peers and tokens. -/
def Obligations.PackageAndFabric : Prop :=
  Claims.PackageWrites ∧ Claims.WriteBacks ∧ Claims.FabricPackets ∧ Claims.PeersAndLinks ∧ Claims.Tokens

/-- Messages land in enabled rings behind their header, or are counted; rings are enabled. -/
def Obligations.RingsAndMessages : Prop :=
  Claims.MessagesLand ∧ Claims.RingsEnabled

/-- A host writes and reads through landing windows; TDISP interfaces. -/
def Obligations.HostAccesses : Prop :=
  Claims.HostWrites ∧ Claims.HostReads ∧ Claims.Tdisp

/-- A record is admitted, waits for its conditions, and starts. -/
def Obligations.Submissions : Prop :=
  Claims.Submissions ∧ Claims.WaitConditions ∧ Claims.LaunchesStart

/-- Causes are settled by FAULT_DOM; a killed launch leaves nothing but its Ream entry. -/
def Obligations.CausesAndKills : Prop :=
  Claims.CausesSettled ∧ Claims.KilledLaunches

/-- Region resets, kills and revivals, function-level resets, and the region table. -/
def Obligations.ResetsAndRegions : Prop :=
  Claims.Resets ∧ Claims.RegionTable

/-- Leases of two hosts, and the registers privileged software writes. -/
def Obligations.LeasesAndRegisters : Prop :=
  Claims.Leases ∧ Claims.RegisterWrites

/-- Objects are verified, placed and unloaded, each refusal with its code. -/
def Obligations.Objects : Prop :=
  Claims.ObjectsLoaded ∧ Claims.ObjectsUnloaded

/-- Service cores resolve pages and bindings, evict and migrate; power, temperature, memory errors. -/
def Obligations.ServicesAndPower : Prop :=
  Claims.PageService ∧ Claims.BindingService ∧ Claims.EvictionAndMigration ∧ Claims.PowerStates ∧ Claims.ThermalLimits ∧
  Claims.MemoryErrors
end

