-- ==== Sys2Proof/Laws/Views.lean ====
section
/-! SUPPORT. What the checks of an access look at: two states that agree on it find the same places and the same causes. -/

namespace Sys2Proof.Laws

open Sys2Proof.Machine

/-- Two states that agree on all that translation and the checks of R160 look at. -/
structure SameView (s t : State) : Prop where
  mem : t.mem = s.mem
  launch : t.launch = s.launch
  svc : t.svc = s.svc
  fabric : t.fabric = s.fabric
  mgmt : t.mgmt = s.mgmt
  gang : t.gang = s.gang
  freeCtr : t.freeCtr = s.freeCtr
  id : t.warp.id = s.warp.id
  trap : t.warp.trap = s.warp.trap

theorem sameView_tick (d : BitVec 3) (s : State) : SameView s (tick d s) := ⟨rfl, rfl, rfl, rfl, rfl, rfl, rfl, rfl, rfl⟩

theorem sameView_modCtx (s : State) (f : Ctx → Ctx) : SameView s (modCtx s f) := ⟨rfl, rfl, rfl, rfl, rfl, rfl, rfl, rfl, rfl⟩

theorem SameView.trans {s t u : State} (h : SameView s t) (g : SameView t u) : SameView s u :=
  ⟨g.mem.trans h.mem, g.launch.trans h.launch, g.svc.trans h.svc, g.fabric.trans h.fabric, g.mgmt.trans h.mgmt,
   g.gang.trans h.gang, g.freeCtr.trans h.freeCtr, g.id.trans h.id, g.trap.trans h.trap⟩

variable {s t : State}

theorem homeByte_same (h : SameView s t) (k : Nat) : homeByte t k = homeByte s k := by
  simp only [homeByte, ringAt, h.mem, h.fabric]

theorem homeBytes_same (h : SameView s t) (k n : Nat) : homeBytes t k n = homeBytes s k n := by
  simp only [homeBytes, homeByte_same h]

theorem homeWord_same (h : SameView s t) (k : Nat) : homeWord t k = homeWord s k := by
  simp only [homeWord, homeBytes_same h]

theorem homePoison_same (h : SameView s t) (k n : Nat) : homePoison t k n = homePoison s k n := by
  simp only [homePoison, linePoisoned, h.mem]

theorem walkFrom_same (h : SameView s t) (lv table va : Nat) : walkFrom t lv table va = walkFrom s lv table va := by
  induction lv generalizing table with
  | zero => rfl
  | succ n ih => simp only [walkFrom, homeWord_same h, homePoison_same h, ih]

theorem walk_same (h : SameView s t) (root : Nat) (va : W64) : walk t root va = walk s root va := by
  simp only [walk, walkFrom_same h]

theorem tlbFind_same (h : SameView s t) (root : Nat) (va : W64) : tlbFind t root va = tlbFind s root va := by
  simp only [tlbFind, h.mem]

theorem translation_same (h : SameView s t) (root : Nat) (va : W64) : translation t root va = translation s root va := by
  simp only [translation, tlbFind_same h, walk_same h, h.freeCtr]

theorem leafKey_same (h : SameView s t) (pte va : W64) : leafKey t pte va = leafKey s pte va := by
  simp only [leafKey, h.mgmt]

theorem entryKey_same (h : SameView s t) (root : Nat) (table : W64) (slot : Nat) :
    entryKey t root table slot = entryKey s root table slot := by
  simp only [entryKey, walk_same h, leafKey_same h]

theorem entryLost_same (h : SameView s t) (root : Nat) (table : W64) (slot : Nat) :
    entryLost t root table slot = entryLost s root table slot := by
  simp only [entryLost, walk_same h, leafKey_same h, homePoison_same h]

theorem entryAt_same (h : SameView s t) (root : Nat) (table : W64) (slot : Nat) :
    entryAt t root table slot = entryAt s root table slot := by
  simp only [entryAt, entryKey_same h, homeWord_same h]

theorem myEntry_same (h : SameView s t) (slot : Nat) : myEntry t slot = myEntry s slot := by
  simp only [myEntry, rootOf_, h.launch, entryAt_same h]

theorem myEntryLost_same (h : SameView s t) (slot : Nat) : myEntryLost t slot = myEntryLost s slot := by
  simp only [myEntryLost, rootOf_, h.launch, entryLost_same h]

theorem areaKey_same (h : SameView s t) (va : W64) : areaKey t va = areaKey s va := by
  simp only [areaKey, keyIn, rootOf_, h.launch, walk_same h, leafKey_same h]

theorem areaAllows_same (h : SameView s t) (w : Want) (pa : Nat) : areaAllows t w pa = areaAllows s w pa := by
  simp only [areaAllows, slotReadable, ringAt, h.fabric, h.launch]
  rfl

theorem leafSealed_same (h : SameView s t) (pte va : W64) : leafSealed t pte va = leafSealed s pte va := by
  simp only [leafSealed, frameSealed, h.mem]

theorem leafAllows_same (h : SameView s t) (w : Want) (pte va : W64) : leafAllows t w pte va = leafAllows s w pte va := by
  simp only [leafAllows, leafSealed_same h]

theorem checkLeaf_same (h : SameView s t) (root : Nat) (w : Want) (va pte : W64) :
    checkLeaf t root w va pte = checkLeaf s root w va pte := by
  simp only [checkLeaf, leafKey_same h, leafAllows_same h, leafSealed_same h, areaAllows_same h, tokenState, tokenRefused, allocOf, h.fabric, h.svc, h.id]
  rfl

theorem checkTranslated_same (h : SameView s t) (root : Nat) (w : Want) (va : W64) :
    checkTranslated t root w va = checkTranslated s root w va := by
  simp only [checkTranslated, translation_same h, checkLeaf_same h, allocOf, trapMode, inTrapPool, tokenRefused, onTheMove, h.svc, h.launch,
    h.id, h.trap]
  rfl

theorem checkGlobal_same (h : SameView s t) (w : Want) (n align : Nat) (va : W64) :
    checkGlobal t w n align va = checkGlobal s w n align va := by
  simp only [checkGlobal, checkAperture, rootOf_, h.launch, myEntry_same h, myEntryLost_same h, checkTranslated_same h]

theorem checkLane_same (h : SameView s t) (space : Nat) (w : Want) (n : Nat) (a : W64) :
    checkLane t space w n a = checkLane s space w n a := by
  simp only [checkLane, checkGlobal_same h, checkScratch, checkContext, lineHere, areaKey_same h, h.gang, h.trap]
  rfl

end Sys2Proof.Laws
end

