-- ==== Sys2Proof/Laws/State.lean ====
section
/-! SUPPORT. For each update of the state one lemma per field: what it writes and what it leaves alone. Proofs cite these and never
unfold an update. -/

namespace Sys2Proof.Laws

open Sys2Proof.Machine

/-! ### The context of the issuing warp -/

@[simp] theorem modCtx_clock (s : State) (f : Ctx → Ctx) : (modCtx s f).clock = s.clock := rfl
@[simp] theorem modCtx_freeCtr (s : State) (f : Ctx → Ctx) : (modCtx s f).freeCtr = s.freeCtr := rfl
@[simp] theorem modCtx_agenda (s : State) (f : Ctx → Ctx) : (modCtx s f).agenda = s.agenda := rfl
@[simp] theorem modCtx_gang (s : State) (f : Ctx → Ctx) : (modCtx s f).gang = s.gang := rfl
@[simp] theorem modCtx_launch (s : State) (f : Ctx → Ctx) : (modCtx s f).launch = s.launch := rfl
@[simp] theorem modCtx_warps (s : State) (f : Ctx → Ctx) : (modCtx s f).warps = s.warps := rfl
@[simp] theorem modCtx_gangs (s : State) (f : Ctx → Ctx) : (modCtx s f).gangs = s.gangs := rfl
@[simp] theorem modCtx_launches (s : State) (f : Ctx → Ctx) : (modCtx s f).launches = s.launches := rfl
@[simp] theorem modCtx_cores (s : State) (f : Ctx → Ctx) : (modCtx s f).cores = s.cores := rfl
@[simp] theorem modCtx_mem (s : State) (f : Ctx → Ctx) : (modCtx s f).mem = s.mem := rfl
@[simp] theorem modCtx_engines (s : State) (f : Ctx → Ctx) : (modCtx s f).engines = s.engines := rfl
@[simp] theorem modCtx_fabric (s : State) (f : Ctx → Ctx) : (modCtx s f).fabric = s.fabric := rfl
@[simp] theorem modCtx_cp (s : State) (f : Ctx → Ctx) : (modCtx s f).cp = s.cp := rfl
@[simp] theorem modCtx_svc (s : State) (f : Ctx → Ctx) : (modCtx s f).svc = s.svc := rfl
@[simp] theorem modCtx_mgmt (s : State) (f : Ctx → Ctx) : (modCtx s f).mgmt = s.mgmt := rfl
@[simp] theorem modCtx_nextOp (s : State) (f : Ctx → Ctx) : (modCtx s f).nextOp = s.nextOp := rfl
@[simp] theorem modCtx_warp_id (s : State) (f : Ctx → Ctx) : (modCtx s f).warp.id = s.warp.id := rfl
@[simp] theorem modCtx_warp_state (s : State) (f : Ctx → Ctx) : (modCtx s f).warp.state = s.warp.state := rfl
@[simp] theorem modCtx_warp_res (s : State) (f : Ctx → Ctx) : (modCtx s f).warp.res = s.warp.res := rfl
@[simp] theorem modCtx_warp_trap (s : State) (f : Ctx → Ctx) : (modCtx s f).warp.trap = s.warp.trap := rfl
@[simp] theorem modCtx_warp_held (s : State) (f : Ctx → Ctx) : (modCtx s f).warp.held = s.warp.held := rfl
@[simp] theorem modCtx_warp_preempt (s : State) (f : Ctx → Ctx) : (modCtx s f).warp.preempt = s.warp.preempt := rfl
@[simp] theorem modCtx_warp_stopped (s : State) (f : Ctx → Ctx) : (modCtx s f).warp.stopped = s.warp.stopped := rfl
@[simp] theorem modCtx_warp_slot (s : State) (f : Ctx → Ctx) : (modCtx s f).warp.slot = s.warp.slot := rfl
@[simp] theorem modCtx_warp_hasSlot (s : State) (f : Ctx → Ctx) : (modCtx s f).warp.hasSlot = s.warp.hasSlot := rfl
@[simp] theorem modCtx_warp_callSlot (s : State) (f : Ctx → Ctx) : (modCtx s f).warp.callSlot = s.warp.callSlot := rfl
@[simp] theorem modCtx_warp_core (s : State) (f : Ctx → Ctx) : (modCtx s f).warp.core = s.warp.core := rfl
@[simp] theorem modCtx_warp_pair (s : State) (f : Ctx → Ctx) : (modCtx s f).warp.pair = s.warp.pair := rfl
@[simp] theorem modCtx_warp_actSlot (s : State) (f : Ctx → Ctx) : (modCtx s f).warp.actSlot = s.warp.actSlot := rfl
@[simp] theorem modCtx_warp_skip (s : State) (f : Ctx → Ctx) : (modCtx s f).warp.skip = s.warp.skip := rfl
@[simp] theorem modCtx_warp_lastIssue (s : State) (f : Ctx → Ctx) : (modCtx s f).warp.lastIssue = s.warp.lastIssue := rfl
@[simp] theorem modCtx_warp_parkedAt (s : State) (f : Ctx → Ctx) : (modCtx s f).warp.parkedAt = s.warp.parkedAt := rfl
@[simp] theorem modCtx_warp_check (s : State) (f : Ctx → Ctx) : (modCtx s f).warp.check = s.warp.check := rfl
@[simp] theorem modCtx_warp_emitted (s : State) (f : Ctx → Ctx) : (modCtx s f).warp.emitted = s.warp.emitted := rfl
@[simp] theorem modCtx_warp_yielded (s : State) (f : Ctx → Ctx) : (modCtx s f).warp.yielded = s.warp.yielded := rfl
@[simp] theorem modCtx_warp_reviews (s : State) (f : Ctx → Ctx) : (modCtx s f).warp.reviews = s.warp.reviews := rfl
@[simp] theorem modCtx_warp_fromSlots (s : State) (f : Ctx → Ctx) : (modCtx s f).warp.fromSlots = s.warp.fromSlots := rfl
@[simp] theorem modCtx_warp_badEntry (s : State) (f : Ctx → Ctx) : (modCtx s f).warp.badEntry = s.warp.badEntry := rfl
@[simp] theorem modCtx_warp_evicting (s : State) (f : Ctx → Ctx) : (modCtx s f).warp.evicting = s.warp.evicting := rfl
@[simp] theorem modCtx_warp_leaving (s : State) (f : Ctx → Ctx) : (modCtx s f).warp.leaving = s.warp.leaving := rfl

@[simp] theorem modCtx_ctx (s : State) (f : Ctx → Ctx) : ctxOf (modCtx s f) = f (ctxOf s) := rfl
@[simp] theorem modCtx_twice (s : State) (f g : Ctx → Ctx) : modCtx (modCtx s f) g = modCtx s fun c => g (f c) := rfl

/-! ### A word issues with its distance -/

@[simp] theorem tick_clock (d : BitVec 3) (s : State) : (tick d s).clock = s.clock + max 1 d.toNat := rfl
@[simp] theorem tick_freeCtr (d : BitVec 3) (s : State) : (tick d s).freeCtr = s.freeCtr := rfl
@[simp] theorem tick_agenda (d : BitVec 3) (s : State) : (tick d s).agenda = s.agenda := rfl
@[simp] theorem tick_gang (d : BitVec 3) (s : State) : (tick d s).gang = s.gang := rfl
@[simp] theorem tick_launch (d : BitVec 3) (s : State) : (tick d s).launch = s.launch := rfl
@[simp] theorem tick_warps (d : BitVec 3) (s : State) : (tick d s).warps = s.warps := rfl
@[simp] theorem tick_gangs (d : BitVec 3) (s : State) : (tick d s).gangs = s.gangs := rfl
@[simp] theorem tick_launches (d : BitVec 3) (s : State) : (tick d s).launches = s.launches := rfl
@[simp] theorem tick_cores (d : BitVec 3) (s : State) : (tick d s).cores = s.cores := rfl
@[simp] theorem tick_mem (d : BitVec 3) (s : State) : (tick d s).mem = s.mem := rfl
@[simp] theorem tick_engines (d : BitVec 3) (s : State) : (tick d s).engines = s.engines := rfl
@[simp] theorem tick_fabric (d : BitVec 3) (s : State) : (tick d s).fabric = s.fabric := rfl
@[simp] theorem tick_cp (d : BitVec 3) (s : State) : (tick d s).cp = s.cp := rfl
@[simp] theorem tick_svc (d : BitVec 3) (s : State) : (tick d s).svc = s.svc := rfl
@[simp] theorem tick_mgmt (d : BitVec 3) (s : State) : (tick d s).mgmt = s.mgmt := rfl
@[simp] theorem tick_nextOp (d : BitVec 3) (s : State) : (tick d s).nextOp = s.nextOp := rfl
@[simp] theorem tick_warp_id (d : BitVec 3) (s : State) : (tick d s).warp.id = s.warp.id := rfl
@[simp] theorem tick_warp_state (d : BitVec 3) (s : State) : (tick d s).warp.state = s.warp.state := rfl
@[simp] theorem tick_warp_res (d : BitVec 3) (s : State) : (tick d s).warp.res = s.warp.res := rfl
@[simp] theorem tick_warp_trap (d : BitVec 3) (s : State) : (tick d s).warp.trap = s.warp.trap := rfl
@[simp] theorem tick_warp_held (d : BitVec 3) (s : State) : (tick d s).warp.held = s.warp.held := rfl
@[simp] theorem tick_warp_preempt (d : BitVec 3) (s : State) : (tick d s).warp.preempt = s.warp.preempt := rfl
@[simp] theorem tick_warp_stopped (d : BitVec 3) (s : State) : (tick d s).warp.stopped = s.warp.stopped := rfl
@[simp] theorem tick_warp_slot (d : BitVec 3) (s : State) : (tick d s).warp.slot = s.warp.slot := rfl
@[simp] theorem tick_warp_hasSlot (d : BitVec 3) (s : State) : (tick d s).warp.hasSlot = s.warp.hasSlot := rfl
@[simp] theorem tick_warp_callSlot (d : BitVec 3) (s : State) : (tick d s).warp.callSlot = s.warp.callSlot := rfl
@[simp] theorem tick_warp_core (d : BitVec 3) (s : State) : (tick d s).warp.core = s.warp.core := rfl
@[simp] theorem tick_warp_pair (d : BitVec 3) (s : State) : (tick d s).warp.pair = s.warp.pair := rfl
@[simp] theorem tick_warp_actSlot (d : BitVec 3) (s : State) : (tick d s).warp.actSlot = s.warp.actSlot := rfl
@[simp] theorem tick_warp_skip (d : BitVec 3) (s : State) : (tick d s).warp.skip = s.warp.skip := rfl
@[simp] theorem tick_warp_lastIssue (d : BitVec 3) (s : State) : (tick d s).warp.lastIssue = s.clock + max 1 d.toNat := rfl
@[simp] theorem tick_warp_parkedAt (d : BitVec 3) (s : State) : (tick d s).warp.parkedAt = s.warp.parkedAt := rfl
@[simp] theorem tick_warp_check (d : BitVec 3) (s : State) : (tick d s).warp.check = s.warp.check := rfl
@[simp] theorem tick_warp_emitted (d : BitVec 3) (s : State) : (tick d s).warp.emitted = s.warp.emitted := rfl
@[simp] theorem tick_warp_yielded (d : BitVec 3) (s : State) : (tick d s).warp.yielded = s.warp.yielded := rfl
@[simp] theorem tick_warp_reviews (d : BitVec 3) (s : State) : (tick d s).warp.reviews = s.warp.reviews := rfl
@[simp] theorem tick_warp_fromSlots (d : BitVec 3) (s : State) : (tick d s).warp.fromSlots = s.warp.fromSlots := rfl
@[simp] theorem tick_warp_badEntry (d : BitVec 3) (s : State) : (tick d s).warp.badEntry = s.warp.badEntry := rfl
@[simp] theorem tick_warp_evicting (d : BitVec 3) (s : State) : (tick d s).warp.evicting = s.warp.evicting := rfl
@[simp] theorem tick_warp_leaving (d : BitVec 3) (s : State) : (tick d s).warp.leaving = s.warp.leaving := rfl

/-! ### The next word -/

@[simp] theorem advance_clock (s : State) : (advance s).clock = s.clock := rfl
@[simp] theorem advance_freeCtr (s : State) : (advance s).freeCtr = s.freeCtr := rfl
@[simp] theorem advance_agenda (s : State) : (advance s).agenda = s.agenda := rfl
@[simp] theorem advance_gang (s : State) : (advance s).gang = s.gang := rfl
@[simp] theorem advance_launch (s : State) : (advance s).launch = s.launch := rfl
@[simp] theorem advance_warps (s : State) : (advance s).warps = s.warps := rfl
@[simp] theorem advance_gangs (s : State) : (advance s).gangs = s.gangs := rfl
@[simp] theorem advance_launches (s : State) : (advance s).launches = s.launches := rfl
@[simp] theorem advance_cores (s : State) : (advance s).cores = s.cores := rfl
@[simp] theorem advance_mem (s : State) : (advance s).mem = s.mem := rfl
@[simp] theorem advance_engines (s : State) : (advance s).engines = s.engines := rfl
@[simp] theorem advance_fabric (s : State) : (advance s).fabric = s.fabric := rfl
@[simp] theorem advance_cp (s : State) : (advance s).cp = s.cp := rfl
@[simp] theorem advance_svc (s : State) : (advance s).svc = s.svc := rfl
@[simp] theorem advance_mgmt (s : State) : (advance s).mgmt = s.mgmt := rfl
@[simp] theorem advance_nextOp (s : State) : (advance s).nextOp = s.nextOp := rfl
@[simp] theorem advance_warp_id (s : State) : (advance s).warp.id = s.warp.id := rfl
@[simp] theorem advance_warp_state (s : State) : (advance s).warp.state = s.warp.state := rfl
@[simp] theorem advance_warp_res (s : State) : (advance s).warp.res = s.warp.res := rfl
@[simp] theorem advance_warp_trap (s : State) : (advance s).warp.trap = s.warp.trap := rfl
@[simp] theorem advance_warp_held (s : State) : (advance s).warp.held = s.warp.held := rfl
@[simp] theorem advance_warp_preempt (s : State) : (advance s).warp.preempt = s.warp.preempt := rfl
@[simp] theorem advance_warp_stopped (s : State) : (advance s).warp.stopped = s.warp.stopped := rfl
@[simp] theorem advance_warp_slot (s : State) : (advance s).warp.slot = s.warp.slot := rfl
@[simp] theorem advance_warp_hasSlot (s : State) : (advance s).warp.hasSlot = s.warp.hasSlot := rfl
@[simp] theorem advance_warp_callSlot (s : State) : (advance s).warp.callSlot = s.warp.callSlot := rfl
@[simp] theorem advance_warp_core (s : State) : (advance s).warp.core = s.warp.core := rfl
@[simp] theorem advance_warp_pair (s : State) : (advance s).warp.pair = s.warp.pair := rfl
@[simp] theorem advance_warp_actSlot (s : State) : (advance s).warp.actSlot = s.warp.actSlot := rfl
@[simp] theorem advance_warp_skip (s : State) : (advance s).warp.skip = s.warp.skip := rfl
@[simp] theorem advance_warp_lastIssue (s : State) : (advance s).warp.lastIssue = s.warp.lastIssue := rfl
@[simp] theorem advance_warp_parkedAt (s : State) : (advance s).warp.parkedAt = s.warp.parkedAt := rfl
@[simp] theorem advance_warp_check (s : State) : (advance s).warp.check = s.warp.check := rfl
@[simp] theorem advance_warp_emitted (s : State) : (advance s).warp.emitted = s.warp.emitted := rfl
@[simp] theorem advance_warp_yielded (s : State) : (advance s).warp.yielded = s.warp.yielded := rfl
@[simp] theorem advance_warp_reviews (s : State) : (advance s).warp.reviews = s.warp.reviews := rfl
@[simp] theorem advance_warp_fromSlots (s : State) : (advance s).warp.fromSlots = s.warp.fromSlots := rfl
@[simp] theorem advance_warp_badEntry (s : State) : (advance s).warp.badEntry = s.warp.badEntry := rfl
@[simp] theorem advance_warp_evicting (s : State) : (advance s).warp.evicting = s.warp.evicting := rfl
@[simp] theorem advance_warp_leaving (s : State) : (advance s).warp.leaving = s.warp.leaving := rfl

@[simp] theorem advance_ctx (s : State) :
    ctxOf (advance s) = { ctxOf s with npc := (ctxOf s).npc + 1, blocks := (ctxOf s).blocks.tail, wait := .none, met := false } := rfl

/-! ### A core changed -/

@[simp] theorem modCore_clock (s : State) (c : Nat) (f : CoreState → CoreState) : (modCore s c f).clock = s.clock := rfl
@[simp] theorem modCore_freeCtr (s : State) (c : Nat) (f : CoreState → CoreState) : (modCore s c f).freeCtr = s.freeCtr := rfl
@[simp] theorem modCore_agenda (s : State) (c : Nat) (f : CoreState → CoreState) : (modCore s c f).agenda = s.agenda := rfl
@[simp] theorem modCore_gang (s : State) (c : Nat) (f : CoreState → CoreState) : (modCore s c f).gang = s.gang := rfl
@[simp] theorem modCore_launch (s : State) (c : Nat) (f : CoreState → CoreState) : (modCore s c f).launch = s.launch := rfl
@[simp] theorem modCore_warps (s : State) (c : Nat) (f : CoreState → CoreState) : (modCore s c f).warps = s.warps := rfl
@[simp] theorem modCore_gangs (s : State) (c : Nat) (f : CoreState → CoreState) : (modCore s c f).gangs = s.gangs := rfl
@[simp] theorem modCore_launches (s : State) (c : Nat) (f : CoreState → CoreState) : (modCore s c f).launches = s.launches := rfl
@[simp] theorem modCore_cores (s : State) (c : Nat) (f : CoreState → CoreState) : (modCore s c f).cores = modNth s.cores c f := rfl
@[simp] theorem modCore_mem (s : State) (c : Nat) (f : CoreState → CoreState) : (modCore s c f).mem = s.mem := rfl
@[simp] theorem modCore_engines (s : State) (c : Nat) (f : CoreState → CoreState) : (modCore s c f).engines = s.engines := rfl
@[simp] theorem modCore_fabric (s : State) (c : Nat) (f : CoreState → CoreState) : (modCore s c f).fabric = s.fabric := rfl
@[simp] theorem modCore_cp (s : State) (c : Nat) (f : CoreState → CoreState) : (modCore s c f).cp = s.cp := rfl
@[simp] theorem modCore_svc (s : State) (c : Nat) (f : CoreState → CoreState) : (modCore s c f).svc = s.svc := rfl
@[simp] theorem modCore_mgmt (s : State) (c : Nat) (f : CoreState → CoreState) : (modCore s c f).mgmt = s.mgmt := rfl
@[simp] theorem modCore_nextOp (s : State) (c : Nat) (f : CoreState → CoreState) : (modCore s c f).nextOp = s.nextOp := rfl

@[simp] theorem modCore_warp (s : State) (c : Nat) (f : CoreState → CoreState) : (modCore s c f).warp = s.warp := rfl

/-! ### A free value drawn -/

@[simp] theorem bumpFree_clock (b : Bool) (s : State) : (bumpFree b s).clock = s.clock := by cases b <;> rfl
@[simp] theorem bumpFree_agenda (b : Bool) (s : State) : (bumpFree b s).agenda = s.agenda := by cases b <;> rfl
@[simp] theorem bumpFree_gang (b : Bool) (s : State) : (bumpFree b s).gang = s.gang := by cases b <;> rfl
@[simp] theorem bumpFree_launch (b : Bool) (s : State) : (bumpFree b s).launch = s.launch := by cases b <;> rfl
@[simp] theorem bumpFree_warps (b : Bool) (s : State) : (bumpFree b s).warps = s.warps := by cases b <;> rfl
@[simp] theorem bumpFree_gangs (b : Bool) (s : State) : (bumpFree b s).gangs = s.gangs := by cases b <;> rfl
@[simp] theorem bumpFree_launches (b : Bool) (s : State) : (bumpFree b s).launches = s.launches := by cases b <;> rfl
@[simp] theorem bumpFree_cores (b : Bool) (s : State) : (bumpFree b s).cores = s.cores := by cases b <;> rfl
@[simp] theorem bumpFree_mem (b : Bool) (s : State) : (bumpFree b s).mem = s.mem := by cases b <;> rfl
@[simp] theorem bumpFree_engines (b : Bool) (s : State) : (bumpFree b s).engines = s.engines := by cases b <;> rfl
@[simp] theorem bumpFree_fabric (b : Bool) (s : State) : (bumpFree b s).fabric = s.fabric := by cases b <;> rfl
@[simp] theorem bumpFree_cp (b : Bool) (s : State) : (bumpFree b s).cp = s.cp := by cases b <;> rfl
@[simp] theorem bumpFree_svc (b : Bool) (s : State) : (bumpFree b s).svc = s.svc := by cases b <;> rfl
@[simp] theorem bumpFree_mgmt (b : Bool) (s : State) : (bumpFree b s).mgmt = s.mgmt := by cases b <;> rfl
@[simp] theorem bumpFree_nextOp (b : Bool) (s : State) : (bumpFree b s).nextOp = s.nextOp := by cases b <;> rfl

@[simp] theorem bumpFree_warp (b : Bool) (s : State) : (bumpFree b s).warp = s.warp := by cases b <;> rfl
@[simp] theorem bumpFree_true (s : State) : (bumpFree true s).freeCtr = s.freeCtr + 1 := rfl
@[simp] theorem bumpFree_false (s : State) : bumpFree false s = s := rfl

/-! ### A cause at the command processor -/

@[simp] theorem toCp_clock (s : State) (c : Cause) (addr info : W64) (m : Bool) : (toCommandProcessor s c addr info m).clock = s.clock := rfl
@[simp] theorem toCp_freeCtr (s : State) (c : Cause) (addr info : W64) (m : Bool) : (toCommandProcessor s c addr info m).freeCtr = s.freeCtr := rfl
@[simp] theorem toCp_agenda (s : State) (c : Cause) (addr info : W64) (m : Bool) : (toCommandProcessor s c addr info m).agenda = s.agenda := rfl
@[simp] theorem toCp_gang (s : State) (c : Cause) (addr info : W64) (m : Bool) : (toCommandProcessor s c addr info m).gang = s.gang := rfl
@[simp] theorem toCp_launch (s : State) (c : Cause) (addr info : W64) (m : Bool) : (toCommandProcessor s c addr info m).launch = s.launch := rfl
@[simp] theorem toCp_warps (s : State) (c : Cause) (addr info : W64) (m : Bool) : (toCommandProcessor s c addr info m).warps = s.warps := rfl
@[simp] theorem toCp_gangs (s : State) (c : Cause) (addr info : W64) (m : Bool) : (toCommandProcessor s c addr info m).gangs = s.gangs := rfl
@[simp] theorem toCp_launches (s : State) (c : Cause) (addr info : W64) (m : Bool) : (toCommandProcessor s c addr info m).launches = s.launches := rfl
@[simp] theorem toCp_cores (s : State) (c : Cause) (addr info : W64) (m : Bool) : (toCommandProcessor s c addr info m).cores = s.cores := rfl
@[simp] theorem toCp_mem (s : State) (c : Cause) (addr info : W64) (m : Bool) : (toCommandProcessor s c addr info m).mem = s.mem := rfl
@[simp] theorem toCp_engines (s : State) (c : Cause) (addr info : W64) (m : Bool) : (toCommandProcessor s c addr info m).engines = s.engines := rfl
@[simp] theorem toCp_fabric (s : State) (c : Cause) (addr info : W64) (m : Bool) : (toCommandProcessor s c addr info m).fabric = s.fabric := rfl
@[simp] theorem toCp_svc (s : State) (c : Cause) (addr info : W64) (m : Bool) : (toCommandProcessor s c addr info m).svc = s.svc := rfl
@[simp] theorem toCp_mgmt (s : State) (c : Cause) (addr info : W64) (m : Bool) : (toCommandProcessor s c addr info m).mgmt = s.mgmt := rfl
@[simp] theorem toCp_nextOp (s : State) (c : Cause) (addr info : W64) (m : Bool) : (toCommandProcessor s c addr info m).nextOp = s.nextOp := rfl
@[simp] theorem toCp_warp_id (s : State) (c : Cause) (addr info : W64) (m : Bool) : (toCommandProcessor s c addr info m).warp.id = s.warp.id := rfl
@[simp] theorem toCp_warp_state (s : State) (c : Cause) (addr info : W64) (m : Bool) : (toCommandProcessor s c addr info m).warp.state = s.warp.state := rfl
@[simp] theorem toCp_warp_res (s : State) (c : Cause) (addr info : W64) (m : Bool) : (toCommandProcessor s c addr info m).warp.res = s.warp.res := rfl
@[simp] theorem toCp_warp_trap (s : State) (c : Cause) (addr info : W64) (m : Bool) : (toCommandProcessor s c addr info m).warp.trap = s.warp.trap := rfl
@[simp] theorem toCp_warp_held (s : State) (c : Cause) (addr info : W64) (m : Bool) : (toCommandProcessor s c addr info m).warp.held = s.warp.held := rfl
@[simp] theorem toCp_warp_preempt (s : State) (c : Cause) (addr info : W64) (m : Bool) : (toCommandProcessor s c addr info m).warp.preempt = s.warp.preempt := rfl
@[simp] theorem toCp_warp_stopped (s : State) (c : Cause) (addr info : W64) (m : Bool) : (toCommandProcessor s c addr info m).warp.stopped = some { cause := c, info := info, addr := addr, onMemoryWord := m } := rfl
@[simp] theorem toCp_warp_slot (s : State) (c : Cause) (addr info : W64) (m : Bool) : (toCommandProcessor s c addr info m).warp.slot = s.warp.slot := rfl
@[simp] theorem toCp_warp_hasSlot (s : State) (c : Cause) (addr info : W64) (m : Bool) : (toCommandProcessor s c addr info m).warp.hasSlot = s.warp.hasSlot := rfl
@[simp] theorem toCp_warp_callSlot (s : State) (c : Cause) (addr info : W64) (m : Bool) : (toCommandProcessor s c addr info m).warp.callSlot = s.warp.callSlot := rfl
@[simp] theorem toCp_warp_core (s : State) (c : Cause) (addr info : W64) (m : Bool) : (toCommandProcessor s c addr info m).warp.core = s.warp.core := rfl
@[simp] theorem toCp_warp_pair (s : State) (c : Cause) (addr info : W64) (m : Bool) : (toCommandProcessor s c addr info m).warp.pair = s.warp.pair := rfl
@[simp] theorem toCp_warp_actSlot (s : State) (c : Cause) (addr info : W64) (m : Bool) : (toCommandProcessor s c addr info m).warp.actSlot = s.warp.actSlot := rfl
@[simp] theorem toCp_warp_skip (s : State) (c : Cause) (addr info : W64) (m : Bool) : (toCommandProcessor s c addr info m).warp.skip = s.warp.skip := rfl
@[simp] theorem toCp_warp_lastIssue (s : State) (c : Cause) (addr info : W64) (m : Bool) : (toCommandProcessor s c addr info m).warp.lastIssue = s.warp.lastIssue := rfl
@[simp] theorem toCp_warp_parkedAt (s : State) (c : Cause) (addr info : W64) (m : Bool) : (toCommandProcessor s c addr info m).warp.parkedAt = s.warp.parkedAt := rfl
@[simp] theorem toCp_warp_check (s : State) (c : Cause) (addr info : W64) (m : Bool) : (toCommandProcessor s c addr info m).warp.check = s.warp.check := rfl
@[simp] theorem toCp_warp_emitted (s : State) (c : Cause) (addr info : W64) (m : Bool) : (toCommandProcessor s c addr info m).warp.emitted = s.warp.emitted := rfl
@[simp] theorem toCp_warp_yielded (s : State) (c : Cause) (addr info : W64) (m : Bool) : (toCommandProcessor s c addr info m).warp.yielded = s.warp.yielded := rfl
@[simp] theorem toCp_warp_reviews (s : State) (c : Cause) (addr info : W64) (m : Bool) : (toCommandProcessor s c addr info m).warp.reviews = s.warp.reviews := rfl
@[simp] theorem toCp_warp_fromSlots (s : State) (c : Cause) (addr info : W64) (m : Bool) : (toCommandProcessor s c addr info m).warp.fromSlots = s.warp.fromSlots := rfl
@[simp] theorem toCp_warp_badEntry (s : State) (c : Cause) (addr info : W64) (m : Bool) : (toCommandProcessor s c addr info m).warp.badEntry = s.warp.badEntry := rfl
@[simp] theorem toCp_warp_evicting (s : State) (c : Cause) (addr info : W64) (m : Bool) : (toCommandProcessor s c addr info m).warp.evicting = s.warp.evicting := rfl
@[simp] theorem toCp_warp_leaving (s : State) (c : Cause) (addr info : W64) (m : Bool) : (toCommandProcessor s c addr info m).warp.leaving = s.warp.leaving := rfl

@[simp] theorem toCp_cp (s : State) (c : Cause) (addr info : W64) (m : Bool) : (toCommandProcessor s c addr info m).cp =
    { s.cp with queue := s.cp.queue ++ [(s.warp.id, { cause := c, info := info, addr := addr, onMemoryWord := m })] } := rfl
@[simp] theorem toCp_ctx (s : State) (c : Cause) (addr info : W64) (m : Bool) : ctxOf (toCommandProcessor s c addr info m) = settleHaz (ctxOf s) := rfl

/-! ### Trap mode entered -/

@[simp] theorem enterTrap_clock (s : State) (kind : Nat) (fpc : WAddr) (word : W64) (run : Mask) (r : Raised) (idx : Nat) : (enterTrap s kind fpc word run r idx).clock = s.clock := rfl
@[simp] theorem enterTrap_freeCtr (s : State) (kind : Nat) (fpc : WAddr) (word : W64) (run : Mask) (r : Raised) (idx : Nat) : (enterTrap s kind fpc word run r idx).freeCtr = s.freeCtr := rfl
@[simp] theorem enterTrap_agenda (s : State) (kind : Nat) (fpc : WAddr) (word : W64) (run : Mask) (r : Raised) (idx : Nat) : (enterTrap s kind fpc word run r idx).agenda = s.agenda := rfl
@[simp] theorem enterTrap_gang (s : State) (kind : Nat) (fpc : WAddr) (word : W64) (run : Mask) (r : Raised) (idx : Nat) : (enterTrap s kind fpc word run r idx).gang = s.gang := rfl
@[simp] theorem enterTrap_launch (s : State) (kind : Nat) (fpc : WAddr) (word : W64) (run : Mask) (r : Raised) (idx : Nat) : (enterTrap s kind fpc word run r idx).launch = s.launch := rfl
@[simp] theorem enterTrap_warps (s : State) (kind : Nat) (fpc : WAddr) (word : W64) (run : Mask) (r : Raised) (idx : Nat) : (enterTrap s kind fpc word run r idx).warps = s.warps := rfl
@[simp] theorem enterTrap_gangs (s : State) (kind : Nat) (fpc : WAddr) (word : W64) (run : Mask) (r : Raised) (idx : Nat) : (enterTrap s kind fpc word run r idx).gangs = s.gangs := rfl
@[simp] theorem enterTrap_launches (s : State) (kind : Nat) (fpc : WAddr) (word : W64) (run : Mask) (r : Raised) (idx : Nat) : (enterTrap s kind fpc word run r idx).launches = s.launches := rfl
@[simp] theorem enterTrap_cores (s : State) (kind : Nat) (fpc : WAddr) (word : W64) (run : Mask) (r : Raised) (idx : Nat) : (enterTrap s kind fpc word run r idx).cores = s.cores := rfl
@[simp] theorem enterTrap_mem (s : State) (kind : Nat) (fpc : WAddr) (word : W64) (run : Mask) (r : Raised) (idx : Nat) : (enterTrap s kind fpc word run r idx).mem = s.mem := rfl
@[simp] theorem enterTrap_engines (s : State) (kind : Nat) (fpc : WAddr) (word : W64) (run : Mask) (r : Raised) (idx : Nat) : (enterTrap s kind fpc word run r idx).engines = s.engines := rfl
@[simp] theorem enterTrap_fabric (s : State) (kind : Nat) (fpc : WAddr) (word : W64) (run : Mask) (r : Raised) (idx : Nat) : (enterTrap s kind fpc word run r idx).fabric = s.fabric := rfl
@[simp] theorem enterTrap_cp (s : State) (kind : Nat) (fpc : WAddr) (word : W64) (run : Mask) (r : Raised) (idx : Nat) : (enterTrap s kind fpc word run r idx).cp = s.cp := rfl
@[simp] theorem enterTrap_svc (s : State) (kind : Nat) (fpc : WAddr) (word : W64) (run : Mask) (r : Raised) (idx : Nat) : (enterTrap s kind fpc word run r idx).svc = s.svc := rfl
@[simp] theorem enterTrap_mgmt (s : State) (kind : Nat) (fpc : WAddr) (word : W64) (run : Mask) (r : Raised) (idx : Nat) : (enterTrap s kind fpc word run r idx).mgmt = s.mgmt := rfl
@[simp] theorem enterTrap_nextOp (s : State) (kind : Nat) (fpc : WAddr) (word : W64) (run : Mask) (r : Raised) (idx : Nat) : (enterTrap s kind fpc word run r idx).nextOp = s.nextOp := rfl
@[simp] theorem enterTrap_warp_id (s : State) (kind : Nat) (fpc : WAddr) (word : W64) (run : Mask) (r : Raised) (idx : Nat) : (enterTrap s kind fpc word run r idx).warp.id = s.warp.id := rfl
@[simp] theorem enterTrap_warp_state (s : State) (kind : Nat) (fpc : WAddr) (word : W64) (run : Mask) (r : Raised) (idx : Nat) : (enterTrap s kind fpc word run r idx).warp.state = s.warp.state := rfl
@[simp] theorem enterTrap_warp_res (s : State) (kind : Nat) (fpc : WAddr) (word : W64) (run : Mask) (r : Raised) (idx : Nat) : (enterTrap s kind fpc word run r idx).warp.res = s.warp.res := rfl
@[simp] theorem enterTrap_warp_held (s : State) (kind : Nat) (fpc : WAddr) (word : W64) (run : Mask) (r : Raised) (idx : Nat) : (enterTrap s kind fpc word run r idx).warp.held = s.warp.held := rfl
@[simp] theorem enterTrap_warp_preempt (s : State) (kind : Nat) (fpc : WAddr) (word : W64) (run : Mask) (r : Raised) (idx : Nat) : (enterTrap s kind fpc word run r idx).warp.preempt = s.warp.preempt := rfl
@[simp] theorem enterTrap_warp_stopped (s : State) (kind : Nat) (fpc : WAddr) (word : W64) (run : Mask) (r : Raised) (idx : Nat) : (enterTrap s kind fpc word run r idx).warp.stopped = s.warp.stopped := rfl
@[simp] theorem enterTrap_warp_slot (s : State) (kind : Nat) (fpc : WAddr) (word : W64) (run : Mask) (r : Raised) (idx : Nat) : (enterTrap s kind fpc word run r idx).warp.slot = s.warp.slot := rfl
@[simp] theorem enterTrap_warp_hasSlot (s : State) (kind : Nat) (fpc : WAddr) (word : W64) (run : Mask) (r : Raised) (idx : Nat) : (enterTrap s kind fpc word run r idx).warp.hasSlot = s.warp.hasSlot := rfl
@[simp] theorem enterTrap_warp_callSlot (s : State) (kind : Nat) (fpc : WAddr) (word : W64) (run : Mask) (r : Raised) (idx : Nat) : (enterTrap s kind fpc word run r idx).warp.callSlot = s.warp.callSlot := rfl
@[simp] theorem enterTrap_warp_core (s : State) (kind : Nat) (fpc : WAddr) (word : W64) (run : Mask) (r : Raised) (idx : Nat) : (enterTrap s kind fpc word run r idx).warp.core = s.warp.core := rfl
@[simp] theorem enterTrap_warp_pair (s : State) (kind : Nat) (fpc : WAddr) (word : W64) (run : Mask) (r : Raised) (idx : Nat) : (enterTrap s kind fpc word run r idx).warp.pair = s.warp.pair := rfl
@[simp] theorem enterTrap_warp_actSlot (s : State) (kind : Nat) (fpc : WAddr) (word : W64) (run : Mask) (r : Raised) (idx : Nat) : (enterTrap s kind fpc word run r idx).warp.actSlot = s.warp.actSlot := rfl
@[simp] theorem enterTrap_warp_skip (s : State) (kind : Nat) (fpc : WAddr) (word : W64) (run : Mask) (r : Raised) (idx : Nat) : (enterTrap s kind fpc word run r idx).warp.skip = s.warp.skip := rfl
@[simp] theorem enterTrap_warp_lastIssue (s : State) (kind : Nat) (fpc : WAddr) (word : W64) (run : Mask) (r : Raised) (idx : Nat) : (enterTrap s kind fpc word run r idx).warp.lastIssue = s.warp.lastIssue := rfl
@[simp] theorem enterTrap_warp_parkedAt (s : State) (kind : Nat) (fpc : WAddr) (word : W64) (run : Mask) (r : Raised) (idx : Nat) : (enterTrap s kind fpc word run r idx).warp.parkedAt = s.warp.parkedAt := rfl
@[simp] theorem enterTrap_warp_check (s : State) (kind : Nat) (fpc : WAddr) (word : W64) (run : Mask) (r : Raised) (idx : Nat) : (enterTrap s kind fpc word run r idx).warp.check = s.warp.check := rfl
@[simp] theorem enterTrap_warp_emitted (s : State) (kind : Nat) (fpc : WAddr) (word : W64) (run : Mask) (r : Raised) (idx : Nat) : (enterTrap s kind fpc word run r idx).warp.emitted = s.warp.emitted := rfl
@[simp] theorem enterTrap_warp_yielded (s : State) (kind : Nat) (fpc : WAddr) (word : W64) (run : Mask) (r : Raised) (idx : Nat) : (enterTrap s kind fpc word run r idx).warp.yielded = s.warp.yielded := rfl
@[simp] theorem enterTrap_warp_reviews (s : State) (kind : Nat) (fpc : WAddr) (word : W64) (run : Mask) (r : Raised) (idx : Nat) : (enterTrap s kind fpc word run r idx).warp.reviews = s.warp.reviews := rfl
@[simp] theorem enterTrap_warp_fromSlots (s : State) (kind : Nat) (fpc : WAddr) (word : W64) (run : Mask) (r : Raised) (idx : Nat) : (enterTrap s kind fpc word run r idx).warp.fromSlots = s.warp.fromSlots := rfl
@[simp] theorem enterTrap_warp_badEntry (s : State) (kind : Nat) (fpc : WAddr) (word : W64) (run : Mask) (r : Raised) (idx : Nat) : (enterTrap s kind fpc word run r idx).warp.badEntry = s.warp.badEntry := rfl
@[simp] theorem enterTrap_warp_evicting (s : State) (kind : Nat) (fpc : WAddr) (word : W64) (run : Mask) (r : Raised) (idx : Nat) : (enterTrap s kind fpc word run r idx).warp.evicting = s.warp.evicting := rfl
@[simp] theorem enterTrap_warp_leaving (s : State) (kind : Nat) (fpc : WAddr) (word : W64) (run : Mask) (r : Raised) (idx : Nat) : (enterTrap s kind fpc word run r idx).warp.leaving = s.warp.leaving := rfl

/-! ### An operation issued -/

@[simp] theorem issueFrom_clock (c0 : Ctx) (s : State) (i : Instr) (run : Mask) (n : Nat) (ds : List Dst) (k : OpKind) : (issueFrom c0 s i run n ds k).clock = s.clock := rfl
@[simp] theorem issueFrom_freeCtr (c0 : Ctx) (s : State) (i : Instr) (run : Mask) (n : Nat) (ds : List Dst) (k : OpKind) : (issueFrom c0 s i run n ds k).freeCtr = s.freeCtr := rfl
@[simp] theorem issueFrom_agenda (c0 : Ctx) (s : State) (i : Instr) (run : Mask) (n : Nat) (ds : List Dst) (k : OpKind) : (issueFrom c0 s i run n ds k).agenda = s.agenda := rfl
@[simp] theorem issueFrom_gang (c0 : Ctx) (s : State) (i : Instr) (run : Mask) (n : Nat) (ds : List Dst) (k : OpKind) : (issueFrom c0 s i run n ds k).gang = s.gang := rfl
@[simp] theorem issueFrom_launch (c0 : Ctx) (s : State) (i : Instr) (run : Mask) (n : Nat) (ds : List Dst) (k : OpKind) : (issueFrom c0 s i run n ds k).launch = s.launch := rfl
@[simp] theorem issueFrom_warps (c0 : Ctx) (s : State) (i : Instr) (run : Mask) (n : Nat) (ds : List Dst) (k : OpKind) : (issueFrom c0 s i run n ds k).warps = s.warps := rfl
@[simp] theorem issueFrom_gangs (c0 : Ctx) (s : State) (i : Instr) (run : Mask) (n : Nat) (ds : List Dst) (k : OpKind) : (issueFrom c0 s i run n ds k).gangs = s.gangs := rfl
@[simp] theorem issueFrom_launches (c0 : Ctx) (s : State) (i : Instr) (run : Mask) (n : Nat) (ds : List Dst) (k : OpKind) : (issueFrom c0 s i run n ds k).launches = s.launches := rfl
@[simp] theorem issueFrom_cores (c0 : Ctx) (s : State) (i : Instr) (run : Mask) (n : Nat) (ds : List Dst) (k : OpKind) : (issueFrom c0 s i run n ds k).cores = s.cores := rfl
@[simp] theorem issueFrom_mem (c0 : Ctx) (s : State) (i : Instr) (run : Mask) (n : Nat) (ds : List Dst) (k : OpKind) : (issueFrom c0 s i run n ds k).mem = s.mem := rfl
@[simp] theorem issueFrom_engines (c0 : Ctx) (s : State) (i : Instr) (run : Mask) (n : Nat) (ds : List Dst) (k : OpKind) : (issueFrom c0 s i run n ds k).engines = s.engines := rfl
@[simp] theorem issueFrom_fabric (c0 : Ctx) (s : State) (i : Instr) (run : Mask) (n : Nat) (ds : List Dst) (k : OpKind) : (issueFrom c0 s i run n ds k).fabric = s.fabric := rfl
@[simp] theorem issueFrom_cp (c0 : Ctx) (s : State) (i : Instr) (run : Mask) (n : Nat) (ds : List Dst) (k : OpKind) : (issueFrom c0 s i run n ds k).cp = s.cp := rfl
@[simp] theorem issueFrom_svc (c0 : Ctx) (s : State) (i : Instr) (run : Mask) (n : Nat) (ds : List Dst) (k : OpKind) : (issueFrom c0 s i run n ds k).svc = s.svc := rfl
@[simp] theorem issueFrom_mgmt (c0 : Ctx) (s : State) (i : Instr) (run : Mask) (n : Nat) (ds : List Dst) (k : OpKind) : (issueFrom c0 s i run n ds k).mgmt = s.mgmt := rfl
@[simp] theorem issueFrom_nextOp (c0 : Ctx) (s : State) (i : Instr) (run : Mask) (n : Nat) (ds : List Dst) (k : OpKind) : (issueFrom c0 s i run n ds k).nextOp = s.nextOp + 1 := rfl
@[simp] theorem issueFrom_warp_id (c0 : Ctx) (s : State) (i : Instr) (run : Mask) (n : Nat) (ds : List Dst) (k : OpKind) : (issueFrom c0 s i run n ds k).warp.id = s.warp.id := rfl
@[simp] theorem issueFrom_warp_state (c0 : Ctx) (s : State) (i : Instr) (run : Mask) (n : Nat) (ds : List Dst) (k : OpKind) : (issueFrom c0 s i run n ds k).warp.state = s.warp.state := rfl
@[simp] theorem issueFrom_warp_res (c0 : Ctx) (s : State) (i : Instr) (run : Mask) (n : Nat) (ds : List Dst) (k : OpKind) : (issueFrom c0 s i run n ds k).warp.res = s.warp.res := rfl
@[simp] theorem issueFrom_warp_trap (c0 : Ctx) (s : State) (i : Instr) (run : Mask) (n : Nat) (ds : List Dst) (k : OpKind) : (issueFrom c0 s i run n ds k).warp.trap = s.warp.trap := rfl
@[simp] theorem issueFrom_warp_held (c0 : Ctx) (s : State) (i : Instr) (run : Mask) (n : Nat) (ds : List Dst) (k : OpKind) : (issueFrom c0 s i run n ds k).warp.held = s.warp.held := rfl
@[simp] theorem issueFrom_warp_preempt (c0 : Ctx) (s : State) (i : Instr) (run : Mask) (n : Nat) (ds : List Dst) (k : OpKind) : (issueFrom c0 s i run n ds k).warp.preempt = s.warp.preempt := rfl
@[simp] theorem issueFrom_warp_stopped (c0 : Ctx) (s : State) (i : Instr) (run : Mask) (n : Nat) (ds : List Dst) (k : OpKind) : (issueFrom c0 s i run n ds k).warp.stopped = s.warp.stopped := rfl
@[simp] theorem issueFrom_warp_slot (c0 : Ctx) (s : State) (i : Instr) (run : Mask) (n : Nat) (ds : List Dst) (k : OpKind) : (issueFrom c0 s i run n ds k).warp.slot = s.warp.slot := rfl
@[simp] theorem issueFrom_warp_hasSlot (c0 : Ctx) (s : State) (i : Instr) (run : Mask) (n : Nat) (ds : List Dst) (k : OpKind) : (issueFrom c0 s i run n ds k).warp.hasSlot = s.warp.hasSlot := rfl
@[simp] theorem issueFrom_warp_callSlot (c0 : Ctx) (s : State) (i : Instr) (run : Mask) (n : Nat) (ds : List Dst) (k : OpKind) : (issueFrom c0 s i run n ds k).warp.callSlot = s.warp.callSlot := rfl
@[simp] theorem issueFrom_warp_core (c0 : Ctx) (s : State) (i : Instr) (run : Mask) (n : Nat) (ds : List Dst) (k : OpKind) : (issueFrom c0 s i run n ds k).warp.core = s.warp.core := rfl
@[simp] theorem issueFrom_warp_pair (c0 : Ctx) (s : State) (i : Instr) (run : Mask) (n : Nat) (ds : List Dst) (k : OpKind) : (issueFrom c0 s i run n ds k).warp.pair = s.warp.pair := rfl
@[simp] theorem issueFrom_warp_actSlot (c0 : Ctx) (s : State) (i : Instr) (run : Mask) (n : Nat) (ds : List Dst) (k : OpKind) : (issueFrom c0 s i run n ds k).warp.actSlot = s.warp.actSlot := rfl
@[simp] theorem issueFrom_warp_skip (c0 : Ctx) (s : State) (i : Instr) (run : Mask) (n : Nat) (ds : List Dst) (k : OpKind) : (issueFrom c0 s i run n ds k).warp.skip = s.warp.skip := rfl
@[simp] theorem issueFrom_warp_lastIssue (c0 : Ctx) (s : State) (i : Instr) (run : Mask) (n : Nat) (ds : List Dst) (k : OpKind) : (issueFrom c0 s i run n ds k).warp.lastIssue = s.warp.lastIssue := rfl
@[simp] theorem issueFrom_warp_parkedAt (c0 : Ctx) (s : State) (i : Instr) (run : Mask) (n : Nat) (ds : List Dst) (k : OpKind) : (issueFrom c0 s i run n ds k).warp.parkedAt = s.warp.parkedAt := rfl
@[simp] theorem issueFrom_warp_check (c0 : Ctx) (s : State) (i : Instr) (run : Mask) (n : Nat) (ds : List Dst) (k : OpKind) : (issueFrom c0 s i run n ds k).warp.check = s.warp.check := rfl
@[simp] theorem issueFrom_warp_emitted (c0 : Ctx) (s : State) (i : Instr) (run : Mask) (n : Nat) (ds : List Dst) (k : OpKind) : (issueFrom c0 s i run n ds k).warp.emitted = s.warp.emitted := rfl
@[simp] theorem issueFrom_warp_yielded (c0 : Ctx) (s : State) (i : Instr) (run : Mask) (n : Nat) (ds : List Dst) (k : OpKind) : (issueFrom c0 s i run n ds k).warp.yielded = s.warp.yielded := rfl
@[simp] theorem issueFrom_warp_reviews (c0 : Ctx) (s : State) (i : Instr) (run : Mask) (n : Nat) (ds : List Dst) (k : OpKind) : (issueFrom c0 s i run n ds k).warp.reviews = s.warp.reviews := rfl
@[simp] theorem issueFrom_warp_fromSlots (c0 : Ctx) (s : State) (i : Instr) (run : Mask) (n : Nat) (ds : List Dst) (k : OpKind) : (issueFrom c0 s i run n ds k).warp.fromSlots = s.warp.fromSlots := rfl
@[simp] theorem issueFrom_warp_badEntry (c0 : Ctx) (s : State) (i : Instr) (run : Mask) (n : Nat) (ds : List Dst) (k : OpKind) : (issueFrom c0 s i run n ds k).warp.badEntry = s.warp.badEntry := rfl
@[simp] theorem issueFrom_warp_evicting (c0 : Ctx) (s : State) (i : Instr) (run : Mask) (n : Nat) (ds : List Dst) (k : OpKind) : (issueFrom c0 s i run n ds k).warp.evicting = s.warp.evicting := rfl
@[simp] theorem issueFrom_warp_leaving (c0 : Ctx) (s : State) (i : Instr) (run : Mask) (n : Nat) (ds : List Dst) (k : OpKind) : (issueFrom c0 s i run n ds k).warp.leaving = s.warp.leaving := rfl

end Sys2Proof.Laws
end

