-- ==== Sys2Proof/Laws/Ops.lean ====
section
/-! SUPPORT. What each shared operation can do, said once: how a cause is taken, how a word ends, what issuing one comes to, what a
wait leaves. -/

namespace Sys2Proof.Laws

open Sys2Proof.Machine
open Host (Outcome)

/-- A record's bytes written at a core's L1 change the L1 copies alone. -/
theorem saveAt_rest (root core : Nat) (va : W64) (bs : List Byte) (s : State) :
    ∃ l1, saveAt root core va bs s = { s with mem := { s.mem with l1 := l1 } } := by
  unfold saveAt
  split
  · exact ⟨_, rfl⟩
  · exact ⟨s.mem.l1, rfl⟩

/-- Saving a record as its warp enters trap mode changes L1 copies alone. -/
theorem saveTrap_rest (s : State) : ∃ l1, saveTrap s = { s with mem := { s.mem with l1 := l1 } } := by
  unfold saveTrap
  split
  · exact saveAt_rest _ _ _ _ s
  · exact ⟨s.mem.l1, rfl⟩

/-- Everything taking a cause can do (spec/10 R193, R196 to R198, spec/05 R98): nothing, stop the warp with a cause at the command
processor, wait for its record's page, or enter trap mode through the lowest free record of a region with a handler. -/
theorem takeCause_cases (s : State) (kind : Nat) (fpc : WAddr) (word : W64) (run : Mask) (r : Raised) :
    (takeCause s kind fpc word run r = s ∧ causeRoute r.cause = .never) ∨
    (∃ c info, takeCause s kind fpc word run r = toCommandProcessor s c r.addr info false ∧ c = r.cause ∧ info = r.info) ∨
    (takeCause s kind fpc word run r = doubleFault s r.cause ∧ (trapMode s = true ∨ s.launch.eff.trapEntry = 0)) ∨
    (takeCause s kind fpc word run r = toCommandProcessor s .trapPoolEmpty 0 0 false ∧ trapMode s = false ∧ freeRecord s = none) ∨
    (∃ i, trapMode s = false ∧ s.launch.eff.trapEntry ≠ 0 ∧ freeRecord s = some i ∧
      ((∃ va, takeCause s kind fpc word run r = holdWarp s (.contextPage va) ∧ firstUnmapped s [(ctxOf s).ctxp] = some va) ∨
       (takeCause s kind fpc word run r = saveTrap (enterTrap s kind fpc word run r i) ∧ firstUnmapped s [(ctxOf s).ctxp] = none))) := by
  have main (hh : causeRoute r.cause = .handler ∨ causeRoute r.cause = .serviceCore) :
      (∃ c info, takeCause s kind fpc word run r = toCommandProcessor s c r.addr info false ∧ c = r.cause ∧ info = r.info) ∨
      (takeCause s kind fpc word run r = doubleFault s r.cause ∧ (trapMode s = true ∨ s.launch.eff.trapEntry = 0)) ∨
      (takeCause s kind fpc word run r = toCommandProcessor s .trapPoolEmpty 0 0 false ∧ trapMode s = false ∧ freeRecord s = none) ∨
      (∃ i, trapMode s = false ∧ s.launch.eff.trapEntry ≠ 0 ∧ freeRecord s = some i ∧
        ((∃ va, takeCause s kind fpc word run r = holdWarp s (.contextPage va) ∧ firstUnmapped s [(ctxOf s).ctxp] = some va) ∨
         (takeCause s kind fpc word run r = saveTrap (enterTrap s kind fpc word run r i) ∧ firstUnmapped s [(ctxOf s).ctxp] = none))) := by
    have e : takeCause s kind fpc word run r =
        if r.cause = .contextPage then toCommandProcessor s .contextPage r.addr r.info false
        else if trapMode s then doubleFault s r.cause
        else if s.launch.eff.trapEntry = 0 then doubleFault s r.cause
        else match freeRecord s with
          | none => toCommandProcessor s .trapPoolEmpty 0 0 false
          | some i => match firstUnmapped s [(ctxOf s).ctxp] with
            | some va => holdWarp s (.contextPage va)
            | none => saveTrap (enterTrap s kind fpc word run r i) := by
      rcases hh with h | h <;> simp only [takeCause, h] <;> rfl
    rw [e]
    by_cases h1 : r.cause = .contextPage
    · rw [if_pos h1]; exact .inl ⟨_, _, rfl, h1.symm, rfl⟩
    · rw [if_neg h1]
      by_cases h2 : trapMode s = true
      · rw [if_pos h2]; exact .inr (.inl ⟨rfl, .inl h2⟩)
      · rw [if_neg h2]
        have h2' : trapMode s = false := by simpa using h2
        by_cases h3 : s.launch.eff.trapEntry = 0
        · rw [if_pos h3]; exact .inr (.inl ⟨rfl, .inr h3⟩)
        · rw [if_neg h3]
          cases h4 : freeRecord s with
          | none => exact .inr (.inr (.inl ⟨rfl, h2', rfl⟩))
          | some i =>
            refine .inr (.inr (.inr ⟨i, h2', h3, rfl, ?_⟩))
            cases h5 : firstUnmapped s [(ctxOf s).ctxp] with
            | some va => exact .inl ⟨va, rfl, rfl⟩
            | none => exact .inr ⟨rfl, rfl⟩
  cases hr : causeRoute r.cause with
  | never => exact .inl ⟨by simp only [takeCause, hr], rfl⟩
  | commandProcessor => exact .inr (.inl ⟨_, _, by simp only [takeCause, hr], rfl, rfl⟩)
  | handler => exact .inr (main (.inl hr))
  | serviceCore => exact .inr (main (.inr hr))

/-- A wait leaves everything but the issuing warp's context, its state and the clock of its parking. -/
theorem holdWarp_rest (s : State) (w : WaitFor) :
    holdWarp s w = { s with warp := { s.warp with
      ctx := { settleHaz (ctxOf s) with wait := w, met := false, midSeg := (ctxOf s).inSeg },
      state := (holdWarp s w).warp.state, parkedAt := (holdWarp s w).warp.parkedAt } } := by
  cases w <;> rfl

/-- Taking a cause never touches the engines, the other warps, the gangs, the launches or the cores; of memory it writes the interrupted
record, at L1. -/
theorem takeCause_rest (s : State) (kind : Nat) (fpc : WAddr) (word : W64) (run : Mask) (r : Raised) :
    (∃ l1, (takeCause s kind fpc word run r).mem = { s.mem with l1 := l1 }) ∧ (takeCause s kind fpc word run r).engines = s.engines ∧
    (takeCause s kind fpc word run r).warps = s.warps ∧ (takeCause s kind fpc word run r).gang = s.gang ∧
    (takeCause s kind fpc word run r).gangs = s.gangs ∧ (takeCause s kind fpc word run r).launch = s.launch ∧
    (takeCause s kind fpc word run r).launches = s.launches ∧ (takeCause s kind fpc word run r).cores = s.cores ∧
    (takeCause s kind fpc word run r).warp.id = s.warp.id := by
  rcases takeCause_cases s kind fpc word run r with
    ⟨h, -⟩ | ⟨c, i, h, -, -⟩ | ⟨h, -⟩ | ⟨h, -, -⟩ | ⟨i, -, -, -, ⟨va, h, -⟩ | ⟨h, -⟩⟩
  · rw [h]; exact ⟨⟨s.mem.l1, rfl⟩, rfl, rfl, rfl, rfl, rfl, rfl, rfl, rfl⟩
  · rw [h]; exact ⟨⟨s.mem.l1, rfl⟩, rfl, rfl, rfl, rfl, rfl, rfl, rfl, rfl⟩
  · rw [h]; exact ⟨⟨s.mem.l1, rfl⟩, rfl, rfl, rfl, rfl, rfl, rfl, rfl, rfl⟩
  · rw [h]; exact ⟨⟨s.mem.l1, rfl⟩, rfl, rfl, rfl, rfl, rfl, rfl, rfl, rfl⟩
  · rw [h, holdWarp_rest]; exact ⟨⟨s.mem.l1, rfl⟩, rfl, rfl, rfl, rfl, rfl, rfl, rfl, rfl⟩
  · obtain ⟨l1, e⟩ := saveTrap_rest (enterTrap s kind fpc word run r i)
    rw [h, e]
    exact ⟨⟨l1, rfl⟩, rfl, rfl, rfl, rfl, rfl, rfl, rfl, rfl⟩

/-- How a word that answers a next state ended. -/
theorem finish_next {i : Instr} {run : Mask} {r : Res} {t : State} (h : finish i run r = .next t) :
    (∃ s, r = .done s ∧ t = advance s) ∨ r = .went t ∨ (∃ s x, r = .raise s x ∧ t = wordCause s i run x) ∨
    (∃ s w, r = .hold s w ∧ t = holdWarp s w) := by
  cases r with
  | done s => exact .inl ⟨s, rfl, by cases h; rfl⟩
  | went s => exact .inr (.inl (by cases h; rfl))
  | raise s x => exact .inr (.inr (.inl ⟨s, x, rfl, by cases h; rfl⟩))
  | hold s w => exact .inr (.inr (.inr ⟨s, w, rfl, by cases h; rfl⟩))
  | stop f => cases h

/-- What issuing a word comes to: it moves on, raises a decode cause, meets a double-bit error in a register or a Deckle entry, has its
effect, or in check mode raises CHECK_MISMATCH (spec/04 R77, R85, spec/05 R107, spec/22 R356). -/
theorem runWord_cases (i : Instr) (dist : BitVec 3) (body : Mask → State → Res) (s : State) :
    (runMask (ctxOf s) = 0 ∧ runWord i dist body s = .next (advance (tick dist s))) ∨
    (∃ c, decodeCause (ctxOf s).seg.raiseA (ctxOf s).seg.raiseB (trapMode s) i = some c ∧ runWord i dist body s =
      .next (wordCause (tick dist s) i (runMask (ctxOf s)) { cause := c, lanes := runMask (ctxOf s), addr := 0, info := 0 })) ∨
    (decodeCause (ctxOf s).seg.raiseA (ctxOf s).seg.raiseB (trapMode s) i = none ∧
      ((storageFails (tick dist s) i = true ∧
        runWord i dist body s = .next (wordCause (passStorage 8 (dieOfCore s.warp.core) (tick dist s)) i (runMask (ctxOf s))
         { cause := .uncorrectableMemory, lanes := runMask (ctxOf s), addr := 0, info := 0 })) ∨
       runWord i dist body s = finish i (runMask (ctxOf s)) (body (runMask (ctxOf s)) (passUpset (tick dist s))) ∨
       runWord i dist body s = finish i (runMask (ctxOf s)) (body (runMask (ctxOf s)) (countReissue (passUpset (tick dist s)))) ∨
       runWord i dist body s = .next (wordCause (countMismatch (countReissue (passUpset (tick dist s)))) i (runMask (ctxOf s))
         { cause := .checkMismatch, lanes := runMask (ctxOf s), addr := 0, info := 0 }))) := by
  have h1 : runMask (ctxOf (tick dist s)) = runMask (ctxOf s) := rfl
  have h2 : decodeCause (ctxOf (tick dist s)).seg.raiseA (ctxOf (tick dist s)).seg.raiseB (trapMode (tick dist s)) i =
      decodeCause (ctxOf s).seg.raiseA (ctxOf s).seg.raiseB (trapMode s) i := rfl
  simp only [runWord, h1, h2]
  by_cases h : runMask (ctxOf s) = 0
  · exact .inl ⟨h, if_pos h⟩
  · rw [if_neg h]
    cases hd : decodeCause (ctxOf s).seg.raiseA (ctxOf s).seg.raiseB (trapMode s) i with
    | some c => exact .inr (.inl ⟨c, rfl, rfl⟩)
    | none =>
      refine .inr (.inr ⟨rfl, ?_⟩)
      by_cases hr : storageFails (tick dist s) i = true
      · exact .inl ⟨hr, if_pos hr⟩
      · by_cases h0 : copyFails (tick dist s) = 0
        · exact .inr (.inl ((if_neg hr).trans (if_pos h0)))
        · by_cases h1' : copyFails (tick dist s) = 1
          · exact .inr (.inr (.inl ((if_neg hr).trans ((if_neg h0).trans (if_pos h1')))))
          · exact .inr (.inr (.inr ((if_neg hr).trans ((if_neg h0).trans (if_neg h1')))))

/-- Making room for a line never completes the word: it waits, or a trap context that needs a missing record page faults (spec/05 R97,
R98, spec/10 R197). -/
theorem makeRoom_cases (s : State) (keep : List Nat) (w full : WaitFor) :
    (∃ t x, makeRoom s keep w full = .hold t x) ∨ makeRoom s keep w full = .went (doubleFault s .contextPage) := by
  unfold makeRoom
  repeat' split
  all_goals first
    | exact .inl ⟨_, _, rfl⟩
    | exact .inr rfl

/-- Room is made only for a word that waits for a line. -/
theorem roomed_of_not_hold {us : List Use} {r : Res} (h : ∀ s, r ≠ .hold s .lineBudget) : roomed us r = r := by
  unfold roomed
  split
  · exact absurd rfl (h _)
  · rfl

/-- A word with room for its results that has its effect. -/
@[simp] theorem roomed_done (us : List Use) (s : State) : roomed us (.done s) = .done s := rfl

/-- A word that has its effect had room for it. -/
theorem roomed_eq_done {us : List Use} {r : Res} {t : State} (h : roomed us r = .done t) : r = .done t := by
  unfold roomed at h
  split at h
  · rename_i s
    rcases makeRoom_cases s (us.flatMap useRegs) .earlier .lineBudget with ⟨a, x, e⟩ | e <;> rw [e] at h <;> cases h
  · exact h

/-- Reading never stops a word but for a register that is out of the register file (spec/05 R97). -/
theorem reading_cases (s : State) (run : Mask) (us : List Use) (k : State → Res) :
    (∃ n, missing s us = some n ∧ reading s run us k =
      if lineRoom s 1 then .hold s (.fill n) else makeRoom s (us.flatMap useRegs) (.fill n) (.fill n)) ∨
    (missing s us = none ∧ reading s run us k = roomed us (k (afterReads s run us))) := by
  unfold reading
  cases h : missing s us with
  | some n => exact .inl ⟨n, by simp, rfl⟩
  | none => exact .inr ⟨by simp, rfl⟩

/-- A word that has its effect after its reads had its registers and its room. -/
theorem reading_eq_done {s t : State} {run : Mask} {us : List Use} {k : State → Res} (h : reading s run us k = .done t) :
    missing s us = none ∧ k (afterReads s run us) = .done t := by
  rcases reading_cases s run us k with ⟨n, -, e⟩ | ⟨hm, e⟩
  · rw [e] at h
    split at h
    · cases h
    · rcases makeRoom_cases s (us.flatMap useRegs) (.fill n) (.fill n) with ⟨a, x, e⟩ | e <;> rw [e] at h <;> cases h
  · exact ⟨hm, roomed_eq_done (e ▸ h)⟩

/-- A later result issues, waits for lines, or waits for its counter (spec/04 R72, spec/05 R97, spec/08 R161). -/
theorem issueLater_cases (s0 s : State) (i : Instr) (run : Mask) (n : Nat) (d : BitVec 7) (width : Nat) (k : OpKind) :
    issueLater s0 s i run n d width k = .done (issueFrom (ctxOf s0) s i run n (laterDst d width run) k) ∨
    issueLater s0 s i run n d width k = .hold s0 .lineBudget ∨ issueLater s0 s i run n d width k = .hold s0 (.counter (n - 1) 65534) := by
  unfold issueLater counted
  split
  · split
    · exact .inr (.inr rfl)
    · exact .inl rfl
  · exact .inr (.inl rfl)

/-- Of two held causes the lower code stays (spec/10 R199). -/
theorem holdLower_cases (old : Option Held) (new : Held) :
    (holdLower old new = some new ∧ ∀ h ∈ old, causeCode new.cause < causeCode h.cause) ∨
    (∃ h, old = some h ∧ holdLower old new = some h ∧ causeCode h.cause ≤ causeCode new.cause) := by
  cases old with
  | none => exact .inl ⟨rfl, fun h hh => by cases hh⟩
  | some h =>
    unfold holdLower
    by_cases hc : causeCode new.cause < causeCode h.cause
    · simp only [if_pos hc]; exact .inl ⟨by simp, fun x hx => by cases hx; exact hc⟩
    · simp only [if_neg hc]; exact .inr ⟨h, rfl, by simp, by omega⟩

end Sys2Proof.Laws
end

