-- ==== Sys2Proof/Laws/Words.lean ====
section
/-! SUPPORT. What a word of fixed latency can do: reading its sources, writing its results (the statements cite these lemmas and
never unfold the operations). -/

namespace Sys2Proof.Laws

open Sys2Proof.Machine Sys2Proof.Safety
open Host (Outcome)

/-! ### Issuing -/

@[simp] theorem ctxOf_modCtx (s : State) (f : Ctx → Ctx) : ctxOf (modCtx s f) = f (ctxOf s) := rfl
@[simp] theorem ctxOf_tick (d : BitVec 3) (s : State) :
    ctxOf (tick d s) = { ctxOf s with haz := tickHaz d.toNat (ctxOf s).haz } := rfl
@[simp] theorem tick_lastIssue (d : BitVec 3) (s : State) : (tick d s).warp.lastIssue = s.clock + max 1 d.toNat := rfl
@[simp] theorem tick_id (d : BitVec 3) (s : State) : (tick d s).warp.id = s.warp.id := rfl
@[simp] theorem trapMode_tick (d : BitVec 3) (s : State) : trapMode (tick d s) = trapMode s := rfl

theorem tickHaz_reg {d : Nat} {hs : List Haz} {z : Haz} (h : z ∈ tickHaz d hs) : ∃ y ∈ hs, y.reg = z.reg := by
  simp only [tickHaz, List.mem_filter, List.mem_map] at h
  obtain ⟨⟨y, hy, rfl⟩, -⟩ := h
  refine ⟨y, hy, ?_⟩
  split <;> rfl

theorem settled_tick {s : State} {names : List Reg} (h : Settled s names) (d : BitVec 3) : Settled (tick d s) names := by
  intro z hz
  obtain ⟨y, hy, e⟩ := tickHaz_reg hz
  exact e ▸ h y hy

/-- Where no transient error is to come, the copies of a word agree. -/
theorem copyFails_undisturbed {s : State} (dist : BitVec 3) (h : Undisturbed s) : copyFails (tick dist s) = 0 := by
  show (if s.warp.check && !(s.mgmt.upsets.headD { fails := 0, late := false }).late then
    (s.mgmt.upsets.headD { fails := 0, late := false }).fails else 0) = 0
  by_cases hc : s.warp.check = true
  · rw [h.2 hc]; simp
  · simp [hc]

/-- Where no transient error is to come, a word takes none. -/
theorem passUpset_undisturbed {s : State} (dist : BitVec 3) (h : Undisturbed s) : passUpset (tick dist s) = tick dist s := by
  have e : (if s.warp.check && !(nextUpset (tick dist s)).late then dropUpset (tick dist s) else tick dist s) = tick dist s := by
    by_cases hc : s.warp.check = true
    · have hu : s.mgmt.upsets = [] := h.2 hc
      have hd : dropUpset (tick dist s) = tick dist s := by
        show { tick dist s with mgmt := { s.mgmt with upsets := s.mgmt.upsets.tail } } = tick dist s
        have hm : ({ s.mgmt with upsets := s.mgmt.upsets.tail } : Mgmt) = s.mgmt := by rw [hu, List.tail_nil, ← hu]
        rw [hm]; rfl
      rw [hd]; exact ite_self _
    · simp [hc]
  have hs : (tick dist s).mgmt.storage.isEmpty = true := by show s.mgmt.storage.isEmpty = true; rw [h.1]; rfl
  show (if (if s.warp.check && !(nextUpset (tick dist s)).late then dropUpset (tick dist s) else tick dist s).mgmt.storage.isEmpty then
    (if s.warp.check && !(nextUpset (tick dist s)).late then dropUpset (tick dist s) else tick dist s)
    else strike (if s.warp.check && !(nextUpset (tick dist s)).late then dropUpset (tick dist s) else tick dist s)) = tick dist s
  rw [e, if_pos hs]

/-- Where no bit error is to come, no word meets one. -/
theorem storageFails_undisturbed {s : State} (dist : BitVec 3) (i : Instr) (h : Undisturbed s) : storageFails (tick dist s) i = false := by
  have hn : nextStorage (tick dist s) = none := by show s.mgmt.storage.head? = none; rw [h.1]; rfl
  simp [storageFails, hn]

/-- A word that is ready has its effect, on the state after its distance. -/
theorem runWord_ready {i : Instr} {dist : BitVec 3} {body : Mask → State → Res} {s : State} (h : Ready i s) :
    runWord i dist body s = finish i (runMask (ctxOf s)) (body (runMask (ctxOf s)) (tick dist s)) := by
  have h1 : runMask (ctxOf (tick dist s)) = runMask (ctxOf s) := rfl
  simp only [runWord, h1, h.1, if_false]
  have h2 : decodeCause (ctxOf (tick dist s)).seg.raiseA (ctxOf (tick dist s)).seg.raiseB (trapMode (tick dist s)) i = none := h.2.1
  simp only [h2, storageFails_undisturbed dist i h.2.2, copyFails_undisturbed dist h.2.2, passUpset_undisturbed dist h.2.2,
    Bool.false_eq_true, if_true, if_false]

/-- A word that no thread runs only moves on (spec/04 R77). -/
theorem runWord_idle {i : Instr} {dist : BitVec 3} {body : Mask → State → Res} {s : State} (h : runMask (ctxOf s) = 0) :
    runWord i dist body s = .next (advance (tick dist s)) := by
  have h1 : runMask (ctxOf (tick dist s)) = runMask (ctxOf s) := rfl
  simp only [runWord, h1, h, if_true]

/-- A word with a decode cause raises it and does nothing else (spec/04 R85). -/
theorem runWord_cause {i : Instr} {dist : BitVec 3} {body : Mask → State → Res} {s : State} {c : Cause}
    (h : runMask (ctxOf s) ≠ 0)
    (hc : decodeCause (ctxOf s).seg.raiseA (ctxOf s).seg.raiseB (trapMode s) i = some c) :
    runWord i dist body s =
      .next (wordCause (tick dist s) i (runMask (ctxOf s)) { cause := c, lanes := runMask (ctxOf s), addr := 0, info := 0 }) := by
  have h1 : runMask (ctxOf (tick dist s)) = runMask (ctxOf s) := rfl
  have h2 : decodeCause (ctxOf (tick dist s)).seg.raiseA (ctxOf (tick dist s)).seg.raiseB (trapMode (tick dist s)) i = some c := hc
  simp only [runWord, h1, h, if_false, h2]

/-! ### Reading -/

theorem hazAt_settled {s : State} {r : Reg} (h : ∀ z ∈ (ctxOf s).haz, z.reg ≠ r) (l : Nat) : hazAt (ctxOf s) r l = none := by
  simp only [hazAt, List.find?_eq_none]
  intro z hz
  simp [h z hz]

theorem earlyOr_settled {s : State} {r : Reg} (h : ∀ z ∈ (ctxOf s).haz, z.reg ≠ r) (l : Nat) (now : W64) :
    earlyOr s r l now = now := by
  simp only [earlyOr, hazAt_settled h]

theorem settled_ne {s : State} {names : List Reg} (h : Settled s names) {r : Reg} (hr : r ∈ names) :
    ∀ z ∈ (ctxOf s).haz, z.reg ≠ r := fun z hz e => h z hz (e ▸ hr)

theorem readG_settled {s : State} {n : Nat} (h : ∀ z ∈ (ctxOf s).haz, z.reg ≠ .g n) (l : Nat) :
    (readG s n l).toNat = gValue s n l := by
  simp only [readG, gValue, earlyOr_settled h]
  split
  · simp only [BitVec.toNat_setWidth]
    have := (lane (gAt (ctxOf s) n).val l).isLt
    omega
  · rfl

theorem readK_settled {s : State} {n : Nat} (h : ∀ z ∈ (ctxOf s).haz, z.reg ≠ .k n) (l : Nat) :
    readK s n l = kAt (ctxOf s) n := by simp only [readK, earlyOr_settled h]

theorem readP_settled {s : State} {n : Nat} (h : ∀ z ∈ (ctxOf s).haz, z.reg ≠ .p n) (l : Nat) :
    readP s n l = predOn s n l := by
  simp only [readP, earlyOr_settled h, predOn]
  by_cases hn : n < 7
  · simp only [hn, if_true]
    split <;> simp_all [bitAt]
  · simp only [hn, if_false, predMask, dite_false, allLanes, bitAt, BitVec.getLsbD_allOnes]
    by_cases hl : l < 32 <;> simp [hl]

theorem join32_toNat (a b : W32) : (join32 a b).toNat = a.toNat + 2 ^ 32 * b.toNat := by
  have := a.isLt
  simp only [join32, BitVec.toNat_append, Nat.shiftLeft_eq]
  rw [Nat.mul_comm, Nat.or_comm, Nat.or_comm, ← Nat.two_pow_add_eq_or_of_lt this]
  omega

theorem isG_lt {r : BitVec 7} (h : r.toNat < 96) : isG r = true := by simp [isG, h]

/-- A source of 32 or 64 bits whose results are written reads what its register holds. -/
theorem readNat_settled {s : State} {w : Nat} {r : BitVec 7} {lst : Bool} (hw : w = 32 ∨ w = 64)
    (h : Settled s (useNames { reg := r, width := w, last := lst })) (l : Nat) : readNat s w r l = source s w r l := by
  by_cases hg : r.toNat < 96
  · have hn : ∀ i < w / 32, ∀ z ∈ (ctxOf s).haz, z.reg ≠ .g (r.toNat + i) := by
      intro i hi
      apply settled_ne h
      simp only [useNames, useRegs, isG_lt hg, if_true, List.map_map, List.mem_map, List.mem_range]
      exact ⟨i, hi, rfl⟩
    rcases hw with rfl | rfl
    · have h0 := hn 0 (by decide)
      simp only [readNat, show (32 : Nat) ≠ 128 by decide, show (32 : Nat) ≠ 64 by decide, if_false, read32, hg, if_true, source,
        show 32 / 32 = 1 by decide, gSpan, Nat.mul_zero, Nat.add_zero]
      exact readG_settled h0 l
    · have h0 := hn 0 (by decide)
      have h1 := hn 1 (by decide)
      simp only [readNat, show (64 : Nat) ≠ 128 by decide, if_false, if_true, read64, hg, source,
        show 64 / 32 = 2 by decide, gSpan, join32_toNat, Nat.mul_zero, Nat.add_zero]
      rw [readG_settled h1 l]
      have := readG_settled h0 l
      simp only [Nat.add_zero] at this
      rw [this]
  · by_cases hk : r.toNat < 120
    · have hne : ∀ z ∈ (ctxOf s).haz, z.reg ≠ .k (r.toNat - 96) := by
        apply settled_ne h
        have : isK r = true := by simp [isK, hk]; omega
        have hgg : isG r = false := by simp [isG]; omega
        simp [useNames, this, hgg]
      rcases hw with rfl | rfl
      · simp only [readNat, show (32 : Nat) ≠ 128 by decide, show (32 : Nat) ≠ 64 by decide, if_false, read32, hg, hk, if_true,
          source, lo32, BitVec.toNat_setWidth, readK_settled hne l]
      · simp only [readNat, show (64 : Nat) ≠ 128 by decide, if_false, if_true, read64, hg, hk, source, readK_settled hne l]
        exact (Nat.mod_eq_of_lt (kAt (ctxOf s) (r.toNat - 96)).isLt).symm
    · have hlt := r.isLt
      rcases hw with rfl | rfl
      · simp only [readNat, show (32 : Nat) ≠ 128 by decide, show (32 : Nat) ≠ 64 by decide, if_false, read32, hg, hk, source]
        obtain ⟨m, hm⟩ : ∃ m, r.toNat = m := ⟨_, rfl⟩
        simp only [hm] at hg hk hlt ⊢
        have : m = 120 ∨ m = 121 ∨ m = 122 ∨ m = 123 ∨ m = 124 ∨ m = 125 ∨ m = 126 ∨ m = 127 := by omega
        rcases this with rfl | rfl | rfl | rfl | rfl | rfl | rfl | rfl <;> simp [specialOf, tidOf, lo32]
      · simp only [readNat, show (64 : Nat) ≠ 128 by decide, if_false, if_true, read64, hg, hk, source, read32]
        obtain ⟨m, hm⟩ : ∃ m, r.toNat = m := ⟨_, rfl⟩
        simp only [hm] at hg hk hlt ⊢
        have : m = 120 ∨ m = 121 ∨ m = 122 ∨ m = 123 ∨ m = 124 ∨ m = 125 ∨ m = 126 ∨ m = 127 := by omega
        have h1 := s.launch.argp.isLt
        have h2 := (ctxOf s).ctxp.isLt
        rcases this with rfl | rfl | rfl | rfl | rfl | rfl | rfl | rfl <;> simp [specialOf, tidOf, BitVec.toNat_setWidth] <;> omega

/-! ### Registers written -/

theorem lane_lanesOf {α : Type} (f : Nat → α) {l : Nat} (h : l < 32) : lane (lanesOf f) l = f l := by
  simp [lane, lanesOf, h]

theorem gAt_setGReg (c : Ctx) (n m : Nat) (r : GReg) (hm : m < 96) : gAt (setGReg c n r) m = if m = n then r else gAt c m := by
  by_cases hn : n < 96
  · simp only [setGReg, hn, dif_pos, gAt, hm]
    by_cases h : m = n
    · subst h; simp
    · simp [h, Ne.symm h]
  · have : m ≠ n := by omega
    simp [setGReg, hn, this]

theorem setGReg_rest (c : Ctx) (n : Nat) (r : GReg) : setGReg c n r = { c with g := (setGReg c n r).g } := by
  simp only [setGReg]; split <;> rfl

theorem kAt_setKReg (c : Ctx) (n m : Nat) (x : W64) (hn : n < 24) : kAt (setKReg c n x) m = if m = n then x else kAt c m := by
  by_cases hm : m < 24
  · simp only [setKReg, hn, dif_pos, kAt, hm]
    by_cases h : m = n
    · subst h; simp
    · simp [h, Ne.symm h]
  · have : m ≠ n := by omega
    simp [kAt, hm, this]

/-- Operations in flight less the destinations they still write. -/
def flights (c : Ctx) : List Op := c.ops.map fun o => { o with dsts := [] }

theorem flights_claim (c0 : Ctx) (r : Reg) (run : Mask) (left : Nat) (op : Option Nat) (c : Ctx) :
    flights (claim c0 r run left op c) = flights c := by
  simp [flights, claim, stripOps]

/-- What changed in a context by register results alone. -/
structure Changed (c t : Ctx) (run : Mask) (ps : List Put) : Prop where
  rest : t = { c with g := t.g, k := t.k, haz := t.haz, ops := t.ops }
  flights : flights t = flights c
  value : ∀ n < 96, ∀ l < 32, lane (gAt t n).val l =
    match putG ps n with
    | some p => if bitAt run l then BitVec.ofNat 32 (p.v l / 2 ^ (32 * (n - p.d.toNat)))
                else if bitAt (gAt c n).live l then lane (gAt c n).val l else 0
    | none => lane (gAt c n).val l
  live : ∀ n < 96, ∀ l < 32, bitAt (gAt t n).live l =
    (if bitAt run l then (putG ps n).isSome || bitAt (gAt c n).live l else bitAt (gAt c n).live l)
  resident : ∀ n < 96, (gAt t n).resident = ((putG ps n).isSome || (gAt c n).resident)
  k : ∀ n < 24, kAt t n = match putK ps n with | some p => asK p (p.v (lowLane run)) | none => kAt c n

/-- A result put into a context. -/
def applyPut (c0 : Ctx) (run : Mask) (sep : Nat) (c : Ctx) (p : Put) : Ctx :=
  if isG p.d then
    if p.w = 64 then
      writeG c0 (p.d.toNat + 1) run sep (fun l => BitVec.ofNat 32 (p.v l / 2 ^ 32))
        (writeG c0 p.d.toNat run sep (fun l => BitVec.ofNat 32 (p.v l)) c)
    else writeG c0 p.d.toNat run sep (fun l => BitVec.ofNat 32 (p.v l)) c
  else if isK p.d then writeK (p.d.toNat - 96) sep (asK p (p.v (lowLane run))) c
  else c

theorem gAt_writeG (c0 : Ctx) (n : Nat) (run : Mask) (sep : Nat) (f : Nat → W32) (c : Ctx) (m : Nat) (hm : m < 96) :
    gAt (writeG c0 n run sep f c) m =
      if m = n then { val := lanesOf fun l => if bitAt run l then f l else if bitAt (gAt c n).live l then lane (gAt c n).val l else 0,
                      live := (gAt c n).live ||| run, resident := true }
      else gAt c m := by
  simp only [writeG, storeG]
  rw [gAt_setGReg _ _ _ _ hm]
  rfl

theorem writeG_rest (c0 : Ctx) (n : Nat) (run : Mask) (sep : Nat) (f : Nat → W32) (c : Ctx) :
    writeG c0 n run sep f c = { c with
      g := (writeG c0 n run sep f c).g, haz := (writeG c0 n run sep f c).haz, ops := (writeG c0 n run sep f c).ops } := by
  simp only [writeG, storeG]
  rw [setGReg_rest]
  rfl

theorem writeG_k (c0 : Ctx) (n : Nat) (run : Mask) (sep : Nat) (f : Nat → W32) (c : Ctx) (m : Nat) :
    kAt (writeG c0 n run sep f c) m = kAt c m := by
  rw [writeG_rest]; rfl

theorem flights_writeG (c0 : Ctx) (n : Nat) (run : Mask) (sep : Nat) (f : Nat → W32) (c : Ctx) :
    flights (writeG c0 n run sep f c) = flights c := by
  rw [← flights_claim c0 (.g n) run sep none c]
  simp only [writeG, storeG]
  rw [setGReg_rest]
  rfl

theorem writeK_rest (n : Nat) (sep : Nat) (x : W64) (c : Ctx) :
    writeK n sep x c = { c with k := (writeK n sep x c).k, haz := (writeK n sep x c).haz, ops := (writeK n sep x c).ops } := by
  simp only [writeK, setKReg]; split <;> rfl

theorem flights_writeK (n : Nat) (sep : Nat) (x : W64) (c : Ctx) : flights (writeK n sep x c) = flights c := by
  rw [← flights_claim c (.k n) allLanes sep none c]
  simp only [writeK, setKReg]; split <;> rfl

theorem gAt_writeK (n : Nat) (sep : Nat) (x : W64) (c : Ctx) (m : Nat) : gAt (writeK n sep x c) m = gAt c m := by
  rw [writeK_rest]; rfl

theorem kAt_writeK (n : Nat) (sep : Nat) (x : W64) (c : Ctx) (m : Nat) (hn : n < 24) :
    kAt (writeK n sep x c) m = if m = n then x else kAt c m := by
  simp only [writeK]
  rw [kAt_setKReg _ _ _ _ hn]
  rfl

theorem bitAt_or {w : Nat} (a b : BitVec w) (i : Nat) : bitAt (a ||| b) i = (bitAt a i || bitAt b i) := by simp [bitAt]

theorem putG_snoc (ps : List Put) (p : Put) (n : Nat) : putG (ps ++ [p]) n = if p.coversG n then some p else putG ps n := by
  simp only [putG, List.reverse_append, List.reverse_cons, List.reverse_nil, List.nil_append, List.singleton_append,
    List.find?_cons]
  split <;> simp_all

theorem putK_snoc (ps : List Put) (p : Put) (n : Nat) :
    putK (ps ++ [p]) n = if isK p.d && decide (p.d.toNat = 96 + n) then some p else putK ps n := by
  simp only [putK, List.reverse_append, List.reverse_cons, List.reverse_nil, List.nil_append, List.singleton_append,
    List.find?_cons]
  split <;> simp_all

theorem changed_nil (c : Ctx) (run : Mask) : Changed c c run [] where
  rest := rfl
  flights := rfl
  value := by intros; rfl
  live := by intros; simp [putG]
  resident := by intros; simp [putG]
  k := by intros; rfl

/-- What a further result of a register leaves in a lane that does not run is what an earlier one left. -/
theorem kept_lane {c t : Ctx} {run : Mask} {ps : List Put} (h : Changed c t run ps) {n l : Nat} (hn : n < 96) (hl : l < 32)
    (hr : bitAt run l = false) : (if bitAt (gAt t n).live l then lane (gAt t n).val l else 0) =
      if bitAt (gAt c n).live l then lane (gAt c n).val l else 0 := by
  have hv := h.value n hn l hl
  have hv2 := h.live n hn l hl
  rw [hr] at hv hv2
  simp only [Bool.false_eq_true, if_false] at hv hv2
  rw [hv2, hv]
  cases putG ps n with
  | none => rfl
  | some p => by_cases hb : bitAt (gAt c n).live l = true <;> simp [hb]

/-- One more result. -/
theorem changed_snoc (c0 : Ctx) {c t : Ctx} {run : Mask} {ps : List Put} (h : Changed c t run ps) (sep : Nat) (p : Put)
    (hw : p.w = 32 ∨ p.w = 64) : Changed c (applyPut c0 run sep t p) run (ps ++ [p]) := by
  by_cases hg : isG p.d = true
  · have hk : isK p.d = false := by simp [isG] at hg; simp [isK]; omega
    rcases hw with hw | hw
    · have ha : applyPut c0 run sep t p = writeG c0 p.d.toNat run sep (fun l => BitVec.ofNat 32 (p.v l)) t := by
        simp [applyPut, hg, hw]
      have hc : ∀ n, p.coversG n = decide (n = p.d.toNat) := by
        intro n; simp only [Put.coversG, hg, hw, Bool.true_and]; by_cases h : n = p.d.toNat <;> simp [h]; omega
      constructor
      · rw [ha, writeG_rest, h.rest]
      · rw [ha, flights_writeG, h.flights]
      · intro n hn l hl
        rw [ha, gAt_writeG _ _ _ _ _ _ _ hn, putG_snoc, hc]
        by_cases e : n = p.d.toNat
        · subst e
          simp only [if_true, decide_true, lane_lanesOf _ hl, Nat.sub_self, Nat.mul_zero, Nat.pow_zero, Nat.div_one]
          split
          · rfl
          · rename_i hr
            exact kept_lane h hn hl (by simpa using hr)
        · simp only [e, if_false, decide_false, Bool.false_eq_true]
          exact h.value n hn l hl
      · intro n hn l hl
        rw [ha, gAt_writeG _ _ _ _ _ _ _ hn, putG_snoc, hc]
        by_cases e : n = p.d.toNat
        · subst e
          simp only [if_true, decide_true, Option.isSome_some, Bool.true_or, bitAt_or]
          have := h.live p.d.toNat hn l hl
          split <;> simp_all
        · simp only [e, if_false, decide_false, Bool.false_eq_true]
          exact h.live n hn l hl
      · intro n hn
        rw [ha, gAt_writeG _ _ _ _ _ _ _ hn, putG_snoc, hc]
        by_cases e : n = p.d.toNat
        · simp [e]
        · simp only [e, if_false, decide_false, Bool.false_eq_true]
          exact h.resident n hn
      · intro n hn
        rw [ha, writeG_k, putK_snoc, hk]
        exact h.k n hn
    · have ha : applyPut c0 run sep t p = writeG c0 (p.d.toNat + 1) run sep (fun l => BitVec.ofNat 32 (p.v l / 2 ^ 32))
          (writeG c0 p.d.toNat run sep (fun l => BitVec.ofNat 32 (p.v l)) t) := by
        simp [applyPut, hg, hw]
      have hc : ∀ n, p.coversG n = (decide (n = p.d.toNat) || decide (n = p.d.toNat + 1)) := by
        intro n; simp only [Put.coversG, hg, hw, Bool.true_and]
        rw [Bool.eq_iff_iff]; simp; omega
      constructor
      · rw [ha, writeG_rest, writeG_rest, h.rest]
      · rw [ha, flights_writeG, flights_writeG, h.flights]
      · intro n hn l hl
        rw [ha, gAt_writeG _ _ _ _ _ _ _ hn, putG_snoc, hc]
        by_cases e1 : n = p.d.toNat + 1
        · subst e1
          simp only [if_true, decide_true, Bool.or_true, lane_lanesOf _ hl, Nat.add_sub_cancel_left, Nat.mul_one]
          split
          · rfl
          · rename_i hr
            have e1' : ¬ p.d.toNat + 1 = p.d.toNat := by omega
            rw [gAt_writeG _ _ _ _ _ _ _ hn, if_neg e1']
            exact kept_lane h hn hl (by simpa using hr)
        · rw [gAt_writeG _ _ _ _ _ _ _ hn]
          by_cases e : n = p.d.toNat
          · subst e
            simp only [if_true, decide_true, lane_lanesOf _ hl, Nat.sub_self, Nat.mul_zero, Nat.pow_zero, Nat.div_one,
              Bool.true_or, e1, if_false]
            split
            · rfl
            · rename_i hr
              exact kept_lane h hn hl (by simpa using hr)
          · simp only [e, e1, if_false, decide_false, Bool.or_self, Bool.false_eq_true]
            exact h.value n hn l hl
      · intro n hn l hl
        rw [ha, gAt_writeG _ _ _ _ _ _ _ hn, putG_snoc, hc]
        by_cases e1 : n = p.d.toNat + 1
        · subst e1
          have e1' : ¬ p.d.toNat + 1 = p.d.toNat := by omega
          simp only [if_true, decide_true, Bool.or_true, Option.isSome_some, Bool.true_or, bitAt_or]
          rw [gAt_writeG _ _ _ _ _ _ _ hn, if_neg e1']
          rw [h.live (p.d.toNat + 1) hn l hl]
          by_cases hr : bitAt run l = true <;> simp [hr]
        · rw [gAt_writeG _ _ _ _ _ _ _ hn]
          by_cases e : n = p.d.toNat
          · subst e
            simp only [if_true, decide_true, Option.isSome_some, Bool.true_or, bitAt_or, e1, if_false]
            have := h.live p.d.toNat hn l hl
            split <;> simp_all
          · simp only [e, e1, if_false, decide_false, Bool.or_self, Bool.false_eq_true]
            exact h.live n hn l hl
      · intro n hn
        rw [ha, gAt_writeG _ _ _ _ _ _ _ hn, putG_snoc, hc]
        by_cases e1 : n = p.d.toNat + 1
        · simp [e1]
        · rw [gAt_writeG _ _ _ _ _ _ _ hn]
          by_cases e : n = p.d.toNat
          · simp [e]
          · simp only [e, e1, if_false, decide_false, Bool.or_self, Bool.false_eq_true]
            exact h.resident n hn
      · intro n hn
        rw [ha, writeG_k, writeG_k, putK_snoc, hk]
        exact h.k n hn
  · have hg' : isG p.d = false := by simpa using hg
    have hc : ∀ n, p.coversG n = false := by intro n; simp [Put.coversG, hg']
    by_cases hk : isK p.d = true
    · have ha : applyPut c0 run sep t p = writeK (p.d.toNat - 96) sep (asK p (p.v (lowLane run))) t := by
        simp [applyPut, hg', hk]
      have hb : 96 ≤ p.d.toNat ∧ p.d.toNat < 120 := by simpa [isK] using hk
      constructor
      · rw [ha, writeK_rest, h.rest]
      · rw [ha, flights_writeK, h.flights]
      · intro n hn l hl
        rw [ha, gAt_writeK, putG_snoc, hc]
        exact h.value n hn l hl
      · intro n hn l hl
        rw [ha, gAt_writeK, putG_snoc, hc]
        exact h.live n hn l hl
      · intro n hn
        rw [ha, gAt_writeK, putG_snoc, hc]
        exact h.resident n hn
      · intro n hn
        rw [ha, kAt_writeK _ _ _ _ _ (by omega), putK_snoc, hk]
        by_cases e : n = p.d.toNat - 96
        · have : p.d.toNat = 96 + n := by omega
          rw [if_pos e, this]; simp
        · have : ¬ p.d.toNat = 96 + n := by omega
          simp only [e, if_false, this, decide_false, Bool.and_false, Bool.false_eq_true]
          exact h.k n hn
    · have hk' : isK p.d = false := by simpa using hk
      have ha : applyPut c0 run sep t p = t := by simp [applyPut, hg', hk']
      constructor
      · rw [ha]; exact h.rest
      · rw [ha]; exact h.flights
      · intro n hn l hl
        rw [ha, putG_snoc, hc]
        exact h.value n hn l hl
      · intro n hn l hl
        rw [ha, putG_snoc, hc]
        exact h.live n hn l hl
      · intro n hn
        rw [ha, putG_snoc, hc]
        exact h.resident n hn
      · intro n hn
        rw [ha, putK_snoc, hk']
        exact h.k n hn

/-- All results of a word. -/
theorem changed_all (c0 c : Ctx) (run : Mask) (sep : Nat) (ps : List Put) (hw : ∀ p ∈ ps, p.w = 32 ∨ p.w = 64) :
    Changed c (ps.foldl (applyPut c0 run sep) c) run ps := by
  have key : ∀ (qs ps : List Put) (t : Ctx), Changed c t run ps → (∀ p ∈ qs, p.w = 32 ∨ p.w = 64) →
      Changed c (qs.foldl (applyPut c0 run sep) t) run (ps ++ qs) := by
    intro qs
    induction qs with
    | nil => intro ps t h _; simpa using h
    | cons q qs ih =>
      intro ps t h hq
      have := ih (ps ++ [q]) _ (changed_snoc c0 h sep q (hq q (by simp))) fun p hp => hq p (by simp [hp])
      simpa using this
  simpa using key ps [] c (changed_nil c run) hw

/-! ### Sources read -/

theorem killG_rest (run : Mask) (c : Ctx) (n : Nat) : killG run c n = { c with g := (killG run c n).g } := setGReg_rest c n _

theorem kills_rest (run : Mask) (ns : List Nat) (c : Ctx) :
    ns.foldl (killG run) c = { c with g := (ns.foldl (killG run) c).g } := by
  induction ns generalizing c with
  | nil => rfl
  | cons n ns ih => simp only [List.foldl_cons]; rw [ih, killG_rest]

theorem kills_same (run : Mask) (ns : List Nat) {b c : Ctx} (h : b.g = c.g) : (ns.foldl (killG run) b).g = (ns.foldl (killG run) c).g := by
  induction ns generalizing b c with
  | nil => exact h
  | cons n ns ih =>
    refine ih ?_
    simp only [killG, setGReg, gAt, h]
    split <;> simp [h]

theorem kills_dead (run : Mask) (ns : List Nat) (c : Ctx) (b : Bool) :
    (ns.foldl (killG run) { c with deadread := b }).g = (ns.foldl (killG run) c).g := by
  have : ∀ c : Ctx, (killG run { c with deadread := b } · ) = fun n => { killG run c n with deadread := b } := by
    intro c; funext n; simp only [killG, setGReg]; split <;> rfl
  induction ns generalizing c with
  | nil => rfl
  | cons n ns ih => simp only [List.foldl_cons]; rw [congrFun (this c) n, ih]

theorem gAt_kills (run : Mask) (ns : List Nat) (c : Ctx) (m : Nat) (hm : m < 96) :
    (gAt (ns.foldl (killG run) c) m).val = (gAt c m).val ∧
    (gAt (ns.foldl (killG run) c) m).resident = (gAt c m).resident ∧
    ∀ l < 32, bitAt (gAt (ns.foldl (killG run) c) m).live l = (bitAt (gAt c m).live l && !(ns.contains m && bitAt run l)) := by
  induction ns generalizing c with
  | nil => simp
  | cons n ns ih =>
    simp only [List.foldl_cons]
    obtain ⟨h1, h2, h3⟩ := ih (killG run c n)
    have e : gAt (killG run c n) m = if m = n then { gAt c n with live := (gAt c n).live &&& ~~~run } else gAt c m :=
      gAt_setGReg _ _ _ _ hm
    by_cases hmn : m = n
    · subst hmn
      simp only [if_true] at e
      refine ⟨by rw [h1, e], by rw [h2, e], fun l hl => ?_⟩
      rw [h3 l hl, e]
      simp only [bitAt, BitVec.getLsbD_and, BitVec.getLsbD_not, hl, decide_true, Bool.true_and, List.contains_cons, beq_self_eq_true,
        Bool.true_or]
      cases (gAt c m).live.getLsbD l <;> cases run.getLsbD l <;> simp
    · simp only [hmn, if_false] at e
      refine ⟨by rw [h1, e], by rw [h2, e], fun l hl => ?_⟩
      rw [h3 l hl, e]
      have : (m == n) = false := by simpa using hmn
      simp [hmn]

theorem readsEarly_settled {s : State} {names : List Reg} (h : Settled s names) (run : Mask) : readsEarly s run names = false := by
  simp only [readsEarly, List.any_eq_false, Bool.and_eq_true, decide_eq_true_eq, not_and]
  intro z hz hc
  exact absurd (List.elem_iff.mp hc) (h z hz)

theorem missing_present {s : State} {us : List Use} (h : Present s us) : missing s us = none := by
  simp only [missing, List.find?_eq_none, Bool.and_eq_true, decide_eq_true_eq, Bool.not_eq_true', not_and]
  intro n hn hl
  rcases h n hn with h | h
  · exact absurd h hl
  · simp [h]

theorem foldr_fixed {α β : Type} (f : α → β → β) (b : β) (l : List α) (h : ∀ a ∈ l, f a b = b) : l.foldr f b = b := by
  induction l with
  | nil => rfl
  | cons a l ih => rw [List.foldr_cons, ih fun x hx => h x (by simp [hx]), h a (by simp)]

theorem seenLive_settled {s : State} {n : Nat} (h : ∀ z ∈ (ctxOf s).haz, z.reg ≠ .g n) : seenLive s n = (gAt (ctxOf s) n).live := by
  apply foldr_fixed
  intro z hz
  simp [h z hz]

theorem readsDead_settled {s : State} {us : List Use} (run : Mask) (h : Settled s (us.flatMap useNames)) (ps : List Nat) :
    readsDead s run us = readsDeadLane s { us := us, preds := ps, lanes := run } := by
  rw [Bool.eq_iff_iff]
  simp only [readsDead, readsDeadLane, List.any_eq_true]
  apply exists_congr; intro u
  apply and_congr_right; intro hu
  apply exists_congr; intro n
  apply and_congr_right; intro hn
  rw [seenLive_settled]
  apply settled_ne h
  have : isG u.reg = true := by
    by_cases hg : isG u.reg = true
    · exact hg
    · simp [useRegs, hg] at hn
  simp only [List.mem_flatMap]
  exact ⟨u, hu, by simp [useNames, this, hn]⟩

/-- The context after the reads of a word: lanes freed, DEADREAD set. -/
theorem afterReads_eq {s : State} {us : List Use} (run : Mask) (h : Settled s (us.flatMap useNames)) (ps : List Nat) :
    afterReads s run us = modCtx s fun c => { c with
      g := (((us.filter (·.last)).flatMap useRegs).foldl (killG run) c).g
      deadread := c.deadread || readsDeadLane s { us := us, preds := ps, lanes := run } } := by
  simp only [afterReads, readsEarly_settled h, bumpFree, readsDead_settled run h ps, Bool.false_eq_true, if_false]
  generalize readsDeadLane s { us := us, preds := ps, lanes := run } = b
  cases b
  · simp only [noteDead, Bool.false_eq_true, if_false, modCtx, Bool.or_false]
    rw [kills_rest]
  · simp only [noteDead, if_true, Bool.or_true, modCtx]
    rw [kills_rest, kills_dead]

@[simp] theorem source_tick (d : BitVec 3) (s : State) (w : Nat) (r : BitVec 7) (l : Nat) :
    source (tick d s) w r l = source s w r l := by
  have h : ∀ c n, gSpan (tick d s) n l c = gSpan s n l c := by
    intro c; induction c with
    | zero => intro n; rfl
    | succ c ih => intro n; simp only [gSpan, ih]; rfl
  simp only [source, h]
  rfl

theorem budgetPath_same {s t : State} (h : t.cp = s.cp) (n : Nat) : ∀ r, budgetPath t r n = budgetPath s r n := by
  induction n with
  | zero => intro r; rfl
  | succ n ih => intro r; simp only [budgetPath, ih, budgetOf, h]

/-- Room for lines depends on the warps' lines, the launches and the budgets alone. -/
theorem lineRoom_same {s t : State} (hw : t.warps = s.warps) (hl : t.launch = s.launch) (hs : t.launches = s.launches) (hc : t.cp = s.cp)
    {k : Nat} {c : Ctx} (he : t.warp = { s.warp with lastIssue := k, ctx := c }) (hg : c.g = (ctxOf s).g) (n : Nat) :
    lineRoom t n = lineRoom s n := by
  have lines : warpLines t.warp = warpLines s.warp := by
    rw [he]
    simp only [warpLines, contextLines]
    rw [hg]
  have core : t.warp.core = s.warp.core := by rw [he]
  have under (r : Nat) (w : Warp) : underRegion t r w = underRegion s r w := by
    simp only [underRegion, launchOf, hl, hs, budgetPath_same hc]
  have held (core : Nat) (p q : Warp → Bool) (hp : ∀ w, p w = q w) (hi : p t.warp = p s.warp) :
      heldLines t core p = heldLines s core q := by
    have e : (decide (t.warp.core = core) && p t.warp) = (decide (s.warp.core = core) && q s.warp) := by
      rw [hi, hp, show t.warp.core = s.warp.core by rw [he]]
    have f : (fun w : Warp => decide (w.core = core) && p w) = fun w => decide (w.core = core) && q w := funext fun w => by rw [hp]
    simp only [heldLines, List.filter_cons, hw]
    rw [e]
    simp only [f]
    split <;> simp [lines]
  have id : t.warp.id = s.warp.id := by rw [he]
  have iu (r : Nat) : underRegion t r t.warp = underRegion t r s.warp := by simp only [underRegion, id]
  have hu (r core : Nat) : heldLines t core (underRegion t r) = heldLines s core (underRegion s r) :=
    held core _ _ (under r) (iu r)
  have ha (core : Nat) : heldLines t core (fun _ => true) = heldLines s core (fun _ => true) := held core _ _ (fun _ => rfl) rfl
  simp only [lineRoom, roomOn, core, hl, budgetPath_same hc, hu, ha]

@[simp] theorem lineRoom_tick (d : BitVec 3) (s : State) (c : Nat) : lineRoom (tick d s) c = lineRoom s c :=
  lineRoom_same (s := s) (t := tick d s) (k := s.clock + max 1 d.toNat) (c := (tick d s).warp.ctx) rfl rfl rfl rfl rfl rfl c

/-- Room after a word's reads is the same at its issue. -/
theorem roomFor_tick {s : State} {us : List Use} (d : BitVec 3) (h : Settled s (us.flatMap useNames)) (n : Nat) :
    lineRoom (afterReads (tick d s) (runMask (ctxOf s)) us) n = lineRoom (afterReads s (runMask (ctxOf s)) us) n := by
  rw [afterReads_eq _ h [], afterReads_eq _ (settled_tick h d) []]
  exact lineRoom_same (s := modCtx s _) (t := modCtx (tick d s) _) (k := s.clock + max 1 d.toNat) rfl rfl rfl rfl rfl
    (kills_same (b := (tick d s).warp.ctx) (c := s.warp.ctx) _ _ rfl) n

@[simp] theorem predOn_tick (d : BitVec 3) (s : State) (p l : Nat) : predOn (tick d s) p l = predOn s p l := rfl

/-- Sources that are readable let the word go on, if it has room for its results. -/
theorem reading_done {s : State} {us : List Use} {run : Mask} {k : State → Res} (hp : Present s us) :
    reading s run us k = roomed us (k (afterReads s run us)) := by
  simp only [reading, missing_present hp]

/-! ### The results of a word together -/

theorem kExtend_asK (is64 signed : Bool) (d : BitVec 7) (f : Nat → Nat) (v : Nat) :
    kExtend is64 signed v = asK { d := d, w := if is64 then 64 else 32, signed := signed, v := f } v := by
  cases is64 <;> cases signed
  · simp only [kExtend, asK, Bool.false_eq_true, if_false, show ¬(32 : Nat) = 64 by decide]
    apply BitVec.eq_of_toNat_eq
    simp [BitVec.toNat_setWidth, BitVec.toNat_ofNat]
  · simp only [kExtend, asK, Bool.false_eq_true, if_false, if_true, show ¬(32 : Nat) = 64 by decide]
    apply BitVec.eq_of_toInt_eq
    rw [BitVec.toInt_signExtend_of_le (by decide)]
    simp only [w64, wrap, sext]
    simp only [BitVec.toInt_eq_toNat_cond, BitVec.toNat_ofNat]
    split <;> omega
  · simp [kExtend, asK]
  · simp [kExtend, asK]

theorem putReg_done {s0 s : State} {run : Mask} {d : BitVec 7} {is64 signed : Bool} {sep : Nat} {f : Nat → Nat}
    (room : lineRoom s (dstLines d (if is64 then 64 else 32)) = true)
    (uni : isK d = true → ∀ l ∈ lanesIn run, f l = f (lowLane run)) :
    putReg s0 s run d is64 signed sep f =
      .done (modCtx s fun c => applyPut (ctxOf s0) run sep c { d := d, w := if is64 then 64 else 32, signed := signed, v := f }) := by
  simp only [putReg]
  by_cases hg : isG d = true
  · simp only [hg, if_true, room, applyPut]
    cases is64 <;> simp
  · simp only [hg, Bool.false_eq_true, if_false]
    by_cases hk : isK d = true
    · have hu : uniform run f = true := by
        simp only [uniform, List.all_eq_true, decide_eq_true_eq]
        exact uni hk
      simp only [hk, if_true, hu, applyPut, hg, Bool.false_eq_true, if_false, ← kExtend_asK]
    · simp only [hk, Bool.false_eq_true, if_false, applyPut, hg]
      rfl

theorem maskOf_bit (f : Nat → Bool) {l : Nat} (h : l < 32) : bitAt (maskOf f) l = f l := by
  have key : ∀ (ls : List Nat) (m : Mask), (∀ x ∈ ls, x < 32) →
      bitAt (ls.foldl (fun m l => if f l then m ||| BitVec.ofNat 32 (2 ^ l) else m) m) l = (bitAt m l || (ls.contains l && f l)) := by
    intro ls
    induction ls with
    | nil => intro m _; simp
    | cons x xs ih =>
      intro m hx
      have hx32 := hx x (by simp)
      simp only [List.foldl_cons]
      rw [ih _ fun y hy => hx y (by simp [hy])]
      by_cases hf : f x = true
      · simp only [hf, if_true, bitAt_or]
        have hb : bitAt (BitVec.ofNat 32 (2 ^ x)) l = decide (x = l) := by
          rw [bitAt, BitVec.getLsbD_ofNat]; simp [h, Nat.testBit_two_pow]
        rw [hb]
        by_cases e : x = l
        · subst e; simp [hf]
        · have : ¬ l = x := fun a => e a.symm
          simp [e, this]
      · simp only [hf, Bool.false_eq_true, if_false]
        by_cases e : l = x
        · subst e; simp [hf]
        · simp [e]
  have := key laneNums 0 (by simp [laneNums])
  rw [maskOf, this]
  simp [bitAt, laneNums, h]

/-- The predicate results of a word. -/
def applyPreds (run : Mask) (sep : Nat) (c : Ctx) (qs : List (Nat × (Nat → Bool))) : Ctx :=
  qs.foldl (fun c q => writeP q.1 run sep q.2 c) c

theorem writeP_rest (n : Nat) (run : Mask) (sep : Nat) (f : Nat → Bool) (c : Ctx) :
    writeP n run sep f c = { c with
      preds := (writeP n run sep f c).preds, haz := (writeP n run sep f c).haz, ops := (writeP n run sep f c).ops } := by
  by_cases h : n < 7
  · simp only [writeP, setPredMask, h, if_true, dif_pos]; rfl
  · simp only [writeP, h, if_false]

theorem flights_writeP (n : Nat) (run : Mask) (sep : Nat) (f : Nat → Bool) (c : Ctx) : flights (writeP n run sep f c) = flights c := by
  by_cases h : n < 7
  · rw [← flights_claim c (.p n) run sep none c]
    simp only [writeP, setPredMask, h, if_true, dif_pos]; rfl
  · simp only [writeP, h, if_false]

theorem predMask_writeP (n : Nat) (run : Mask) (sep : Nat) (f : Nat → Bool) (c : Ctx) (m : Nat) (hm : m < 7) {l : Nat} (hl : l < 32) :
    bitAt (predMask (writeP n run sep f c) m) l =
      if m = n ∧ bitAt run l = true then f l else bitAt (predMask c m) l := by
  by_cases hn : n < 7
  · simp only [writeP, hn, if_true, setPredMask, dif_pos, predMask, hm]
    by_cases e : m = n
    · subst e
      simp only [Vector.getElem_set_self, true_and, claim]
      have := maskOf_bit f hl
      simp only [bitAt] at this ⊢
      simp only [BitVec.getLsbD_or, BitVec.getLsbD_and, BitVec.getLsbD_not, hl, decide_true, Bool.true_and, this]
      by_cases hr : run.getLsbD l = true <;> simp [hr]
    · simp [e, Ne.symm e, claim]
  · have : m ≠ n := by omega
    simp [writeP, hn, this]

theorem applyPreds_rest (run : Mask) (sep : Nat) (c : Ctx) (qs : List (Nat × (Nat → Bool))) :
    applyPreds run sep c qs = { c with
      preds := (applyPreds run sep c qs).preds, haz := (applyPreds run sep c qs).haz, ops := (applyPreds run sep c qs).ops } := by
  induction qs generalizing c with
  | nil => rfl
  | cons q qs ih => simp only [applyPreds, List.foldl_cons] at ih ⊢; rw [ih, writeP_rest]

theorem flights_applyPreds (run : Mask) (sep : Nat) (c : Ctx) (qs : List (Nat × (Nat → Bool))) :
    flights (applyPreds run sep c qs) = flights c := by
  induction qs generalizing c with
  | nil => rfl
  | cons q qs ih => simp only [applyPreds, List.foldl_cons] at ih ⊢; rw [ih, flights_writeP]

theorem predMask_applyPreds (run : Mask) (sep : Nat) (c : Ctx) (qs : List (Nat × (Nat → Bool))) (m : Nat) (hm : m < 7) {l : Nat}
    (hl : l < 32) : bitAt (predMask (applyPreds run sep c qs) m) l =
      match qs.reverse.find? (fun q => q.1 == m) with
      | some q => if bitAt run l then q.2 l else bitAt (predMask c m) l
      | none => bitAt (predMask c m) l := by
  induction qs generalizing c with
  | nil => rfl
  | cons q qs ih =>
    simp only [applyPreds, List.foldl_cons] at ih ⊢
    rw [ih, predMask_writeP _ _ _ _ _ _ hm hl]
    simp only [List.reverse_cons, List.find?_append, List.find?_cons, List.find?_nil]
    cases hf : List.find? (fun q => q.1 == m) qs.reverse with
    | some r => simp only [Option.some_or]; by_cases hb : bitAt run l = true <;> simp [hb]
    | none =>
      simp only [Option.none_or]
      by_cases e : q.1 = m
      · subst e; simp
      · have : ¬ m = q.1 := fun a => e a.symm
        have h2 : (q.1 == m) = false := by simpa using e
        simp [this, h2]

/-- The context after a word of fixed latency, from its context at issue. -/
def afterWord (c0 : Ctx) (run : Mask) (sep : Nat) (us : List Use) (dead : Bool) (fl : Nat → FpFlags) (ps : List Put)
    (qs : List (Nat × (Nat → Bool))) (c : Ctx) : Ctx :=
  applyPreds run sep (ps.foldl (applyPut c0 run sep)
    { c with g := (((us.filter (·.last)).flatMap useRegs).foldl (killG run) c).g
             deadread := c.deadread || dead
             fpst := (raiseFp run fl c).fpst }) qs

theorem only_of (s : State) (dist : BitVec 3) (c : Ctx)
    (h : ∃ g k preds fpst haz ops dr, c = { ctxOf s with
      g := g, k := k, preds := preds, fpst := fpst, haz := haz, ops := ops, deadread := dr }) :
    OnlyRegisters s (advance (modCtx (tick dist s) fun _ => c)) := by
  obtain ⟨g, k, preds, fpst, haz, ops, dr, rfl⟩ := h
  rfl

/-- A word whose context after it is this one has written its results and left the rest alone. -/
theorem wrote_of (c0 : Ctx) (s : State) (dist : BitVec 3) (sep : Nat) (us : List Use) (preds : List Nat) (lanes : Mask) (fl : Nat → FpFlags)
    (ps : List Put) (qs : List (Nat × (Nat → Bool))) (hw : ∀ p ∈ ps, p.w = 32 ∨ p.w = 64) :
    Wrote s (advance (modCtx (tick dist s) (afterWord c0 (runMask (ctxOf s)) sep us
      (readsDeadLane s { us := us, preds := preds, lanes := lanes }) fl ps qs))) dist
      { us := us, preds := preds, lanes := lanes } ps qs fl := by
  obtain ⟨c1, hc1⟩ : ∃ c1 : Ctx, c1 = { ctxOf (tick dist s) with
      g := (((us.filter (·.last)).flatMap useRegs).foldl (killG (runMask (ctxOf s))) (ctxOf (tick dist s))).g
      deadread := (ctxOf (tick dist s)).deadread || readsDeadLane s { us := us, preds := preds, lanes := lanes }
      fpst := (raiseFp (runMask (ctxOf s)) fl (ctxOf (tick dist s))).fpst } := ⟨_, rfl⟩
  have h := changed_all c0 c1 (runMask (ctxOf s)) sep ps hw
  have hg : ∀ n < 96, (gAt c1 n).val = (gAt (ctxOf s) n).val ∧ (gAt c1 n).resident = (gAt (ctxOf s) n).resident ∧
      ∀ l < 32, bitAt (gAt c1 n).live l =
        (bitAt (gAt (ctxOf s) n).live l && !(freed us n && bitAt (runMask (ctxOf s)) l)) := by
    intro n hn
    have := gAt_kills (runMask (ctxOf s)) ((us.filter (·.last)).flatMap useRegs) (ctxOf (tick dist s)) n hn
    have e : ((us.filter (·.last)).flatMap useRegs).contains n = freed us n := by
      rw [Bool.eq_iff_iff]
      simp only [List.contains_iff_mem, List.mem_flatMap, List.mem_filter, freed, List.any_eq_true, Bool.and_eq_true]
      constructor
      · rintro ⟨u, ⟨h1, h2⟩, h3⟩; exact ⟨u, h1, h2, h3⟩
      · rintro ⟨u, h1, h2, h3⟩; exact ⟨u, ⟨h1, h2⟩, h3⟩
    rw [e] at this
    rw [hc1]
    exact this
  have hfin : afterWord c0 (runMask (ctxOf s)) sep us (readsDeadLane s { us := us, preds := preds, lanes := lanes }) fl ps qs
      (ctxOf (tick dist s)) = applyPreds (runMask (ctxOf s)) sep (ps.foldl (applyPut c0 (runMask (ctxOf s)) sep) c1) qs := by
    rw [hc1]; rfl
  obtain ⟨c2, hc2⟩ : ∃ c2 : Ctx, c2 = ps.foldl (applyPut c0 (runMask (ctxOf s)) sep) c1 := ⟨_, rfl⟩
  rw [← hc2] at h hfin
  obtain ⟨c3, hc3⟩ : ∃ c3 : Ctx, c3 = applyPreds (runMask (ctxOf s)) sep c2 qs := ⟨_, rfl⟩
  rw [← hc3] at hfin
  have r3 : c3 = { c2 with preds := c3.preds, haz := c3.haz, ops := c3.ops } := by rw [hc3]; exact applyPreds_rest _ _ _ _
  have e : advance (modCtx (tick dist s) (afterWord c0 (runMask (ctxOf s)) sep us
      (readsDeadLane s { us := us, preds := preds, lanes := lanes }) fl ps qs)) = advance (modCtx (tick dist s) fun _ => c3) := by
    rw [← hfin]; rfl
  rw [e]
  have g32 : ∀ n, gAt (ctxOf (advance (modCtx (tick dist s) fun _ => c3))) n = gAt c2 n := by
    intro n
    show gAt { c3 with npc := c3.npc + 1, blocks := c3.blocks.tail, wait := .none, met := false } n = _
    rw [r3]; rfl
  constructor
  · apply only_of
    rw [r3, h.rest, hc1]
    exact ⟨_, _, _, _, _, _, _, rfl⟩
  · constructor
    · rfl
    · rfl
    · show c3.npc + 1 = _; rw [r3, h.rest, hc1]; rfl
    · show c3.blocks.tail = _; rw [r3, h.rest, hc1]; rfl
    · rfl
    · rfl
    · show flights c3 = _
      rw [hc3, flights_applyPreds, h.flights, hc1]; rfl
  · constructor
    · intro n hn l hl
      rw [g32, h.value n hn l hl, (hg n hn).1, (hg n hn).2.2 l hl]
      cases putG ps n with
      | none => rfl
      | some p => by_cases hr : bitAt (runMask (ctxOf s)) l = true <;> simp [hr]
    · intro n hn l hl
      rw [g32, h.live n hn l hl, (hg n hn).2.2 l hl]
      by_cases hr : bitAt (runMask (ctxOf s)) l = true <;> simp [hr]
    · intro n hn
      rw [g32, h.resident n hn, (hg n hn).2.1]
  · intro n hn
    have k32 : kAt (ctxOf (advance (modCtx (tick dist s) fun _ => c3))) n = kAt c2 n := by
      show kAt { c3 with npc := c3.npc + 1, blocks := c3.blocks.tail, wait := .none, met := false } n = _
      rw [r3]; rfl
    rw [k32, h.k n hn, hc1]
    rfl
  · intro n hn l hl
    have p3 : predMask (ctxOf (advance (modCtx (tick dist s) fun _ => c3))) n = predMask c3 n := rfl
    have p2 : predMask c2 n = predMask (ctxOf s) n := by rw [h.rest, hc1]; rfl
    rw [p3, hc3, predMask_applyPreds _ _ _ _ _ hn hl, p2] <;>
      cases List.find? (fun q => q.1 == n) qs.reverse <;> rfl
  · intro l hl
    show lane c3.fpst l = _
    rw [r3, h.rest, hc1]
    simp only [raiseFp, lane_lanesOf _ hl]
    rfl
  · show c3.deadread = _
    rw [r3, h.rest, hc1]
    rfl

/-! ### The moulds -/

/-- A word that reads its sources and then writes its results has its effect. -/
theorem computes_of {i : Instr} {dist : BitVec 3} {body : Mask → State → Res} {us : List Use} {preds : List Nat}
    {ps : State → List Put} {qs : State → List (Nat × (Nat → Bool))} {fl : State → Nat → FpFlags} (sep : Nat)
    (hx : ∀ s, exec i s = runWord i dist body s) (hw : ∀ s, ∀ p ∈ ps s, p.w = 32 ∨ p.w = 64)
    (hb : ∀ s, Readable s { us := us, preds := preds, lanes := runMask (ctxOf s) } → RoomFor s us (linesOf (ps s)) →
      Uniform s (ps s) →
      body (runMask (ctxOf s)) (tick dist s) = .done (modCtx (tick dist s) (afterWord (ctxOf (tick dist s)) (runMask (ctxOf s)) sep us
        (readsDeadLane s { us := us, preds := preds, lanes := runMask (ctxOf s) }) (fl s) (ps s) (qs s)))) :
    Computes i dist (fun s => { us := us, preds := preds, lanes := runMask (ctxOf s) }) ps qs fl := by
  intro s hr hd hl hu
  refine ⟨_, ?_, wrote_of (ctxOf (tick dist s)) s dist sep us preds (runMask (ctxOf s)) (fl s) (ps s) (qs s) (hw s)⟩
  rw [hx, runWord_ready hr, hb s hd hl hu]
  rfl

theorem readsDeadLane_tick (d : BitVec 3) (s : State) (r : Sources) : readsDeadLane (tick d s) r = readsDeadLane s r := rfl

theorem modCtx_modCtx (s : State) (f g : Ctx → Ctx) : modCtx (modCtx s f) g = modCtx s fun c => g (f c) := rfl

theorem lanes_ext {α : Type} {v w : Lanes α} (h : ∀ l < 32, lane v l = lane w l) : v = w := by
  apply Vector.ext
  intro i hi
  have := h i hi
  simpa [lane, hi] using this

/-- A word without flags leaves the sticky flags as they are. -/
theorem raiseFp_zero (run : Mask) (c : Ctx) : (raiseFp run (fun _ => 0) c).fpst = c.fpst := by
  apply lanes_ext
  intro l hl
  simp only [raiseFp, lane_lanesOf _ hl]
  split <;> simp

/-- The context after a word that raises no flags and writes one register. -/
theorem afterWord_one (c0 : Ctx) (run : Mask) (sep : Nat) (us : List Use) (dead : Bool) (p : Put) (c : Ctx) :
    afterWord c0 run sep us dead (fun _ => 0) [p] [] c = applyPut c0 run sep
      { c with g := (((us.filter (·.last)).flatMap useRegs).foldl (killG run) c).g, deadread := c.deadread || dead } p := by
  simp only [afterWord, raiseFp_zero, applyPreds, List.foldl_nil, List.foldl_cons]

/-- The mould of the data words. -/
theorem dataWord_computes {i : Instr} {dist : BitVec 3} {us : List Use} {d : BitVec 7} {is64 signed : Bool} {sep : Nat}
    {f v : State → Nat → Nat}
    (hx : ∀ s, exec i s = runWord i dist (fun run s => dataWord run us d is64 signed sep f s) s)
    (hv : ∀ s, Settled s (us.flatMap useNames) → f (tick dist s) = v s) :
    ComputesReg i dist us d (if is64 then 64 else 32) signed v := by
  apply computes_of sep hx
  · intro s p hp
    simp only [List.mem_singleton] at hp
    subst hp
    cases is64 <;> simp
  · intro s hr hl hu
    have hset : Settled s (us.flatMap useNames) := by simpa using hr.1
    have hp : Present (tick dist s) us := hr.2
    simp only [dataWord, reading_done hp]
    rw [putReg_done, afterReads_eq (runMask (ctxOf s)) (settled_tick hset dist) [], modCtx_modCtx, hv s hset]
    · rw [readsDeadLane_tick, roomed_done]
      exact congrArg (fun F => Res.done (modCtx (tick dist s) F)) (funext fun c => (afterWord_one _ _ _ _ _ _ c).symm)
    · rw [roomFor_tick dist hset]
      simpa [RoomFor, linesOf] using hl
    · intro hk
      have := hu _ (List.mem_singleton.mpr rfl) hk
      rw [hv s hset]
      exact this

end Sys2Proof.Laws
end

