-- ==== Sys2Proof/Laws/Flights.lean ====
section
/-! SUPPORT. What issuing an operation can do: the destinations claimed, the flag and the counter raised, nothing else. -/

namespace Sys2Proof.Laws

open Sys2Proof.Machine Sys2Proof.Safety
open Host (Outcome)

theorem claimLater_rest (c0 : Ctx) (op : Nat) (run : Mask) (r : Reg) (c : Ctx) :
    claimLater c0 op run r c = { c with
      g := (claimLater c0 op run r c).g, haz := (claimLater c0 op run r c).haz, ops := (claimLater c0 op run r c).ops } := by
  cases r with
  | g n => simp only [claimLater, storeG]; rw [setGReg_rest]; rfl
  | k n => rfl
  | p n => rfl

theorem flights_claimLater (c0 : Ctx) (op : Nat) (run : Mask) (r : Reg) (c : Ctx) : flights (claimLater c0 op run r c) = flights c := by
  cases r with
  | g n =>
    rw [← flights_claim c0 (.g n) run 0 (some op) c]
    simp only [claimLater, storeG]; rw [setGReg_rest]; rfl
  | k n => exact flights_claim _ _ _ _ _ _
  | p n => exact flights_claim _ _ _ _ _ _

theorem gAt_claimLater (c0 : Ctx) (op : Nat) (run : Mask) (r : Reg) (c : Ctx) (m : Nat) (hm : m < 96) :
    (∀ l < 32, bitAt (gAt (claimLater c0 op run r c) m).live l = (bitAt (gAt c m).live l || (decide (r = .g m) && bitAt run l))) ∧
    (∀ l < 32, bitAt (gAt c m).live l = true → lane (gAt (claimLater c0 op run r c) m).val l = lane (gAt c m).val l) := by
  cases r with
  | g n =>
    have e : gAt (claimLater c0 op run (.g n) c) m = if m = n then
        { val := lanesOf fun l => if bitAt run l then (if bitAt (gAt c n).live l then lane (gAt c n).val l else 0)
                                  else if bitAt (gAt c n).live l then lane (gAt c n).val l else 0,
          live := (gAt c n).live ||| run, resident := true } else gAt c m := by
      simp only [claimLater, storeG]
      rw [gAt_setGReg _ _ _ _ hm]
      rfl
    rw [e]
    by_cases h : m = n
    · subst h
      constructor
      · intro l hl; simp [bitAt_or]
      · intro l hl hlive; simp [lane_lanesOf _ hl, hlive]
    · have h2 : ¬ n = m := fun a => h a.symm
      constructor
      · intro l hl; simp [h, h2]
      · intro l hl hlive; simp [h]
  | k n => exact ⟨fun l hl => by simp; rfl, fun l hl h => rfl⟩
  | p n => exact ⟨fun l hl => by simp; rfl, fun l hl h => rfl⟩

theorem claims_rest (c0 : Ctx) (op : Nat) (run : Mask) (rs : List Reg) (c : Ctx) :
    rs.foldl (fun x r => claimLater c0 op run r x) c = { c with
      g := (rs.foldl (fun x r => claimLater c0 op run r x) c).g
      haz := (rs.foldl (fun x r => claimLater c0 op run r x) c).haz
      ops := (rs.foldl (fun x r => claimLater c0 op run r x) c).ops } := by
  induction rs generalizing c with
  | nil => rfl
  | cons r rs ih => simp only [List.foldl_cons]; rw [ih, claimLater_rest]

theorem flights_claims (c0 : Ctx) (op : Nat) (run : Mask) (rs : List Reg) (c : Ctx) :
    flights (rs.foldl (fun x r => claimLater c0 op run r x) c) = flights c := by
  induction rs generalizing c with
  | nil => rfl
  | cons r rs ih => simp only [List.foldl_cons]; rw [ih, flights_claimLater]

theorem gAt_claims (c0 : Ctx) (op : Nat) (run : Mask) (rs : List Reg) (c : Ctx) (m : Nat) (hm : m < 96) :
    (∀ l < 32, bitAt (gAt (rs.foldl (fun x r => claimLater c0 op run r x) c) m).live l =
      (bitAt (gAt c m).live l || (rs.contains (.g m) && bitAt run l))) ∧
    (∀ l < 32, bitAt (gAt c m).live l = true →
      lane (gAt (rs.foldl (fun x r => claimLater c0 op run r x) c) m).val l = lane (gAt c m).val l) := by
  induction rs generalizing c with
  | nil => exact ⟨fun l hl => by simp, fun l hl h => rfl⟩
  | cons r rs ih =>
    simp only [List.foldl_cons]
    obtain ⟨h1, h2⟩ := ih (claimLater c0 op run r c)
    obtain ⟨g1, g2⟩ := gAt_claimLater c0 op run r c m hm
    constructor
    · intro l hl
      rw [h1 l hl, g1 l hl]
      by_cases e : r = .g m
      · subst e; cases bitAt (gAt c m).live l <;> cases bitAt run l <;> simp
      · have e2 : ¬ Reg.g m = r := fun a => e a.symm
        simp [e, e2]
    · intro l hl hlive
      rw [h2 l hl (by rw [g1 l hl, hlive]; rfl), g2 l hl hlive]

theorem modCounter_at (c : Ctx) (k : Nat) (f : Nat → Nat) (j : Nat) (h1 : 1 ≤ j) (h3 : j ≤ 3) :
    counterOf (modCounter c k f) j = if k = j then f (counterOf c j) else counterOf c j := by
  have : j = 1 ∨ j = 2 ∨ j = 3 := by omega
  rcases this with rfl | rfl | rfl
  all_goals
    match k with
    | 0 => rfl
    | 1 => rfl
    | 2 => rfl
    | 3 => rfl
    | n + 4 => simp [modCounter, counterOf]

theorem modCounter_rest (c : Ctx) (k : Nat) (f : Nat → Nat) :
    modCounter c k f = { c with ol := (modCounter c k f).ol, os := (modCounter c k f).os, sp := (modCounter c k f).sp } := by
  match k with
  | 0 => rfl
  | 1 => rfl
  | 2 => rfl
  | 3 => rfl
  | n + 4 => rfl

theorem raiseFlag_rest (c : Ctx) (f : Option Nat) : raiseFlag c f = { c with cf := (raiseFlag c f).cf } := by
  cases f with
  | none => rfl
  | some i => simp only [raiseFlag, modFlag]; split <;> rfl

theorem raiseFlag_at (c : Ctx) (f : Option Nat) (j : Nat) (hj : j < 12) :
    (raiseFlag c f).cf.toList.getD j 0 = c.cf.toList.getD j 0 + (if f = some j then 1 else 0) := by
  cases f with
  | none => simp [raiseFlag]
  | some i =>
    simp only [raiseFlag, modFlag]
    by_cases hi : i < 12
    · simp only [hi, dif_pos]
      by_cases e : i = j
      · subst e; simp [List.getD, hj]
      · simp [List.getD, hj, e]
    · have : ¬ i = j := by omega
      simp [hi, this]

/-- A word that has read its sources, noted its translations and issued an operation has only done that. -/
theorem launched_of (c0 : Ctx) (s u : State) (dist : BitVec 3) (us : List Use) (i : Instr) (counter : Nat) (dsts : List Dst) (kind : OpKind)
    (hset : Settled s (us.flatMap useNames))
    (hw : u.warp = (afterReads (tick dist s) (runMask (ctxOf s)) us).warp)
    (hu : ∃ fc tags rpl tlb mig moves, u = { tick dist s with
      warp := u.warp, freeCtr := fc, gang := { s.gang with tags := tags }, launch := { s.launch with rpl := rpl },
      mem := { s.mem with tlb := tlb, migration := mig }, svc := { s.svc with moves := moves } }) :
    Launched s s (advance (issueFrom c0 u i (runMask (ctxOf s)) counter dsts kind)) dist (reads us s) (opOf s i counter dsts kind) := by
  have ha := afterReads_eq (s := tick dist s) (runMask (ctxOf s)) (settled_tick hset dist) []
  rw [readsDeadLane_tick] at ha
  have hc : ctxOf u = { ctxOf (tick dist s) with
      g := (((us.filter (·.last)).flatMap useRegs).foldl (killG (runMask (ctxOf s))) (ctxOf (tick dist s))).g
      deadread := (ctxOf s).deadread || readsDeadLane s (reads us s) } := by
    show u.warp.ctx = _
    rw [hw, ha]; rfl
  obtain ⟨run, hrun⟩ : ∃ run, run = runMask (ctxOf s) := ⟨_, rfl⟩
  obtain ⟨op, hop⟩ : ∃ op, op = opOf s i counter dsts kind := ⟨_, rfl⟩
  have hwid : u.warp = { s.warp with lastIssue := s.clock + max 1 dist.toNat, ctx := ctxOf u } := by
    have : u.warp = { (tick dist s).warp with ctx := ctxOf u } := by
      show u.warp = { (tick dist s).warp with ctx := u.warp.ctx }
      rw [hw, ha]; rfl
    rw [this]; rfl
  obtain ⟨c1, hc1⟩ : ∃ c1, c1 = modCounter (raiseFlag (ctxOf u) op.flag) counter (· + 1) := ⟨_, rfl⟩
  obtain ⟨c2, hc2⟩ : ∃ c2, c2 = (dsts.flatMap dstRegs).foldl (fun x r => claimLater c0 op.id run r x) c1 := ⟨_, rfl⟩
  have hid : u.nextOp = s.nextOp := by obtain ⟨_, _, _, _, _, _, e⟩ := hu; rw [e]; rfl
  have hclk : u.clock = s.clock + max 1 dist.toNat := by obtain ⟨_, _, _, _, _, _, e⟩ := hu; rw [e]; rfl
  have hopu : op = { id := u.nextOp, fpc := (ctxOf u).npc, word := wordOf i, run := run, flag := flagOf u (flagSel i),
                     counter := counter, dsts := dsts, kind := kind } := by
    rw [hop, hrun, hid, hc]; simp only [opOf, flagOf, hc]; rfl
  have hctx : ctxOf (advance (issueFrom c0 u i run counter dsts kind)) =
      { c2 with ops := c2.ops ++ [op], spFlags := if counter = 3 then c2.spFlags ++ op.flag.toList else c2.spFlags,
                npc := c2.npc + 1, blocks := c2.blocks.tail, wait := .none, met := false } := by
    rw [hc2, hc1, hopu]
    simp only [issueFrom, advance, ctxOf_modCtx]
    cases hf : flagOf u (flagSel i) <;> rfl
  have hst : advance (issueFrom c0 u i run counter dsts kind) =
      { u with nextOp := u.nextOp + 1, warp := { u.warp with ctx := ctxOf (advance (issueFrom c0 u i run counter dsts kind)) } } := rfl
  have r2 := claims_rest c0 op.id run (dsts.flatMap dstRegs) c1
  rw [← hc2] at r2
  have r1 : c1 = { ctxOf u with cf := c1.cf, ol := c1.ol, os := c1.os, sp := c1.sp } := by
    have := modCounter_rest (raiseFlag (ctxOf u) op.flag) counter (· + 1)
    rw [← hc1] at this
    rw [this, raiseFlag_rest]
  have f2 := flights_claims c0 op.id run (dsts.flatMap dstRegs) c1
  rw [← hc2] at f2
  have hkill := fun n hn => gAt_kills run ((us.filter (·.last)).flatMap useRegs) (ctxOf (tick dist s)) n hn
  have hcontains : ∀ n, ((us.filter (·.last)).flatMap useRegs).contains n = freed us n := by
    intro n
    rw [Bool.eq_iff_iff]
    simp only [List.contains_iff_mem, List.mem_flatMap, List.mem_filter, freed, List.any_eq_true, Bool.and_eq_true]
    constructor
    · rintro ⟨x, ⟨h1, h2⟩, h3⟩; exact ⟨x, h1, h2, h3⟩
    · rintro ⟨x, h1, h2, h3⟩; exact ⟨x, ⟨h1, h2⟩, h3⟩
  have g1 : ∀ n, gAt c1 n = gAt (ctxOf u) n := by intro n; rw [r1]; rfl
  have gu : ∀ n, gAt (ctxOf u) n =
      gAt (((us.filter (·.last)).flatMap useRegs).foldl (killG run) (ctxOf (tick dist s))) n := by
    intro n; rw [hc, hrun]; rfl
  rw [← hrun, ← hop]
  constructor
  · unfold OnlyIssue
    rw [hst, hctx, r2, r1, hc]
    obtain ⟨fc, tags, rpl, tlb, mig, moves, e⟩ := hu
    rw [hwid] at e ⊢
    rw [e]
    rfl
  · exact hclk
  · show u.warp.lastIssue = u.clock; rw [hwid, hclk]
  · rw [hctx, r2, r1, hc]; rfl
  · rw [hctx, r2, r1, hc]; rfl
  · rw [hctx]
  · exact ⟨by rw [hop]; rfl, by rw [hst]; show u.nextOp + 1 = _; rw [hid]⟩
  · rw [hctx]; simp
  · rw [hctx]
    simp only [List.dropLast_concat]
    show flights c2 = flights (ctxOf s)
    rw [f2, r1, hc]; rfl
  · intro j hj
    simp only [flagCount, hctx]
    have e1 : c2.cf = (raiseFlag (ctxOf u) op.flag).cf := by
      rw [r2, hc1, modCounter_rest]
    rw [e1, raiseFlag_at _ _ _ hj, hc]
    rfl
  · intro c h1 h3
    have e1 : ∀ x : Ctx, counterOf { x with ops := c2.ops ++ [op], spFlags := if counter = 3 then c2.spFlags ++ op.flag.toList else c2.spFlags, npc := c2.npc + 1, blocks := c2.blocks.tail, wait := .none, met := false } c = counterOf x c := by
      intro x; have : c = 1 ∨ c = 2 ∨ c = 3 := by omega
      rcases this with rfl | rfl | rfl <;> rfl
    rw [hctx, e1]
    have e2 : counterOf c2 c = counterOf c1 c := by
      rw [r2]; have : c = 1 ∨ c = 2 ∨ c = 3 := by omega
      rcases this with rfl | rfl | rfl <;> rfl
    rw [e2, hc1, modCounter_at _ _ _ _ h1 h3]
    have e3 : counterOf (raiseFlag (ctxOf u) op.flag) c = counterOf (ctxOf s) c := by
      rw [raiseFlag_rest, hc]
      have : c = 1 ∨ c = 2 ∨ c = 3 := by omega
      rcases this with rfl | rfl | rfl <;> rfl
    rw [e3, hop]
    simp only [opOf]
    by_cases e : counter = c <;> simp [e]
  · rw [hctx]
    have e1 : c2.spFlags = (ctxOf s).spFlags := by rw [r2, r1, hc]; rfl
    have e2 : op.counter = counter := by rw [hop]; rfl
    simp only [e1, e2]
    split <;> simp
  · intro n hn l hl
    have e1 : gAt (ctxOf (advance (issueFrom c0 u i run counter dsts kind))) n = gAt c2 n := by rw [hctx]; rfl
    rw [e1, hc2, (gAt_claims c0 op.id run (dsts.flatMap dstRegs) c1 n hn).1 l hl, g1, gu, (hkill n hn).2.2 l hl, hcontains]
    have e2 : claimsG op n = (dsts.flatMap dstRegs).contains (.g n) := by rw [hop]; rfl
    rw [e2]
    show ((bitAt (gAt (ctxOf s) n).live l && _) || _) = _
    simp only [reads, ← hrun]
    cases bitAt run l <;> cases bitAt (gAt (ctxOf s) n).live l <;> cases freed us n <;>
      cases (dsts.flatMap dstRegs).contains (.g n) <;> rfl
  · intro n hn l hl h1 _ h3
    have e1 : gAt (ctxOf (advance (issueFrom c0 u i run counter dsts kind))) n = gAt c2 n := by rw [hctx]; rfl
    have hlive : bitAt (gAt c1 n).live l = true := by
      rw [g1, gu, (hkill n hn).2.2 l hl, hcontains]
      have h4 : bitAt (gAt (ctxOf (tick dist s)) n).live l = true := h1
      rw [← hrun] at h3
      have h5 : (freed us n && bitAt run l) = false := by rw [Bool.and_comm]; exact h3
      rw [h4, h5]; rfl
    rw [e1, hc2, (gAt_claims c0 op.id run (dsts.flatMap dstRegs) c1 n hn).2 l hl hlive, g1, gu, (hkill n hn).1]
    rfl
  · rw [hctx, r2, r1, hc]

end Sys2Proof.Laws
end

