-- ==== Sys2Proof/Laws/Memory.lean ====
section
/-! SUPPORT. Sorted lists and byte maps: what is read after a write, and that every operation on memory keeps the canonical form. -/

namespace Sys2Proof.Laws

open Sys2Proof.Machine

/-! ### Sorted association lists -/

/-- The keys of a list are all above a bound, and rise. -/
def Above {α : Type} (a : Nat) : AList α → Prop
  | [] => True
  | (k, _) :: rest => a < k ∧ Above k rest

theorem sorted_cons {α : Type} (k : Nat) (v : α) (rest : AList α) : AList.sorted ((k, v) :: rest) = true ↔ Above k rest := by
  induction rest generalizing k v with
  | nil => simp [AList.sorted, Above]
  | cons e rest ih => obtain ⟨b, y⟩ := e; simp [AList.sorted, Above, ih]

theorem Above.mono {α : Type} {a b : Nat} {m : AList α} (h : Above b m) (hab : a ≤ b) : Above a m := by
  cases m with
  | nil => trivial
  | cons e rest => exact ⟨Nat.lt_of_le_of_lt hab h.1, h.2⟩

theorem above_put {α : Type} {a k : Nat} {m : AList α} (x : α) (h : Above a m) (hk : a < k) : Above a (AList.put m k x) := by
  induction m generalizing a with
  | nil => exact ⟨hk, trivial⟩
  | cons e rest ih =>
    obtain ⟨b, y⟩ := e
    simp only [AList.put]
    split
    · exact ⟨hk, by assumption, h.2⟩
    · split
      · rename_i e; subst e; exact ⟨hk, h.2⟩
      · exact ⟨h.1, ih h.2 (by omega)⟩

theorem above_drop {α : Type} {a : Nat} {m : AList α} (k : Nat) (h : Above a m) : Above a (AList.drop m k) := by
  induction m generalizing a with
  | nil => trivial
  | cons e rest ih =>
    obtain ⟨b, y⟩ := e
    simp only [AList.drop]
    split
    · exact h
    · split
      · exact h.2.mono (Nat.le_of_lt h.1)
      · exact ⟨h.1, ih h.2⟩

theorem sorted_put {α : Type} {m : AList α} (k : Nat) (x : α) (h : AList.sorted m = true) : AList.sorted (AList.put m k x) = true := by
  cases m with
  | nil => rfl
  | cons e rest =>
    obtain ⟨b, y⟩ := e
    have ha := (sorted_cons b y rest).mp h
    simp only [AList.put]
    split
    · exact (sorted_cons _ _ _).mpr ⟨by assumption, ha⟩
    · split
      · rename_i e; subst e; exact (sorted_cons _ _ _).mpr ha
      · exact (sorted_cons _ _ _).mpr (above_put x ha (by omega))

theorem sorted_drop {α : Type} {m : AList α} (k : Nat) (h : AList.sorted m = true) : AList.sorted (AList.drop m k) = true := by
  cases m with
  | nil => rfl
  | cons e rest =>
    obtain ⟨b, y⟩ := e
    have ha := (sorted_cons b y rest).mp h
    simp only [AList.drop]
    split
    · exact h
    · split
      · cases rest with
        | nil => rfl
        | cons e r => exact (sorted_cons _ _ _).mpr ha.2
      · exact (sorted_cons _ _ _).mpr (above_drop k ha)

theorem find_below {α : Type} {a j : Nat} {m : AList α} (h : Above a m) (hj : j ≤ a) : AList.find m j = none := by
  cases m with
  | nil => rfl
  | cons e rest =>
    obtain ⟨b, y⟩ := e
    have := h.1
    simp only [AList.find]
    rw [if_neg (by omega), if_pos (by omega)]

theorem find_put {α : Type} (m : AList α) (k : Nat) (x : α) (j : Nat) : AList.find (AList.put m k x) j = if k = j then some x else AList.find m j := by
  induction m with
  | nil => simp only [AList.put, AList.find]; split <;> simp
  | cons e rest ih =>
    obtain ⟨b, y⟩ := e
    simp only [AList.put]
    split
    · rename_i hb
      simp only [AList.find]
      by_cases h1 : k = j
      · simp [h1]
      · rw [if_neg h1, if_neg h1]
        split
        · rw [if_neg (by omega), if_pos (by omega)]
        · rfl
    · split
      · rename_i h2; subst h2; simp only [AList.find]; split <;> rfl
      · rename_i h1 h2
        simp only [AList.find, ih]
        by_cases h3 : b = j
        · rw [if_pos h3, if_pos h3, if_neg (by omega)]
        · rw [if_neg h3, if_neg h3]
          by_cases h4 : j < b
          · rw [if_pos h4, if_pos h4, if_neg (by omega)]
          · rw [if_neg h4, if_neg h4]

theorem find_drop_above {α : Type} {a : Nat} {m : AList α} (k j : Nat) (h : Above a m) :
    AList.find (AList.drop m k) j = if k = j then none else AList.find m j := by
  induction m generalizing a with
  | nil => simp [AList.drop, AList.find]
  | cons e rest ih =>
    obtain ⟨b, y⟩ := e
    simp only [AList.drop]
    split
    · rename_i hb
      by_cases h1 : k = j
      · subst h1; simp only [AList.find]; rw [if_neg (by omega), if_pos hb, if_pos True.intro]
      · rw [if_neg h1]
    · split
      · rename_i h2; subst h2
        by_cases h1 : k = j
        · subst h1; rw [if_pos rfl]; exact find_below h.2 (Nat.le_refl _)
        · rw [if_neg h1]; simp only [AList.find]; rw [if_neg h1]
          split
          · exact find_below h.2 (by omega)
          · rfl
      · rename_i h1 h2
        simp only [AList.find, ih h.2]
        by_cases h3 : b = j
        · rw [if_pos h3, if_pos h3, if_neg (by omega)]
        · rw [if_neg h3, if_neg h3]
          by_cases h4 : j < b
          · rw [if_pos h4, if_pos h4, if_neg (by omega)]
          · rw [if_neg h4, if_neg h4]

theorem find_drop {α : Type} {m : AList α} (k j : Nat) (h : AList.sorted m = true) :
    AList.find (AList.drop m k) j = if k = j then none else AList.find m j := by
  cases m with
  | nil => simp [AList.drop, AList.find]
  | cons e rest =>
    obtain ⟨b, y⟩ := e
    have ha := (sorted_cons b y rest).mp h
    simp only [AList.drop]
    split
    · rename_i hb
      by_cases h1 : k = j
      · subst h1; simp only [AList.find]; rw [if_neg (by omega), if_pos hb, if_pos True.intro]
      · rw [if_neg h1]
    · split
      · rename_i h2; subst h2
        by_cases h1 : k = j
        · subst h1; rw [if_pos rfl]; exact find_below ha (Nat.le_refl _)
        · rw [if_neg h1]; simp only [AList.find]; rw [if_neg h1]
          split
          · exact find_below ha (by omega)
          · rfl
      · rename_i h1 h2
        simp only [AList.find, find_drop_above k j ha]
        by_cases h3 : b = j
        · rw [if_pos h3, if_pos h3, if_neg (by omega)]
        · rw [if_neg h3, if_neg h3]
          by_cases h4 : j < b
          · rw [if_pos h4, if_pos h4, if_neg (by omega)]
          · rw [if_neg h4, if_neg h4]

theorem mem_put {α : Type} {m : AList α} {k : Nat} {x : α} {e : Nat × α} (h : e ∈ AList.put m k x) : e = (k, x) ∨ e ∈ m := by
  induction m with
  | nil => simp [AList.put] at h; exact .inl h
  | cons d rest ih =>
    obtain ⟨b, y⟩ := d
    simp only [AList.put] at h
    split at h
    · rcases List.mem_cons.mp h with h | h
      · exact .inl h
      · exact .inr h
    · split at h
      · rcases List.mem_cons.mp h with h | h
        · exact .inl h
        · exact .inr (List.mem_cons_of_mem _ h)
      · rcases List.mem_cons.mp h with h | h
        · exact .inr (h ▸ List.mem_cons_self)
        · rcases ih h with h | h
          · exact .inl h
          · exact .inr (List.mem_cons_of_mem _ h)

theorem mem_drop {α : Type} {m : AList α} {k : Nat} {e : Nat × α} (h : e ∈ AList.drop m k) : e ∈ m := by
  induction m with
  | nil => exact h
  | cons d rest ih =>
    obtain ⟨b, y⟩ := d
    simp only [AList.drop] at h
    split at h
    · exact h
    · split at h
      · exact List.mem_cons_of_mem _ h
      · rcases List.mem_cons.mp h with h | h
        · exact h ▸ List.mem_cons_self
        · exact List.mem_cons_of_mem _ (ih h)

/-! ### Byte maps -/

theorem wf_iff (m : ByteMap) : ByteMap.wf m = true ↔ AList.sorted m = true ∧ ∀ e ∈ m, e.2 ≠ unwritten := by
  simp [ByteMap.wf]

theorem wf_write {m : ByteMap} (a : Nat) (b : Byte) (h : ByteMap.wf m = true) : ByteMap.wf (ByteMap.write m a b) = true := by
  obtain ⟨hs, hn⟩ := (wf_iff m).mp h
  unfold ByteMap.write
  split
  · exact (wf_iff _).mpr ⟨sorted_drop a hs, fun e he => hn e (mem_drop he)⟩
  · rename_i hb
    refine (wf_iff _).mpr ⟨sorted_put a b hs, fun e he => ?_⟩
    rcases mem_put he with rfl | he
    · exact hb
    · exact hn e he

theorem wf_writeMany {m : ByteMap} (a : Nat) (bs : List Byte) (h : ByteMap.wf m = true) : ByteMap.wf (ByteMap.writeMany m a bs) = true := by
  induction bs generalizing m a with
  | nil => exact h
  | cons b bs ih => exact ih (a + 1) (wf_write a b h)

theorem read_write {m : ByteMap} (a : Nat) (b : Byte) (j : Nat) (h : ByteMap.wf m = true) :
    ByteMap.read (ByteMap.write m a b) j = if a = j then b else ByteMap.read m j := by
  unfold ByteMap.read ByteMap.write
  split
  · rename_i hb
    rw [find_drop a j ((wf_iff m).mp h).1]
    split <;> simp [hb]
  · rw [find_put]; split <;> rfl

theorem read_writeMany_other {m : ByteMap} (a : Nat) (bs : List Byte) (j : Nat) (h : ByteMap.wf m = true) (hj : j < a ∨ a + bs.length ≤ j) :
    ByteMap.read (ByteMap.writeMany m a bs) j = ByteMap.read m j := by
  induction bs generalizing m a with
  | nil => rfl
  | cons b bs ih =>
    simp only [List.length_cons] at hj
    simp only [ByteMap.writeMany]
    rw [ih (a + 1) (wf_write a b h) (by omega), read_write a b j h, if_neg (by omega)]

/-- Two canonical maps that read the same everywhere are equal data. -/
theorem above_ext {a : Nat} {m n : ByteMap} (hm : Above a m) (hn : Above a n) (um : ∀ e ∈ m, e.2 ≠ unwritten) (un : ∀ e ∈ n, e.2 ≠ unwritten)
    (h : ∀ j, ByteMap.read m j = ByteMap.read n j) : m = n := by
  induction m generalizing a n with
  | nil =>
    cases n with
    | nil => rfl
    | cons e rest =>
      obtain ⟨b, y⟩ := e
      have := h b
      simp [ByteMap.read, AList.find] at this
      exact absurd this.symm (un (b, y) List.mem_cons_self)
  | cons d m ih =>
    obtain ⟨k, x⟩ := d
    cases n with
    | nil =>
      have := h k
      simp [ByteMap.read, AList.find] at this
      exact absurd this (um (k, x) List.mem_cons_self)
    | cons e n =>
      obtain ⟨b, y⟩ := e
      have hx := um (k, x) List.mem_cons_self
      have hy := un (b, y) List.mem_cons_self
      have hkb : k = b := by
        rcases Nat.lt_trichotomy k b with hlt | heq | hgt
        · have := h k
          simp only [ByteMap.read, AList.find, ↓reduceIte, Option.getD_some] at this
          rw [if_neg (by omega), if_pos hlt] at this
          exact absurd this hx
        · exact heq
        · have := h b
          simp only [ByteMap.read, AList.find, ↓reduceIte, Option.getD_some] at this
          rw [if_neg (by omega), if_pos hgt] at this
          exact absurd this.symm hy
      subst hkb
      have hxy : x = y := by have := h k; simpa [ByteMap.read, AList.find] using this
      subst hxy
      congr 1
      refine ih hm.2 hn.2 (fun e he => um e (List.mem_cons_of_mem _ he)) (fun e he => un e (List.mem_cons_of_mem _ he)) fun j => ?_
      have hj := h j
      simp only [ByteMap.read, AList.find] at hj
      by_cases h1 : k = j
      · subst h1; simp only [ByteMap.read]; rw [find_below hm.2 (Nat.le_refl _), find_below hn.2 (Nat.le_refl _)]
      · rw [if_neg h1, if_neg h1] at hj
        by_cases h2 : j < k
        · simp only [ByteMap.read]; rw [find_below hm.2 (by omega), find_below hn.2 (by omega)]
        · rw [if_neg h2, if_neg h2] at hj; exact hj

/-! ### The home of a byte -/

/-- The memory of a state is in canonical form. -/
def HomeWf (s : State) : Prop := ByteMap.wf s.mem.home = true

theorem reset_homeWf : HomeWf State.reset := rfl

theorem modLaunch_mem (s : State) (seq : Nat) (f : Launch → Launch) : (modLaunch s seq f).mem = s.mem := by
  unfold modLaunch; split <;> rfl

theorem takeAny_mem {s t : State} {n : Nat} (h : takeAny s = some (n, t)) : t.mem = s.mem := by
  unfold takeAny at h
  split at h
  · cases h
  · cases h; rfl

theorem snapLaunch_mem (copy : ByteMap) (p : Nat) (s : State) (seq : Nat) : (snapLaunch copy p s seq).mem = s.mem := by
  unfold snapLaunch
  split
  · rename_i h; rw [modLaunch_mem, takeAny_mem h]
  · exact modLaunch_mem _ _ _

theorem foldl_mem {α : Type} (f : State → α → State) (hf : ∀ s x, (f s x).mem = s.mem) (xs : List α) (s : State) : (xs.foldl f s).mem = s.mem := by
  induction xs generalizing s with
  | nil => rfl
  | cons x xs ih => rw [List.foldl_cons, ih, hf]

theorem touchPage_mem (s : State) (p : Nat) : (touchPage s p).mem = s.mem := by
  unfold touchPage
  dsimp only
  split
  · rfl
  · exact foldl_mem _ (fun s q => snapLaunch_mem _ p s q) _ s

theorem homeWf_of_mem {s t : State} (e : t.mem = s.mem) (h : HomeWf s) : HomeWf t := by unfold HomeWf; rw [e]; exact h

theorem homeWf_touchPage {s : State} (p : Nat) (h : HomeWf s) : HomeWf (touchPage s p) := homeWf_of_mem (touchPage_mem s p) h

theorem homeWf_foldl {α : Type} (f : State → α → State) (hf : ∀ s x, HomeWf s → HomeWf (f s x)) (xs : List α) {s : State} (h : HomeWf s) :
    HomeWf (xs.foldl f s) := by
  induction xs generalizing s with
  | nil => exact h
  | cons x xs ih => exact ih (hf s x h)

theorem homeWf_eachByte (f : State → Nat → State) (hf : ∀ s k, HomeWf s → HomeWf (f s k)) (k n : Nat) {s : State} (h : HomeWf s) :
    HomeWf (eachByte f k n s) := homeWf_foldl _ (fun s i h => hf s (k + i) h) _ h

theorem homeWf_eachGranule (f : State → Nat → State) (hf : ∀ s k, HomeWf s → HomeWf (f s k)) (k n : Nat) {s : State} (h : HomeWf s) :
    HomeWf (eachGranule f k n s) := homeWf_foldl f hf _ h

theorem homeWf_putHomeByte {s : State} (k : Nat) (b : Byte) (h : HomeWf s) : HomeWf (putHomeByte s k b) := by
  unfold putHomeByte
  split
  · exact h
  · exact wf_write k b h

theorem homeWf_homeWrite1 {s : State} (k : Nat) (b : Byte) (h : HomeWf s) : HomeWf (homeWrite1 s k b) :=
  homeWf_putHomeByte k b (homeWf_touchPage _ h)

theorem homeWf_homeWrite {s : State} (k : Nat) (bs : List Byte) (h : HomeWf s) : HomeWf (homeWrite s k bs) := by
  induction bs generalizing s k with
  | nil => exact h
  | cons b bs ih => exact ih (k + 1) (homeWf_homeWrite1 k b h)

/-! ### Package writes -/

theorem homeWf_listWrite {s : State} (w : PkgWrite) (h : HomeWf s) : HomeWf (listWrite s w) := h

theorem homeWf_sendWrite {s : State} (w : PkgWrite) (h : HomeWf s) : HomeWf (sendWrite s w) := h

theorem homeWf_pkgIssue {s : State} (die k : Nat) (bs : List Byte) (atom : Option Nat) (x swap : Nat) (w : WarpId) (op : Option Nat) (l : Nat)
    (h : HomeWf s) : HomeWf (pkgIssue s die k bs atom x swap w op l) := by
  unfold pkgIssue putWrite
  dsimp only
  split <;> exact h

theorem homeWf_pkgCells {s : State} (die : Nat) (cells : List (Nat × Byte)) (bad : Bool) (w : WarpId) (op : Option Nat) (l : Nat)
    (h : HomeWf s) : HomeWf (pkgCells s die cells bad w op l) := by
  unfold pkgCells
  split
  · exact h
  · exact homeWf_pkgIssue _ _ _ _ _ _ _ _ _ h

theorem homeWf_markPoisons {s : State} (k n : Nat) (h : HomeWf s) : HomeWf (markPoisons k n s) :=
  homeWf_foldl (fun st line => markPoison (line * 64) st) (fun _ _ h => h) _ h

theorem homeWf_pkgHomeByte {s : State} (hd : Option Nat) (n : Nat) (p : Nat × Byte) (h : HomeWf s) : HomeWf (pkgHomeByte hd n s p) :=
  homeWf_putHomeByte p.1 p.2 (homeWf_touchPage (s := keepOld s hd p.1 (homeByte s p.1) (homeOrder s p.1)) _ h)

theorem homeWf_l1Refresh1 {s : State} (c k : Nat) (b : Byte) (h : HomeWf s) : HomeWf (l1Refresh1 c k b s) := by
  unfold l1Refresh1
  split
  · split <;> exact h
  · exact h

theorem homeWf_renewL1 {s : State} (c k n : Nat) (h : HomeWf s) : HomeWf (renewL1 c k n s) := by
  unfold renewL1
  split
  · exact h
  · exact homeWf_eachGranule _ (fun _ _ h => homeWf_l1Refresh1 _ _ _ h) _ _ h

theorem homeWf_renewFromHome {s : State} (c k n : Nat) (h : HomeWf s) : HomeWf (renewFromHome c k n s) := by
  unfold renewFromHome
  split
  · exact h
  · exact homeWf_eachGranule _ (fun _ _ h => homeWf_l1Refresh1 _ _ _ h) _ _ h

theorem setClock_mem_home (s : State) (d e n : Nat) : (setClock s d e n).mem.home = s.mem.home := by unfold setClock; split <;> rfl

theorem homeWf_setClock {s : State} (d e n : Nat) (h : HomeWf s) : HomeWf (setClock s d e n) := by
  unfold HomeWf; rw [setClock_mem_home]; exact h

theorem homeWf_followL1 {s : State} (w : PkgWrite) (d : Nat) (h : HomeWf s) : HomeWf (followL1 w d s) := by
  have h1 : HomeWf (if d = w.die then arrived w s else s) := by split <;> exact h
  unfold followL1
  generalize (if d = w.die then arrived w s else s) = t at h1 ⊢
  dsimp only
  split
  · exact homeWf_renewL1 _ _ _ h1
  · exact h1

theorem homeWf_pkgAtHome {s : State} (w : PkgWrite) (bs : List Byte) (h : HomeWf s) : HomeWf (pkgAtHome s w bs) := by
  have h1 (hd : Option Nat) (n : Nat) : HomeWf (({ w with bytes := bs } : PkgWrite).cells.foldl (pkgHomeByte hd n) s) :=
    homeWf_foldl _ (fun _ p h => homeWf_pkgHomeByte _ _ p h) _ h
  unfold pkgAtHome
  dsimp only
  generalize writeHome w = hd
  have h2 (n : Nat) : HomeWf (if w.bad = true then markPoisons w.key bs.length
      (({ w with bytes := bs } : PkgWrite).cells.foldl (pkgHomeByte hd n) s)
    else ({ w with bytes := bs } : PkgWrite).cells.foldl (pkgHomeByte hd n) s) := by
    split
    · exact homeWf_markPoisons _ _ (h1 hd n)
    · exact h1 hd n
  cases hd with
  | none => exact h2 _
  | some d => exact homeWf_followL1 _ _ (homeWf_setClock _ _ _ (h2 _))

theorem homeWf_pkgAtDie {s : State} (w : PkgWrite) (d : Nat) (h : HomeWf s) : HomeWf (pkgAtDie s w d) := by
  have h1 : HomeWf (w.cells.foldl (pkgDieByte d w) (modWrite s w.id fun x => { x with applied := x.applied ||| BitVec.ofNat 16 (2 ^ d) })) := by
    refine homeWf_foldl (pkgDieByte d w) (fun s p h => ?_) _ h
    unfold pkgDieByte
    split <;> exact h
  refine homeWf_followL1 _ _ ?_
  unfold unsent
  dsimp only
  split <;> exact homeWf_setClock _ _ _ h1

theorem homeWf_atOnce {s : State} (w : PkgWrite) (h : HomeWf s) : HomeWf (atOnce w s) := by
  have h1 := homeWf_pkgAtHome w w.bytes h
  unfold atOnce
  dsimp only
  split
  · split
    · exact homeWf_pkgAtDie _ _ h1
    · exact h1
  · exact h1

theorem homeWf_homeCells {s : State} (d : Nat) (cells : List (Nat × Byte)) (bad : Bool) (w : WarpId) (op : Option Nat) (l : Nat)
    (h : HomeWf s) : HomeWf (homeCells s d cells bad w op l) := by
  unfold homeCells
  split
  · exact h
  · exact homeWf_atOnce _ h

theorem homeWf_backCells {s : State} (d : Nat) (cells : List (Nat × Byte)) (bad : Bool) (w : WarpId) (op : Option Nat) (l : Nat)
    (h : HomeWf s) : HomeWf (backCells s d cells bad w op l) := by
  unfold backCells
  split
  · exact homeWf_homeCells _ _ _ _ _ _ h
  · exact h

/-! ### Die points and L1 -/

theorem homeWf_dieStore1 {s : State} (d : Nat) (bad : Bool) (via : List Nat) (p : Nat × Byte) (h : HomeWf s) :
    HomeWf (dieStore1 d bad via s p) := homeWf_touchPage (p.1 / 4096) h

theorem homeWf_dieStore {s : State} (d : Nat) (cells : List (Nat × Byte)) (bad : Bool) (via : List Nat) (h : HomeWf s) :
    HomeWf (dieStore s d cells bad via) := by
  unfold dieStore
  dsimp only
  split
  · exact homeWf_backCells _ _ _ _ _ _ h
  · exact homeWf_foldl _ (fun _ p h => homeWf_dieStore1 _ _ _ p h) _ h

theorem homeWf_sendDie {s : State} (d id k : Nat) (h : HomeWf s) : HomeWf (sendDie d id s k) := by unfold sendDie; split <;> exact h

theorem homeWf_cleanL1 {s : State} (c k : Nat) (h : HomeWf s) : HomeWf (cleanL1 c s k) := by
  unfold cleanL1
  split
  · split <;> exact h
  · exact h

theorem homeWf_dieFlushRun {s : State} (d : Nat) (r : Nat × Nat) (h : HomeWf s) : HomeWf (dieFlushRun d s r) :=
  homeWf_backCells _ _ _ _ _ _ (homeWf_eachByte _ (fun _ k h => homeWf_sendDie d _ k h) _ _ h)

theorem homeWf_dieFlushKeys {s : State} (d : Nat) (ks : List Nat) (h : HomeWf s) : HomeWf (dieFlushKeys d ks s) :=
  homeWf_foldl _ (fun _ r h => homeWf_dieFlushRun d r h) _ h

theorem homeWf_l1FlushRun {s : State} (c : Nat) (r : Nat × Nat) (h : HomeWf s) : HomeWf (l1FlushRun c s r) :=
  homeWf_dieStore _ _ _ _ (homeWf_eachByte _ (fun _ k h => homeWf_cleanL1 c k h) _ _ h)

theorem homeWf_l1FlushKeys {s : State} (c : Nat) (ks : List Nat) (h : HomeWf s) : HomeWf (l1FlushKeys c ks s) :=
  homeWf_foldl _ (fun _ r h => homeWf_l1FlushRun c r h) _ h

theorem homeWf_l1Flush {s : State} (c k n : Nat) (h : HomeWf s) : HomeWf (l1Flush c k n s) := by
  unfold l1Flush
  split
  · exact h
  · exact homeWf_l1FlushKeys c _ h

theorem homeWf_dieFlush {s : State} (d k n : Nat) (h : HomeWf s) : HomeWf (dieFlush d k n s) := by
  unfold dieFlush
  split
  · exact h
  · exact homeWf_dieFlushKeys d _ h

theorem homeWf_flushHome {s : State} (c k n : Nat) (h : HomeWf s) : HomeWf (flushHome c k n s) := homeWf_dieFlush _ k n (homeWf_l1Flush c k n h)

theorem homeWf_l1Invalidate {s : State} (c k n : Nat) (h : HomeWf s) : HomeWf (l1Invalidate c k n s) := by
  unfold l1Invalidate
  refine homeWf_eachGranule _ (fun s a h => ?_) k n (homeWf_l1Flush c k n h)
  split
  · split <;> exact h
  · exact h

theorem homeWf_fillL1 {s : State} (c k n : Nat) (h : HomeWf s) : HomeWf (fillL1 c k n s) := by
  unfold fillL1
  split
  · refine homeWf_eachGranule _ (fun s k h => ?_) k n h
    unfold fillByte
    dsimp only
    split
    · exact h
    · split <;> exact h
  · exact h

theorem homeWf_storeCore {s : State} (c k : Nat) (bs : List Byte) (via : List Nat) (h : HomeWf s) : HomeWf (storeCore s c k bs via) :=
  homeWf_foldl _ (fun _ p h => homeWf_touchPage (p.1 / 4096) h) _ (homeWf_fillL1 c k _ h)

theorem homeWf_storeDieCells {s : State} (c : Nat) (cells : List (Nat × Byte)) (via : List Nat) (h : HomeWf s) :
    HomeWf (storeDieCells s c cells via) :=
  homeWf_foldl _ (fun _ p h => homeWf_l1Refresh1 c p.1 p.2 h) _ (homeWf_dieStore _ _ _ _ (homeWf_l1FlushKeys c _ h))

theorem homeWf_storeDie {s : State} (c k : Nat) (bs : List Byte) (via : List Nat) (h : HomeWf s) : HomeWf (storeDie s c k bs via) :=
  homeWf_storeDieCells c _ via h

theorem homeWf_loadBytes {s : State} (c sc k n : Nat) (h : HomeWf s) : HomeWf (loadBytes s c sc k n).2.2 := by
  unfold loadBytes
  split
  · dsimp only
    split
    · exact h
    · exact homeWf_fillL1 c k n h
  · dsimp only
    split
    · exact homeWf_renewFromHome _ _ _ (homeWf_dieFlush _ _ _ (homeWf_l1Flush _ _ _ h))
    · exact homeWf_renewL1 _ _ _ (homeWf_l1Flush _ _ _ h)

theorem homeWf_atomHome {s : State} (c op k n x d : Nat) (w : WarpId) (id : Option Nat) (part : Nat) (h : HomeWf s) :
    HomeWf (atomHome s c op k n x d w id part).2.2 := by
  unfold atomHome
  dsimp only
  split
  · exact homeWf_flushHome c k n h
  · exact homeWf_backCells _ _ _ _ _ _ (homeWf_flushHome c k n h)

theorem homeWf_publishVia {s : State} (c : Nat) (w : WarpId) (dno : Option Nat) (h : HomeWf s) : HomeWf (publishVia s c w dno) := by
  refine homeWf_foldl _ (fun s r h => ?_) _ (homeWf_foldl _ (fun s r h => ?_) _ h)
  · exact homeWf_pkgCells _ _ _ _ _ _ (homeWf_eachByte _ (fun _ k h => homeWf_sendDie _ _ k h) _ _ h)
  · unfold publishL1
    dsimp only
    split
    · refine homeWf_pkgCells _ _ _ _ _ _ (homeWf_eachByte _ (fun s k h => ?_) _ _ h)
      unfold sendL1
      split <;> exact h
    · exact homeWf_l1FlushRun _ _ h

theorem homeWf_publish {s : State} (c : Nat) (w : WarpId) (h : HomeWf s) : HomeWf (publish s c w) := homeWf_publishVia c w none h

/-! ### What a home write leaves alone -/

theorem foldl_fabric {α : Type} (f : State → α → State) (hf : ∀ s x, (f s x).fabric = s.fabric) (xs : List α) (s : State) :
    (xs.foldl f s).fabric = s.fabric := by
  induction xs generalizing s with
  | nil => rfl
  | cons x xs ih => rw [List.foldl_cons, ih, hf]

theorem modLaunch_fabric (s : State) (seq : Nat) (f : Launch → Launch) : (modLaunch s seq f).fabric = s.fabric := by
  unfold modLaunch; split <;> rfl

theorem snapLaunch_fabric (copy : ByteMap) (p : Nat) (s : State) (seq : Nat) : (snapLaunch copy p s seq).fabric = s.fabric := by
  unfold snapLaunch
  split
  · rename_i h
    rw [modLaunch_fabric]
    unfold takeAny at h
    split at h
    · cases h
    · cases h; rfl
  · exact modLaunch_fabric _ _ _

theorem touchPage_fabric (s : State) (p : Nat) : (touchPage s p).fabric = s.fabric := by
  unfold touchPage
  dsimp only
  split
  · rfl
  · exact foldl_fabric _ (fun s q => snapLaunch_fabric _ p s q) _ s

theorem homeWrite1_keeps (s : State) (k : Nat) (b : Byte) (hk : k < 2 ^ 66) :
    (homeWrite1 s k b).mem.home = ByteMap.write s.mem.home k b ∧ (homeWrite1 s k b).fabric = s.fabric := by
  have hc : isCached k = false := by simp [isCached]; omega
  refine ⟨by simp [homeWrite1, putHomeByte, hc, touchPage_mem], ?_⟩
  simp [homeWrite1, putHomeByte, hc, touchPage_fabric]

/-- A byte written at its home changes no other byte of this device's or a peer's memory. -/
theorem homeByte_homeWrite1_other {s : State} (k : Nat) (b : Byte) (j : Nat) (hj : j < 2 ^ 66) (hk : k < 2 ^ 66) (hne : k ≠ j) (h : HomeWf s) :
    homeByte (homeWrite1 s k b) j = homeByte s j := by
  have hc : isCached j = false := by simp [isCached]; omega
  obtain ⟨h1, h3⟩ := homeWrite1_keeps s k b hk
  simp only [homeByte, hc, Bool.false_eq_true, if_false, h1, ringAt, h3, read_write k b j h, if_neg hne]

/-- Bytes written at their home change no byte outside them. -/
theorem homeByte_homeWrite_other {s : State} (k : Nat) (bs : List Byte) (j : Nat) (hj : j < 2 ^ 66) (hk : k + bs.length ≤ 2 ^ 66)
    (ho : j < k ∨ k + bs.length ≤ j) (h : HomeWf s) : homeByte (homeWrite s k bs) j = homeByte s j := by
  induction bs generalizing s k with
  | nil => rfl
  | cons b bs ih =>
    simp only [List.length_cons] at hk ho
    simp only [homeWrite]
    rw [ih (k + 1) (by omega) (by omega) (homeWf_homeWrite1 k b h), homeByte_homeWrite1_other k b j hj (by omega) (by omega) h]

/-- A word outside the bytes written reads as before. -/
theorem homeWord_homeWrite_other {s : State} (k : Nat) (bs : List Byte) (a : Nat) (ha : a + 8 ≤ 2 ^ 66) (hk : k + bs.length ≤ 2 ^ 66)
    (ho : a + 8 ≤ k ∨ k + bs.length ≤ a) (h : HomeWf s) : homeWord (homeWrite s k bs) a = homeWord s a := by
  unfold homeWord homeBytes
  have : ((List.range 8).map fun i => homeByte (homeWrite s k bs) (a + i)) = (List.range 8).map fun i => homeByte s (a + i) := by
    apply List.map_congr_left
    intro i hi
    have hi := List.mem_range.mp hi
    exact homeByte_homeWrite_other k bs (a + i) (by omega) hk (by omega) h
  rw [this]

end Sys2Proof.Laws
end

