-- ==== Sys2Proof/Laws/PerInstr.lean ====
section
/-! SUPPORT. One lemma per constructor of Instr: the word of an instruction is no segment header, and is one that only trap mode may run
exactly when the instruction is. -/

namespace Sys2Proof.Laws

open Sys2Proof.Machine

/-! ### The class of a word -/

/-- A slice that begins above the lower part lies in the upper part. -/
theorem slice_above {m n k : Nat} (x : BitVec m) (y : BitVec n) (o : Nat) (h : n ≤ o) : (x ++ y).extractLsb' o k = x.extractLsb' (o - n) k := by
  apply BitVec.eq_of_getLsbD_eq
  intro i hi
  simp only [BitVec.getLsbD_extractLsb', BitVec.getLsbD_append, hi, decide_true, Bool.true_and]
  rw [if_neg (by omega)]
  congr 1
  omega

/-- The lower part, taken whole. -/
theorem slice_below {m n : Nat} (x : BitVec m) (y : BitVec n) : (x ++ y).extractLsb' 0 n = y := by
  apply BitVec.eq_of_getLsbD_eq
  intro i hi
  simp [BitVec.getLsbD_append, hi]

theorem class_a3 (op : BitVec 8) (f : A3) : slice (encA3 op f) 61 3 = 0 := by
  unfold slice encA3
  repeat erw [slice_above _ _ _ (by decide)]
  rfl

theorem class_ai (op : BitVec 8) (f : AI) : slice (encAI op f) 61 3 = 2 := by
  unfold slice encAI
  repeat erw [slice_above _ _ _ (by decide)]
  rfl

theorem class_ap (op : SlotOp) (p : Ap) : slice (encAp op p) 61 3 = 1 := by
  unfold slice encAp
  split <;> (repeat erw [slice_above _ _ _ (by decide)]) <;> rfl

theorem class_m (op : BitVec 6) (f : MW) : slice (encM op f) 61 3 = 3 := by
  unfold slice encM
  repeat erw [slice_above _ _ _ (by decide)]
  rfl

theorem space_m (op : BitVec 6) (f : MW) : slice (encM op f) 47 2 = f.space := by
  unfold slice encM
  repeat erw [slice_above _ _ _ (by decide)]
  exact slice_below _ _

theorem class_e (op : BitVec 6) (f : EW) : slice (encE op f) 61 3 = 4 := by
  unfold slice encE
  repeat erw [slice_above _ _ _ (by decide)]
  rfl

theorem class_x (op : BitVec 6) (f : XW) : slice (encX op f) 61 3 = 5 := by
  unfold slice encX
  repeat erw [slice_above _ _ _ (by decide)]
  rfl

theorem opcode_x (op : BitVec 6) (f : XW) : slice (encX op f) 52 6 = op := by
  unfold slice encX
  repeat erw [slice_above _ _ _ (by decide)]
  exact slice_below _ _

theorem class_s (op : BitVec 6) (f : SW) : slice (encS op f) 61 3 = 6 := by
  unfold slice encS
  repeat erw [slice_above _ _ _ (by decide)]
  rfl

theorem class_nop (f : XW) (paired : Bool) : slice (encNop f paired) 61 3 = 1 ∨ (slice (encNop f paired) 61 3 = 5 ∧ slice (encNop f paired) 52 6 = 0x19) := by
  cases paired with
  | false => exact .inr ⟨class_x 0x19 f, opcode_x 0x19 f⟩
  | true =>
    left
    unfold slice encNop
    simp only [if_true]
    repeat erw [slice_above _ _ _ (by decide)]
    rfl

/-! ### What the statement asks, by class -/

/-- A word is no header, and privileged as told. -/
def WordIs (w : W64) (privileged : Bool) : Prop := wordIsHeader w = false ∧ wordPrivileged w = privileged

theorem wordIs_a3 (op : BitVec 8) (f : A3) : WordIs (encA3 op f) false := by simp [WordIs, wordIsHeader, wordPrivileged, class_a3]
theorem wordIs_ai (op : BitVec 8) (f : AI) : WordIs (encAI op f) false := by simp [WordIs, wordIsHeader, wordPrivileged, class_ai]
theorem wordIs_ap (op : SlotOp) (p : Ap) : WordIs (encAp op p) false := by simp [WordIs, wordIsHeader, wordPrivileged, class_ap]
theorem wordIs_m (op : BitVec 6) (f : MW) : WordIs (encM op f) (f.space == 2) := by simp [WordIs, wordIsHeader, wordPrivileged, class_m, space_m]
theorem wordIs_e (op : BitVec 6) (f : EW) : WordIs (encE op f) false := by simp [WordIs, wordIsHeader, wordPrivileged, class_e]
theorem wordIs_s (op : BitVec 6) (f : SW) : WordIs (encS op f) true := by simp [WordIs, wordIsHeader, wordPrivileged, class_s]
theorem wordIs_x (op : BitVec 6) (f : XW) : WordIs (encX op f) (op == 0x1B) := by simp [WordIs, wordIsHeader, wordPrivileged, class_x, opcode_x]
theorem wordIs_nop (f : XW) (paired : Bool) : WordIs (encNop f paired) false := by
  rcases class_nop f paired with h | ⟨h, g⟩ <;> simp [WordIs, wordIsHeader, wordPrivileged, *]

/-! ### The family -/

/-- The word of an instruction is no header, and is privileged exactly when the instruction is (spec/04 R63, R85). -/
def Encoding.Statement (i : Instr) : Prop := ∀ w, encode i = some w → wordIsHeader w = false ∧ wordPrivileged w = isPrivileged i

theorem statement_of {i : Instr} {v : W64} {b : Bool} (he : encode i = some v) (h : WordIs v b) (hb : isPrivileged i = b) : Encoding.Statement i := by
  intro w hw
  rw [he] at hw
  cases hw
  rw [hb]
  exact h

theorem statement_none {i : Instr} (he : encode i = none) : Encoding.Statement i := by
  intro w hw
  rw [he] at hw
  cases hw

end Sys2Proof.Laws

open Sys2Proof Sys2Proof.Machine

theorem Sys2Proof.Laws.Encoding.iadd (f : A3) : Sys2Proof.Laws.Encoding.Statement (.iadd f) := Sys2Proof.Laws.statement_of rfl (Sys2Proof.Laws.wordIs_a3 _ _) rfl
theorem Sys2Proof.Laws.Encoding.isub (f : A3) : Sys2Proof.Laws.Encoding.Statement (.isub f) := Sys2Proof.Laws.statement_of rfl (Sys2Proof.Laws.wordIs_a3 _ _) rfl
theorem Sys2Proof.Laws.Encoding.imul (f : A3) : Sys2Proof.Laws.Encoding.Statement (.imul f) := Sys2Proof.Laws.statement_of rfl (Sys2Proof.Laws.wordIs_a3 _ _) rfl
theorem Sys2Proof.Laws.Encoding.imulh (f : A3) : Sys2Proof.Laws.Encoding.Statement (.imulh f) := Sys2Proof.Laws.statement_of rfl (Sys2Proof.Laws.wordIs_a3 _ _) rfl
theorem Sys2Proof.Laws.Encoding.imad (f : A3) : Sys2Proof.Laws.Encoding.Statement (.imad f) := Sys2Proof.Laws.statement_of rfl (Sys2Proof.Laws.wordIs_a3 _ _) rfl
theorem Sys2Proof.Laws.Encoding.imadw (f : A3) : Sys2Proof.Laws.Encoding.Statement (.imadw f) := Sys2Proof.Laws.statement_of rfl (Sys2Proof.Laws.wordIs_a3 _ _) rfl
theorem Sys2Proof.Laws.Encoding.imin (f : A3) : Sys2Proof.Laws.Encoding.Statement (.imin f) := Sys2Proof.Laws.statement_of rfl (Sys2Proof.Laws.wordIs_a3 _ _) rfl
theorem Sys2Proof.Laws.Encoding.imax (f : A3) : Sys2Proof.Laws.Encoding.Statement (.imax f) := Sys2Proof.Laws.statement_of rfl (Sys2Proof.Laws.wordIs_a3 _ _) rfl
theorem Sys2Proof.Laws.Encoding.iabs (f : A3) : Sys2Proof.Laws.Encoding.Statement (.iabs f) := Sys2Proof.Laws.statement_of rfl (Sys2Proof.Laws.wordIs_a3 _ _) rfl
theorem Sys2Proof.Laws.Encoding.ineg (f : A3) : Sys2Proof.Laws.Encoding.Statement (.ineg f) := Sys2Proof.Laws.statement_of rfl (Sys2Proof.Laws.wordIs_a3 _ _) rfl
theorem Sys2Proof.Laws.Encoding.lea (f : A3) : Sys2Proof.Laws.Encoding.Statement (.lea f) := Sys2Proof.Laws.statement_of rfl (Sys2Proof.Laws.wordIs_a3 _ _) rfl
theorem Sys2Proof.Laws.Encoding.iclamp (f : A3) : Sys2Proof.Laws.Encoding.Statement (.iclamp f) := Sys2Proof.Laws.statement_of rfl (Sys2Proof.Laws.wordIs_a3 _ _) rfl
theorem Sys2Proof.Laws.Encoding.iabsd (f : A3) : Sys2Proof.Laws.Encoding.Statement (.iabsd f) := Sys2Proof.Laws.statement_of rfl (Sys2Proof.Laws.wordIs_a3 _ _) rfl
theorem Sys2Proof.Laws.Encoding.idot4 (f : A3) : Sys2Proof.Laws.Encoding.Statement (.idot4 f) := Sys2Proof.Laws.statement_of rfl (Sys2Proof.Laws.wordIs_a3 _ _) rfl
theorem Sys2Proof.Laws.Encoding.and (f : A3) : Sys2Proof.Laws.Encoding.Statement (.and f) := Sys2Proof.Laws.statement_of rfl (Sys2Proof.Laws.wordIs_a3 _ _) rfl
theorem Sys2Proof.Laws.Encoding.or (f : A3) : Sys2Proof.Laws.Encoding.Statement (.or f) := Sys2Proof.Laws.statement_of rfl (Sys2Proof.Laws.wordIs_a3 _ _) rfl
theorem Sys2Proof.Laws.Encoding.xor (f : A3) : Sys2Proof.Laws.Encoding.Statement (.xor f) := Sys2Proof.Laws.statement_of rfl (Sys2Proof.Laws.wordIs_a3 _ _) rfl
theorem Sys2Proof.Laws.Encoding.andn (f : A3) : Sys2Proof.Laws.Encoding.Statement (.andn f) := Sys2Proof.Laws.statement_of rfl (Sys2Proof.Laws.wordIs_a3 _ _) rfl
theorem Sys2Proof.Laws.Encoding.not (f : A3) : Sys2Proof.Laws.Encoding.Statement (.not f) := Sys2Proof.Laws.statement_of rfl (Sys2Proof.Laws.wordIs_a3 _ _) rfl
theorem Sys2Proof.Laws.Encoding.shl (f : A3) : Sys2Proof.Laws.Encoding.Statement (.shl f) := Sys2Proof.Laws.statement_of rfl (Sys2Proof.Laws.wordIs_a3 _ _) rfl
theorem Sys2Proof.Laws.Encoding.shr (f : A3) : Sys2Proof.Laws.Encoding.Statement (.shr f) := Sys2Proof.Laws.statement_of rfl (Sys2Proof.Laws.wordIs_a3 _ _) rfl
theorem Sys2Proof.Laws.Encoding.sar (f : A3) : Sys2Proof.Laws.Encoding.Statement (.sar f) := Sys2Proof.Laws.statement_of rfl (Sys2Proof.Laws.wordIs_a3 _ _) rfl
theorem Sys2Proof.Laws.Encoding.rot (f : A3) : Sys2Proof.Laws.Encoding.Statement (.rot f) := Sys2Proof.Laws.statement_of rfl (Sys2Proof.Laws.wordIs_a3 _ _) rfl
theorem Sys2Proof.Laws.Encoding.funsh (f : A3) : Sys2Proof.Laws.Encoding.Statement (.funsh f) := Sys2Proof.Laws.statement_of rfl (Sys2Proof.Laws.wordIs_a3 _ _) rfl
theorem Sys2Proof.Laws.Encoding.bfx (f : A3) : Sys2Proof.Laws.Encoding.Statement (.bfx f) := Sys2Proof.Laws.statement_of rfl (Sys2Proof.Laws.wordIs_a3 _ _) rfl
theorem Sys2Proof.Laws.Encoding.bfi (f : A3) : Sys2Proof.Laws.Encoding.Statement (.bfi f) := Sys2Proof.Laws.statement_of rfl (Sys2Proof.Laws.wordIs_a3 _ _) rfl
theorem Sys2Proof.Laws.Encoding.popc (f : A3) : Sys2Proof.Laws.Encoding.Statement (.popc f) := Sys2Proof.Laws.statement_of rfl (Sys2Proof.Laws.wordIs_a3 _ _) rfl
theorem Sys2Proof.Laws.Encoding.clz (f : A3) : Sys2Proof.Laws.Encoding.Statement (.clz f) := Sys2Proof.Laws.statement_of rfl (Sys2Proof.Laws.wordIs_a3 _ _) rfl
theorem Sys2Proof.Laws.Encoding.ctz (f : A3) : Sys2Proof.Laws.Encoding.Statement (.ctz f) := Sys2Proof.Laws.statement_of rfl (Sys2Proof.Laws.wordIs_a3 _ _) rfl
theorem Sys2Proof.Laws.Encoding.brev (f : A3) : Sys2Proof.Laws.Encoding.Statement (.brev f) := Sys2Proof.Laws.statement_of rfl (Sys2Proof.Laws.wordIs_a3 _ _) rfl
theorem Sys2Proof.Laws.Encoding.bswp (f : A3) : Sys2Proof.Laws.Encoding.Statement (.bswp f) := Sys2Proof.Laws.statement_of rfl (Sys2Proof.Laws.wordIs_a3 _ _) rfl
theorem Sys2Proof.Laws.Encoding.prmt (f : A3) : Sys2Proof.Laws.Encoding.Statement (.prmt f) := Sys2Proof.Laws.statement_of rfl (Sys2Proof.Laws.wordIs_a3 _ _) rfl
theorem Sys2Proof.Laws.Encoding.icmp (f : A3) : Sys2Proof.Laws.Encoding.Statement (.icmp f) := Sys2Proof.Laws.statement_of rfl (Sys2Proof.Laws.wordIs_a3 _ _) rfl
theorem Sys2Proof.Laws.Encoding.fcmp (f : A3) : Sys2Proof.Laws.Encoding.Statement (.fcmp f) := Sys2Proof.Laws.statement_of rfl (Sys2Proof.Laws.wordIs_a3 _ _) rfl
theorem Sys2Proof.Laws.Encoding.sel (f : A3) : Sys2Proof.Laws.Encoding.Statement (.sel f) := Sys2Proof.Laws.statement_of rfl (Sys2Proof.Laws.wordIs_a3 _ _) rfl
theorem Sys2Proof.Laws.Encoding.mov (f : A3) : Sys2Proof.Laws.Encoding.Statement (.mov f) := Sys2Proof.Laws.statement_of rfl (Sys2Proof.Laws.wordIs_a3 _ _) rfl
theorem Sys2Proof.Laws.Encoding.pset (f : A3) : Sys2Proof.Laws.Encoding.Statement (.pset f) := Sys2Proof.Laws.statement_of rfl (Sys2Proof.Laws.wordIs_a3 _ _) rfl
theorem Sys2Proof.Laws.Encoding.pmov (f : A3) : Sys2Proof.Laws.Encoding.Statement (.pmov f) := Sys2Proof.Laws.statement_of rfl (Sys2Proof.Laws.wordIs_a3 _ _) rfl
theorem Sys2Proof.Laws.Encoding.fadd (f : A3) : Sys2Proof.Laws.Encoding.Statement (.fadd f) := Sys2Proof.Laws.statement_of rfl (Sys2Proof.Laws.wordIs_a3 _ _) rfl
theorem Sys2Proof.Laws.Encoding.fsub (f : A3) : Sys2Proof.Laws.Encoding.Statement (.fsub f) := Sys2Proof.Laws.statement_of rfl (Sys2Proof.Laws.wordIs_a3 _ _) rfl
theorem Sys2Proof.Laws.Encoding.fmul (f : A3) : Sys2Proof.Laws.Encoding.Statement (.fmul f) := Sys2Proof.Laws.statement_of rfl (Sys2Proof.Laws.wordIs_a3 _ _) rfl
theorem Sys2Proof.Laws.Encoding.ffma (f : A3) : Sys2Proof.Laws.Encoding.Statement (.ffma f) := Sys2Proof.Laws.statement_of rfl (Sys2Proof.Laws.wordIs_a3 _ _) rfl
theorem Sys2Proof.Laws.Encoding.fmin (f : A3) : Sys2Proof.Laws.Encoding.Statement (.fmin f) := Sys2Proof.Laws.statement_of rfl (Sys2Proof.Laws.wordIs_a3 _ _) rfl
theorem Sys2Proof.Laws.Encoding.fmax (f : A3) : Sys2Proof.Laws.Encoding.Statement (.fmax f) := Sys2Proof.Laws.statement_of rfl (Sys2Proof.Laws.wordIs_a3 _ _) rfl
theorem Sys2Proof.Laws.Encoding.frnd (f : A3) : Sys2Proof.Laws.Encoding.Statement (.frnd f) := Sys2Proof.Laws.statement_of rfl (Sys2Proof.Laws.wordIs_a3 _ _) rfl
theorem Sys2Proof.Laws.Encoding.fcvt (f : A3) : Sys2Proof.Laws.Encoding.Statement (.fcvt f) := Sys2Proof.Laws.statement_of rfl (Sys2Proof.Laws.wordIs_a3 _ _) rfl
theorem Sys2Proof.Laws.Encoding.fclass (f : A3) : Sys2Proof.Laws.Encoding.Statement (.fclass f) := Sys2Proof.Laws.statement_of rfl (Sys2Proof.Laws.wordIs_a3 _ _) rfl
theorem Sys2Proof.Laws.Encoding.fscale (f : A3) : Sys2Proof.Laws.Encoding.Statement (.fscale f) := Sys2Proof.Laws.statement_of rfl (Sys2Proof.Laws.wordIs_a3 _ _) rfl
theorem Sys2Proof.Laws.Encoding.fdot2 (f : A3) : Sys2Proof.Laws.Encoding.Statement (.fdot2 f) := Sys2Proof.Laws.statement_of rfl (Sys2Proof.Laws.wordIs_a3 _ _) rfl
theorem Sys2Proof.Laws.Encoding.qnt (f : A3) : Sys2Proof.Laws.Encoding.Statement (.qnt f) := Sys2Proof.Laws.statement_of rfl (Sys2Proof.Laws.wordIs_a3 _ _) rfl
theorem Sys2Proof.Laws.Encoding.dqnt (f : A3) : Sys2Proof.Laws.Encoding.Statement (.dqnt f) := Sys2Proof.Laws.statement_of rfl (Sys2Proof.Laws.wordIs_a3 _ _) rfl
theorem Sys2Proof.Laws.Encoding.f2i (f : A3) : Sys2Proof.Laws.Encoding.Statement (.f2i f) := Sys2Proof.Laws.statement_of rfl (Sys2Proof.Laws.wordIs_a3 _ _) rfl
theorem Sys2Proof.Laws.Encoding.i2f (f : A3) : Sys2Proof.Laws.Encoding.Statement (.i2f f) := Sys2Proof.Laws.statement_of rfl (Sys2Proof.Laws.wordIs_a3 _ _) rfl
theorem Sys2Proof.Laws.Encoding.rcp (f : A3) : Sys2Proof.Laws.Encoding.Statement (.rcp f) := Sys2Proof.Laws.statement_of rfl (Sys2Proof.Laws.wordIs_a3 _ _) rfl
theorem Sys2Proof.Laws.Encoding.rsq (f : A3) : Sys2Proof.Laws.Encoding.Statement (.rsq f) := Sys2Proof.Laws.statement_of rfl (Sys2Proof.Laws.wordIs_a3 _ _) rfl
theorem Sys2Proof.Laws.Encoding.sqrt (f : A3) : Sys2Proof.Laws.Encoding.Statement (.sqrt f) := Sys2Proof.Laws.statement_of rfl (Sys2Proof.Laws.wordIs_a3 _ _) rfl
theorem Sys2Proof.Laws.Encoding.exp2 (f : A3) : Sys2Proof.Laws.Encoding.Statement (.exp2 f) := Sys2Proof.Laws.statement_of rfl (Sys2Proof.Laws.wordIs_a3 _ _) rfl
theorem Sys2Proof.Laws.Encoding.log2 (f : A3) : Sys2Proof.Laws.Encoding.Statement (.log2 f) := Sys2Proof.Laws.statement_of rfl (Sys2Proof.Laws.wordIs_a3 _ _) rfl
theorem Sys2Proof.Laws.Encoding.sinpi (f : A3) : Sys2Proof.Laws.Encoding.Statement (.sinpi f) := Sys2Proof.Laws.statement_of rfl (Sys2Proof.Laws.wordIs_a3 _ _) rfl
theorem Sys2Proof.Laws.Encoding.cospi (f : A3) : Sys2Proof.Laws.Encoding.Statement (.cospi f) := Sys2Proof.Laws.statement_of rfl (Sys2Proof.Laws.wordIs_a3 _ _) rfl
theorem Sys2Proof.Laws.Encoding.tanh (f : A3) : Sys2Proof.Laws.Encoding.Statement (.tanh f) := Sys2Proof.Laws.statement_of rfl (Sys2Proof.Laws.wordIs_a3 _ _) rfl
theorem Sys2Proof.Laws.Encoding.fdiv (f : A3) : Sys2Proof.Laws.Encoding.Statement (.fdiv f) := Sys2Proof.Laws.statement_of rfl (Sys2Proof.Laws.wordIs_a3 _ _) rfl
theorem Sys2Proof.Laws.Encoding.shfl (f : A3) : Sys2Proof.Laws.Encoding.Statement (.shfl f) := Sys2Proof.Laws.statement_of rfl (Sys2Proof.Laws.wordIs_a3 _ _) rfl
theorem Sys2Proof.Laws.Encoding.vote (f : A3) : Sys2Proof.Laws.Encoding.Statement (.vote f) := Sys2Proof.Laws.statement_of rfl (Sys2Proof.Laws.wordIs_a3 _ _) rfl
theorem Sys2Proof.Laws.Encoding.redux (f : A3) : Sys2Proof.Laws.Encoding.Statement (.redux f) := Sys2Proof.Laws.statement_of rfl (Sys2Proof.Laws.wordIs_a3 _ _) rfl
theorem Sys2Proof.Laws.Encoding.scan (f : A3) : Sys2Proof.Laws.Encoding.Statement (.scan f) := Sys2Proof.Laws.statement_of rfl (Sys2Proof.Laws.wordIs_a3 _ _) rfl
theorem Sys2Proof.Laws.Encoding.matchLanes (f : A3) : Sys2Proof.Laws.Encoding.Statement (.matchLanes f) := Sys2Proof.Laws.statement_of rfl (Sys2Proof.Laws.wordIs_a3 _ _) rfl
theorem Sys2Proof.Laws.Encoding.xpose (f : A3) : Sys2Proof.Laws.Encoding.Statement (.xpose f) := Sys2Proof.Laws.statement_of rfl (Sys2Proof.Laws.wordIs_a3 _ _) rfl
theorem Sys2Proof.Laws.Encoding.iaddAp (p : Ap) : Sys2Proof.Laws.Encoding.Statement (.iaddAp p) := Sys2Proof.Laws.statement_of rfl (Sys2Proof.Laws.wordIs_ap _ _) rfl
theorem Sys2Proof.Laws.Encoding.isubAp (p : Ap) : Sys2Proof.Laws.Encoding.Statement (.isubAp p) := Sys2Proof.Laws.statement_of rfl (Sys2Proof.Laws.wordIs_ap _ _) rfl
theorem Sys2Proof.Laws.Encoding.imulAp (p : Ap) : Sys2Proof.Laws.Encoding.Statement (.imulAp p) := Sys2Proof.Laws.statement_of rfl (Sys2Proof.Laws.wordIs_ap _ _) rfl
theorem Sys2Proof.Laws.Encoding.iminAp (p : Ap) : Sys2Proof.Laws.Encoding.Statement (.iminAp p) := Sys2Proof.Laws.statement_of rfl (Sys2Proof.Laws.wordIs_ap _ _) rfl
theorem Sys2Proof.Laws.Encoding.imaxAp (p : Ap) : Sys2Proof.Laws.Encoding.Statement (.imaxAp p) := Sys2Proof.Laws.statement_of rfl (Sys2Proof.Laws.wordIs_ap _ _) rfl
theorem Sys2Proof.Laws.Encoding.andAp (p : Ap) : Sys2Proof.Laws.Encoding.Statement (.andAp p) := Sys2Proof.Laws.statement_of rfl (Sys2Proof.Laws.wordIs_ap _ _) rfl
theorem Sys2Proof.Laws.Encoding.orAp (p : Ap) : Sys2Proof.Laws.Encoding.Statement (.orAp p) := Sys2Proof.Laws.statement_of rfl (Sys2Proof.Laws.wordIs_ap _ _) rfl
theorem Sys2Proof.Laws.Encoding.xorAp (p : Ap) : Sys2Proof.Laws.Encoding.Statement (.xorAp p) := Sys2Proof.Laws.statement_of rfl (Sys2Proof.Laws.wordIs_ap _ _) rfl
theorem Sys2Proof.Laws.Encoding.shlAp (p : Ap) : Sys2Proof.Laws.Encoding.Statement (.shlAp p) := Sys2Proof.Laws.statement_of rfl (Sys2Proof.Laws.wordIs_ap _ _) rfl
theorem Sys2Proof.Laws.Encoding.shrAp (p : Ap) : Sys2Proof.Laws.Encoding.Statement (.shrAp p) := Sys2Proof.Laws.statement_of rfl (Sys2Proof.Laws.wordIs_ap _ _) rfl
theorem Sys2Proof.Laws.Encoding.sarAp (p : Ap) : Sys2Proof.Laws.Encoding.Statement (.sarAp p) := Sys2Proof.Laws.statement_of rfl (Sys2Proof.Laws.wordIs_ap _ _) rfl
theorem Sys2Proof.Laws.Encoding.movAp (p : Ap) : Sys2Proof.Laws.Encoding.Statement (.movAp p) := Sys2Proof.Laws.statement_of rfl (Sys2Proof.Laws.wordIs_ap _ _) rfl
theorem Sys2Proof.Laws.Encoding.faddAp (p : Ap) : Sys2Proof.Laws.Encoding.Statement (.faddAp p) := Sys2Proof.Laws.statement_of rfl (Sys2Proof.Laws.wordIs_ap _ _) rfl
theorem Sys2Proof.Laws.Encoding.fmulAp (p : Ap) : Sys2Proof.Laws.Encoding.Statement (.fmulAp p) := Sys2Proof.Laws.statement_of rfl (Sys2Proof.Laws.wordIs_ap _ _) rfl
theorem Sys2Proof.Laws.Encoding.fminAp (p : Ap) : Sys2Proof.Laws.Encoding.Statement (.fminAp p) := Sys2Proof.Laws.statement_of rfl (Sys2Proof.Laws.wordIs_ap _ _) rfl
theorem Sys2Proof.Laws.Encoding.fmaxAp (p : Ap) : Sys2Proof.Laws.Encoding.Statement (.fmaxAp p) := Sys2Proof.Laws.statement_of rfl (Sys2Proof.Laws.wordIs_ap _ _) rfl
theorem Sys2Proof.Laws.Encoding.notAp (p : Ap) : Sys2Proof.Laws.Encoding.Statement (.notAp p) := Sys2Proof.Laws.statement_of rfl (Sys2Proof.Laws.wordIs_ap _ _) rfl
theorem Sys2Proof.Laws.Encoding.iaddi (f : AI) : Sys2Proof.Laws.Encoding.Statement (.iaddi f) := Sys2Proof.Laws.statement_of rfl (Sys2Proof.Laws.wordIs_ai _ _) rfl
theorem Sys2Proof.Laws.Encoding.imuli (f : AI) : Sys2Proof.Laws.Encoding.Statement (.imuli f) := Sys2Proof.Laws.statement_of rfl (Sys2Proof.Laws.wordIs_ai _ _) rfl
theorem Sys2Proof.Laws.Encoding.andi (f : AI) : Sys2Proof.Laws.Encoding.Statement (.andi f) := Sys2Proof.Laws.statement_of rfl (Sys2Proof.Laws.wordIs_ai _ _) rfl
theorem Sys2Proof.Laws.Encoding.ori (f : AI) : Sys2Proof.Laws.Encoding.Statement (.ori f) := Sys2Proof.Laws.statement_of rfl (Sys2Proof.Laws.wordIs_ai _ _) rfl
theorem Sys2Proof.Laws.Encoding.xori (f : AI) : Sys2Proof.Laws.Encoding.Statement (.xori f) := Sys2Proof.Laws.statement_of rfl (Sys2Proof.Laws.wordIs_ai _ _) rfl
theorem Sys2Proof.Laws.Encoding.shli (f : AI) : Sys2Proof.Laws.Encoding.Statement (.shli f) := Sys2Proof.Laws.statement_of rfl (Sys2Proof.Laws.wordIs_ai _ _) rfl
theorem Sys2Proof.Laws.Encoding.shri (f : AI) : Sys2Proof.Laws.Encoding.Statement (.shri f) := Sys2Proof.Laws.statement_of rfl (Sys2Proof.Laws.wordIs_ai _ _) rfl
theorem Sys2Proof.Laws.Encoding.sari (f : AI) : Sys2Proof.Laws.Encoding.Statement (.sari f) := Sys2Proof.Laws.statement_of rfl (Sys2Proof.Laws.wordIs_ai _ _) rfl
theorem Sys2Proof.Laws.Encoding.movi (f : AI) : Sys2Proof.Laws.Encoding.Statement (.movi f) := Sys2Proof.Laws.statement_of rfl (Sys2Proof.Laws.wordIs_ai _ _) rfl
theorem Sys2Proof.Laws.Encoding.movhi (f : AI) : Sys2Proof.Laws.Encoding.Statement (.movhi f) := Sys2Proof.Laws.statement_of rfl (Sys2Proof.Laws.wordIs_ai _ _) rfl
theorem Sys2Proof.Laws.Encoding.icmpi (f : AI) : Sys2Proof.Laws.Encoding.Statement (.icmpi f) := Sys2Proof.Laws.statement_of rfl (Sys2Proof.Laws.wordIs_ai _ _) rfl
theorem Sys2Proof.Laws.Encoding.faddi (f : AI) : Sys2Proof.Laws.Encoding.Statement (.faddi f) := Sys2Proof.Laws.statement_of rfl (Sys2Proof.Laws.wordIs_ai _ _) rfl
theorem Sys2Proof.Laws.Encoding.fmuli (f : AI) : Sys2Proof.Laws.Encoding.Statement (.fmuli f) := Sys2Proof.Laws.statement_of rfl (Sys2Proof.Laws.wordIs_ai _ _) rfl
theorem Sys2Proof.Laws.Encoding.imini (f : AI) : Sys2Proof.Laws.Encoding.Statement (.imini f) := Sys2Proof.Laws.statement_of rfl (Sys2Proof.Laws.wordIs_ai _ _) rfl
theorem Sys2Proof.Laws.Encoding.imaxi (f : AI) : Sys2Proof.Laws.Encoding.Statement (.imaxi f) := Sys2Proof.Laws.statement_of rfl (Sys2Proof.Laws.wordIs_ai _ _) rfl
theorem Sys2Proof.Laws.Encoding.leai (f : AI) : Sys2Proof.Laws.Encoding.Statement (.leai f) := Sys2Proof.Laws.statement_of rfl (Sys2Proof.Laws.wordIs_ai _ _) rfl
theorem Sys2Proof.Laws.Encoding.ld (f : MW) : Sys2Proof.Laws.Encoding.Statement (.ld f) := Sys2Proof.Laws.statement_of rfl (Sys2Proof.Laws.wordIs_m _ _) rfl
theorem Sys2Proof.Laws.Encoding.st (f : MW) : Sys2Proof.Laws.Encoding.Statement (.st f) := Sys2Proof.Laws.statement_of rfl (Sys2Proof.Laws.wordIs_m _ _) rfl
theorem Sys2Proof.Laws.Encoding.ldx (f : MW) : Sys2Proof.Laws.Encoding.Statement (.ldx f) := Sys2Proof.Laws.statement_of rfl (Sys2Proof.Laws.wordIs_m _ _) rfl
theorem Sys2Proof.Laws.Encoding.stx (f : MW) : Sys2Proof.Laws.Encoding.Statement (.stx f) := Sys2Proof.Laws.statement_of rfl (Sys2Proof.Laws.wordIs_m _ _) rfl
theorem Sys2Proof.Laws.Encoding.atomAdd (f : MW) : Sys2Proof.Laws.Encoding.Statement (.atomAdd f) := Sys2Proof.Laws.statement_of rfl (Sys2Proof.Laws.wordIs_m _ _) rfl
theorem Sys2Proof.Laws.Encoding.atomMin (f : MW) : Sys2Proof.Laws.Encoding.Statement (.atomMin f) := Sys2Proof.Laws.statement_of rfl (Sys2Proof.Laws.wordIs_m _ _) rfl
theorem Sys2Proof.Laws.Encoding.atomMax (f : MW) : Sys2Proof.Laws.Encoding.Statement (.atomMax f) := Sys2Proof.Laws.statement_of rfl (Sys2Proof.Laws.wordIs_m _ _) rfl
theorem Sys2Proof.Laws.Encoding.atomAnd (f : MW) : Sys2Proof.Laws.Encoding.Statement (.atomAnd f) := Sys2Proof.Laws.statement_of rfl (Sys2Proof.Laws.wordIs_m _ _) rfl
theorem Sys2Proof.Laws.Encoding.atomOr (f : MW) : Sys2Proof.Laws.Encoding.Statement (.atomOr f) := Sys2Proof.Laws.statement_of rfl (Sys2Proof.Laws.wordIs_m _ _) rfl
theorem Sys2Proof.Laws.Encoding.atomXor (f : MW) : Sys2Proof.Laws.Encoding.Statement (.atomXor f) := Sys2Proof.Laws.statement_of rfl (Sys2Proof.Laws.wordIs_m _ _) rfl
theorem Sys2Proof.Laws.Encoding.atomXchg (f : MW) : Sys2Proof.Laws.Encoding.Statement (.atomXchg f) := Sys2Proof.Laws.statement_of rfl (Sys2Proof.Laws.wordIs_m _ _) rfl
theorem Sys2Proof.Laws.Encoding.atomCas (f : MW) : Sys2Proof.Laws.Encoding.Statement (.atomCas f) := Sys2Proof.Laws.statement_of rfl (Sys2Proof.Laws.wordIs_m _ _) rfl
theorem Sys2Proof.Laws.Encoding.atomFadd (f : MW) : Sys2Proof.Laws.Encoding.Statement (.atomFadd f) := Sys2Proof.Laws.statement_of rfl (Sys2Proof.Laws.wordIs_m _ _) rfl
theorem Sys2Proof.Laws.Encoding.pref (f : MW) : Sys2Proof.Laws.Encoding.Statement (.pref f) := Sys2Proof.Laws.statement_of rfl (Sys2Proof.Laws.wordIs_m _ _) rfl
theorem Sys2Proof.Laws.Encoding.ldfe (f : MW) : Sys2Proof.Laws.Encoding.Statement (.ldfe f) := Sys2Proof.Laws.statement_of rfl (Sys2Proof.Laws.wordIs_m _ _) rfl
theorem Sys2Proof.Laws.Encoding.stfe (f : MW) : Sys2Proof.Laws.Encoding.Statement (.stfe f) := Sys2Proof.Laws.statement_of rfl (Sys2Proof.Laws.wordIs_m _ _) rfl
theorem Sys2Proof.Laws.Encoding.splook (f : MW) : Sys2Proof.Laws.Encoding.Statement (.splook f) := Sys2Proof.Laws.statement_of rfl (Sys2Proof.Laws.wordIs_m _ _) rfl
theorem Sys2Proof.Laws.Encoding.sptag (f : MW) : Sys2Proof.Laws.Encoding.Statement (.sptag f) := Sys2Proof.Laws.statement_of rfl (Sys2Proof.Laws.wordIs_m _ _) rfl
theorem Sys2Proof.Laws.Encoding.spinv (f : MW) : Sys2Proof.Laws.Encoding.Statement (.spinv f) := Sys2Proof.Laws.statement_of rfl (Sys2Proof.Laws.wordIs_m _ _) rfl
theorem Sys2Proof.Laws.Encoding.cwait (f : XW) : Sys2Proof.Laws.Encoding.Statement (.cwait f) := Sys2Proof.Laws.statement_of rfl (Sys2Proof.Laws.wordIs_x _ _) rfl
theorem Sys2Proof.Laws.Encoding.twait (f : XW) : Sys2Proof.Laws.Encoding.Statement (.twait f) := Sys2Proof.Laws.statement_of rfl (Sys2Proof.Laws.wordIs_x _ _) rfl
theorem Sys2Proof.Laws.Encoding.barInit (f : XW) : Sys2Proof.Laws.Encoding.Statement (.barInit f) := Sys2Proof.Laws.statement_of rfl (Sys2Proof.Laws.wordIs_x _ _) rfl
theorem Sys2Proof.Laws.Encoding.barArrive (f : XW) : Sys2Proof.Laws.Encoding.Statement (.barArrive f) := Sys2Proof.Laws.statement_of rfl (Sys2Proof.Laws.wordIs_x _ _) rfl
theorem Sys2Proof.Laws.Encoding.barWait (f : XW) : Sys2Proof.Laws.Encoding.Statement (.barWait f) := Sys2Proof.Laws.statement_of rfl (Sys2Proof.Laws.wordIs_x _ _) rfl
theorem Sys2Proof.Laws.Encoding.gbar (f : XW) : Sys2Proof.Laws.Encoding.Statement (.gbar f) := Sys2Proof.Laws.statement_of rfl (Sys2Proof.Laws.wordIs_x _ _) rfl
theorem Sys2Proof.Laws.Encoding.ldp (f : MW) : Sys2Proof.Laws.Encoding.Statement (.ldp f) := Sys2Proof.Laws.statement_of rfl (Sys2Proof.Laws.wordIs_m _ _) rfl
theorem Sys2Proof.Laws.Encoding.stp (f : MW) : Sys2Proof.Laws.Encoding.Statement (.stp f) := Sys2Proof.Laws.statement_of rfl (Sys2Proof.Laws.wordIs_m _ _) rfl
theorem Sys2Proof.Laws.Encoding.ldn (f : MW) : Sys2Proof.Laws.Encoding.Statement (.ldn f) := Sys2Proof.Laws.statement_of rfl (Sys2Proof.Laws.wordIs_m _ _) rfl
theorem Sys2Proof.Laws.Encoding.stn (f : MW) : Sys2Proof.Laws.Encoding.Statement (.stn f) := Sys2Proof.Laws.statement_of rfl (Sys2Proof.Laws.wordIs_m _ _) rfl
theorem Sys2Proof.Laws.Encoding.peq (f : MW) : Sys2Proof.Laws.Encoding.Statement (.peq f) := Sys2Proof.Laws.statement_of rfl (Sys2Proof.Laws.wordIs_m _ _) rfl
theorem Sys2Proof.Laws.Encoding.padd (f : MW) : Sys2Proof.Laws.Encoding.Statement (.padd f) := Sys2Proof.Laws.statement_of rfl (Sys2Proof.Laws.wordIs_m _ _) rfl
theorem Sys2Proof.Laws.Encoding.pname (f : MW) : Sys2Proof.Laws.Encoding.Statement (.pname f) := Sys2Proof.Laws.statement_of rfl (Sys2Proof.Laws.wordIs_m _ _) rfl
theorem Sys2Proof.Laws.Encoding.pres (f : MW) : Sys2Proof.Laws.Encoding.Statement (.pres f) := Sys2Proof.Laws.statement_of rfl (Sys2Proof.Laws.wordIs_m _ _) rfl
theorem Sys2Proof.Laws.Encoding.cpl (f : MW) : Sys2Proof.Laws.Encoding.Statement (.cpl f) := Sys2Proof.Laws.statement_of rfl (Sys2Proof.Laws.wordIs_m _ _) rfl
theorem Sys2Proof.Laws.Encoding.rgnext (f : MW) : Sys2Proof.Laws.Encoding.Statement (.rgnext f) := Sys2Proof.Laws.statement_of rfl (Sys2Proof.Laws.wordIs_m _ _) rfl
theorem Sys2Proof.Laws.Encoding.rgrel (f : MW) : Sys2Proof.Laws.Encoding.Statement (.rgrel f) := Sys2Proof.Laws.statement_of rfl (Sys2Proof.Laws.wordIs_m _ _) rfl
theorem Sys2Proof.Laws.Encoding.vdef (f : EW) : Sys2Proof.Laws.Encoding.Statement (.vdef f) := Sys2Proof.Laws.statement_of rfl (Sys2Proof.Laws.wordIs_e _ _) rfl
theorem Sys2Proof.Laws.Encoding.vset (f : EW) : Sys2Proof.Laws.Encoding.Statement (.vset f) := Sys2Proof.Laws.statement_of rfl (Sys2Proof.Laws.wordIs_e _ _) rfl
theorem Sys2Proof.Laws.Encoding.vget (f : EW) : Sys2Proof.Laws.Encoding.Statement (.vget f) := Sys2Proof.Laws.statement_of rfl (Sys2Proof.Laws.wordIs_e _ _) rfl
theorem Sys2Proof.Laws.Encoding.vld (f : EW) : Sys2Proof.Laws.Encoding.Statement (.vld f) := Sys2Proof.Laws.statement_of rfl (Sys2Proof.Laws.wordIs_e _ _) rfl
theorem Sys2Proof.Laws.Encoding.vst (f : EW) : Sys2Proof.Laws.Encoding.Statement (.vst f) := Sys2Proof.Laws.statement_of rfl (Sys2Proof.Laws.wordIs_e _ _) rfl
theorem Sys2Proof.Laws.Encoding.vret (f : EW) : Sys2Proof.Laws.Encoding.Statement (.vret f) := Sys2Proof.Laws.statement_of rfl (Sys2Proof.Laws.wordIs_e _ _) rfl
theorem Sys2Proof.Laws.Encoding.vmeet (f : EW) : Sys2Proof.Laws.Encoding.Statement (.vmeet f) := Sys2Proof.Laws.statement_of rfl (Sys2Proof.Laws.wordIs_e _ _) rfl
theorem Sys2Proof.Laws.Encoding.cpv (f : EW) : Sys2Proof.Laws.Encoding.Statement (.cpv f) := Sys2Proof.Laws.statement_of rfl (Sys2Proof.Laws.wordIs_e _ _) rfl
theorem Sys2Proof.Laws.Encoding.cpr (f : EW) : Sys2Proof.Laws.Encoding.Statement (.cpr f) := Sys2Proof.Laws.statement_of rfl (Sys2Proof.Laws.wordIs_e _ _) rfl
theorem Sys2Proof.Laws.Encoding.gath (f : EW) : Sys2Proof.Laws.Encoding.Statement (.gath f) := Sys2Proof.Laws.statement_of rfl (Sys2Proof.Laws.wordIs_e _ _) rfl
theorem Sys2Proof.Laws.Encoding.mmt (f : EW) : Sys2Proof.Laws.Encoding.Statement (.mmt f) := Sys2Proof.Laws.statement_of rfl (Sys2Proof.Laws.wordIs_e _ _) rfl
theorem Sys2Proof.Laws.Encoding.mmv (f : EW) : Sys2Proof.Laws.Encoding.Statement (.mmv f) := Sys2Proof.Laws.statement_of rfl (Sys2Proof.Laws.wordIs_e _ _) rfl
theorem Sys2Proof.Laws.Encoding.mstat (f : EW) : Sys2Proof.Laws.Encoding.Statement (.mstat f) := Sys2Proof.Laws.statement_of rfl (Sys2Proof.Laws.wordIs_e _ _) rfl
theorem Sys2Proof.Laws.Encoding.mclr (f : EW) : Sys2Proof.Laws.Encoding.Statement (.mclr f) := Sys2Proof.Laws.statement_of rfl (Sys2Proof.Laws.wordIs_e _ _) rfl
theorem Sys2Proof.Laws.Encoding.xred (f : EW) : Sys2Proof.Laws.Encoding.Statement (.xred f) := Sys2Proof.Laws.statement_of rfl (Sys2Proof.Laws.wordIs_e _ _) rfl
theorem Sys2Proof.Laws.Encoding.xgath (f : EW) : Sys2Proof.Laws.Encoding.Statement (.xgath f) := Sys2Proof.Laws.statement_of rfl (Sys2Proof.Laws.wordIs_e _ _) rfl
theorem Sys2Proof.Laws.Encoding.xbcast (f : EW) : Sys2Proof.Laws.Encoding.Statement (.xbcast f) := Sys2Proof.Laws.statement_of rfl (Sys2Proof.Laws.wordIs_e _ _) rfl
theorem Sys2Proof.Laws.Encoding.tkacq (f : EW) : Sys2Proof.Laws.Encoding.Statement (.tkacq f) := Sys2Proof.Laws.statement_of rfl (Sys2Proof.Laws.wordIs_e _ _) rfl
theorem Sys2Proof.Laws.Encoding.tkrel (f : EW) : Sys2Proof.Laws.Encoding.Statement (.tkrel f) := Sys2Proof.Laws.statement_of rfl (Sys2Proof.Laws.wordIs_e _ _) rfl
theorem Sys2Proof.Laws.Encoding.tkqry (f : EW) : Sys2Proof.Laws.Encoding.Statement (.tkqry f) := Sys2Proof.Laws.statement_of rfl (Sys2Proof.Laws.wordIs_e _ _) rfl
theorem Sys2Proof.Laws.Encoding.goto (f : XW) : Sys2Proof.Laws.Encoding.Statement (.goto f) := Sys2Proof.Laws.statement_of rfl (Sys2Proof.Laws.wordIs_x _ _) rfl
theorem Sys2Proof.Laws.Encoding.brc (f : XW) : Sys2Proof.Laws.Encoding.Statement (.brc f) := Sys2Proof.Laws.statement_of rfl (Sys2Proof.Laws.wordIs_x _ _) rfl
theorem Sys2Proof.Laws.Encoding.brx (f : XW) : Sys2Proof.Laws.Encoding.Statement (.brx f) := Sys2Proof.Laws.statement_of rfl (Sys2Proof.Laws.wordIs_x _ _) rfl
theorem Sys2Proof.Laws.Encoding.call (f : XW) : Sys2Proof.Laws.Encoding.Statement (.call f) := Sys2Proof.Laws.statement_of rfl (Sys2Proof.Laws.wordIs_x _ _) rfl
theorem Sys2Proof.Laws.Encoding.ret (f : XW) : Sys2Proof.Laws.Encoding.Statement (.ret f) := Sys2Proof.Laws.statement_of rfl (Sys2Proof.Laws.wordIs_x _ _) rfl
theorem Sys2Proof.Laws.Encoding.exit (f : XW) : Sys2Proof.Laws.Encoding.Statement (.exit f) := Sys2Proof.Laws.statement_of rfl (Sys2Proof.Laws.wordIs_x _ _) rfl
theorem Sys2Proof.Laws.Encoding.yield (f : XW) : Sys2Proof.Laws.Encoding.Statement (.yield f) := Sys2Proof.Laws.statement_of rfl (Sys2Proof.Laws.wordIs_x _ _) rfl
theorem Sys2Proof.Laws.Encoding.contx (f : XW) : Sys2Proof.Laws.Encoding.Statement (.contx f) := Sys2Proof.Laws.statement_of rfl (Sys2Proof.Laws.wordIs_x _ _) rfl
theorem Sys2Proof.Laws.Encoding.meet (f : XW) : Sys2Proof.Laws.Encoding.Statement (.meet f) := Sys2Proof.Laws.statement_of rfl (Sys2Proof.Laws.wordIs_x _ _) rfl
theorem Sys2Proof.Laws.Encoding.pb (f : XW) : Sys2Proof.Laws.Encoding.Statement (.pb f) := Sys2Proof.Laws.statement_of rfl (Sys2Proof.Laws.wordIs_x _ _) rfl
theorem Sys2Proof.Laws.Encoding.cont (f : XW) : Sys2Proof.Laws.Encoding.Statement (.cont f) := Sys2Proof.Laws.statement_of rfl (Sys2Proof.Laws.wordIs_x _ _) rfl
theorem Sys2Proof.Laws.Encoding.nop (f : XW) (paired : Bool) : Sys2Proof.Laws.Encoding.Statement (.nop f paired) := Sys2Proof.Laws.statement_of rfl (Sys2Proof.Laws.wordIs_nop _ _) rfl
theorem Sys2Proof.Laws.Encoding.trap (f : XW) : Sys2Proof.Laws.Encoding.Statement (.trap f) := Sys2Proof.Laws.statement_of rfl (Sys2Proof.Laws.wordIs_x _ _) rfl
theorem Sys2Proof.Laws.Encoding.deact (f : XW) : Sys2Proof.Laws.Encoding.Statement (.deact f) := Sys2Proof.Laws.statement_of rfl (Sys2Proof.Laws.wordIs_x _ _) rfl
theorem Sys2Proof.Laws.Encoding.ctxld (f : SW) : Sys2Proof.Laws.Encoding.Statement (.ctxld f) := Sys2Proof.Laws.statement_of rfl (Sys2Proof.Laws.wordIs_s _ _) rfl
theorem Sys2Proof.Laws.Encoding.ctxst (f : SW) : Sys2Proof.Laws.Encoding.Statement (.ctxst f) := Sys2Proof.Laws.statement_of rfl (Sys2Proof.Laws.wordIs_s _ _) rfl
theorem Sys2Proof.Laws.Encoding.tret (f : SW) : Sys2Proof.Laws.Encoding.Statement (.tret f) := Sys2Proof.Laws.statement_of rfl (Sys2Proof.Laws.wordIs_s _ _) rfl
theorem Sys2Proof.Laws.Encoding.csrr (f : SW) : Sys2Proof.Laws.Encoding.Statement (.csrr f) := Sys2Proof.Laws.statement_of rfl (Sys2Proof.Laws.wordIs_s _ _) rfl
theorem Sys2Proof.Laws.Encoding.csrw (f : SW) : Sys2Proof.Laws.Encoding.Statement (.csrw f) := Sys2Proof.Laws.statement_of rfl (Sys2Proof.Laws.wordIs_s _ _) rfl
theorem Sys2Proof.Laws.Encoding.tlbi (f : SW) : Sys2Proof.Laws.Encoding.Statement (.tlbi f) := Sys2Proof.Laws.statement_of rfl (Sys2Proof.Laws.wordIs_s _ _) rfl
theorem Sys2Proof.Laws.Encoding.pbind (f : SW) : Sys2Proof.Laws.Encoding.Statement (.pbind f) := Sys2Proof.Laws.statement_of rfl (Sys2Proof.Laws.wordIs_s _ _) rfl
theorem Sys2Proof.Laws.Encoding.punbind (f : SW) : Sys2Proof.Laws.Encoding.Statement (.punbind f) := Sys2Proof.Laws.statement_of rfl (Sys2Proof.Laws.wordIs_s _ _) rfl
theorem Sys2Proof.Laws.Encoding.pevict (f : SW) : Sys2Proof.Laws.Encoding.Statement (.pevict f) := Sys2Proof.Laws.statement_of rfl (Sys2Proof.Laws.wordIs_s _ _) rfl
theorem Sys2Proof.Laws.Encoding.mprgw (f : SW) : Sys2Proof.Laws.Encoding.Statement (.mprgw f) := Sys2Proof.Laws.statement_of rfl (Sys2Proof.Laws.wordIs_s _ _) rfl
theorem Sys2Proof.Laws.Encoding.keyset (f : SW) : Sys2Proof.Laws.Encoding.Statement (.keyset f) := Sys2Proof.Laws.statement_of rfl (Sys2Proof.Laws.wordIs_s _ _) rfl
theorem Sys2Proof.Laws.Encoding.segmentBoundary (w : WarpId) : Sys2Proof.Laws.Encoding.Statement (.segmentBoundary w) := Sys2Proof.Laws.statement_none rfl
theorem Sys2Proof.Laws.Encoding.choose (core : Nat) (pair : Nat) : Sys2Proof.Laws.Encoding.Statement (.choose core pair) := Sys2Proof.Laws.statement_none rfl
theorem Sys2Proof.Laws.Encoding.preemptRequest (w : WarpId) : Sys2Proof.Laws.Encoding.Statement (.preemptRequest w) := Sys2Proof.Laws.statement_none rfl
theorem Sys2Proof.Laws.Encoding.operationComplete (w : WarpId) (op : Nat) : Sys2Proof.Laws.Encoding.Statement (.operationComplete w op) := Sys2Proof.Laws.statement_none rfl
theorem Sys2Proof.Laws.Encoding.registerFillReturn (w : WarpId) (n : Nat) : Sys2Proof.Laws.Encoding.Statement (.registerFillReturn w n) := Sys2Proof.Laws.statement_none rfl
theorem Sys2Proof.Laws.Encoding.registerFillTimeout (w : WarpId) (n : Nat) : Sys2Proof.Laws.Encoding.Statement (.registerFillTimeout w n) := Sys2Proof.Laws.statement_none rfl
theorem Sys2Proof.Laws.Encoding.lineSpill (w : WarpId) (n : Nat) : Sys2Proof.Laws.Encoding.Statement (.lineSpill w n) := Sys2Proof.Laws.statement_none rfl
theorem Sys2Proof.Laws.Encoding.lineBudgetWake (w : WarpId) : Sys2Proof.Laws.Encoding.Statement (.lineBudgetWake w) := Sys2Proof.Laws.statement_none rfl
theorem Sys2Proof.Laws.Encoding.contextPage (w : WarpId) (present : Bool) : Sys2Proof.Laws.Encoding.Statement (.contextPage w present) := Sys2Proof.Laws.statement_none rfl
theorem Sys2Proof.Laws.Encoding.warpActivate (core : Nat) (slot : Nat) : Sys2Proof.Laws.Encoding.Statement (.warpActivate core slot) := Sys2Proof.Laws.statement_none rfl
theorem Sys2Proof.Laws.Encoding.warpWake (w : WarpId) : Sys2Proof.Laws.Encoding.Statement (.warpWake w) := Sys2Proof.Laws.statement_none rfl
theorem Sys2Proof.Laws.Encoding.warpRetire (w : WarpId) : Sys2Proof.Laws.Encoding.Statement (.warpRetire w) := Sys2Proof.Laws.statement_none rfl
theorem Sys2Proof.Laws.Encoding.gangBirth (seq : Nat) (core : Nat) : Sys2Proof.Laws.Encoding.Statement (.gangBirth seq core) := Sys2Proof.Laws.statement_none rfl
theorem Sys2Proof.Laws.Encoding.gangRetire (g : GangId) : Sys2Proof.Laws.Encoding.Statement (.gangRetire g) := Sys2Proof.Laws.statement_none rfl
theorem Sys2Proof.Laws.Encoding.gangSpill (g : GangId) : Sys2Proof.Laws.Encoding.Statement (.gangSpill g) := Sys2Proof.Laws.statement_none rfl
theorem Sys2Proof.Laws.Encoding.gangRestore (g : GangId) (core : Nat) : Sys2Proof.Laws.Encoding.Statement (.gangRestore g core) := Sys2Proof.Laws.statement_none rfl
theorem Sys2Proof.Laws.Encoding.continuationGather (seq : Nat) (core : Nat) (picks : List Nat) : Sys2Proof.Laws.Encoding.Statement (.continuationGather seq core picks) := Sys2Proof.Laws.statement_none rfl
theorem Sys2Proof.Laws.Encoding.continuationResume (w : WarpId) : Sys2Proof.Laws.Encoding.Statement (.continuationResume w) := Sys2Proof.Laws.statement_none rfl
theorem Sys2Proof.Laws.Encoding.continuationStallKill (seq : Nat) : Sys2Proof.Laws.Encoding.Statement (.continuationStallKill seq) := Sys2Proof.Laws.statement_none rfl
theorem Sys2Proof.Laws.Encoding.callAreaGrant (w : WarpId) (slot : Nat) : Sys2Proof.Laws.Encoding.Statement (.callAreaGrant w slot) := Sys2Proof.Laws.statement_none rfl
theorem Sys2Proof.Laws.Encoding.coreWithdraw (core : Nat) : Sys2Proof.Laws.Encoding.Statement (.coreWithdraw core) := Sys2Proof.Laws.statement_none rfl
theorem Sys2Proof.Laws.Encoding.partitionSwap (die : Nat) (save : Bool) : Sys2Proof.Laws.Encoding.Statement (.partitionSwap die save) := Sys2Proof.Laws.statement_none rfl
theorem Sys2Proof.Laws.Encoding.pageNotPresent (w : WarpId) (frame : Nat) : Sys2Proof.Laws.Encoding.Statement (.pageNotPresent w frame) := Sys2Proof.Laws.statement_none rfl
theorem Sys2Proof.Laws.Encoding.objectAbsent (space : Nat) (table : W64) (slot : Nat) (answer : DirAnswer) : Sys2Proof.Laws.Encoding.Statement (.objectAbsent space table slot answer) := Sys2Proof.Laws.statement_none rfl
theorem Sys2Proof.Laws.Encoding.serviceEvict (space : Nat) (table : W64) (slot : Nat) : Sys2Proof.Laws.Encoding.Statement (.serviceEvict space table slot) := Sys2Proof.Laws.statement_none rfl
theorem Sys2Proof.Laws.Encoding.migration (root : Nat) (va : W64) (frame : Nat) : Sys2Proof.Laws.Encoding.Statement (.migration root va frame) := Sys2Proof.Laws.statement_none rfl
theorem Sys2Proof.Laws.Encoding.l1Writeback (core : Nat) (line : Nat) : Sys2Proof.Laws.Encoding.Statement (.l1Writeback core line) := Sys2Proof.Laws.statement_none rfl
theorem Sys2Proof.Laws.Encoding.pkgWriteHomeApply (write : Nat) : Sys2Proof.Laws.Encoding.Statement (.pkgWriteHomeApply write) := Sys2Proof.Laws.statement_none rfl
theorem Sys2Proof.Laws.Encoding.pkgWriteDieApply (write : Nat) (die : Nat) : Sys2Proof.Laws.Encoding.Statement (.pkgWriteDieApply write die) := Sys2Proof.Laws.statement_none rfl
theorem Sys2Proof.Laws.Encoding.fabricPacketReceive (p : Packet) : Sys2Proof.Laws.Encoding.Statement (.fabricPacketReceive p) := Sys2Proof.Laws.statement_none rfl
theorem Sys2Proof.Laws.Encoding.fabricResendTimeout (peer : Nat) (die : Nat) (seq : Nat) (link : Nat) : Sys2Proof.Laws.Encoding.Statement (.fabricResendTimeout peer die seq link) := Sys2Proof.Laws.statement_none rfl
theorem Sys2Proof.Laws.Encoding.peerLost (peer : Nat) : Sys2Proof.Laws.Encoding.Statement (.peerLost peer) := Sys2Proof.Laws.statement_none rfl
theorem Sys2Proof.Laws.Encoding.tokenGrant (peer : Nat) (region : Nat) (exclusive : Bool) : Sys2Proof.Laws.Encoding.Statement (.tokenGrant peer region exclusive) := Sys2Proof.Laws.statement_none rfl
theorem Sys2Proof.Laws.Encoding.tokenRefuse (peer : Nat) (region : Nat) : Sys2Proof.Laws.Encoding.Statement (.tokenRefuse peer region) := Sys2Proof.Laws.statement_none rfl
theorem Sys2Proof.Laws.Encoding.tokenRecall (peer : Nat) (region : Nat) (toShared : Bool) : Sys2Proof.Laws.Encoding.Statement (.tokenRecall peer region toShared) := Sys2Proof.Laws.statement_none rfl
theorem Sys2Proof.Laws.Encoding.chunkApply (op : Nat) (chunk : Nat) : Sys2Proof.Laws.Encoding.Statement (.chunkApply op chunk) := Sys2Proof.Laws.statement_none rfl
theorem Sys2Proof.Laws.Encoding.chunkDelivery (op : Nat) (chunk : Nat) : Sys2Proof.Laws.Encoding.Statement (.chunkDelivery op chunk) := Sys2Proof.Laws.statement_none rfl
theorem Sys2Proof.Laws.Encoding.chunkReceive (op : Nat) (chunk : Nat) (crcOk : Bool) : Sys2Proof.Laws.Encoding.Statement (.chunkReceive op chunk crcOk) := Sys2Proof.Laws.statement_none rfl
theorem Sys2Proof.Laws.Encoding.engineOperationComplete (op : Nat) : Sys2Proof.Laws.Encoding.Statement (.engineOperationComplete op) := Sys2Proof.Laws.statement_none rfl
theorem Sys2Proof.Laws.Encoding.tileRowStart (op : Nat) : Sys2Proof.Laws.Encoding.Statement (.tileRowStart op) := Sys2Proof.Laws.statement_none rfl
theorem Sys2Proof.Laws.Encoding.tileRowComplete (op : Nat) : Sys2Proof.Laws.Encoding.Statement (.tileRowComplete op) := Sys2Proof.Laws.statement_none rfl
theorem Sys2Proof.Laws.Encoding.matrixWaitRelease (w : WarpId) : Sys2Proof.Laws.Encoding.Statement (.matrixWaitRelease w) := Sys2Proof.Laws.statement_none rfl
theorem Sys2Proof.Laws.Encoding.collectiveMatch (op : Nat) (contributions : List (Nat × List W64)) (agree : Bool) : Sys2Proof.Laws.Encoding.Statement (.collectiveMatch op contributions agree) := Sys2Proof.Laws.statement_none rfl
theorem Sys2Proof.Laws.Encoding.energyRefill : Sys2Proof.Laws.Encoding.Statement (.energyRefill) := Sys2Proof.Laws.statement_none rfl
theorem Sys2Proof.Laws.Encoding.messageLand (m : EthMsg) : Sys2Proof.Laws.Encoding.Statement (.messageLand m) := Sys2Proof.Laws.statement_none rfl
theorem Sys2Proof.Laws.Encoding.ringEnable (ring : Nat) : Sys2Proof.Laws.Encoding.Statement (.ringEnable ring) := Sys2Proof.Laws.statement_none rfl
theorem Sys2Proof.Laws.Encoding.hostLandingWrite (port : Nat) (region : Nat) (stream : Nat) (offset : Nat) (bytes : List Byte) : Sys2Proof.Laws.Encoding.Statement (.hostLandingWrite port region stream offset bytes) := Sys2Proof.Laws.statement_none rfl
theorem Sys2Proof.Laws.Encoding.hostLandingRead (port : Nat) (region : Nat) (stream : Nat) (offset : Nat) (count : Nat) : Sys2Proof.Laws.Encoding.Statement (.hostLandingRead port region stream offset count) := Sys2Proof.Laws.statement_none rfl
theorem Sys2Proof.Laws.Encoding.submit (port : Nat) (region : Nat) (stream : Nat) (offset : Nat) (bytes : List Byte) : Sys2Proof.Laws.Encoding.Statement (.submit port region stream offset bytes) := Sys2Proof.Laws.statement_none rfl
theorem Sys2Proof.Laws.Encoding.launchStart (seq : Nat) : Sys2Proof.Laws.Encoding.Statement (.launchStart seq) := Sys2Proof.Laws.statement_none rfl
theorem Sys2Proof.Laws.Encoding.waitConditionPoll (seq : Nat) (cond : Nat) : Sys2Proof.Laws.Encoding.Statement (.waitConditionPoll seq cond) := Sys2Proof.Laws.statement_none rfl
theorem Sys2Proof.Laws.Encoding.waitConditionUpdate (seq : Nat) (cond : Nat) : Sys2Proof.Laws.Encoding.Statement (.waitConditionUpdate seq cond) := Sys2Proof.Laws.statement_none rfl
theorem Sys2Proof.Laws.Encoding.cpCause : Sys2Proof.Laws.Encoding.Statement (.cpCause) := Sys2Proof.Laws.statement_none rfl
theorem Sys2Proof.Laws.Encoding.regionReset : Sys2Proof.Laws.Encoding.Statement (.regionReset) := Sys2Proof.Laws.statement_none rfl
theorem Sys2Proof.Laws.Encoding.regionKill : Sys2Proof.Laws.Encoding.Statement (.regionKill) := Sys2Proof.Laws.statement_none rfl
theorem Sys2Proof.Laws.Encoding.regionRevive : Sys2Proof.Laws.Encoding.Statement (.regionRevive) := Sys2Proof.Laws.statement_none rfl
theorem Sys2Proof.Laws.Encoding.functionLevelReset (port : Nat) (vf : Option (Nat × Nat)) : Sys2Proof.Laws.Encoding.Statement (.functionLevelReset port vf) := Sys2Proof.Laws.statement_none rfl
theorem Sys2Proof.Laws.Encoding.regionTableWrite (i : Nat) (v : W64) : Sys2Proof.Laws.Encoding.Statement (.regionTableWrite i v) := Sys2Proof.Laws.statement_none rfl
theorem Sys2Proof.Laws.Encoding.objectLoad (image : Image) : Sys2Proof.Laws.Encoding.Statement (.objectLoad image) := Sys2Proof.Laws.statement_none rfl
theorem Sys2Proof.Laws.Encoding.objectUnload : Sys2Proof.Laws.Encoding.Statement (.objectUnload) := Sys2Proof.Laws.statement_none rfl
theorem Sys2Proof.Laws.Encoding.leaseRenew (port : Nat) : Sys2Proof.Laws.Encoding.Statement (.leaseRenew port) := Sys2Proof.Laws.statement_none rfl
theorem Sys2Proof.Laws.Encoding.leaseRoleWrite (port : Nat) (role : Nat) : Sys2Proof.Laws.Encoding.Statement (.leaseRoleWrite port role) := Sys2Proof.Laws.statement_none rfl
theorem Sys2Proof.Laws.Encoding.leaseExpiry (port : Nat) : Sys2Proof.Laws.Encoding.Statement (.leaseExpiry port) := Sys2Proof.Laws.statement_none rfl
theorem Sys2Proof.Laws.Encoding.registerWrite (field : RegField) : Sys2Proof.Laws.Encoding.Statement (.registerWrite field) := Sys2Proof.Laws.statement_none rfl
theorem Sys2Proof.Laws.Encoding.serviceCoreRestart (core : Nat) (stops : Bool) : Sys2Proof.Laws.Encoding.Statement (.serviceCoreRestart core stops) := Sys2Proof.Laws.statement_none rfl
theorem Sys2Proof.Laws.Encoding.scrub (line : Nat) (errors : Nat) (pair : Option Nat) : Sys2Proof.Laws.Encoding.Statement (.scrub line errors pair) := Sys2Proof.Laws.statement_none rfl
theorem Sys2Proof.Laws.Encoding.strataUpdate (temps : List Nat) (power : Nat) : Sys2Proof.Laws.Encoding.Statement (.strataUpdate temps power) := Sys2Proof.Laws.statement_none rfl
theorem Sys2Proof.Laws.Encoding.powerOn (self : Nat) (host0 host1 : Nat) (fuses : Option OwnerKeys) (firmware : Firmware) : Sys2Proof.Laws.Encoding.Statement (.powerOn self host0 host1 fuses firmware) := Sys2Proof.Laws.statement_none rfl
theorem Sys2Proof.Laws.Encoding.thermalLimit (die : Nat) : Sys2Proof.Laws.Encoding.Statement (.thermalLimit die) := Sys2Proof.Laws.statement_none rfl
theorem Sys2Proof.Laws.Encoding.peerRestore (peer : Nat) : Sys2Proof.Laws.Encoding.Statement (.peerRestore peer) := Sys2Proof.Laws.statement_none rfl
theorem Sys2Proof.Laws.Encoding.linkFailure (link : Nat) (cut : List Nat) : Sys2Proof.Laws.Encoding.Statement (.linkFailure link cut) := Sys2Proof.Laws.statement_none rfl
theorem Sys2Proof.Laws.Encoding.coreReturnToService (core : Nat) : Sys2Proof.Laws.Encoding.Statement (.coreReturnToService core) := Sys2Proof.Laws.statement_none rfl
theorem Sys2Proof.Laws.Encoding.powerDown (orderly : Bool) : Sys2Proof.Laws.Encoding.Statement (.powerDown orderly) := Sys2Proof.Laws.statement_none rfl
theorem Sys2Proof.Laws.Encoding.thermalLimitClear (die : Nat) : Sys2Proof.Laws.Encoding.Statement (.thermalLimitClear die) := Sys2Proof.Laws.statement_none rfl
theorem Sys2Proof.Laws.Encoding.tdispMessage (port : Nat) (m : Tdisp) : Sys2Proof.Laws.Encoding.Statement (.tdispMessage port m) := Sys2Proof.Laws.statement_none rfl
end

