-- ==== Sys2Proof/Tests/Slice0.lean ====
section
/-! SUPPORT. Tests: the words the spec writes out decode to what they stand for, ill-formed terms are refused, single steps on small
states, and for each statement with hypotheses a state and operands that meet them together. -/

set_option Elab.async false

namespace Sys2Proof.Tests

open Sys2Proof Sys2Proof.Machine Sys2Proof.Safety
open Host (Outcome)

/-! ### Words the spec writes out -/

/-- An A3 word with every field zero. -/
def a3 : A3 :=
  { dist := 0, ty := .ui32, d := 0, a := 0, b := 0, c := 0, rnd := 0, sat := false, na := false, nb := false, nc := false,
    la := false, lb := false, lc := false, flag := 0, aux := 0 }

/-- An M word with every field zero. -/
def mw : MW :=
  { dist := 0, size := 0, space := 0, scope := 0, data := 0, base := 0, x := 0, flag := 0, lb := false, lx := false, ld := false,
    off := 0 }

/-- An E word with every field zero. -/
def ew : EW := { dist := 0, va := 0, vb := 0, vc := 0, slot := 0, flag := 0, variant := 0, r1 := 0, r2 := 0, imm := 0 }

/-- An X word with every field zero. -/
def xw : XW := { dist := 0, pred := 0, neg := false, t := 0, f := 0 }

/-- An S word with every field zero. -/
def sw : SW := { dist := 0, hi := 0, mid := 0, flag := 0, lane := 0, z := 0, csr := 0 }

/-- spec/06, the IMAD example. -/
theorem test_word_imad : decodeTableWord 64 0x0010430206108800 =
    some (.imad { a3 with ty := .s32, d := 6, a := 2, b := 3, c := 4, sat := true, la := true }) := by decide
/-- spec/07, the FFMA example. -/
theorem test_word_ffma : decodeTableWord 64 0x010D040206112400 =
    some (.ffma { a3 with ty := .f32, d := 8, a := 2, b := 3, c := 4, rnd := 1, nb := true, lb := true }) := by decide
/-- spec/04, the segment written out. -/
theorem test_word_fadd : decodeTableWord 64 0x0101020002000000 =
    some (.fadd { a3 with ty := .f32, d := 4, a := 0, b := 1 }) := by decide
/-- spec/04, the segment written out. -/
theorem test_word_rcp : decodeTableWord 64 0x1181028400000880 =
    some (.rcp { a3 with dist := 4, ty := .f32, d := 5, a := 4, la := true, flag := 1 }) := by decide
/-- spec/12, the REDUX of `matvec`. -/
theorem test_word_redux : decodeTableWord 64 0x11C9328400000800 =
    some (.redux { a3 with dist := 4, ty := .f32, d := 101, a := 4, la := true }) := by decide
/-- spec/11: the removed opcode still has its fields. -/
theorem test_word_idot4 : parse 0x003744040A180000 =
    .ok (.idot4 { a3 with ty := .s8x4, d := 8, a := 4, b := 5, c := 6 }) := by rfl
/-- spec/04, the store of `apply`. -/
theorem test_word_st : decodeTableWord 64 0x701400C200040000 =
    some (.st { mw with dist := 4, size := 2, data := 6, base := 8, ld := true }) := by decide
/-- spec/14. -/
theorem test_word_ld : decodeTableWord 64 0x600200D940200000 =
    some (.ld { mw with size := 1, data := 6, base := 101, flag := 1 }) := by decide
/-- spec/08, the ATOM.CAS example. -/
theorem test_word_cas : decodeTableWord 64 0x60B410C083A00008 =
    some (.atomCas { mw with size := 2, scope := 1, data := 6, base := 2, x := 7, flag := 1, off := 8 }) := by decide
/-- spec/13. -/
theorem test_word_stp : decodeTableWord 64 0x611A10C080040010 =
    some (.stp { mw with size := 5, scope := 1, data := 6, base := 2, ld := true, off := 16 }) := by decide
/-- spec/14. -/
theorem test_word_ldp : decodeTableWord 64 0x610A0C9F40200000 =
    some (.ldp { mw with size := 5, data := 100, base := 125, flag := 1 }) := by decide
/-- spec/14. -/
theorem test_word_padd : decodeTableWord 64 0x61500CB93C200006 =
    some (.padd { mw with data := 101, base := 100, x := 120, flag := 1, off := 6 }) := by decide
/-- spec/16. -/
theorem test_word_cpl : decodeTableWord 64 0x6288810080200040 =
    some (.cpl { mw with size := 4, space := 1, data := 8, base := 2, flag := 1, off := 0x40 }) := by decide
/-- spec/20. -/
theorem test_word_rgnext : decodeTableWord 64 0x6306009880200000 =
    some (.rgnext { mw with size := 3, data := 4, base := 98, flag := 1 }) := by decide
/-- spec/20. -/
theorem test_word_rgrel : decodeTableWord 64 0x6316009880000000 =
    some (.rgrel { mw with size := 3, data := 4, base := 98 }) := by decide
/-- spec/15. -/
theorem test_word_vdef : decodeTableWord 64 0x80010001F4000040 = some (.vdef { ew with va := 1, r1 := 125, imm := 0x40 }) := by
  decide
/-- spec/15. -/
theorem test_word_vld : decodeTableWord 64 0x8032000818400000 = some (.vld { ew with va := 2, flag := 1, r1 := 6, r2 := 8 }) := by
  decide
/-- spec/19. -/
theorem test_word_vret : decodeTableWord 64 0x8052000800000000 = some (.vret { ew with va := 2, flag := 1 }) := by decide
/-- spec/16. -/
theorem test_word_cpv : decodeTableWord 64 0x8081000000000010 = some (.cpv { ew with va := 1, vb := 0, imm := 0x10 }) := by decide
/-- spec/16. -/
theorem test_word_cpr : decodeTableWord 64 0x8093200800000000 = some (.cpr { ew with va := 3, vb := 2, flag := 1 }) := by decide
/-- spec/16. -/
theorem test_word_gath : decodeTableWord 64 0x80A4560000000000 = some (.gath { ew with va := 4, vb := 5, vc := 6 }) := by decide
/-- spec/18. -/
theorem test_word_mmt : decodeTableWord 64 0x8102310800000300 =
    some (.mmt { ew with va := 2, vb := 3, vc := 1, flag := 1, imm := 0x300 }) := by decide
/-- spec/18. -/
theorem test_word_mmv : decodeTableWord 64 0x8113014000000045 =
    some (.mmv { ew with va := 3, vb := 0, vc := 1, slot := 2, imm := 0x45 }) := by decide
/-- spec/18. -/
theorem test_word_mstat : decodeTableWord 64 0x8120000188000000 = some (.mstat { ew with r1 := 98 }) := by decide
/-- spec/18. -/
theorem test_word_mclr : decodeTableWord 64 0x813000000000003F = some (.mclr { ew with imm := 0x3F }) := by decide
/-- spec/20. -/
theorem test_word_xred : decodeTableWord 64 0x8181000998000000 =
    some (.xred { ew with va := 1, vb := 0, flag := 1, r1 := 102 }) := by decide
/-- spec/20. -/
theorem test_word_tkacq : decodeTableWord 64 0x81C0000B90000000 =
    some (.tkacq { ew with flag := 1, variant := 1, r1 := 100 }) := by decide
/-- spec/20. -/
theorem test_word_tkrel : decodeTableWord 64 0x81D0000190000000 = some (.tkrel { ew with r1 := 100 }) := by decide
/-- spec/20. -/
theorem test_word_tkqry : decodeTableWord 64 0x81E0000990300000 = some (.tkqry { ew with flag := 1, r1 := 100, r2 := 6 }) := by
  decide
/-- spec/04, the segment written out. -/
theorem test_word_goto : decodeTableWord 64 0xA000000000000000 = some (.goto xw) := by decide
/-- spec/06: T holds -5. -/
theorem test_word_brc : decodeTableWord 64 0xA810FFFFFB000000 = some (.brc { xw with dist := 2, t := 0xFFFFFB }) := by decide
/-- spec/04 R76. -/
theorem test_word_pb : decodeTableWord 64 0xA912000000033000 = some (.pb { xw with dist := 2, pred := 1, f := 0x033000 }) := by
  decide
/-- spec/08 R169. -/
theorem test_word_cwait : decodeTableWord 64 0xA120000000400000 = some (.cwait { xw with f := 0x400000 }) := by decide
/-- spec/08 R170. -/
theorem test_word_twait : decodeTableWord 64 0xA130000000194000 = some (.twait { xw with f := 0x194000 }) := by decide
/-- spec/19. -/
theorem test_word_barInit : decodeTableWord 64 0xA140000000104000 = some (.barInit { xw with f := 0x104000 }) := by decide
/-- spec/19. -/
theorem test_word_barArrive : decodeTableWord 64 0xA150000140080000 =
    some (.barArrive { xw with t := 0x140, f := 0x080000 }) := by decide
/-- spec/12. -/
theorem test_word_gbar : decodeTableWord 64 0xA170000000100000 = some (.gbar { xw with f := 0x100000 }) := by decide
/-- spec/14. -/
theorem test_word_trap : decodeTableWord 64 0xA1A0000000000001 = some (.trap { xw with f := 1 }) := by decide
/-- spec/10. -/
theorem test_word_deact : decodeTableWord 64 0xA1B0000000000000 = some (.deact xw) := by decide
/-- spec/10. -/
theorem test_word_ctxld : decodeTableWord 64 0xC000825000000000 = some (.ctxld { sw with hi := 4, mid := 9, flag := 1 }) := by
  decide
/-- spec/10. -/
theorem test_word_tret : decodeTableWord 64 0xC020000000000000 = some (.tret sw) := by decide
/-- spec/13. -/
theorem test_word_punbind : decodeTableWord 64 0xC07018C000000000 = some (.punbind { sw with mid := 99 }) := by decide
/-- spec/20. -/
theorem test_word_keyset : decodeTableWord 64 0xC0AC621000000000 =
    some (.keyset { sw with hi := 99, mid := 8, flag := 1 }) := by decide
/-- spec/06 R118: IADDI.UI32 g5, g7!, -1: class 010, OP 0x00, TYPE 0, d 5, a 7, last-read, imm32. -/
theorem test_word_iaddi : decodeTableWord 64 (2 * 2 ^ 61 + 5 * 2 ^ 40 + 7 * 2 ^ 33 + 1 * 2 ^ 32 + 0xFFFFFFFF) =
    some (.iaddi { dist := 0, ty := .ui32, d := 5, a := 7, la := true, imm := 0xFFFFFFFF }) := by decide
/-- spec/06 R118: LEAI.UI64 g8:9, k3, at distance 5: OP 0x0F, TYPE 4, d 8, a 99. -/
theorem test_word_leai : decodeTableWord 64 (2 * 2 ^ 61 + 5 * 2 ^ 58 + 0x0F * 2 ^ 50 + 4 * 2 ^ 47 + 8 * 2 ^ 40 + 99 * 2 ^ 33 + 0x60000001) =
    some (.leai { dist := 5, ty := .ui64, d := 8, a := 99, la := false, imm := 0x60000001 }) := by decide
/-- spec/06 R119: IADD.S32 g0, g1 | IADD.S32 g1, g0: class 001; slot X in 57:29, slot Y in 28:0 (spec/04 R74). -/
theorem test_word_pair : decodeTableWord 64 (1 * 2 ^ 61 + (1 * 2 ^ 9 + 1 * 2 ^ 6) * 2 ^ 29 + (1 * 2 ^ 16 + 1 * 2 ^ 6)) =
    some (.iaddAp { dist := 0, own := { d := 0, s := 1, lr := false, ty := 1, z := 0 }, onX := true,
                    other := some { op := .iadd, args := { d := 1, s := 0, lr := false, ty := 1, z := 0 } } }) := by decide
/-- spec/04 R74: slot X empty (0x3F), NOT.B32 g2, g3! in slot Y: OP 0x10, D 2, S 3, LR, TYPE 3. -/
theorem test_word_slotY : decodeTableWord 64 (1 * 2 ^ 61 + 0x3F * 2 ^ 52 + (0x10 * 2 ^ 23 + 2 * 2 ^ 16 + 3 * 2 ^ 9 + 1 * 2 ^ 8 + 3 * 2 ^ 6)) =
    some (.notAp { dist := 0, own := { d := 2, s := 3, lr := true, ty := 3, z := 0 }, onX := false, other := none }) := by decide
/-- spec/03: the header of `apply` waits on flag 2: bit 45. -/
theorem test_header_apply : headerFields 0xE18027F800000000 =
    { length := 3, wait := 4, raiseA := 15, raiseB := 15, energy := 0, z := 0 } := by decide
/-- spec/19: the header of `stream`. -/
theorem test_header_stream : headerFields 0xE180007C00000000 =
    { length := 3, wait := 0, raiseA := 0, raiseB := 15, energy := 2, z := 0 } := by decide

/-! ### Ill-formed words -/

/-- A last-read bit of a k register, a nonzero unused field, a type the word does not list, an odd pair, a destination that cannot be
written, a flag on a word of fixed latency, an SFU word without one, an aux out of range: misuse of an A3 word (spec/04 R71, R78,
R79). -/
theorem illformed_a3 : ∀ i ∈
    ([.iadd { a3 with a := 96, la := true }, .iadd { a3 with c := 1 }, .iadd { a3 with rnd := 1 }, .imin { a3 with sat := true },
      .iadd { a3 with na := true }, .iadd { a3 with nb := true }, .iadd { a3 with nc := true }, .iadd { a3 with aux := 1 },
      .iadd { a3 with ty := .f32 }, .iadd { a3 with ty := .ui64, a := 3 }, .iadd { a3 with ty := .ui64, d := 3 },
      .iadd { a3 with d := 121 }, .iadd { a3 with flag := 1 }, .rcp { a3 with ty := .f32 }, .rcp { a3 with ty := .f32, flag := 3 },
      .lea { a3 with aux := 32 }, .icmp { a3 with d := 6 * 8 }, .fcmp { a3 with ty := .f32, d := 14 * 8 },
      .sel { a3 with ty := .b32, c := 8 }, .pset { a3 with aux := 16 }, .pmov { a3 with d := 120 }, .pmov { a3 with aux := 1, d := 1 },
      .fcvt { a3 with ty := .f16x2, aux := 5 }, .fcvt { a3 with ty := .f32, aux := 0 }, .qnt { a3 with ty := .f32, aux := 8 },
      .f2i { a3 with aux := 0 }, .i2f { a3 with ty := .f32, aux := 4 }, .shfl { a3 with ty := .b32, aux := 20 }, .vote { a3 with aux := 3 },
      .redux { a3 with aux := 8 }, .redux { a3 with ty := .ui64, aux := 1 }, .scan { a3 with aux := 16 }, .xpose { a3 with ty := .b32, d := 4 },
      .fsub { a3 with ty := .f32, nc := true }, .imadw { a3 with d := 1 }] : List Instr),
    staticCause i = some .illegalEncoding := by decide

/-- Misuse of AI and AP words (spec/04 R74, R78, R79, spec/06 R118). -/
theorem illformed_immediate_and_paired :
    (∀ f ∈ [{ dist := 0, ty := .f32, d := 0, a := 0, la := false, imm := 0 }, { dist := 0, ty := .ui64, d := 1, a := 0, la := false, imm := 0 },
        ({ dist := 0, ty := .ui32, d := 0, a := 120, la := true, imm := 0 } : AI)], staticCause (.iaddi f) = some .illegalEncoding) ∧
    staticCause (.shli { dist := 0, ty := .ui32, d := 0, a := 0, la := false, imm := 64 }) = some .illegalEncoding ∧
    staticCause (.movi { dist := 0, ty := .ui32, d := 0, a := 1, la := false, imm := 0 }) = some .illegalEncoding ∧
    staticCause (.movhi { dist := 0, ty := .ui64, d := 120, a := 0, la := false, imm := 0 }) = some .illegalEncoding ∧
    staticCause (.icmpi { dist := 0, ty := .ui32, d := 48, a := 0, la := false, imm := 0 }) = some .illegalEncoding ∧
    (∀ x ∈ [{ d := 0, s := 0, lr := false, ty := 2, z := 0 }, { d := 0, s := 0, lr := false, ty := 0, z := 1 },
        { d := 121, s := 0, lr := false, ty := 0, z := 0 }, ({ d := 0, s := 96, lr := true, ty := 0, z := 0 } : SlotArgs)],
      staticCause (.iaddAp { dist := 0, own := x, onX := true, other := none }) = some .illegalEncoding) := by decide

/-- Misuse of M words: sizes, spaces, scopes, registers, last-read bits, flag select 3, offsets and x fields (spec/04 R79, spec/08 R159,
R163 to R168, spec/13 R227, spec/16 R263, spec/20 R329). -/
theorem illformed_memory : ∀ i ∈
    ([.ld { mw with size := 5 }, .ld { mw with space := 3 }, .ld { mw with scope := 4 }, .ld { mw with space := 1, scope := 1 },
      .ld { mw with base := 1 }, .ld { mw with base := 121 }, .ld { mw with ld := true }, .ld { mw with x := 1 }, .ld { mw with flag := 3 },
      .ld { mw with size := 4, data := 2 }, .ld { mw with size := 3, data := 5 }, .ld { mw with space := 1, base := 125 },
      .ldx { mw with x := 96, lx := true }, .st { mw with size := 3, data := 125 }, .atomAdd { mw with size := 0 },
      .atomAdd { mw with size := 2, space := 2 }, .pref { mw with flag := 1 }, .ldfe { mw with size := 2 },
      .ldfe { mw with size := 2, space := 1, x := 2 }, .stfe { mw with size := 2, space := 1, x := 1 }, .splook { mw with off := 1 },
      .sptag { mw with size := 1 }, .ldp { mw with size := 4 }, .ldn { mw with size := 5, data := 120 }, .padd { mw with base := 121 },
      .peq { mw with off := 4 }, .peq { mw with data := 8 }, .cpl { mw with size := 2, x := 1 }, .cpl { mw with size := 2, x := 80 },
      .cpl { mw with size := 2, data := 126 }, .rgnext { mw with size := 3, data := 120 }, .rgrel { mw with size := 2 }] : List Instr),
    staticCause i = some .illegalEncoding := by decide

/-- Misuse of E, X and S words (spec/04 R79, spec/06 R120, spec/10 R204 to R207, spec/15, 16, 18, 20). -/
theorem illformed_others : ∀ i ∈
    ([.vdef { ew with vb := 1 }, .vdef { ew with vc := 1 }, .vdef { ew with slot := 1 }, .vset { ew with flag := 1 },
      .vset { ew with imm := 17 }, .vget { ew with imm := 18 }, .vld { ew with r1 := 96 }, .vld { ew with r2 := 96 }, .vld { ew with imm := 1 },
      .vmeet { ew with r1 := 8 }, .cpv { ew with imm := 1 }, .cpv { ew with imm := 0x20 }, .cpr { ew with imm := 0x60 },
      .cpr { ew with variant := 3 }, .cpv { ew with variant := 1 }, .mmt { ew with imm := 0x410 }, .mmt { ew with imm := 0x110 },
      .mclr { ew with imm := 64 }, .xred { ew with r1 := 95 }, .xred { ew with r1 := 119 }, .xbcast { ew with r1 := 96, imm := 0x10000 },
      .tkqry { ew with r2 := 2 }, .tkacq { ew with variant := 2 }, .goto { xw with pred := 1 }, .goto { xw with f := 1 },
      .exit { xw with t := 1 }, .brx { xw with f := 0xE1 }, .cont { xw with f := 15 * 64 }, .cont { xw with f := 96 * 1024 + 64 },
      .twait { xw with f := 0x204000 }, .cwait { xw with f := 0xC00000 }, .barInit xw, .barInit { xw with f := 34 * 2 ^ 14 },
      .barArrive { xw with f := 0x1000 }, .pb { xw with f := 0x021000 }, .trap { xw with f := 16 }, .ctxld { sw with mid := 120, flag := 1 },
      .ctxld { sw with mid := 96, flag := 1, hi := 3 }, .csrr sw, .csrr { sw with csr := 1, lane := 1 }, .tlbi { sw with lane := 2 },
      .tret { sw with z := 1 }, .keyset { sw with mid := 4, flag := 1 }, .pbind { sw with flag := 1, mid := 1 }] : List Instr),
    staticCause i = some .illegalEncoding := by decide

/-- A used register field of 127, a bank clash, an impossible block length: the other causes of a misused word (spec/04 R75, R76,
R78). -/
theorem illformed_register_pairing_prefix :
    staticCause (.iadd { a3 with b := 127 }) = some .badRegister ∧
    staticCause (.iaddAp { dist := 0, own := { d := 0, s := 1, lr := false, ty := 0, z := 0 }, onX := true,
                           other := some { op := .iadd, args := { d := 4, s := 1, lr := false, ty := 0, z := 0 } } }) =
      some .illegalPairing ∧
    staticCause (.pb { xw with f := 0x009000 }) = some .illegalPrefix ∧ staticCause (.pb xw) = some .illegalPrefix ∧
    staticCause (.idot4 a3) = some .illegalOpcode ∧
    decodeCause 15 1 false (.ld { mw with flag := 1 }) = some .illegalEncoding ∧
    decodeCause 0 1 false (.tret sw) = some .privileged := by decide

/-! ### A state in which words are ready -/

/-- The machine with an EXIT placed: 32 running threads inside a segment with RAISE_A 0 and RAISE_B 1, nothing open, nothing live. -/
def here : State := State.reset.withFetchWord 64 0xA050000000000000

/-- A state with a g register live and holding one value in every lane. -/
def withG (n : Nat) (v : W32) (s : State) : State := modCtx s fun c => setGReg c n { val := lanesOf fun _ => v, live := allLanes, resident := true }

/-- A state with a k register holding a value. -/
def withK (n : Nat) (v : W64) (s : State) : State := modCtx s fun c => setKReg c n v

/-- Everything can be read where no result is open and every register is in the register file. -/
theorem readable_of {s : State} (hz : (ctxOf s).haz = []) (hg : (ctxOf s).g = Vector.replicate 96 GReg.dead) (r : Sources) : Readable s r := by
  refine ⟨fun z h => ?_, fun n _ => .inr ?_⟩
  · rw [hz] at h; cases h
  · by_cases h : n < 96
    · simp [gAt, h, hg, GReg.dead]
    · simp [gAt, h, GReg.dead]

theorem readable_here (r : Sources) : Readable here r := readable_of (by decide) (by decide) r

/-- Last reads free no line where every register is dead. -/
theorem kills_none (run : Mask) (ns : List Nat) (c : Ctx) (h : c.g = Vector.replicate 96 GReg.dead) : (ns.foldl (killG run) c).g = c.g := by
  induction ns generalizing c with
  | nil => rfl
  | cons n ns ih =>
    have : killG run c n = c := by
      unfold killG setGReg
      split
      · have : ({ gAt c n with live := (gAt c n).live &&& ~~~run } : GReg) = GReg.dead := by simp [gAt, *, GReg.dead]
        rw [this, h]
        cases c; cases h; simp
      · rfl
    rw [List.foldl_cons, this]
    exact ih c h

/-- Where nothing is open and every register is dead, there is room after a word's reads as there is before. -/
theorem room_of {s : State} (hz : (ctxOf s).haz = []) (hg : (ctxOf s).g = Vector.replicate 96 GReg.dead) (us : List Use) (n : Nat)
    (h : lineRoom s n = true) : RoomFor s us n := by
  have hs : Settled s (us.flatMap useNames) := fun z h => by rw [hz] at h; cases h
  unfold RoomFor
  rw [Laws.afterReads_eq _ hs []]
  have hk := kills_none (runMask (ctxOf s)) ((us.filter (·.last)).flatMap useRegs) (ctxOf s) hg
  exact (Laws.lineRoom_same (s := s) (t := modCtx s _) (k := s.warp.lastIssue) rfl rfl rfl rfl rfl hk n).trans h

/-- No budget is short in `here`, and the core holds no line. -/
theorem room_here (us : List Use) (n : Nat) (h : n ≤ Config.coreLines) : RoomFor here us n := by
  have hb : budgetPath here here.launch.region 8 = [] := by decide
  have hl : heldLines here here.warp.core (fun _ => true) = 0 := by decide
  exact room_of (by decide) (by decide) us n (by simp [lineRoom, roomOn, hb, hl, h])

/-- Results in g registers, or none, ask for no uniform value. -/
theorem uniform_here (ps : List Put) (h : ∀ p ∈ ps, isK p.d = false) : Uniform here ps := by
  intro p hp hk; rw [h p hp] at hk; cases hk

/-- What a data word's statement asks of a state and a word, all together, when its results go to g registers. -/
theorem meets_here (i : Instr) (r : Sources) (ps : List Put) (hi : Ready i here) (h : ∀ p ∈ ps, isK p.d = false)
    (hn : linesOf ps ≤ Config.coreLines) : Ready i here ∧ Readable here r ∧ RoomFor here r.us (linesOf ps) ∧ Uniform here ps :=
  ⟨hi, readable_here r, room_here _ _ hn, uniform_here ps h⟩

/-! ### Witnesses: data words (with `meets_here`) -/

/-- Three-operand operands of a type: d g4, a g2, b g0, c g0. -/
def ops3 (t : Ty) : A3 := { a3 with ty := t, d := 4, a := 2 }

theorem witness_IntegerWords : (∀ i ∈ [Instr.iadd { ops3 .s8x4 with sat := true }, .isub (ops3 .s64), .imul (ops3 .ui64), .imulh (ops3 .s32), .imad (ops3 .s32),
    .imadw (ops3 .ui32), .imin (ops3 .s16x2), .imax (ops3 .ui8x4), .iabs (ops3 .s32), .ineg (ops3 .s64), .lea { ops3 .s64 with aux := 63 },
    .iclamp (ops3 .s32), .iabsd (ops3 .s32)], Ready i here) ∧
    (∃ t ∈ intTypes, ∃ e, e < tyWidth t / elemWidth t ∧ t = .s8x4 ∧ e = 3) := ⟨by decide, .s8x4, by decide, 3, by decide, rfl, rfl⟩

/-- A result in a k register: every lane's sum is the same. -/
theorem witness_IntegerWords_k : let f := { ops3 .s32 with d := 96 + 23 }
    Ready (.iadd f) here ∧ Readable here (reads [useA f 32, useB f 32] here) ∧
    Uniform here [{ d := f.d, w := 32, signed := true, v := fun l => intLane .s32 false (fun x y _ => x + y) (srcA f here l) (srcB f here l) 0 }] :=
  ⟨by decide, readable_here _, by decide⟩

theorem witness_BitAndCompareWords : ∀ i ∈ [Instr.and (ops3 .b32), .or (ops3 .b64), .xor (ops3 .b32), .andn (ops3 .b64), .not (ops3 .b32),
    .shl (ops3 .s32), .shr (ops3 .ui64), .sar (ops3 .s64), .rot (ops3 .b32), .funsh (ops3 .b32), .bfx (ops3 .s32), .bfi (ops3 .b32),
    .popc (ops3 .b64), .clz (ops3 .b32), .ctz (ops3 .b64), .brev (ops3 .b32), .bswp (ops3 .b64), .prmt (ops3 .b32), .mov (ops3 .b64),
    .icmp { ops3 .s32 with d := 8 * 5 + 6 }, .sel { ops3 .b32 with c := 7 }, .pset { a3 with d := 6, a := 7, aux := 15 },
    .pmov { a3 with d := 4 }, .pmov { a3 with d := 120, a := 2, aux := 0x7F }], Ready i here := by decide

/-- An AI word with destination g4 and source g2. -/
def opsI (t : Ty) : AI := { dist := 0, ty := t, d := 4, a := 2, la := false, imm := 0 }

theorem witness_ImmediateWords : (∀ i ∈ [Instr.iaddi (opsI .s64), .imuli (opsI .ui32), .andi (opsI .b32), .ori (opsI .ui64), .xori (opsI .b32),
    .shli { opsI .s32 with imm := 63 }, .shri { opsI .ui64 with imm := 63 }, .sari { opsI .s64 with imm := 32 }, .movi { opsI .f32 with a := 0 },
    .movhi { opsI .s64 with a := 0 }, .movhi { opsI .ui64 with a := 0, d := 96 }, .icmpi { opsI .s32 with d := 8 * 5 + 7 },
    .imini (opsI .s64), .imaxi (opsI .ui32), .leai { opsI .ui64 with imm := 0xFFFFFFFF }, .faddi (opsI .f16x2), .fmuli (opsI .f32)],
      Ready i here) ∧
    isG (4 : BitVec 7) = true ∧ isG (96 : BitVec 7) = false ∧
    Uniform here [{ d := 96, w := 64, signed := false, v := fun l => source here 64 96 l % 2 ^ 32 + 7 * 2 ^ 32 }] := by decide

/-- A slot with d g4, s g2. -/
def slotOf (t : BitVec 2) : SlotArgs := { d := 4, s := 2, lr := false, ty := t, z := 0 }

/-- A paired word with one slot. -/
def one (t : BitVec 2) : Ap := { dist := 0, own := slotOf t, onX := true, other := none }

theorem witness_PairedSlots : (∀ i ∈ [Instr.iaddAp (one 0), .isubAp (one 1), .imulAp (one 0), .iminAp (one 1), .imaxAp (one 0), .andAp (one 3),
    .orAp (one 3), .xorAp (one 3), .shlAp (one 3), .shrAp (one 0), .sarAp (one 1), .movAp (one 2), .faddAp (one 2), .fmulAp (one 2),
    .fminAp (one 2), .fmaxAp (one 2), .notAp (one 3),
    .movAp { one 0 with other := some { op := .fadd, args := { slotOf 2 with d := 5, s := 3 } } }], Ready i here) ∧
    -- the bank rule, at its edge: bank 0 read twice, and three times; both slots writing bank 1
    (let y (d s : BitVec 7) : Slot := { op := .iadd, args := { d := d, s := s, lr := false, ty := 0, z := 0 } }
     let p (d s : BitVec 7) (z : Slot) : Ap := { dist := 0, own := { d := d, s := s, lr := false, ty := 0, z := 0 }, onX := true, other := some z }
     ∀ x ∈ [p 4 1 (y 1 8), p 4 8 (y 1 12), p 1 0 (y 5 3)], (chkAp .iadd x).enc = false ∧ (chkAp .iadd x).bad = false) := by decide

theorem witness_FloatWords : (∀ i ∈ [Instr.fadd { ops3 .f32 with rnd := 3, sat := true, na := true, nb := true }, .fsub (ops3 .f64), .fmul (ops3 .bf16x2),
    .ffma { ops3 .f16 with nc := true }, .fmin (ops3 .f32), .fmax (ops3 .f16x2), .fdot2 (ops3 .f16x2), .frnd { ops3 .f64 with rnd := 2 },
    .fcvt { ops3 .f16x2 with aux := 4 }, .fcvt { ops3 .f64 with aux := 7 }, .f2i { ops3 .s64 with aux := 5 }, .i2f { ops3 .f16 with aux := 3 },
    .fclass (ops3 .f64), .fscale (ops3 .bf16), .fcmp { ops3 .f64 with d := 8 * 13 + 6 }, .qnt { ops3 .f32 with aux := 7 },
    .dqnt { ops3 .f32 with aux := 7 }], Ready i here) ∧
    Ty.f16x2 ∈ [Ty.f16x2, Ty.bf16x2] ∧ ¬(Ty.f64 = .f16x2 ∨ Ty.f64 = .bf16x2) := by decide

/-- The smallest value and the largest finite one of each format. -/
theorem witness_FloatCorners : (∀ f ∈ [fmt16, fmtB16, fmt32, fmt64], 1 < 2 ^ fmtBits f ∧ isNan (unpackFp f 1) = false) ∧
    0x7F7FFFFF < 2 ^ fmtBits fmt32 ∧ isNan (unpackFp fmt32 0x7F7FFFFF) = false ∧ (0 : Nat) < 1 := by decide

theorem witness_SfuWords : (∀ i ∈ [Instr.rcp { ops3 .f32 with flag := 1 }, .rsq { ops3 .f64 with flag := 2 }, .sqrt { ops3 .f64 with flag := 1, rnd := 3 },
    .exp2 { ops3 .f32 with flag := 1 }, .log2 { ops3 .f32 with flag := 1 }, .sinpi { ops3 .f32 with flag := 1 }, .cospi { ops3 .f32 with flag := 1 },
    .tanh { ops3 .f32 with flag := 1 }, .fdiv { ops3 .f32 with flag := 1 }], Ready i here) ∧ counterOf (ctxOf here) 0 < 65535 := by decide

theorem witness_CrossLaneWords : ∀ i ∈ [Instr.shfl { ops3 .b64 with c := 6, aux := 19 }, .vote { a3 with d := 6, a := 7, na := true }, .vote { a3 with aux := 1 },
    .vote { a3 with d := 4, aux := 2 }, .redux { ops3 .f32 with rnd := 3 }, .scan { ops3 .b32 with aux := 13 }, .matchLanes { ops3 .b64 with c := 7 },
    .xpose { a3 with ty := .ui8x4, d := 88 }], Ready i here := by decide

theorem witness_ReduxAddSums : (ops3 .ui64).aux.toNat % 8 = 0 ∧ (ops3 .ui64).ty ∈ scalarTypes ∧ runMask (ctxOf here) ≠ 0 ∧ (31 : Nat) < 32 := by
  decide

/-! ### A state with data -/

/-- `here` with lanes 0 and 31 running, its warp's record at 0x18000, a page of data at 0x11000 (`argp`), a binding table at 0x12000 whose slot 5 binds object 0x42 of
home 0x123 with generation 2 and length 0x100 (the entry of spec/13's example), a name of it at 0x11000, and 64 bytes of scratchpad. -/
def data : State :=
  { here with
    warp := { here.warp with ctx := { here.warp.ctx with active := 0x80000001, ctxp := 0x18000 } }
    launch := { here.launch with argp := 0x11000, eff := { here.launch.eff with bindTable := 0x12000 } }
    gang := { here.gang with spadSize := 64, tagSize := 1 }
    mem := { here.mem with
      home := [(0x5088, 0x7007), (0x5090, 0x8007), (0x50C0, 0xD007), (0x50C8, 0xE007), (0x7000, 0x40), (0x7008, 0x8001230000000042), (0x80A0, 0x8001230000000042),
               (0x80A8, 0x2000000000000100), (0x80B0, 0x00F0005000000000)].foldl
                 (fun m e => ByteMap.writeMany m e.1 (bytesOf 8 e.2)) here.mem.home } }

/-- Whether a lane passes its checks. -/
def passes : LaneChk → Bool
  | .ok .. => true
  | .bad .. | .wait .. | .hole _ => false

theorem allOk_of {s : State} {chk : Nat → LaneChk} (h : (runners s).all (fun l => passes (chk l)) = true) : AllOk s chk := by
  intro l hl
  have := List.all_eq_true.mp h l hl
  cases hc : chk l <;> simp [hc, passes] at this
  exact ⟨_, _, rfl⟩

/-- Whether a lane of a pointer word has a value. -/
def hasVal : LaneVal → Bool
  | .val _ => true
  | .wait _ | .bad .. => false

theorem vals_of {s : State} {v : Nat → LaneVal} (h : (runners s).all (fun l => hasVal (v l)) = true) : ∀ l ∈ runners s, ∃ x, v l = .val x := by
  intro l hl
  have := List.all_eq_true.mp h l hl
  cases hc : v l <;> simp [hc, hasVal] at this
  exact ⟨_, rfl⟩

theorem readable_data (r : Sources) : Readable data r := readable_of (by decide) (by decide) r

theorem room_data (us : List Use) (n : Nat) (h : n ≤ Config.coreLines) : RoomFor data us n := by
  have hb : budgetPath data data.launch.region 8 = [] := by decide
  have hl : heldLines data data.warp.core (fun _ => true) = 0 := by decide
  exact room_of (by decide) (by decide) us n (by simp [lineRoom, roomOn, hb, hl, h])

theorem counters_data : ∀ c ∈ [0, 1, 2, 3], counterOf (ctxOf data) c < 65535 := by decide

/-- The lanes of a word at `argp`, and at the last byte of the scratchpad. -/
def gw (n : BitVec 3) : MW := { mw with size := n, base := 125, off := 16 }
/-- A scratchpad word. -/
def pw (n : BitVec 3) : MW := { mw with size := n, space := 1, base := 2, off := 48 }

theorem witness_LoadWords : (∀ i ∈ [Instr.ld (gw 4), .ld { pw 0 with off := 63 }, .ldx { gw 3 with x := 2 }, .ldfe { pw 4 with x := 1 }], Ready i data) ∧
    AllOk data (laneChecks data (gw 4) false .read) ∧ AllOk data (laneChecks data { pw 0 with off := 63 } false .read) ∧
    AllOk data (laneChecks data { gw 3 with x := 2 } true .read) ∧ AllOk data (granuleChecks data { pw 4 with x := 1 }) ∧
    OneAddress data { gw 3 with data := 96 } false ∧ Ready (.ld { gw 3 with data := 96 }) data :=
  ⟨by decide +kernel, allOk_of (by decide +kernel), allOk_of (by decide +kernel), allOk_of (by decide +kernel), allOk_of (by decide +kernel), by decide +kernel, by decide +kernel⟩

theorem witness_StoreWords : (∀ i ∈ [Instr.st (gw 4), .st { pw 0 with off := 63 }, .stx { gw 3 with x := 2 }, .stfe (pw 4), .pref { mw with base := 125 }],
      Ready i data) ∧
    AllOk data (laneChecks data (gw 4) false .write) ∧ AllOk data (laneChecks data { pw 0 with off := 63 } false .write) ∧
    AllOk data (laneChecks data { gw 3 with x := 2 } true .write) ∧ AllOk data (granuleChecks data (pw 4)) :=
  ⟨by decide +kernel, allOk_of (by decide +kernel), allOk_of (by decide +kernel), allOk_of (by decide +kernel), allOk_of (by decide +kernel)⟩

theorem witness_AtomicWords : (∀ i ∈ [Instr.atomAdd (gw 2), .atomMin (gw 3), .atomMax (gw 2), .atomAnd (gw 3), .atomOr (gw 2), .atomXor (gw 2), .atomXchg (gw 3),
      .atomCas { gw 2 with data := 120 }, .atomFadd (pw 2)], Ready i data) ∧
    AllOk data (laneChecks data (gw 2) false (.atomic false)) ∧ AllOk data (laneChecks data (gw 3) false (.atomic false)) ∧
    AllOk data (laneChecks data { gw 2 with data := 120 } false (.atomic false)) ∧
    AllOk data (laneChecks data (pw 2) false (.atomic false)) :=
  ⟨by decide +kernel, allOk_of (by decide +kernel), allOk_of (by decide +kernel), allOk_of (by decide +kernel), allOk_of (by decide +kernel)⟩

theorem witness_TagWords : (∀ i ∈ [Instr.splook { mw with base := 96, data := 4 }, .sptag { mw with base := 96, data := 4, x := 2 }, .spinv { mw with base := 96, data := 4 }],
      Ready i data) ∧
    (∀ l ∈ runners data, source data 32 2 l < 0xFFFFFFFE) ∧
    -- a slot that is out of range: TAG_RANGE
    (let s := withG 2 0xFFFFFFFE data
     Ready (.sptag { mw with base := 96, data := 4, x := 2 }) s ∧ ∃ l ∈ runners s, 0xFFFFFFFE ≤ source s 32 2 l) := by decide

/-- A key in the table, a table with room, and a full one. -/
theorem witness_TagTableRule : (5 : W64) ≠ 6 ∧ tagFind [((6 : W64), (1 : W32))] 6 = some 1 ∧ (tagFind [((5 : W64), (1 : W32))] 6 = none ∧ [((5 : W64), (1 : W32))].length < 2) ∧
    (1 : Nat) ≤ [((5 : W64), (1 : W32))].length ∧ ([((5 : W64), (1 : W32))].map (·.1)).Nodup := by decide

/-! ### Witnesses: pointers -/

/-- A word on the name at `argp`. -/
def nw : MW := { mw with size := 5, base := 125, data := 4 }

/-- A short pointer to the bound object, and one to its end. -/
def pointing : State := withK 1 0xFA50052000000100 (withK 0 0xFA50052000000040 data)

theorem namesReady_data : NamesReady data nw :=
  ⟨allOk_of (by decide +kernel), by decide +kernel, by decide +kernel, by decide +kernel⟩

theorem witness_PointerWords : (∀ i ∈ [Instr.ldp nw, .ldn nw, .stp { nw with data := 96 }, .stn { nw with data := 4 }, .padd { mw with data := 4, base := 97, x := 120 },
      .pname { mw with data := 4, base := 97 }, .pres { mw with data := 4, base := 120 }], Ready i pointing) ∧
    NamesReady data nw ∧
    (∀ l ∈ runners data, ∃ v, resolveName (namesRead data nw).2 (addressOf data nw false 16 l) (lane (namesRead data nw).1.vals l) = .val v) ∧
    (∀ l ∈ runners data, nameBad (lane (namesRead data nw).1.vals l) = false) ∧
    AllOk pointing (fun l => checkGlobal pointing .write 16 16 (addressOf pointing nw false 16 l)) ∧
    (∀ l ∈ runners pointing, ∃ v, pointerName pointing (BitVec.ofNat 64 (source pointing 64 96 l)) = .val v) ∧
    (∀ l ∈ runners pointing, ∃ v, pointerName pointing (BitVec.ofNat 64 (source pointing 64 97 l)) = .val v) ∧
    (∀ l ∈ runners pointing, ∃ v, paddLane pointing (BitVec.ofNat 64 (source pointing 64 97 l)) (BitVec.ofNat 64 (source pointing 64 120 l)) 0 = .val v) ∧
    (∀ l ∈ runners pointing, ∃ v, resolveName pointing 0 (source pointing 128 120 l) = .val v) :=
  ⟨by decide +kernel, namesReady_data, vals_of (by decide +kernel), by decide +kernel, allOk_of (by decide +kernel), vals_of (by decide +kernel), vals_of (by decide +kernel), vals_of (by decide +kernel),
    vals_of (by decide +kernel)⟩

theorem witness_PointerEquality : let f := { mw with data := 6, base := 96, x := 97 }
    bitAt f.off 0 = false ∧ bitAt f.off 1 = false ∧ Ready (.peq f) pointing ∧ (ctxOf pointing).ol < 65535 ∧
    (∀ l ∈ runners pointing, ∀ r ∈ [f.base, f.x], isAperture (BitVec.ofNat 64 (source pointing 64 r l)) = true ∧
      pointsNow pointing (BitVec.ofNat 64 (source pointing 64 r l)) = true ∧
      myEntryLost pointing (ptrSlot (BitVec.ofNat 64 (source pointing 64 r l))) = false) := by decide +kernel

theorem readable_pointing (r : Sources) : Readable pointing r := readable_of (by decide) (by decide) r

/-! ### Witnesses: waits, barriers, control -/

/-- `data` with a barrier register and the issuing context changed. -/
def withBar (b : Bar) (s : State) : State := putBar s s.gang.id 15 b

/-- A store in flight, in no lane yet performed. -/
def flying : Op :=
  { id := 0, fpc := 0, word := 0, run := 1, flag := none, counter := 2, dsts := [],
    kind := .memory .store 4 0 [{ lane := 0, place := .global 0x7000 0, data := 1, swap := 0, va := 0x11000 }] noVals none }

/-- `data` with that store in flight. -/
def storing : State := modCtx { data with nextOp := 1 } fun c => { c with ops := [flying], os := 1 }

theorem witness_CounterWaits :
    (∀ f ∈ [{ xw with f := 0x400000 }, { xw with f := 0x800000 + 65535 }], Ready (.cwait f) data ∧
      counterOf (ctxOf data) (fld f.f.toNat 23 22 + 1) ≤ fld f.f.toNat 15 0) ∧
    (let f := { xw with f := 0x400000 }
     Ready (.cwait f) storing ∧ fld f.f.toNat 15 0 < counterOf (ctxOf storing) (fld f.f.toNat 23 22 + 1)) ∧
    (∀ f ∈ [{ xw with f := 0xE00000 }, { xw with f := 120 * 2 ^ 14 }], Ready (.twait f) data ∧ awaited data f ≤ (tcAt data.gang (fld f.f.toNat 23 22)).value) ∧
    (∀ f ∈ [{ xw with t := 1, f := 0x200000 }, { xw with f := 125 * 2 ^ 14 }], Ready (.twait f) data ∧
      (tcAt data.gang (fld f.f.toNat 23 22)).value < awaited data f) := by decide

theorem witness_BarrierWords :
    Ready (.barInit { xw with f := 0xF00000 + 33 * 2 ^ 14 }) data ∧
    (let f := { xw with t := 0xFFFFFF, f := 0xF80000 }
     let s := withBar { Bar.zero with members := 2, pending := 2 } data
     Ready (.barArrive f) s ∧ announced s f < 2 ^ 47 ∧ allPerformed s = true ∧ (arriveBar (announced s f) (barAt s.gang (barField f))).isSome = true ∧
     -- an uninitialised barrier register: misuse
     Ready (.barArrive f) data ∧ allPerformed data = true ∧ arriveBar (announced data f) (barAt data.gang (barField f)) = none ∧
     -- an earlier store not performed: the arrival waits
     Ready (.barArrive f) storing ∧ announced storing f < 2 ^ 47 ∧ allPerformed storing = false) ∧
    Ready (.barArrive { xw with f := 0xF00000 + 96 * 2 ^ 12 }) data ∧
    (let f := { xw with f := 0xF80000 }
     Ready (.barWait f) data ∧ (barAt data.gang (barField f)).phase ≠ bitAt f.f 19 ∧
     (ctxOf data).met = false ∧ (barAt data.gang (barField { xw with f := 0xF00000 })).phase = bitAt (0xF00000 : BitVec 24) 19) := by decide

theorem witness_BarrierPhases : (1 : Nat) ≤ 33 ∧ (33 : Nat) ≤ 33 ∧ (0 : Nat) < 1 ∧ 1 < 2 ^ 47 - 1 ∧ 2 ^ 47 - 1 < 2 ^ 47 := by decide

/-- `here` in a launch of one grid barrier, and of one gang or of two. -/
def gridOf (n : Nat) : State := { here with launch := { here.launch with gbars := 1, gangs := n } }

theorem witness_GridBarrier : ∀ n ∈ [1, 2], Ready (.gbar xw) (gridOf n) ∧ barField xw < (gridOf n).launch.gbars ∧
    isContGang (gridOf n).warp.id.gang = false ∧
    liveThreads (ctxOf (gridOf n)) &&& ~~~(runMask (ctxOf (gridOf n)) ||| waitingAt (ctxOf (gridOf n)) (barField xw)) = 0 ∧
    (gridOf n).warp.id.seq = (gridOf n).launch.seq ∧ NothingToRelease (gridOf n) ∧
    phaseComplete (arrivals (gridOf n) (barField xw)) (barField xw) = decide (n = 1) := by
  simp only [NothingToRelease]; decide

theorem witness_ControlWords :
    (∀ i ∈ [Instr.goto { xw with t := 0xFFFFFF }, .yield xw, .brc { xw with pred := 6, neg := true, f := 5 }, .brx { xw with f := 96 }, .exit xw,
      .meet xw, .pb { xw with pred := 7, f := 0xFF8000 }, .nop xw false, .nop xw true], Ready i here) ∧
    (∀ l ∈ runners here, wordAddrOk (BitVec.ofNat 64 (source here 64 96 l)) = true) ∧ Settled here [.p 6] ∧ prefixBad here 8 = false := by decide

/-- `data` with a call area at its data page, lanes 0 and 31 at a level. -/
def calling (n : Nat) : State :=
  { data with
    warp := { data.warp with ctx := { data.warp.ctx with csp := 0x11000 } }
    mem := { data.mem with home := [0x7000, 0x707C].foldl (fun m a => ByteMap.writeMany m a (bytesOf 4 n)) data.mem.home } }

theorem witness_CallsAndReturns :
    (ctxOf (calling 0)).csp ≠ 0 ∧ Ready (.call xw) (calling 0) ∧ firstUnmapped (calling 0) (areaVas (calling 0) 0x11000 0x80000001 0) = none ∧
    (∀ l ∈ runners (calling 0), areaLost (calling 0) (depthVa 0x11000 l) = false ∧ depthOf (calling 0) 0x11000 l < 31) ∧
    Ready (.ret xw) (calling 1) ∧ firstUnmapped (calling 1) (areaVas (calling 1) 0x11000 0x80000001 1) = none ∧
    (∀ l ∈ runners (calling 1), areaLost (calling 1) (depthVa 0x11000 l) = false ∧ 0 < depthOf (calling 1) 0x11000 l ∧
      areaLost (calling 1) (raddrVa 0x11000 0 l) = false ∧ areaLost (calling 1) (raddrVa 0x11000 0 l + 8) = false) := by decide +kernel

/-- At level 31 and at level 0. -/
theorem witness_CallLimits : Ready (.call xw) (calling 31) ∧ firstUnmapped (calling 31) [0x11000] = none ∧
    (∀ n ∈ [0, 31], ∀ l ∈ runners (calling n), areaLost (calling n) (depthVa 0x11000 l) = false) ∧
    (∃ l ∈ runners (calling 31), depthOf (calling 31) 0x11000 l = 31) ∧ Ready (.ret xw) (calling 0) ∧
    (∃ l ∈ runners (calling 0), depthOf (calling 0) 0x11000 l = 0) := by decide +kernel

/-- `data` in a launch with continuations on, and a context pool of four slots. -/
def continuing : State :=
  { data with
    launch := { data.launch with contOk := true, eff := { data.launch.eff with ctxPool := 0x11000 } }
    cp := { data.cp with budgets := [{ region := 0, parent := none, lines := 768, ctx := 4, spad := 64, deckle := 16, energy := 100, counts := [], restart := false }] } }

theorem witness_Continuations : (∀ f ∈ [{ xw with f := 14 * 64 }, xw],
    RoomForRecords continuing f ∧ Ready (.cont f) continuing ∧ Ready (.contx f) continuing) := by
  simp only [RoomForRecords]; decide +kernel

/-! ### Witnesses: exceptions -/

/-- `data` in a region with a handler and one trap record. -/
def handled : State :=
  { data with launch := { data.launch with eff := { data.launch.eff with trapEntry := 0x2100, trapPool := 0x40000, trapCount := 1 } } }

/-- `handled` in trap mode: the interrupted context is the one of `handled`, its record a page of memory. -/
def inTrap : State :=
  { handled with
    warp := { handled.warp with
      trap := some { idx := 0, intr := { (ctxOf handled) with ctxp := 0x11000 }, deact := false, live0 := none, live1 := none, viewsWritten := [], callRecord := none } } }

/-- The words of trap mode, and the context space. -/
def privileged : List Instr :=
  [.ctxld { sw with flag := 1 }, .ctxst sw, .csrr { sw with csr := 1 }, .csrw { sw with csr := 1 }, .tret sw, .tlbi { sw with lane := 1 }, .pbind { sw with flag := 1 },
    .punbind sw, .pevict sw, .mprgw sw, .keyset { sw with flag := 1 }, .deact xw, .ld { mw with space := 2 }, .st { mw with space := 2 }]

theorem witness_DecodeCauses :
    (∀ x ∈ ([(.idot4 a3, .illegalOpcode), (.iadd { a3 with ty := .f32 }, .illegalEncoding), (.iadd { a3 with b := 127 }, .badRegister),
        (.pb xw, .illegalPrefix), (.tret sw, .privileged)] : List (Instr × Cause)),
      (encode x.1).isSome ∧ runMask (ctxOf handled) ≠ 0 ∧
      decodeCause (ctxOf handled).seg.raiseA (ctxOf handled).seg.raiseB (trapMode handled) x.1 = some x.2) ∧
    trapMode handled = false ∧ handled.launch.eff.trapEntry ≠ 0 ∧ freeRecord handled = some 0 ∧
    firstUnmapped handled [(ctxOf handled).ctxp] = none ∧
    -- the page of the warp's own record is not there
    (let s := modCtx handled fun c => { c with ctxp := 0x14000 }; firstUnmapped s [(ctxOf s).ctxp] = some 0x14000) := by decide +kernel

theorem witness_SoftwareTraps : Ready (.trap { xw with f := 15 }) handled ∧ trapMode handled = false ∧ handled.launch.eff.trapEntry ≠ 0 ∧
    freeRecord handled = some 0 ∧ firstUnmapped handled [(ctxOf handled).ctxp] = none ∧
    Ready (.tret sw) inTrap ∧ inTrap.warp.trap.isSome = true ∧ (ctxOf inTrap).ops.any holdsTret = false ∧
    inTrap.warp.trap.elim false (fun x => x.live0 = none && x.live1 = none && x.viewsWritten = []) = true ∧
    Ready (.nop xw true) here ∧
    -- after a DEACT
    (let s := { inTrap with warp := { inTrap.warp with trap := inTrap.warp.trap.map fun x => { x with deact := true } } }
     Ready (.tret sw) s ∧ (ctxOf s).ops.any holdsTret = false ∧
       s.warp.trap.elim false (fun x => x.deact && x.live0 = none && x.live1 = none && x.viewsWritten = []) = true) := by decide +kernel

/-- Two states for the causes of words other than those of decoding: in trap mode, and with no record free; g2 differs from lane to lane. -/
def doubled : List State :=
  [inTrap, { handled with launch := { handled.launch with eff := { handled.launch.eff with trapCount := 0 } } }].map fun s =>
    modCtx s fun c => setGReg c 2 { val := lanesOf fun l => if l = 31 then 1 else 0, live := allLanes, resident := true }

theorem witness_DoubleFaults_words : ∀ s ∈ doubled, Ready (.trap xw) s ∧
    (let f := { ops3 .s32 with d := 119 }
     Ready (.iadd f) s ∧ Readable s (reads [useA f 32, useB f 32] s) ∧ isK f.d = true ∧
       ∃ l ∈ runners s, srcA f s l ≠ srcA f s (lowLane (runMask (ctxOf s)))) ∧
    (let f := { gw 2 with off := 17 }
     Ready (.ld f) s ∧ Readable s (reads [useBase f] s) ∧
       (match decideChecks (runMask (ctxOf s)) (laneChecks s f false .read) with
        | .raise r => causeRoute r.cause == .handler
        | .ok | .wait _ | .hole _ => false) = true) ∧
    (trapMode s = true ∨ (s.launch.eff.trapEntry ≠ 0 ∧ freeRecord s = none)) := by decide +kernel

/-- In trap mode, without a handler, and without a free record. -/
theorem witness_DoubleFaults : (encode (.idot4 a3)).isSome ∧ runMask (ctxOf inTrap) ≠ 0 ∧
    decodeCause 0 1 (trapMode inTrap) (.idot4 a3) = some .illegalOpcode ∧ trapMode inTrap = true ∧
    (trapMode data = false ∧ data.launch.eff.trapEntry = 0) ∧
    (let s := { handled with launch := { handled.launch with eff := { handled.launch.eff with trapCount := 0 } } }
     trapMode s = false ∧ s.launch.eff.trapEntry ≠ 0 ∧ freeRecord s = none) := by decide

theorem witness_PrivilegedWords : (∀ i ∈ privileged, isPrivileged i = true) ∧ trapMode data = false ∧ runMask (ctxOf data) ≠ 0 := by decide

theorem witness_NoThreadNoEffect : (encode (.idot4 a3)).isSome ∧ runMask (ctxOf (modCtx here fun c => { c with active := 0 })) = 0 := by decide

theorem witness_InterruptedContext :
    (∀ i ∈ [Instr.ctxld { sw with hi := 4, mid := 95, flag := 1 }, .ctxld { sw with hi := 97, mid := 119, flag := 1 }, .ctxst { sw with hi := 4, mid := 95 },
      .ctxst { sw with hi := 96, mid := 96 }, .csrr { sw with hi := 96, csr := 0x23 }, .csrw { sw with mid := 96, csr := 5, lane := 31 }, .deact xw], Ready i inTrap) ∧
    (∀ n ∈ [95, 96, 119], CopyReady inTrap n) ∧ (95 : Nat) < 96 ∧ SameSource inTrap 64 96 ∧
    inTrap.warp.trap.elim true (·.deact) = false ∧
    (let s := { inTrap with warp := { inTrap.warp with trap := inTrap.warp.trap.map fun x => { x with deact := true } } }
     Ready (.deact xw) s ∧ s.warp.trap.elim false (·.deact) = true) := by
  simp only [CopyReady]; decide

/-- The interrupted context's record spans four pages: here all four are mapped. -/
def inTrap4 : State :=
  { inTrap with mem := { inTrap.mem with home := [(0x5098, 0xB007), (0x50A0, 0xC007)].foldl (fun m e => ByteMap.writeMany m e.1 (bytesOf 8 e.2)) inTrap.mem.home } }

theorem witness_InterruptedContext_deact : Ready (.deact xw) inTrap4 ∧ firstUnmapped inTrap4 (recordPages (intrOf inTrap4).ctxp) = none ∧
    inTrap4.warp.trap.elim true (·.deact) = false := by decide +kernel

/-! ### Witnesses: system services, rings, views, engines -/

/-- `inTrap` with a name of the bound object in g4 to g7, its short pointer in k0, a key region of one key, and a kept translation. -/
def serving : State :=
  { withG 7 0x80012300 (withG 6 0x42 (withG 5 0 (withG 4 0x40 (withK 0 0xFA50052000000040 inTrap)))) with
    launch := { inTrap.launch with eff := { inTrap.launch.eff with keyBase := 0, keyCount := 1 } }
    mem := { inTrap.mem with tlb := [{ root := 0x1000, page := 0x11, pte := 0x7007 }] } }

theorem witness_SystemServices :
    (∀ i ∈ [Instr.tlbi { sw with lane := 1 }, .tlbi { sw with mid := 97 }, .mprgw { sw with mid := 97 }, .pbind { sw with hi := 98, mid := 4, flag := 1 },
      .pbind { sw with hi := 8, mid := 12, flag := 2 }, .punbind { sw with mid := 96 }, .pevict { sw with mid := 96 }, .keyset { sw with hi := 98, mid := 88, flag := 1 }],
      Ready i serving) ∧
    Readable serving (reads [useS 4 128] serving) ∧ Readable serving (reads (keyUses { sw with hi := 98, mid := 88 }) serving) ∧
    SameSource serving 64 97 ∧ (∀ e ∈ serving.mem.tlb, tlbiDrops serving true 0 e = true ∧ entryBusy serving e = false) ∧
    matrixAtPoint serving serving.warp.id = true ∧
    SameSource serving 128 4 ∧ nameBad (low serving 128 4) = false ∧ pbindResolve serving (low serving 128 4) = .bound 5 0xFA50052000000040 ∧
    missingPage (pinSlot serving 5) 5 = none ∧
    SameSource serving 128 12 ∧ pbindResolve serving (low serving 128 12) = .code .nameMalformed ∧
    SameSource serving 64 96 ∧ pointsNow serving (BitVec.ofNat 64 (low serving 64 96)) = true ∧
    rootOf_ serving = 0x1000 ∧ ptrSlot (BitVec.ofNat 64 (low serving 64 96)) = 5 ∧
    slotBusy serving 0x1000 serving.launch.eff.bindTable 5 = false ∧ evictable serving 0x1000 serving.launch.eff.bindTable 5 = true ∧
    pointsNow serving (BitVec.ofNat 64 (low serving 64 97)) = false ∧
    -- a store through the slot is still to be performed
    (let o : Op :=
       { id := 0, fpc := 0, word := 0, run := 1, flag := none, counter := 2, dsts := [],
         kind := .memory .store 4 0 [{ lane := 0, place := .global 0x7000 0, data := 1, swap := 0, va := 0x00F0005000000040 }] noVals none }
     let s := modCtx serving fun c => { c with ops := [o] }
     slotBusy s 0x1000 s.launch.eff.bindTable 5 = true ∧ Ready (.punbind { sw with mid := 96 }) s ∧ SameSource s 64 96 ∧
       pointsNow s (BitVec.ofNat 64 (low s 64 96)) = true) := by decide +kernel

theorem witness_SystemServices_key : KeyOk serving { sw with hi := 98, mid := 88, flag := 1 } := by
  refine ⟨by decide +kernel, by decide +kernel, by decide +kernel, by decide +kernel, by decide +kernel⟩

/-- `data` in a region with ring 0 enabled: four slots of 256 bytes, one entry written and none claimed, another claimed. -/
def ringing : State :=
  { data with fabric := { data.fabric with
      rings := [(0, { ringAt data 0 with w0 := 0x0000880000000000, w1 := 3, written := 2, claim := 1, entries := [(0, 1), (1, 1)], claimed := [(0, false)] })] } }

theorem witness_RingWords :
    (Ready (.rgnext { mw with size := 3, data := 4, base := 96 }) ringing ∧ (ctxOf ringing).ol < 65535 ∧
     ∀ l ∈ runners ringing, source ringing 32 96 l < 1024 ∧ (ringAt ringing (source ringing 32 96 l)).region = ringing.launch.region ∧
       source ringing 32 96 l / 64 = myDie ringing ∧ (ringAt ringing (source ringing 32 96 l)).en = true) ∧
    (let s := withK 1 0x40000 ringing
     Ready (.rgrel { mw with size := 3, data := 97, base := 96 }) s ∧ (ctxOf s).os < 65535 ∧
     ∀ l ∈ runners s, (source s 64 97 l % 2 ^ 18, false) ∈ (ringAt s (source s 32 96 l)).claimed ∧
       entrySlots (ringAt s (source s 32 96 l)) (source s 64 97 l % 2 ^ 18) = source s 64 97 l / 2 ^ 18) ∧
    -- an entry to claim, and none
    (ringAt ringing 0).claim ≠ (ringAt ringing 0).written ∧ (ringAt ringing 1).claim = (ringAt ringing 1).written ∧
    -- an operation that claims as it completes
    (let o : Op :=
       { id := 9, fpc := 0, word := 0, run := 0x80000001, flag := some 1, counter := 1, dsts := [],
         kind := .ringClaim (lanesOf fun _ => 0) }
     let s := modCtx ringing fun c => { c with ops := [o] }
     o ∈ (ctxOf s).ops ∧ ((warpOps s.warp).map (·.id)).Nodup ∧ s.mgmt.saved.contains (dieOfCore s.warp.core) = false) := by decide +kernel

/-- Two entries to claim, of which lanes 0 and 31 get one each: at slots 1 and 2, the second of two slots. -/
theorem witness_RingWords_unclaimed :
    (let s := { ringing with fabric := { ringing.fabric with
       rings := [(0, { ringAt ringing 0 with written := 4, claim := 1, entries := [(0, 1), (1, 1), (2, 2)] })] } }
     Unclaimed (ringAt s 0) [1, 2] ∧ 0 ∈ lanesIn 0x80000001 ∧ 31 ∈ lanesIn 0x80000001 ∧
     (let v := (claimLanes 0 (fun _ => 0) (lanesIn 0x80000001) (noVals, s)).1
      lane v 0 = 2 ^ 18 + 1 ∧ lane v 31 = 2 * 2 ^ 18 + 2)) := by
  refine ⟨⟨by decide +kernel, by decide, by decide +kernel⟩, by decide, by decide, by decide +kernel⟩

/-- A defined view: format, rank, intent, base, two extents, two strides. -/
def view (fmt rank intent : Nat) (base : Nat) (e0 e1 st0 st1 : Nat) : View :=
  #v[BitVec.ofNat 64 base, BitVec.ofNat 64 (fmt * 2 ^ 61 + (rank - 1) * 2 ^ 59 + intent * 2 ^ 57 + 2 ^ 47), BitVec.ofNat 64 (e1 * 2 ^ 32 + e0), 0,
    BitVec.ofNat 64 (st1 * 2 ^ 32 + st0), 0, 0, 0]

/-- `data` with its other threads exited, and views: 0 and 1 of 32-bit rows; 2, 3, 4 a gather; 5 to 9 the operands of a matrix
operation in the shapes of spec/19; k4 and k5 a peer group of this device alone; a page of a peer's cached object at 0x13000; a
descriptor at 0x11040. -/
def viewing : State :=
  { data with
    warp := { data.warp with
      ctx := [(0, view 2 1 3 0x11000 16 0 1 0), (1, view 2 1 3 0x11100 16 0 1 0), (2, view 2 2 2 0x11000 4 2 1 4), (3, view 2 2 1 0x11100 4 8 1 4),
              (4, view 2 1 1 0x11200 2 0 1 0), (5, view 0 2 1 0x11000 160 2 1 160), (6, view 4 2 1 0x11200 160 128 1 160),
              (7, view 2 2 2 0x11800 128 2 1 128), (8, view 1 2 1 0x11200 128 1 0 0), (9, view 1 2 1 0x11202 2 1 0 0)].foldl
                (fun c x => setView c x.1 x.2) { setKReg (setKReg data.warp.ctx 4 0x11080) 5 0 with exited := 0x7FFFFFFE } }
    mem := { data.mem with
      home := [(0x5098, 0x1230000000A107), (0x7040, 0x11000), (0x7048, 0x4600000000000000), (0x7050, 16), (0x7060, 1), (0x7080, 0xFFFFF)].foldl
                (fun m e => ByteMap.writeMany m e.1 (bytesOf 8 e.2)) data.mem.home } }

theorem whole_viewing : Whole viewing := by decide +kernel
theorem readable_viewing (r : Sources) : Readable viewing r := readable_of (by decide +kernel) (by decide +kernel) r

theorem witness_ViewWords :
    (∀ i ∈ [Instr.vdef { ew with va := 15, r1 := 125, imm := 0x40 }, .vset { ew with va := 0, r1 := 100 }, .vset { ew with va := 0, r1 := 96, imm := 9 },
      .vget { ew with va := 1, r1 := 4, imm := 1 }, .vget { ew with va := 1, r1 := 96 }, .vret { ew with va := 1 }, .vmeet { ew with va := 0, vb := 1, r1 := 6 }],
      Ready i viewing) ∧
    (∀ n ∈ [0, 1], (viewAt (ctxOf viewing) n).defined = true) ∧ SameSource viewing 32 96 ∧
    (∃ v1, setField (viewAt (ctxOf viewing) 0) 9 (BitVec.ofNat 64 (low viewing 32 96)) = some v1 ∧ viewCheck viewing (v1.setState 0) = none) ∧
    SameSource viewing 64 100 ∧
    (∃ v1, setField (viewAt (ctxOf viewing) 0) 0 (BitVec.ofNat 64 (low viewing 64 100)) = some v1 ∧ viewCheck viewing (v1.setState 0) = none) :=
  ⟨by decide +kernel, by decide +kernel, by decide +kernel, ⟨_, rfl, by decide +kernel⟩, by decide +kernel, ⟨_, rfl, by decide +kernel⟩⟩

theorem witness_ViewWords_descriptor : DescriptorOk viewing { ew with va := 15, r1 := 125, imm := 0x40 } 0x7040 0 :=
  ⟨by decide +kernel, by decide +kernel, ⟨0x11040, by decide +kernel⟩, by decide +kernel, by decide +kernel, by decide +kernel, by decide +kernel⟩

theorem elementsOk_of {s : State} {f : EW} {store : Bool} {w : Want} (h1 : Whole s)
    (h2 : (viewAt (ctxOf s) f.va.toNat).defined = true ∧ intentHas (viewAt (ctxOf s) f.va.toNat).intent (if store then 2 else 1) = true)
    (h3 : f.r2.toNat + (viewAt (ctxOf s) f.va.toNat).rank ≤ 96) (h4 : viewRegOk (viewAt (ctxOf s) f.va.toNat) f.r1 = true)
    (h5 : store = true → (viewAt (ctxOf s) f.va.toNat).isT1 = false)
    (h6 : (lanesIn (elementLanes s f)).all (fun l => badIndex (viewAt (ctxOf s) f.va.toNat) (indexOf s f (viewAt (ctxOf s) f.va.toNat) l) == none &&
      passes (elementChk s f (viewAt (ctxOf s) f.va.toNat) w l)) = true) : ElementsOk s f store w := by
  refine ⟨h1, by simpa [ViewsOk] using h2, h3, h4, h5, fun l hl => ?_⟩
  have := List.all_eq_true.mp h6 l hl
  simp only [Bool.and_eq_true, beq_iff_eq] at this
  refine ⟨this.1, ?_⟩
  have h := this.2
  cases hc : elementChk s f (viewAt (ctxOf s) f.va.toNat) w l <;> simp [hc, passes] at h
  exact ⟨_, _, rfl⟩

theorem witness_ViewAccess :
    (let f := { ew with va := 0, r1 := 4, r2 := 95 }
     Ready (.vld f) viewing ∧ ElementsOk viewing f false .read ∧ Ready (.vst f) viewing ∧ ElementsOk viewing f true .write) ∧
    (ctxOf viewing).ol < 65535 ∧ (ctxOf viewing).os < 65535 :=
  ⟨⟨by decide +kernel, elementsOk_of (by decide +kernel) (by decide +kernel) (by decide +kernel) (by decide +kernel) (by decide +kernel) (by decide +kernel), by decide +kernel,
    elementsOk_of (by decide +kernel) (by decide +kernel) (by decide +kernel) (by decide +kernel) (by decide +kernel) (by decide +kernel)⟩, by decide +kernel, by decide +kernel⟩

theorem witness_CopyWords :
    (∀ i ∈ [Instr.cpv { ew with va := 0, vb := 1 }, .cpr { ew with va := 0, vb := 1, variant := 2 }, .gath { ew with va := 2, vb := 3, vc := 4 },
      .cpl { mw with size := 4, base := 125, data := 96, space := 1 }, .cpl { mw with size := 2, base := 125, data := 100 }], Ready i viewing) ∧
    ViewsOk viewing [(0, 3), (1, 1)] ∧ ViewsOk viewing [(0, 2), (1, 1)] ∧ ViewsOk viewing [(2, 2), (3, 1), (4, 1)] ∧
    copyRow (viewAt (ctxOf viewing) 0) (viewAt (ctxOf viewing) 1) none = none ∧ copyRow (viewAt (ctxOf viewing) 0) (viewAt (ctxOf viewing) 1) (some 0) = none ∧
    gatherBad (viewAt (ctxOf viewing) 2) (viewAt (ctxOf viewing) 3) (viewAt (ctxOf viewing) 4) = false ∧ BarrierReady viewing 0 false ∧
    (let s := withBar { Bar.zero with members := 1, pending := 1 } viewing; BarrierReady s 31 true ∧ Ready (.cpv { ew with va := 0, vb := 1, imm := 31 }) s) ∧
    (let f := { mw with size := 4, base := 125, data := 96, space := 1 }
     AllOk viewing fun l => earlier (checkEarly viewing 16 (copyFrom viewing f l)) (checkScratch viewing 16 (copyTo viewing f l))) ∧
    (let f := { mw with size := 2, base := 125, data := 100 }
     AllOk viewing fun l => earlier (checkEarly viewing 4 (copyFrom viewing f l)) (checkEarly viewing 4 (copyTo viewing f l))) := by
  refine ⟨by decide +kernel, ?_, ?_, ?_, by decide +kernel, by decide +kernel, by decide +kernel, by decide +kernel, by decide +kernel, allOk_of (by decide +kernel), allOk_of (by decide +kernel)⟩ <;>
    simp only [ViewsOk] <;> decide +kernel

theorem witness_MatrixWords :
    (∀ i ∈ [Instr.mmt { ew with va := 7, vb := 6, vc := 5, slot := 7, imm := 0x89 }, .mmv { ew with va := 7, vb := 6, vc := 5, imm := 0x300 },
      .mstat { ew with r1 := 4 }, .mclr { ew with imm := 63 }], Ready i viewing) ∧
    MatrixOk viewing { ew with va := 7, vb := 6, vc := 5, slot := 7, imm := 0x89 } (2 ^ 20) ∧
    MatrixOk viewing { ew with va := 7, vb := 6, vc := 5, imm := 0x300 } 8 := by
  refine ⟨by decide +kernel, ⟨by decide +kernel, by decide +kernel, ?_, by decide +kernel, by decide +kernel⟩, ⟨by decide +kernel, by decide +kernel, ?_, by decide +kernel, by decide +kernel⟩⟩ <;>
    simp only [ViewsOk] <;> decide +kernel

theorem witness_CollectiveWords :
    (∀ i ∈ [Instr.xred { ew with va := 0, vb := 1, r1 := 100 }, .xgath { ew with va := 0, vb := 1, r1 := 100 }, .xbcast { ew with va := 0, r1 := 100 }], Ready i viewing) ∧
    CollectiveOk viewing { ew with va := 0, vb := 1, r1 := 100 } [(0, 2), (1, 1)] 0 (fun _ => reduceCase 0 (viewAt (ctxOf viewing) 0) (viewAt (ctxOf viewing) 1)) ∧
    CollectiveOk viewing { ew with va := 0, vb := 1, r1 := 100 } [(0, 2), (1, 1)] 0 (fun size => gatherCase size (viewAt (ctxOf viewing) 0) (viewAt (ctxOf viewing) 1)) ∧
    CollectiveOk viewing { ew with va := 0, r1 := 100 } [(0, 3)] 0 (fun _ => collShape [viewAt (ctxOf viewing) 0] none) := by
  refine ⟨by decide +kernel, ⟨by decide +kernel, ?_, by decide +kernel, ⟨.scratch 0, 0x11080, by decide +kernel⟩, by decide +kernel, by decide +kernel, by decide +kernel⟩,
    ⟨by decide +kernel, ?_, by decide +kernel, ⟨.scratch 0, 0x11080, by decide +kernel⟩, by decide +kernel, by decide +kernel, by decide +kernel⟩,
    ⟨by decide +kernel, ?_, by decide +kernel, ⟨.scratch 0, 0x11080, by decide +kernel⟩, by decide +kernel, by decide +kernel, by decide +kernel⟩⟩ <;> simp only [ViewsOk] <;> decide +kernel

/-- The address of the peer's page in k4. -/
def tokening : State := withK 4 0x13000 viewing

theorem witness_TokenWords :
    (∀ i ∈ [Instr.tkacq { ew with r1 := 100, variant := 1 }, .tkrel { ew with r1 := 100 }, .tkqry { ew with r1 := 100, r2 := 4, flag := 1 }], Ready i tokening) ∧
    TokenAt tokening { ew with r1 := 100 } 0x123 0 ∧
    (tokenAt tokening 0x123 0).xholds ≠ 2 ^ 24 - 1 ∧
    (let s := { tokening with fabric := { tokening.fabric with tokens := [{ peer := 0x123, region := 0, state := 2, sholds := 2 ^ 24 - 1, xholds := 0, pending := false, giving := false, service := 0 }] } }
     ¬((tokenAt s 0x123 0).sholds = 0 ∧ (tokenAt s 0x123 0).xholds = 0)) := by
  refine ⟨by decide +kernel, ⟨by decide +kernel, by decide +kernel, ?_⟩, by decide +kernel, by decide +kernel⟩
  decide +kernel

/-! ### Witnesses: warps, gangs, cores -/

/-- The issuing warp of the placed machine. -/
def w0 : WarpId := ⟨1, 0, 0⟩

/-- The issuing warp waiting, parked or not. -/
def waiting (w : WaitFor) (st : WarpState) (s : State) : State :=
  { s with warp := { s.warp with state := st, ctx := { s.warp.ctx with wait := w } } }

/-- `here` at a boundary before a segment of one word, an EXIT (its header: LENGTH 1, RAISE_A and RAISE_B 15). -/
def segged : State :=
  { here with
    warp := { here.warp with ctx := { here.warp.ctx with inSeg := false, pcs := Vector.replicate 32 0x2000 } }
    mem := { here.mem with home := ByteMap.writeMany (ByteMap.writeMany here.mem.home 0x6000 (bytesOf 8 0xE08007F800000000)) 0x6008 (bytesOf 8 0xA050000000000000) } }

theorem witness_SegmentsAndGroups :
    (findWarp segged w0).isSome ∧ focusOn w0 segged = segged ∧ atBoundary segged segged.warp = true ∧ (ctxOf segged).exited ≠ allLanes ∧
    energyOk segged segged.launch.region (myDie segged) = true ∧ segged.warp.held = none ∧
    (segged.warp.preempt && matrixAtPoint segged w0) = false ∧
    (let c := releaseMeets (ctxOf segged)
     readyPcs segged c (candidates c) = [0x2000] ∧ choosePc c (candidates c) [0x2000] = 0x2000 ∧
     (c.suspended.find? fun x => x.released && x.npc == 0x2000) = none) ∧ segged.warp.badEntry ≠ some 0x2000 ∧
    fetchSegment segged 0x2000 = .word 0xE08007F800000000 := by decide +kernel

/-- Two groups: the one at the higher PC was passed over eight times. -/
theorem witness_GroupChoice :
    (let c := { Ctx.zero with pcs := lanesOf fun l => if l = 0 then 7 else 9, passed := lanesOf fun l => if l = 0 then 0 else 8 }
     groupPcs c 3 = [7, 9] ∧ 8 ≤ passedOf c (groupAt c 3 9) ∧ ¬8 ≤ passedOf c (groupAt c 3 7)) := by decide +kernel

/-- `segged` in a region with a handler, holding a cause. -/
def holding : State :=
  { segged with
    launch := { segged.launch with eff := { segged.launch.eff with trapEntry := 0x2100, trapPool := 0x40000, trapCount := 1 } }
    mem := { segged.mem with home := ByteMap.writeMany segged.mem.home 0x50C0 (bytesOf 8 0xD007) }
    warp := { segged.warp with ctx := { segged.warp.ctx with ctxp := 0x18000 }, held := some { cause := .peerUnreachable, fpc := 5, word := 0, run := 1, lanes := 1, addr := 0, info := 0 } } }

theorem witness_BoundaryCauses :
    (findWarp holding w0).isSome ∧ focusOn w0 holding = holding ∧ atBoundary holding holding.warp = true ∧ (ctxOf holding).exited ≠ allLanes ∧
    energyOk holding holding.launch.region (myDie holding) = true ∧ trapMode holding = false ∧ holding.launch.eff.trapEntry ≠ 0 ∧
    freeRecord holding = some 0 ∧ firstUnmapped holding [(ctxOf holding).ctxp] = none ∧ holding.warp.held.isSome = true ∧ causeRoute .copyFault = .handler ∧
    (let s := { holding with warp := { holding.warp with held := none, preempt := true } }
     s.warp.held = none ∧ s.warp.preempt = true ∧ matrixAtPoint s w0 = true) := by decide +kernel

theorem witness_SchedulerChoice : (pairChoice here 0 0).map (·.id) = some w0 ∧ here.warp ∈ readyWarps here 0 0 ∧ pairChoice here 383 1 = none ∧
    (let s := { here with warp := { here.warp with yielded := true } }
     (pairChoice s 0 0).map (fun w => w.yielded && decide (w.skip < 64)) = some true) := by
  decide +kernel

/-- The chosen warp of `here` was chosen last and is inside its segment; with another choice before it, it is its turn. -/
theorem witness_SchedulerChoice_turn :
    (let r := (rivals here 0 0).1
     r.map (fun x => x.skip) = [0] ∧ r.map (fun x => choseLast here 0 0 x && x.ctx.inSeg && !x.yielded) = [true]) ∧
    (let s := { here with cores := here.cores.set 0 CoreState.zero }
     (rivals s 0 0).1.map (fun x => choseLast s 0 0 x || x.yielded) = [false] ∧ (pairChoice s 0 0).map (·.id) = some w0) := by
  decide +kernel

/-- `here` in check mode, with transient errors to come. -/
def checked_ (us : List Upset) : State :=
  { here with warp := { here.warp with check := true }, mgmt := { here.mgmt with upsets := us } }

theorem witness_CheckMode : ∃ dist body, ∀ s, exec (.iadd (ops3 .s32)) s = runWord (.iadd (ops3 .s32)) dist body s := ⟨_, _, fun _ => rfl⟩

theorem witness_CheckMode_errors : ∀ n ∈ [0, 1, 2],
    (let s := checked_ [{ fails := n, late := false }]
     runMask (ctxOf s) ≠ 0 ∧ decodeCause (ctxOf s).seg.raiseA (ctxOf s).seg.raiseB (trapMode s) (.iadd (ops3 .s32)) = none ∧ s.warp.check = true ∧
       s.mgmt.storage = [] ∧ s.mgmt.upsets = [{ fails := n, late := false }] ∧ s.warp.core < s.cores.length) ∧
    (checked_ [{ fails := n, late := true }]).mgmt.upsets = [{ fails := n, late := true }] := by decide +kernel

theorem witness_CheckMode_register :
    let s := { here with mgmt := { here.mgmt with storage := [.register] } }
    runMask (ctxOf s) ≠ 0 ∧ decodeCause (ctxOf s).seg.raiseA (ctxOf s).seg.raiseB (trapMode s) (.iadd (ops3 .s32)) = none ∧
      s.mgmt.storage = [.register] := by decide +kernel

/-- `here` with some mismatches of core 383. -/
def mismatched (cs : List Nat) : State :=
  { here with cores := here.cores.set 383 { CoreState.zero with mismatches := cs } }

theorem witness_CoresAndPartitions : here.mgmt.storage = [] ∧ (383 : Nat) < 384 ∧ (mismatched [0, 0, 0]).cores.length = 384 ∧ (15 : Nat) < 16 ∧
    (coreAt (mismatched [0, 0, 0]) 383).withdrawn = false ∧
    3 ≤ ((coreAt (mismatched [0, 0, 0]) 383).mismatches.filter fun c => decide ((mismatched [0, 0, 0]).clock < c + 2 ^ 52)).length ∧
    ((coreAt (mismatched [0, 0]) 383).mismatches.filter fun c => decide ((mismatched [0, 0]).clock < c + 2 ^ 52)).length < 3 ∧
    (pairChoice here 0 0).map (·.id) = some w0 ∧ 0 < here.cores.length ∧ (findWarp here w0).map takesPreempt = some true := by decide +kernel

/-- A second warp of the same gang, waiting to be born. -/
def two : State := { here with warps := [unbornWarp here.launch 0 0 1] }

theorem witness_FocusKeepsWarps : ((allWarps two).map (·.id)).Nodup ∧ ((two.gang :: two.gangs).map (·.id)).Nodup ∧ ((allLaunches two).map (·.seq)).Nodup ∧
    0 < two.warp.id.seq ∧ 0 < two.gang.id.seq ∧ 0 < two.launch.seq ∧ (findWarp two ⟨1, 0, 1⟩).isSome ∧ (findGang two (gangOf ⟨1, 0, 1⟩)).isSome ∧
    (launchOf two 1).isSome := by decide +kernel

/-- For each wait, the issuing warp parked at it with its condition met, on a die that is not saved. -/
theorem witness_WaitsEnd : dieHalted data data.warp = false ∧ dieHalted continuing continuing.warp = false ∧
    (∀ w ∈ [WaitFor.flags, .counter 0 0, .timeline 3 0, .barrier 15 true, .page 0x11000 true, .lineBudget, .energy, .matrixPrevious, .earlier],
      (let s := waiting w .parked data
       (findWarp s w0).isSome ∧ focusOn w0 s = s ∧ s.warp.stopped = none ∧ waitOver s = true)) ∧
    (let s := waiting .matrixPrevious .parked data; (ctxOf s).wait = .matrixPrevious ∧ matrixBusy s = false) ∧
    (let s := waiting .lineBudget .parked data; (ctxOf s).wait = .lineBudget ∧ lineRoom s 1 = true) ∧
    (let s := waiting .contextSlot .parked continuing; (ctxOf s).wait = .contextSlot ∧ (stageRoom s s.launch).isSome) := by decide +kernel

/-- A warp whose record is the data page, waiting for a line; and one with a live line. -/
theorem witness_RegisterFillsAndSpills :
    (let s := waiting (.fill 31) .active data
     (findWarp s w0).isSome ∧ focusOn w0 s = s ∧ (31 : Nat) < 96 ∧ (ctxOf s).wait = .fill 31 ∧ s.warp.res = true ∧ s.warp.leaving = false ∧
       firstUnmapped s [gVa (ctxOf s) 31] = none ∧ lineLost s (ctxOf s) 31 = false ∧ lineRoom s 1 = true ∧ s.warp.state = .active ∧
       dieHalted s s.warp = false) ∧
    (let u := withG 31 7 data; spillable (ctxOf u) 31 = true ∧ firstUnmapped u [gVa (ctxOf u) 31] = none) ∧
    (let u := withG 95 7 data
     spillable (ctxOf u) 95 = true ∧ firstUnmapped u [gVa (ctxOf u) 95] = some (gVa (ctxOf u) 95) ∧ (ctxOf u).wait = .none ∧ trapMode u = false) := by
  decide +kernel

/-- `continuing` with an address space the service cores may map frames in. -/
def mappable : State := { continuing with svc := { continuing.svc with running := List.replicate 32 true, free := [(0x100, 16)] } }

theorem witness_ContextPages :
    (let s := waiting (.contextPage 0x11000) .parked mappable
     (findWarp s w0).isSome ∧ pageWanted s.warp = some 0x11000 ∧ firstUnmapped s [0x11000] = none ∧ s.warp.evicting = none ∧
       (ctxOf s).wait = .contextPage 0x11000 ∧ dieHalted s s.warp = false) ∧
    (let s := waiting (.contextPage 0x14000) .parked mappable
     firstUnmapped s [0x14000] = some 0x14000 ∧ (takeFrame s).isSome) ∧
    -- no frame left
    (let s := waiting (.contextPage 0x14000) .parked { mappable with svc := { mappable.svc with free := [] } }
     firstUnmapped s [0x14000] = some 0x14000 ∧ (freshPage (rootOf_ s) 0x14000 s).isNone) ∧
    (let s := waiting .contextSlot .parked { mappable with mem := { mappable.mem with home := ByteMap.writeMany mappable.mem.home 0x6000 (bytesOf 8 0xA030000000000000) } }
     (ctxOf s).wait = .contextSlot ∧ (ctxOf s).csp = 0 ∧ s.warp.trap = none ∧ atCall s = true ∧ slotFree s s.launch 3 = true ∧
       (takeSlot s s.launch (fromReservation s.launch w0)).isSome) := by decide +kernel

/-- An unborn issuing warp that can have a slot; and a candidate for whose budget of one line a parked warp must go. -/
def unborn : State := { continuing with warp := { unbornWarp continuing.launch 0 0 0 with id := w0 } }

/-- The only line of the budget is held by a parked warp; a second warp is dormant. -/
def crowded : State :=
  let s := withG 0 1 (waiting .energy .parked data)
  { s with
    warps := [{ unbornWarp data.launch 0 0 1 with state := .dormant }]
    mem := { s.mem with home := ByteMap.writeMany (ByteMap.writeMany s.mem.home 0x50D0 (bytesOf 8 0x9007)) 0x50D8 (bytesOf 8 0xA007) }
    cp := { s.cp with budgets := [{ region := 0, parent := none, lines := 1, ctx := 4, spad := 64, deckle := 16, energy := 100, counts := [], restart := false }] } }

theorem witness_WarpLives_activate :
    (orderedCandidates unborn 0 2).map (·.id) = [w0] ∧ (orderedCandidates unborn 0 2).all (roomFor 0 · unborn) = true ∧ unborn.warp.state = .unborn ∧
    birthSlot unborn unborn.warp 2 = some 2 := by decide +kernel

theorem witness_WarpLives_victim :
    (orderedCandidates crowded 0 0).map (·.id) = [⟨1, 0, 1⟩] ∧ (orderedCandidates crowded 0 0).all (fun x => !roomFor 0 x crowded &&
      ((victimOf crowded 0 (warpPrio crowded x)).map (fun v => v.id == w0 && roomFor 0 x (evictWarp v.id crowded)) == some true)) = true ∧
    victimLeaving crowded 0 = false ∧ victimLeaving { crowded with warp := { crowded.warp with leaving := true } } 0 = true := by
  decide +kernel

theorem witness_WarpLives_retire :
    (let s := waiting .retirement .active { here with warp := { here.warp with ctx := { here.warp.ctx with exited := allLanes, inSeg := false } } }
     (findWarp s w0).map mayRetire = some true ∧ s.mgmt.saved.contains (dieOfCore s.warp.core) = false ∧ isContGang w0.gang = false) := by decide +kernel

/-- A launch with a second gang to hand out, for a core with room; a gang that is done; one that waits off its core. -/
theorem witness_GangLives :
    (let s := { here with launch := { here.launch with gangs := 2, spad := 64, tags := 1 } }
     (launchOf s 1).map (fun l => decide (l.state = .started) && decide (l.handed < l.gangs) && coreGrants s l 383 l.spad l.tags) = some true) ∧
    (let s := { here with warp := { here.warp with state := .retired } }
     (findGang s ⟨1, 0⟩).map (gangDone s) = some true ∧ s.mgmt.saved.contains (dieOfCore s.gang.core) = false) ∧
    -- a second gang is to be handed out, for more scratchpad than a core has
    (let s : State := { (waiting (.gridBarrier 0) .parked here) with launch := { here.launch with gbars := 1, gangs := 2, spad := 0x80001 } }
     let u : State := { s with warp := { s.warp with res := false } }
     (launchOf u 1).map (fun l => decide (0 < l.gbars)) = some true ∧ (findGang u ⟨1, 0⟩).map (·.spilled) = some false ∧ isContGang 0 = false ∧
       (launchOf u 1).map (fun l => spadWanted u 0 l.eff.prio ⟨1, 0⟩) = some true ∧
       (∀ y ∈ gangWarps u ⟨1, 0⟩, y.state = .parked ∧ y.trap = none ∧ y.stopped = none ∧ y.res = false) ∧
     (let v : State := { u with gang := { u.gang with spilled := true } }
      (findGang v ⟨1, 0⟩).map (·.spilled) = some true ∧ (launchOf v 1).map (fun l => coreGrants v l 5 0 0) = some true ∧
        restoreCore v.gang 5 = true ∧ restoreCore { v.gang with keepDie := true } 5 = true ∧ restoreCore { v.gang with keepDie := true } 0 = false ∧
        roomForGang v ⟨1, 0⟩ 0 5 = true ∧ (launchOf v 1).map (·.region) = some 0 ∧
        ((launchOf v 1).map fun l => spillLost (flushFor v.gang 5 v) l v.gang) = some false ∧
        storesSeen (flushFor v.gang 5 v) v.gang 5 = true ∧
        -- a store of its old core that its old die has not sent home yet
        (let p : PkgWrite :=
           { id := 0, die := 0, seq := 0, stamp := [], key := 0x7000, bytes := [1], atom := none, x := 0, swap := 0, home := false, order := 0, applied := 0,
             warp := outside, op := none, lane := 0, gaps := [], bad := false }
         let w : State := { v with mem := { v.mem with writes := [p] } }
         storesSeen (flushFor w.gang 383 w) w.gang 383 = false) ∧ ∀ y ∈ gangWarps v ⟨1, 0⟩, y.res = false)) := by decide +kernel

/-- One released record staged while the one warp of the launch is retired; and one whose warp waits for a slot for good. -/
def staged : State :=
  { continuing with
    warp := { continuing.warp with state := .retired }
    launch := { continuing.launch with
      staged := [{ entry := 3, tag := 9, args := [1, 2], slot := 0, warp := w0, core := 0, ops := [], published := true, writes := [] }] } }

theorem witness_ContinuationWarps :
    (launchOf (publishStaged 1 staged) 1).map (fun l => decide (l.state = .started) && mayGather (publishStaged 1 staged) l [0] &&
      coreGrants (publishStaged 1 staged) l 0 l.spad l.tags && ((pickRecords l [0])[0]?).isSome) = some true ∧
    (let s := waiting .contextSlot .parked { continuing with cp := data.cp }
     (launchOf (publishStaged 1 s) 1).map (stagingStuck (publishStaged 1 s)) = some true) := by decide +kernel

/-! ### Witnesses: engine operations -/

/-- An engine operation of the issuing warp in flight. -/
def eop (kind : EngKind) (views : List Captured) : EngOp :=
  { id := 7, warp := w0, gang := ⟨1, 0⟩, core := 0, kind := kind, tc := 0, num := 1, flag := none, barrier := some 0, views := views, fpc := 0, word := 0,
    run := 1, dst := none, chunks := 1, applied := [], delivered := [], retried := [], stopped := false, paused := false, trapIdx := none, row := 0,
    rowStarted := false, work := RowWork.zero, tag := 0, size := 1, rank := 0, nth := 1, members := [], contrib := none, matched := none, waits := [],
    published := false, writes := [], settled := false, asked := none, refused := [], fetched := [], returning := false }

/-- A view as an operation captured it. -/
def cap (v : View) (writes : Bool) : Captured := { view := v, reg := 0, dno := 0, writes := writes }

/-- Two rows of four 32-bit elements: a destination and a source. -/
def pairViews : List Captured := [cap (view 2 1 3 0x11000 4 0 1 0) true, cap (view 2 1 3 0x11100 4 0 1 0) false]

/-- `data` with one engine operation. -/
def engined (e : EngOp) : State := { data with engines := [e] }

/-- Four values that a collective has, the last from uncorrectable data. -/
def values4 : List (W64 × Bool) := [(1, false), (2, false), (3, false), (4, true)]

/-- The operations whose chunk 0 may be applied. -/
def appliers : List EngOp :=
  [eop .copy pairViews, eop (.reduce 1 1) pairViews, eop (.laneCopy 4 0 false [(0, 0x11100, 0x11000)]) [],
   { eop .gather [cap (view 2 2 2 0x11000 4 2 1 4) true, cap (view 2 2 1 0x11100 4 8 1 4) false, cap (view 2 1 1 0x11200 2 0 1 0) false] with matched := some [(7, false), (0xFFFFFFFF, false)] },
   { eop (.collReduce 0 1) pairViews with matched := some values4 }, { eop .collGather pairViews with matched := some values4 },
   { eop (.collCast 3) pairViews with matched := some values4 }]

/-- The moves of an operation's chunk 0. -/
def movesOf (e : EngOp) : List Move :=
  match e.kind with
  | .copy | .reduce .. => copyMoves e 0
  | .gather => gatherMoves e 0
  | .laneCopy n _ _ ps => laneMoves n 0 ps
  | .collReduce .. | .collGather | .collCast _ | .matrix .. | .tokenAcquire .. | .tokenRelease .. | .tokenQuery .. => collMoves e 0

/-- A VRET in flight, issued before the engine operation. -/
def retiring : Op :=
  { id := 3, fpc := 0, word := 0, run := 1, flag := none, counter := 0, dsts := [],
    kind := .viewRetire 0 0 0 none }

theorem witness_Chunks :
    (∀ e ∈ appliers, findEng (engined e) 7 = some e ∧ mayApply (engined e) e 0 = true ∧ movesOf e ≠ [] ∧
      checkAccs (focusOn e.warp (engined e)) e (movesAccs (movesOf e)) = .ok ∧
      (∀ m ∈ movesOf e, movePoison (settleAccs e (movesReads (movesOf e)) (focusOn e.warp (engined e))) e m = false) ∧
      (e.fetched.find? fun x => x.1 == 0) = none ∧ putHeld (engined e) e = false ∧ srcHeld (engined e) e = false ∧ writesHeld (engined e) e = false) ∧
    -- an earlier VRET holds the writes: the chunk reads, and writes once it has read
    (let e := eop .copy pairViews
     let s := modCtx (engined e) fun c => { c with ops := [retiring] }
     let u := focusOn e.warp s
     mayApply s e 0 = true ∧ putHeld u e = true ∧ srcHeld u e = false ∧ movesReads (copyMoves e 0) ≠ [] ∧ checkAccs u e (movesReads (copyMoves e 0)) = .ok ∧
       (readAccs e (movesReads (copyMoves e 0)) (settleAccs e (movesReads (copyMoves e 0)) u)).2 = none) ∧
    (let e := { eop .copy pairViews with fetched := [(0, values4.map fun v => (v.1, false))] }
     let u := focusOn e.warp (engined e)
     let ms := fillMoves (copyMoves e 0) (values4.map fun v => (v.1, false))
     (e.fetched.find? fun x => x.1 == 0) = some (0, values4.map fun v => (v.1, false)) ∧ mayApply (engined e) e 0 = true ∧ putHeld u e = false ∧
       checkAccs u e (movesAccs ms) = .ok ∧ ∀ m ∈ ms, movePoison (settleAccs e (movesReads ms) u) e m = false) ∧
    laneHeld (eop (.laneCopy 4 0 false [(0, 0x11100, 0x11000)]) []) 0 4 [(0, 0x11100, 0x11000)] = false ∧
    (let e := { eop .copy pairViews with retried := [0] }
     findEng (engined e) 7 = some e ∧ mayApply (engined e) e 0 = true ∧ e.retried.contains 0 = true) := by decide +kernel

theorem witness_DeliveryAndEnergy :
    (let e := { eop .copy pairViews with applied := [0] }
     findEng (engined e) 7 = some e ∧ e.applied.contains 0 = true ∧ e.delivered.contains 0 = false ∧ partWriting (engined e) e 0 = false ∧
       engSaved (engined e) e = false) ∧
    ((5 : Int) ≤ (5 : Nat) ∧ (5 : Nat) ≠ 0xFFFFFFFF) := by decide +kernel

/-- The kinds of operations at their end. -/
def enders : List EngOp :=
  [{ eop .copy pairViews with delivered := [0] }, { eop (.reduce 0 2) pairViews with delivered := [0] }, { eop (.laneCopy 1 0 true [(3, 0, 0)]) [] with delivered := [3] },
   { eop .gather pairViews with delivered := [0], matched := some [] }, { eop (.collReduce 0 0) pairViews with delivered := [0], matched := some [] },
   { eop .collGather pairViews with delivered := [0], matched := some [] }, { eop (.collCast 0) pairViews with delivered := [0], matched := some [] }]

theorem witness_EngineEnds :
    (∀ e ∈ enders, findEng (engined e) 7 = some e ∧ (partsOf e).all e.delivered.contains = true ∧ engSaved (engined e) e = false) ∧
    (let e := { eop (.matrix 0 0 0 false false) [] with chunks := 0 }
     findEng (engined e) 7 = some e ∧ e.chunks ≤ rowsDone (engined e) e ∧ engWriting (engined e) e = false) ∧
    (let s := { engined (eop (.tokenAcquire 5 6 true) []) with fabric := { data.fabric with tokens := [{ peer := 5, region := 6, state := 2, sholds := 0, xholds := 1, pending := false, giving := false, service := 0 }] } }
     findEng s 7 = some (eop (.tokenAcquire 5 6 true) []) ∧ 2 ≤ (tokenAt s 5 6).state) ∧
    (findEng (engined (eop (.tokenRelease 5 6) [])) 7).isSome ∧ (findEng (engined (eop (.tokenQuery 5 6) [])) 7).isSome ∧
    (findGang (engined (eop .copy [])) ⟨1, 0⟩).isSome ∧ (eop .copy []).tc < 4 := by decide +kernel

theorem witness_TimelineOrder : [3, 1, 2].Nodup ∧ (∀ k ∈ [3, 1, 2], 1 ≤ k) ∧ ∀ k ≤ 3, 1 ≤ k → k ∈ [3, 1, 2] := by decide

theorem witness_CombiningTree : (let cs := [[(1, false), (2, true)], [(3, false), (4, false)], [(5, true), (6, false)]]; 0 < cs.length ∧ cs.length ≤ 65536 ∧ ∀ c ∈ cs, c.length = 2) := by decide

/-- A collective operation of a group of two, this device's die 0 alone of it here. -/
def collOp (kind : EngKind) (contrib : Option (List (W64 × Bool))) : EngOp :=
  { eop kind pairViews with size := 2, members := [(0, 0), (5, 0)], contrib := contrib }

/-- An operation that contributes, before and after; one that brings nothing; one whose mate is not there; digests that agree or not. -/
theorem witness_CollectiveMatches :
    (let e := collOp (.collReduce 0 1) none
     let v := settleAccs e (contribAccs e) (focusOn e.warp (engined e))
     findEng (engined e) 7 = some e ∧ mayMatch (engined e) e = true ∧ contributes e = true ∧ sideHeld (engined e) e (sideIndex e 0) = false ∧
       checkAccs (focusOn e.warp (engined e)) e (contribAccs e) = .ok ∧ (readAccs e (contribAccs e) v).2 = none) ∧
    (let e := collOp (.collCast 1) none
     findEng (engined e) 7 = some e ∧ mayMatch (engined e) e = true ∧ contributes e = false) ∧
    (let e := { collOp (.collReduce 0 1) (some values4) with members := [(0, 0), (0, 15)] }
     mayMatch (engined e) e = true ∧ matesOf (engined e) e = none) ∧
    (let e := collOp (.collReduce 0 1) (some values4)
     findEng (engined e) 7 = some e ∧ mayMatch (engined e) e = true ∧ matesOf (engined e) e = some [(0, e)] ∧
       contribsOk e (allContribs (engined e) e [(0, e)] [(1, [1, 2, 3, 4])]) = true ∧ contribsOk e (allContribs (engined e) e [(0, e)] []) = false) := by
  decide +kernel

/-- A contribution that an earlier access through a meeting view holds; and a warp in which COLL_FAULT is held. -/
theorem witness_CollectiveMatches_held :
    (let e := collOp (.collReduce 0 1) none
     let s := { engined e with engines := [{ eop .copy [cap (view 2 1 3 0x11100 4 0 1 0) true] with id := 5 }, e] }
     findEng s 7 = some e ∧ mayMatch s e = true ∧ contributes e = true ∧ sideHeld s e (sideIndex e 0) = true) ∧
    (let e := collOp (.collReduce 0 1) (some values4)
     (findWarp (engined e) e.warp).map (fun y => (decide (y.state ≠ .retired) && decide (y.ctx.exited ≠ allLanes) && !y.leaving, recordOf y)) = some (true, none) ∧
       engOfTrap (engined e) e = false ∧ (findGang (engined e) e.gang).map (·.spilled) = some false) := by decide +kernel

theorem witness_CollectiveMatches_digests :
    (let e := collOp (.collReduce 0 1) (some values4)
     digestsAgree (engined e) e [(0, e)] false = false ∧ digestsAgree (engined e) e [(0, e)] true = true) := by
  have h : (collOp (.collReduce 0 1) (some values4)).members.all (fun m => decide (m.1 = (engined (collOp (.collReduce 0 1) (some values4))).mgmt.self)) = false := by
    decide +kernel
  simp [digestsAgree, h]

/-- A vector operation of 32 activations, two output rows' worth of C. -/
def rowOp (started : Bool) (work : RowWork) : EngOp :=
  { eop (.matrix 0 0 0 false false) [cap (view 2 2 2 0x11000 1 1 1 4) true, cap (view 4 2 1 0x11200 32 1 1 32) false, cap (view 0 2 1 0x11800 32 1 1 32) false] with
    rowStarted := started, work := work }

/-- What the statement of a tile row's steps asks of an operation under way. -/
def rowMeets (e : EngOp) (p : MatrixOp → State → Bool) : Bool :=
  findEng (engined e) 7 == some e && e.rowStarted && !engSaved (engined e) e &&
    (match matrixOf e with
     | some o => p o (focusOn e.warp (engined e))
     | none => false)

theorem witness_TileRows_start :
    (let e := rowOp false RowWork.zero
     findEng (engined e) 7 = some e ∧ (matrixOf e).isSome ∧ rowReady (engined e) e = true ∧
       ∀ x ∈ (engined e).engines, x.core = e.core → x.rowStarted = false ∧ (rowReady (engined e) x && rowBefore (engined e) x e) = false) := by decide +kernel

/-- A row at its start: all its accesses pass, and every side of its one span can be read. -/
def rowStarts (e : EngOp) (o : MatrixOp) (u : State) : Bool :=
  !stopsHere u e && decide (e.work.span < o.spans) && checkAccs u e (rowAccs o 0) == .ok &&
    ((unreadSides e.work).filter fun i => !readHeld u e o i) == [0, 1, 3, 4]

/-- A side of the span is read without poison. -/
def sideReadable (e : EngOp) (side : Nat) (o : MatrixOp) (u : State) : Bool :=
  checkAccs u e (sideAccs o 0 0 side) == .ok && (readAccs e (sideAccs o 0 0 side) (settleAccs e (sideAccs o 0 0 side) u)).2.isNone

theorem witness_TileRows : rowMeets (rowOp true RowWork.zero) (rowStarts (rowOp true RowWork.zero)) = true := by decide +kernel

theorem witness_TileRows_sides : (∀ side < 5, rowMeets (rowOp true RowWork.zero) (sideReadable (rowOp true RowWork.zero) side) = true) := by decide +kernel

/-- A row that has read its one span. -/
theorem witness_TileRows_read :
    (rowMeets (rowOp true { RowWork.zero with out := some [], weights := some [], acts := some [], rowScales := some [], colScales := some [] }) fun o u =>
      let e := rowOp true { RowWork.zero with out := some [], weights := some [], acts := some [], rowScales := some [], colScales := some [] }
      !stopsHere u e && decide (e.work.span < o.spans) && (unreadSides e.work).isEmpty) = true := by decide +kernel

/-- A row whose spans are over. -/
theorem witness_TileRows_write :
    (rowMeets (rowOp true { RowWork.zero with span := 1, out := some [(0, false)] }) fun o u =>
      let e := rowOp true { RowWork.zero with span := 1, out := some [(0, false)] }
      !stopsHere u e && decide (o.spans ≤ e.work.span) && !sideHeld u e 0 && !writesHeld u e && checkAccs u e (outAccs o 0 .write) == .ok) = true := by decide +kernel

/-- Once the weights are read, the activations can be. -/
theorem witness_TileRows_activations :
    (rowMeets (rowOp true { RowWork.zero with weights := some [] }) fun o u =>
      let e := rowOp true { RowWork.zero with weights := some [] }
      !stopsHere u e && ((unreadSides e.work).filter fun i => !readHeld u e o i) == [0, 2, 3, 4] && sideReadable e 2 o u) = true := by decide +kernel

/-- A pre-emption is pending at the boundary of a span. -/
theorem witness_TileRows_stop :
    (let e := rowOp true { RowWork.zero with span := 1 }
     let s := { engined e with warp := { (engined e).warp with preempt := true } }
     findEng s 7 = some e ∧ e.rowStarted = true ∧ engSaved s e = false ∧ e.work.written = false ∧ stopsHere (focusOn e.warp s) e = true) := by decide +kernel

/-- A row whose C is written, and one that is withdrawn here. -/
theorem witness_TileRows_written :
    (rowMeets (rowOp true { RowWork.zero with span := 1, written := true }) fun _ u =>
      let e := rowOp true { RowWork.zero with span := 1, written := true }
      e.work.written && !partWriting u e 0) = true := by decide +kernel

/-- A span of two rows and two columns. -/
theorem witness_SpanChecksums : (∀ r ∈ [[1, -1], [0, 1]], r.length = 2) ∧ (∀ c ∈ [[127, -128], [5, 6]], c.length = 2) ∧ (-1 : Int) % 2 ^ 40 ≠ 0 ∧
    (∀ again ∈ [false, true],
      (let e := rowOp true { RowWork.zero with again := again, weights := some [[(1, false)]], acts := some [[(2, 0)]] }
       let i := spanIn e.work
       let errs := [ArrayError.element 0 0 1]
       e.work.again = again ∧
         checksAgree (accumulators errs (spanSums i.ws i.as)) (weightChecks errs i.ws i.as 1) (actChecks errs i.ws i.as 1) = false ∧
         checksAgree (accumulators [] (spanSums i.ws i.as)) (weightChecks [] i.ws i.as 1) (actChecks [] i.ws i.as 1) = true)) := by decide +kernel

theorem witness_ExactDotProduct :
    (let i : SpanIn := { ws := [[1, -1]], as := [[127, -128]], sws := [0x7F0], sas := [0x7F0], status := 0 }
     (0 : BitVec 2).toNat < 2 ∧ i.sws = List.replicate i.ws.length 0x7F0 ∧ i.sas = List.replicate i.as.length 0x7F0 ∧
       ∀ r ∈ spanSums i.ws i.as, ∀ x ∈ r, x.natAbs < 2 ^ 24) := by decide +kernel

/-! ### Witnesses: memory, ports, services, power -/

/-- `data` with regions: 1 top-level and well formed, its keys 0 and 1, and whose entry stands in the tables; 2 malformed; an object, an active port 0, ring 0
of region 1 disabled but valid, and landing window 0 of region 1 over two pages. -/
def regioned : State :=
  { data with
    mem := { data.mem with
      home := [(0x20018, 0x0001000000000000), (0x20020, 0x0000010000000040), (0x20028, 0x0000100000000064), (0x20030, 0x2000020000000000),
               (0x20040, 0x1000), (0x20060, 0x0001000001000000)].foldl (fun m e => ByteMap.writeMany m e.1 (bytesOf 8 e.2)) data.mem.home }
    cp := { data.cp with
      table := [(1, 0x20001), (2, 0x20101)], leases := [{ Lease.zero with role := 1 }, Lease.zero]
      objects := [{ handle := 5, root := 0x1000, base := 0x100000, codeWords := 2, entries := [0x20000], headers := [0x20000], emulate := [], removed := [],
                    hasCall := false, frames := [], pages := 1 }] }
    fabric := { data.fabric with
      rings := [(0, { ringAt data 0 with w0 := 0x0001080000000000, w1 := 3, w2 := 0x0000010000000000 })]
      windows := [((1, 0), { base := 0x11000, pages := 2, en := true, wr := true, rd := true, drops := 0 })] } }

theorem witness_HomeWrites :
    (∀ i < 2, ∀ r off, areaOf (0x7000 + i) ≠ .block r off) ∧ 0x7000 + 2 ≤ 2 ^ 66 ∧ (2 : Nat) ^ 66 ≤ 2 ^ 66 + 0x7000 ∧ ByteMap.wf data.mem.home = true ∧
    AList.sorted data.mem.cached = true := by
  refine ⟨fun i hi r off => ?_, by decide +kernel, by decide +kernel, by decide +kernel, by decide +kernel⟩
  have : areaOf (0x7000 + i) = .memory := by 
    have hlt : 0x7000 + i < 0x18000000000 := by omega
    simp [areaOf, memTop, hlt]
  rw [this]; exact fun h => by cases h

theorem witness_OwnStoresAreSeen : 0x7000 + 2 ≤ 2 ^ 68 ∧ (0x6FFF : Nat) < 0x7000 ∧ ByteMap.wf data.mem.home = true ∧
    (∀ e ∈ (storeCore data 0 0x7000 [1] []).mem.l1, e.2.sent = none) ∧ ByteMap.wf (storeCore data 0 0x7000 [1] []).mem.home = true ∧
    ∀ i < 2, byPacket (0x7000 + i) = false ∧ areaOf (0x7000 + i) = .memory := by decide +kernel

theorem witness_Atomics : data.mem.l1 = [] ∧ data.mem.die = [] ∧ data.mem.poison = [] ∧ 0x7000 + 4 ≤ 2 ^ 66 ∧ ByteMap.wf data.mem.home = true ∧
    byPacket 0x7000 = false ∧ (∀ i < 4, areaOf (0x7000 + i) = .memory) ∧ (0 < 32 ∧ 0xFFFFFFFF < 2 ^ 32) := by decide +kernel

/-- `data` with an operation in flight that has a result. -/
def landing (d : Dst) : Op :=
  { id := 9, fpc := 0, word := 0, run := 0x80000001, flag := some 1, counter := 1, dsts := [d], kind := .result (lanesOf fun _ => 7) (lanesOf fun _ => 1) }

theorem witness_ResultsLand : ∀ d ∈ [({ reg := .g 95, count := 1, lanes := 1, part := 1 } : Dst), { reg := .k 23, count := 1, lanes := 1, part := 0 }],
    (let o := landing d
     let s := modCtx data fun c => { c with ops := [o] }
     o ∈ (ctxOf s).ops ∧ ((warpOps s.warp).map (·.id)).Nodup ∧ s.mgmt.saved.contains (dieOfCore s.warp.core) = false ∧ s.warp.leaving = false ∧
       comparesLate s s.warp o = false ∧
       comparesLate { s with mgmt := { s.mgmt with upsets := [{ fails := 2, late := true }] } } { s.warp with check := true } o = true ∧ landMixed o.run (oneAccess o) (landVals o) o.dsts = false ∧ o.counter ≠ 3 ∧ d.lanes ≠ 0) := by
  decide +kernel

theorem witness_ScratchAccesses : ByteMap.wf data.gang.spad = true ∧ (63 : Nat) < 64 ∧ spoiltAt data.gang 60 4 = false ∧
    spoiltAt { data.gang with spoilt := [63] } 60 4 = true := by decide +kernel

/-- A package write of die 0 on its way, and the same after its home has applied it. -/
def written : State := pkgIssue data 0 0x7000 [1] none 0 0 outside none 0

theorem witness_PackageWrites :
    (findWrite written 0).map (homeDue written) = some true ∧ (findWrite written 0).map (fun w => dieDue written w 3) = some false ∧
    (let u := ((findWrite written 0).map fun w => applyHome w written).getD written
     (findWrite u 0).map (homeDue u) = some false ∧ (findWrite u 0).map (fun w => (List.range 16).any fun d => dieDue u w d) = some true) ∧
    (homeDie 0x7000).map (fun d => decide (d < 16 ∧ d < written.mem.clocks.length ∧ 0 < (clockOf written d).length)) = some true ∧
    (findWrite written 0).map (fun w => (w.die, w.key, w.seq, w.atom)) = some (0, 0x7000, 1, none) ∧ isCached 0x7000 = false := by decide +kernel

theorem witness_WriteBacks :
    (dirtyL1 (storeCore data 0 0x7000 [1] []) 0).filter (lineOf (0x7000 / 128)) ≠ [] ∧
    (let s := dieStore1 0 false [] data (0x7100, 1)
     (dirtyL1 s 0).filter (lineOf (0x7100 / 128)) = [] ∧ ((dirtyDie s 0).filter (lineOf (0x7100 / 128)) ≠ [] ∨ homeDie 0x7100 = some 0)) ∧
    (let s := dieStore1 0 false [] data (0x7000, 1)
     (dirtyL1 s 0).filter (lineOf (0x7000 / 128)) = [] ∧ ((dirtyDie s 0).filter (lineOf (0x7000 / 128)) ≠ [] ∨ homeDie 0x7000 = some 0)) ∧
    ((dirtyL1 data 0).filter (lineOf 5) = [] ∧ (dirtyDie data (dieOfCore 0)).filter (lineOf 5) = [] ∧ AList.sorted data.mem.l1 = true) := by decide +kernel

/-- A packet of this device on its way. -/
def sending : State :=
  { data with fabric := { data.fabric with sent := [{ peer := 5, die := 0, seq := 1, resends := 0, warp := w0, op := some 3, fn := .store, bytes := 4, accs := [], write := none }] } }

theorem witness_FabricPackets : (sending.fabric.replies.find? fun r => decide (r.peer = 5)) = none ∧
    (let s := { sending with fabric := { sending.fabric with replies := [{ peer := 5, die := 0, seq := 0, bytes := [] }] } }
     (s.fabric.replies.find? fun r => decide (r.peer = 5) && decide (r.die = 0) && decide (r.seq = 0)).isSome ∧ 0 ≠ lastSeen s 5 0 + 1) ∧
    (findSent sending 5 0 1).map (firstSent sending) = some true ∧ 1 = lastSeen sending 5 0 + 1 ∧ 3 ≠ lastSeen sending 5 0 + 1 ∧
    (0x04 ≤ 0x0C ∧ 0x0C ≤ 0x0C) := by decide +kernel

theorem witness_Tokens :
    (let s (t : Token) : State := { data with fabric := { data.fabric with tokens := [t] } }
     let t0 : Token := { peer := 5, region := 6, state := 0, sholds := 1, xholds := 0, pending := true, giving := false, service := 0 }
     (tokenAt (s t0) 5 6).pending = true ∧ (tokenAt (s t0) 5 6).state < max 0 1 ∧ regionWriting (s t0) 5 6 = false ∧
     regionWriting (pkgIssue (s t0) 0 (regionKey 5 6) [1] none 0 0 outside none 0) 5 6 = true) := by decide +kernel

/-- An acquisition that a refusal ends. -/
theorem witness_Tokens_refused :
    (let e := eop (.tokenAcquire 5 6 true) []
     let t : Token := { peer := 5, region := 6, state := 1, sholds := 0, xholds := 1, pending := true, giving := false, service := 0 }
     let s : State := { engined e with fabric := { data.fabric with tokens := [t] } }
     (tokenAt s 5 6).pending = true ∧ uncovered t e = true ∧
       (findWarp s e.warp).map (fun y => decide (y.state ≠ .retired) && decide (y.ctx.exited ≠ allLanes) && y.held.isNone) = some true ∧ engOfTrap s e = false) := by
  decide +kernel

/-- A recall of a token of which a page is cached: with no access to it, with one under way, with a copy on its way home. -/
theorem witness_Tokens_recall :
    (let t : Token := { peer := 0x123, region := 0, state := 2, sholds := 0, xholds := 0, pending := false, giving := false, service := 0 }
     let a : Alloc := { root := 0x1000, page := 0x13, pages := 1, leaf := 7, peer := 0x123, peerBase := 0, mode := 2, space := 0x1000, table := 0x12000, slot := 0, exclusive := [] }
     let s : State := { viewing with fabric := { viewing.fabric with tokens := [t] }, svc := { viewing.svc with allocs := [a] } }
     (if true then 1 else 0) < (tokenAt s 0x123 0).state ∧ holdLevel (tokenAt s 0x123 0) < (tokenAt s 0x123 0).state ∧
       cachedPages s 0x123 0 = [(0x1000, 0x13000)] ∧ pageBusy s 0x1000 0x13000 = false ∧ ByteMap.wf s.mem.home = true ∧
       regionWriting (evictRegion 0x123 0 s) 0x123 0 = false ∧
       (let o : Op :=
          { id := 0, fpc := 0, word := 0, run := 1, flag := none, counter := 2, dsts := [],
            kind := .memory .store 4 0 [{ lane := 0, place := .global (cachedKey (peerKey 0x123 0xA000)) 2, data := 1, swap := 0, va := 0x13000 }] noVals none }
        pageBusy (modCtx s fun c => { c with ops := [o] }) 0x1000 0x13000 = true) ∧
       regionWriting (evictRegion 0x123 0 (pkgIssue s 0 (regionKey 0x123 0) [1] none 0 0 outside none 0)) 0x123 0 = true) := by
  decide +kernel

/-- A message of n bytes on ring 0. -/
def msg (n : Nat) : EthMsg := { port := 0, resource := 0, reliable := true, duplicate := false, bytes := List.replicate n 1 }

theorem witness_MessagesLand :
    (ringAt ringing 0).en = true ∧ (ringAt data 0).en = false ∧ ((msg 4).reliable && (msg 4).duplicate) = false ∧
    (let r := ringAt ringing 0
     (messageLength r (msg 4).bytes ≤ 2 ^ 20 ∧ messageSlots r (msg 4).bytes ≤ r.slots ∧ (messageSlots r (msg 4).bytes : Int) ≤ freeSlots r ∧ 256 ≤ r.slotSize ∧
       r.base + r.slots * r.slotSize ≤ 2 ^ 25 ∧ ByteMap.wf ringing.mem.home = true ∧ 3 < (takeMessage ringing r (msg 4).bytes).payload.length) ∧
     (let m := msg 600; messageSlots r m.bytes ≤ r.slots ∧ freeSlots r < messageSlots r m.bytes) ∧
     r.slots < messageSlots r (msg 1000).bytes) := by decide +kernel

theorem witness_RingsEnabled : (ringAt regioned 0).en = false ∧ ringValid regioned (ringAt regioned 0) = true ∧ (ringAt ringing 0).en = true := by decide +kernel

theorem witness_HostAccesses :
    (portRefuses regioned 0 1 7 = none ∧ portRefuses regioned 2 1 7 = some .unsupported ∧
      (let s := { regioned with fabric := { regioned.fabric with tdisp := [some { region := 1, stream := 7 }, none] } }
       s.fabric.tdisp.getD 0 none = some { region := 1, stream := 7 } ∧ portRefuses s 0 1 6 = some .rejected) ∧
      0 + [(1 : Byte), 2].length ≤ 2 ^ 40 ∧ (regioned.cp.leases.getD 0 Lease.zero).expired = false ∧
      hostPlan regioned 1 0 2 true = .go [(0, 2, 0x7000)] ∧ hostPlan regioned 1 0x2000 2 true = .refused ∧
      hostPlan regioned 1 0 2 false = .go [(0, 2, 0x7000)] ∧ hostPlan regioned 1 0x2000 2 false = .refused ∧
      regioned.mem.poison = [] ∧ topRegion regioned 1 = true) ∧
    postedAhead regioned 0 = false ∧ postedAhead (pkgIssue regioned 0 0x7000 [1] none 0 0 (hostAgent 0) none 0) 0 = true := by
  refine ⟨by decide +kernel, rfl, ?_⟩
  have h : byPacket 0x7000 = false := by decide +kernel
  simp [postedAhead, pkgIssue, putWrite, listWrite, h, bitAt]

/-- Whatever die the port is at, the pieces of the window read without poison. -/
theorem witness_HostAccesses_piece : byPacket 0x7000 = false ∧ meetsPoison (readPiece regioned (hostDie 0) (0, 2, 0x7000)) = false := by
  have h : ∀ k, dieByte regioned (hostDie 0) k = (homeByte regioned k, false) := fun k => by
    have p : regioned.mem.poison = [] := rfl
    have d : regioned.mem.die = [] := rfl
    simp [dieByte, linePoisoned, p, d, AList.find]
  exact ⟨by decide +kernel, by simp [meetsPoison, readPiece, h]⟩

/-! Services -/

/-- A service core's state with free frames, an allocation of a page at 0x14000 and one at a peer at 0x15000. -/
def served : State :=
  { waiting (.page 0x14000 true) .parked data with
    svc := { data.svc with
      running := List.replicate 32 true, free := [(0x100, 16)]
      allocs := [{ root := 0x1000, page := 0x14, pages := 1, leaf := 7, peer := 0, peerBase := 0, mode := 0, space := 0x1000, table := 0x12000, slot := 0, exclusive := [] },
                 { root := 0x1000, page := 0x15, pages := 1, leaf := 7, peer := 5, peerBase := 0x8000, mode := 3, space := 0x1000, table := 0x12000, slot := 0, exclusive := [] }] } }

theorem enterTable_of {s : State} {a : Nat} {e : W64} (h : homeWord s a = e) (hv : (bitAt e 0 && slice e 1 3 == 0) = true) :
    enterTable s a = some ((slice e 12 32).toNat * 4096, s) := by
  unfold enterTable; simp only [h, hv, if_true]

/-- With the tables of the first 2 MiB there, a leaf can be put at a page of them. -/
theorem mapped_of (st : State) (va pte : W64) (hv : va.toNat < 2 ^ 21) (h1 : homeWord st 0x1000 = 0x2001) (h2 : homeWord st 0x2000 = 0x3001)
    (h3 : homeWord st 0x3000 = 0x4001) (h4 : homeWord st 0x4000 = 0x5001) : (mapPage st 0x1000 va pte).isSome = true := by
  have e1 := enterTable_of h1 (by decide)
  have e2 := enterTable_of h2 (by decide)
  have e3 := enterTable_of h3 (by decide)
  have e4 := enterTable_of h4 (by decide)
  have n (lv : Nat) (h : 1 ≤ lv) : (va.toNat % 2 ^ 57) >>> (12 + 9 * lv) % 512 = 0 := by
    have : (va.toNat % 2 ^ 57) >>> (12 + 9 * lv) = 0 := by
      rw [Nat.shiftRight_eq_div_pow]
      refine Nat.div_eq_of_lt (Nat.lt_of_le_of_lt (Nat.mod_le _ _) (Nat.lt_of_lt_of_le hv (Nat.pow_le_pow_right (by omega) (by omega))))
    rw [this]
  have m1 : (slice (0x2001 : W64) 12 32).toNat * 4096 = 0x2000 := by decide
  have m2 : (slice (0x3001 : W64) 12 32).toNat * 4096 = 0x3000 := by decide
  have m3 : (slice (0x4001 : W64) 12 32).toNat * 4096 = 0x4000 := by decide
  simp only [mapPage, mapFrom, n 4 (by omega), n 3 (by omega), n 2 (by omega), n 1 (by omega), Nat.mul_zero, Nat.add_zero, e1, m1, e2, m2, e3, m3, e4,
    Nat.reduceEqDiff, if_false, if_true, Option.isSome_some]

/-- With the tables there, a fresh frame can be mapped. -/
theorem mapped_fresh (st : State) (bs : List Byte) (va pte : W64) (hv : va.toNat < 2 ^ 21) (hb : bs.length ≤ 4096) (wf : ByteMap.wf st.mem.home = true)
    (h1 : homeWord st 0x1000 = 0x2001) (h2 : homeWord st 0x2000 = 0x3001) (h3 : homeWord st 0x3000 = 0x4001) (h4 : homeWord st 0x4000 = 0x5001) :
    (mapPage (homeWrite st 0x100000 bs) 0x1000 va pte).isSome = true := by
  have k (a : Nat) (ha : a + 8 ≤ 0x100000) : homeWord (homeWrite st 0x100000 bs) a = homeWord st a :=
    Laws.homeWord_homeWrite_other _ _ a (by omega) (by omega) (.inl ha) wf
  exact mapped_of _ _ _ hv ((k 0x1000 (by omega)).trans h1) ((k 0x2000 (by omega)).trans h2) ((k 0x3000 (by omega)).trans h3)
    ((k 0x4000 (by omega)).trans h4)

theorem witness_PageService :
    (findWarp served w0).isSome ∧ focusOn w0 served = served ∧ dieHalted served served.warp = false ∧ (ctxOf served).wait = .page 0x14000 true ∧ pageServed served (rootOf_ served) 0x14000 = true ∧
    (let s := { served with warp := { served.warp with ctx := { served.warp.ctx with wait := .page 0x15000 true } } }
     pageServed s (rootOf_ s) 0x15000 = true ∧ pageServed { s with svc := { s.svc with running := [] } } (rootOf_ s) 0x15000 = false ∧
       pageReady (servePage 0x15000 true 0 s) 0x15000 true = true ∧
       pageReady (servePage 0x14000 true 0 { s with svc := { s.svc with free := [] } }) 0x14000 true = false) := by decide +kernel

/-- `served` with its page noted as asked for. -/
def asked : State := notePage 0x1000 0x14000 true served

/-- The allocation of that page. -/
def askedAlloc : Alloc :=
  { root := 0x1000, page := 0x14, pages := 1, leaf := 7, peer := 0, peerBase := 0, mode := 0, space := 0x1000, table := 0x12000, slot := 0, exclusive := [] }

/-- A fresh frame is taken and mapped for the page asked for. -/
theorem witness_PageService_fresh :
    notePage (rootOf_ served) 0x14000 true served = asked ∧ allocOf asked 0x1000 0x14000 = some askedAlloc ∧ walk asked 0x1000 0x14000 = .absent ∧
    (let st := { asked with svc := { asked.svc with free := [(0x101, 15)] } }
     takeRun asked 0 1 = some (0x100, st) ∧
       (mapPage (clearFrame st 0x100) 0x1000 (pageBase 0x14000) (askedAlloc.leaf ||| BitVec.ofNat 64 (0x100 * 4096))).isSome = true) := by
  refine ⟨by decide +kernel, by decide +kernel, by decide +kernel, by decide +kernel, ?_⟩
  exact mapped_fresh _ _ _ _ (by decide) (Nat.le_of_eq List.length_replicate) (by decide +kernel) (by decide +kernel) (by decide +kernel) (by decide +kernel) (by decide +kernel)

/-- A context page that a fresh frame is mapped for. -/
theorem witness_ContextPages_fresh :
    (freshPage 0x1000 0x14000 (waiting (.contextPage 0x14000) .parked mappable)).isSome = true := by
  have : takeFrame (waiting (.contextPage 0x14000) .parked mappable) =
      some (0x100, { waiting (.contextPage 0x14000) .parked mappable with svc := { mappable.svc with free := [(0x101, 15)] } }) := by decide +kernel
  have up : pageServed (waiting (.contextPage 0x14000) .parked mappable) 0x1000 0x14000 = true := by decide +kernel
  simp only [freshPage, up, this, Bool.not_true, Bool.false_eq_true, if_false]
  exact mapped_fresh _ _ _ _ (by decide) (Nat.le_of_eq List.length_replicate) (by decide +kernel) (by decide +kernel) (by decide +kernel) (by decide +kernel) (by decide +kernel)

/-- A binding asked for at slot 0 of the table at 0x12000: its home this device, or a peer. -/
def bindAsk (home : Nat) : BindWait := { space := 0x1000, table := 0x12000, slot := 0, home := home, index := 1 }

theorem witness_BindingService :
    (let s := { served with svc := { served.svc with binds := [bindAsk 0] } }
     (s.svc.binds.find? fun b => decide (b.space = 0x1000) && b.table == 0x12000 && decide (b.slot = 0)) = some (bindAsk 0) ∧
     (entryKey s 0x1000 0x12000 0).map (serviceUp s) = some true) ∧
    (let s := { served with svc := { served.svc with binds := [bindAsk 5] } }
     boundMode s (bindAsk 5) 2 = some 2 ∧ (2 : Nat) ^ 36 ≤ 2 ^ 36 ∧ (mapObject (bindAsk 5) (2 ^ 36) 2 0 s).isSome) := by decide +kernel

theorem witness_EvictionAndMigration :
    spaceExists data 0x1000 0x12000 = true ∧
    ((entryAt data 0x1000 0x12000 5).bound = true ∧ (entryAt data 0x1000 0x12000 5).pin = false ∧ slotBusy data 0x1000 0x12000 5 = false) ∧
    (let o : Op :=
       { id := 0, fpc := 0, word := 0, run := 1, flag := none, counter := 2, dsts := [],
         kind := .memory .store 4 0 [{ lane := 0, place := .global 0x7000 0, data := 1, swap := 0, va := 0x00F0005000000040 }] noVals none }
     slotBusy (modCtx data fun c => { c with ops := [o] }) 0x1000 0x12000 5 = true) ∧
    (entryAt (pinSlot data 5) 0x1000 0x12000 5).pin = true ∧
    (let s := { served with
       svc := { served.svc with moves := [(0x1000, 0x16)] }
       mem := { served.mem with home := ByteMap.writeMany served.mem.home 0x50B0 (bytesOf 8 0x500000008187) } }
     (s.svc.moves.find? fun m => decide (m.1 = 0x1000) && decide (m.2 = pageOf 0x16000)) = some (0x1000, 0x16) ∧
       walk s 0x1000 0x16000 = .leaf 0x500000008187 ∧ leafAddr s 5 0x1000 ((0x16000 : W64).toNat % 2 ^ 57) = some 0x50B0 ∧ leafMode 0x500000008187 = 3 ∧
       pageServed s 0x1000 0x16000 = true ∧ s.svc.moving = []) ∧
    (let m : Moving := { root := 0x1000, page := 0x16, pte := 0x500000008187, leafAt := 0x50B0 }
     let s := { served with svc := { served.svc with moving := [m] }, mem := { served.mem with home := ByteMap.writeMany served.mem.home 0x50B0 (bytesOf 8 0x500000008187) } }
     let u := flushAllDies (moveKey s m) 4096 (flushAllL1 (moveKey s m) 4096 s)
     pageServed s 0x1000 0x16000 = true ∧ pageBits m.pte = 12 ∧
       (s.svc.moving.find? fun m => decide (m.root = 0x1000) && decide (pageOf 0x16000 / 2 ^ (pageBits m.pte - 12) = m.page / 2 ^ (pageBits m.pte - 12))) = some m ∧
       leafBusy s m.root m.page m.pte = false ∧ leafBusy u m.root m.page m.pte = false ∧ reachableKey s (moveKey s m) = true ∧ (takeRun u 0 1).isSome = true ∧
       reachableKey { s with fabric := { s.fabric with lost := [5] } } (moveKey s m) = false ∧
       leafBusy (pkgIssue s 0 (moveKey s m) [1] none 0 0 w0 none 0) m.root m.page m.pte = true) ∧
    (served.mgmt.powered = true ∧ 31 < served.svc.running.length) := by decide +kernel

theorem witness_PowerAndHeat : State.reset.mgmt.powered = false ∧ (0xBFFFF < 0xC0000 ∧ 0xC0000 ≤ 0xC0000 ∧ 0xC0000 ≤ 0xFFFFE) ∧ here.mgmt.powered = true ∧
    15 < Config.dies := by decide +kernel

theorem witness_MemoryErrors : (memTop / 64 - 1) * 64 < memTop ∧ memTop < 2 ^ 44 ∧ (0 < 8 ∧ 8 ≤ 8) ∧ (8 < 9 ∧ 16 ≤ 16) ∧ here.mgmt.strata = [] ∧ here.mgmt.pendingStrata = [] := by decide

/-! ### Witnesses: the command processor -/

/-- A record of region 1: one warp, object 5, entry 0x20000, nothing else. -/
def goodRec : List W64 := [0x0001010000000000, 5, 0x20000] ++ List.replicate 29 0

/-- The bytes of a record. -/
def recBytes (r : List W64) : List Byte := r.flatMap fun w => bytesOf 8 w.toNat

theorem witness_Submissions :
    (portRefuses regioned 0 1 7 = none ∧ recordWords (recBytes goodRec) = goodRec ∧ (recBytes goodRec).length = 256 ∧ roleOf regioned 0 = 1 ∧
      regionBelow regioned (recRegion goodRec) 1 = true ∧ submissionFull regioned (recRegion goodRec) = false ∧
      acceptReason regioned goodRec regioned.cp.reamHead = none ∧ 0 < regioned.cp.reamHead) ∧
    acceptReason regioned (goodRec.set 1 6) regioned.cp.reamHead = some 4 ∧ (8 : Nat) ≠ 0 := by decide +kernel

/-- A queued launch with one condition. -/
def queuedWith (w : WaitCond) (region : Nat) : Launch := { launchFrom goodRec 3 0 with waits := [w], region := region }

/-- `regioned` with that launch, and a page of a peer at 0x13000. -/
def queued (w : WaitCond) (region : Nat) : State :=
  { regioned with
    launches := [queuedWith w region], cp := { regioned.cp with reamHead := 4, ream := [(2, [2, 0x800000000000 + 0x1000000000000, 0, 0, 0, 0, 0, 0])] }
    mem := { regioned.mem with home := ByteMap.writeMany regioned.mem.home 0x5098 (bytesOf 8 0x1230000000A107) } }

/-- The wait of a queued launch for the word at an address to reach 9. -/
def wordWait (a : W64) : WaitCond := { kind := 1, word := a, value := 9, holds := false }

theorem witness_WaitConditions :
    ∀ a ∈ [(0x11000 : W64), 0x13000, 0x999000],
      activeLaunch (queued (wordWait a) 1) 3 = some (queuedWith (wordWait a) 1) ∧ (queuedWith (wordWait a) 1).state = .accepted := by
  intro a _
  exact ⟨rfl, rfl⟩

theorem witness_WaitConditions_word :
    (queuedRoot (queued (wordWait 0x11000) 1) (queuedWith (wordWait 0x11000) 1) == some 0x1000 && !remoteWord (queued (wordWait 0x11000) 1) 3 0 &&
      (match cpRead (queued (wordWait 0x11000) 1) 0x1000 0x11000 with | .ok k => k == 0x7000 | .again _ | .bad | .hole _ => false)) = true := by
  decide +kernel

theorem witness_WaitConditions_remote :
    (queuedRoot (queued (wordWait 0x13000) 1) (queuedWith (wordWait 0x13000) 1) == some 0x1000 && remoteWord (queued (wordWait 0x13000) 1) 3 0 &&
      (match cpRead (queued (wordWait 0x13000) 1) 0x1000 0x13000 with | .ok _ => true | .again _ | .bad | .hole _ => false)) = true := by
  decide +kernel

theorem witness_WaitConditions_unmapped :
    (queuedRoot (queued (wordWait 0x999000) 1) (queuedWith (wordWait 0x999000) 1) == some 0x1000 && !remoteWord (queued (wordWait 0x999000) 1) 3 0 &&
      (match cpRead (queued (wordWait 0x999000) 1) 0x1000 0x999000 with | .bad => true | .ok _ | .again _ | .hole _ => false)) = true := by
  decide +kernel

theorem witness_LaunchesStart :
    (let w : WaitCond := { kind := 2, word := 0, value := 2, holds := false }
     activeLaunch (queued w 1) 3 = some (queuedWith w 1) ∧ (queuedWith w 1).state = .accepted ∧ (queuedWith w 1).waits.any (dependenceKilled (queued w 1)) = true) ∧
    (let w : WaitCond := { kind := 2, word := 0, value := 1, holds := false }
     (queuedWith w 1).waits.any (dependenceKilled (queued w 1)) = false ∧ startable (queued w 1) (queuedWith w 1) = false) ∧
    (let w : WaitCond := { kind := 0, word := 0, value := 0, holds := false }
     (∀ r ∈ [1, 2], (∀ x ∈ (queuedWith w r).waits, x.kind ≠ 1) ∧ (queuedWith w r).waits.any (dependenceKilled (queued w r)) = false ∧
       startable (queued w r) (queuedWith w r) = true ∧
       ∀ x ∈ allLaunches (queued w r), startable (queued w r) x = true → startsBefore (queued w r) x (queuedWith w r) = false) ∧
     regionValues (queued w 2) 2 = none ∧
     (match regionValues (queued w 1) 1 with
      | some ((_, e) :: _) =>
        (startReason (queued w 1) (queuedWith w 1) e).isNone && (findObject (queued w 1) 5 e.eff.ptRoot).isSome &&
          (match tablesOf (queued w 1) e.eff.ptRoot 0 with | .words _ => true | .again _ | .bad | .hole _ => false)
      | some [] | none => false) = true) := by decide +kernel

/-- A launch whose warp has a cause at the command processor. -/
def caused (dom replays : Nat) (rpl : Bool) : State :=
  let c : CpStop := { cause := .peerLost, info := 0, addr := 0, onMemoryWord := true }
  { here with
    launch := { here.launch with eff := { here.launch.eff with faultDom := dom }, replays := replays, rpl := rpl }
    warp := { here.warp with stopped := some c }
    cp := { here.cp with queue := [(w0, c)] } }

theorem witness_CausesSettled :
    (∀ x ∈ [(0, 1, true), (0, 0, false), (0, 2, true), (1, 0, false), (2, 0, false), (3, 0, false)],
      (let s := caused x.1 x.2.1 x.2.2
       (match s.cp.queue with
       | [] => false
       | (w, c) :: rest =>
         let s1 := recordStop w.seq c { s with cp := { s.cp with queue := rest } }
         (activeLaunch s1 w.seq).map (fun l => (l.eff.faultDom, l.replays, l.rpl, isFinal l)) == some (x.1, x.2.1, x.2.2, false) &&
         (findWarp s1 w).map (fun y => y.stopped.isSome) == some true && reportOnly c && !reportOnly { c with onMemoryWord := false }) = true)) ∧
    here.cp.queue = [] ∧ failedSnapshots here = none ∧ failedSnapshots (caused 0 1 true) = none ∧
    (failedSnapshots { here with launch := { here.launch with snapFailed := true } }).isSome = true := by decide +kernel

theorem witness_KilledLaunches : (activeLaunch here 1).map isFinal = some false ∧ (0x13 : Nat) < 256 := by decide +kernel

theorem witness_Resets :
    (let s := { regioned with cp := { regioned.cp with rgn := 1 } }
     regionValid s s.cp.rgn.toNat = true ∧ s.cp.action = 0 ∧
     (let u := { s with cp := { s.cp with action := 2 }, mem := { s.mem with home := ByteMap.writeMany s.mem.home 0x20030 (bytesOf 8 0x2000023000000000) } }
      regionValid u 1 = true ∧ u.cp.action = 2 ∧ regionState u 1 = 3) ∧
     { s with cp := { s.cp with action := 1 } }.cp.action = 1) ∧
    portRefuses regioned 0 1 7 = none ∧ portRefuses regioned 0 9 7 = some .unsupported ∧ ((allLaunches regioned).map (·.seq)).Nodup ∧
    ByteMap.wf regioned.mem.home = true ∧ regionPa regioned 1 + 256 ≤ memTop ∧
    (∀ kill ∈ [false, true], homePoison (resetScope 1 false 0x11 kill none regioned) (regionPa regioned 1) 256 = false) := by decide +kernel

theorem witness_RegionTable :
    (9 < 0xFFFF ∧ regionValid regioned 9 = false ∧ AList.sorted regioned.cp.table = true) ∧ (regionValid regioned 1 = true ∧ regionBusy regioned 1 = false ∧ regionState regioned 1 = 0) ∧
    (let s := queued { kind := 0, word := 0, value := 0, holds := false } 1; regionValid s 1 = true ∧ regionBusy s 1 = true) := by decide +kernel

theorem witness_LeasesAndRegisters :
    (regioned.cp.leases.length = 2 ∧ roleOf regioned 0 = 1 ∧ roleOf regioned 1 ≠ 2 ∧ roleOf regioned (1 - 0) ≠ 1) ∧
    (let s := { regioned with cp := { regioned.cp with leases := [{ Lease.zero with role := 1 }, { Lease.zero with role := 2 }] } }
     s.cp.leases.length = 2 ∧ roleOf s 0 = 1 ∧ roleOf s (1 - 0) = 2) ∧
    (ringAt regioned 1023).en = false ∧ (ringAt ringing 0).en = true ∧ 15 < 16 ∧ portRefuses regioned 0 1 7 = none ∧
    portRefuses regioned 0 9 7 = some .unsupported ∧ 1 < regioned.cp.leases.length ∧
    (1000 ≤ (1000 : BitVec 32).toNat ∧ (60000000 : BitVec 32).toNat ≤ 60000000 ∧ (999 : BitVec 32).toNat < 1000 ∧ 60000000 < (60000001 : BitVec 32).toNat) ∧
    ((16777216 : BitVec 32).toNat ≤ 16777216 ∧ 16777216 < (16777217 : BitVec 32).toNat) ∧ bitAt (0 : W64) 47 = false ∧
    bitAt (0x800000000000 : W64) 47 = true := by decide +kernel

/-! Objects -/

/-- An LMS signature of the right shape. -/
def lmsSig : LmsSig := { leaf := 5, nonce := List.replicate 32 1, chains := List.replicate 34 (List.replicate 32 2), path := List.replicate 20 (List.replicate 32 3) }

/-- A signed image of no bytes: an ECDSA signature under the private key 1, with the nonce 1. -/
def signedEmpty : Signed :=
  { bytes := [], blockAt := 0, blockLen := 0, digest := sha384 [], sigR := base384.1
    sigS := 34972266880942329779582131546016263559897434665637185208773450906062967052450658679737887557114484221015360856310802, lms := lmsSig }

/-- The owner's keys for it: the point of the private key 1, and the root that the LMS signature gives. -/
def owner : OwnerKeys := { ecdsa := base384, lmsId := List.replicate 16 4, lmsRoot := lmsRoot (List.replicate 16 4) lmsSig (sha384 []) }

/-- An image of one segment: a header of one word and the word. -/
def img (w : W64) (stepping : Nat) : Image :=
  { signed := signedEmpty, segs := [{ words := [0xE08007F800000000, w], entry := true }], ro := [], rw := [], relocs := [], stepping := stepping, emulate := []
    moved := none }

/-- `regioned` with the registers of a load into region 1, and free frames. -/
def loadingAt (va : W64) : State :=
  { regioned with
    cp := { regioned.cp with loadrgn := 1, loadva := va }, svc := { regioned.svc with running := List.replicate 32 true, free := [(0x100, 16)] } }

/-- FIPS 180-4's examples: the hash of "abc" by both functions. -/
theorem test_sha : sha384 [0x61, 0x62, 0x63] = beBytes 48 0xCB00753F45A35E8BB5A03D699AC65007272C32AB0EDED1631A8B605A43FF5BED8086072BA1E7CC2358BAECA134C825A7 ∧
    sha256 [0x61, 0x62, 0x63] = beBytes 32 0xBA7816BF8F01CFEA414140DE5DAE2223B00361A396177A9CB410FF61F20015AD := by decide +kernel

/-- The keys verify the signatures of the empty image. -/
theorem verifies : signedFailure (some owner) signedEmpty = none := by
  have d : signedBytes signedEmpty = [] := rfl
  have e : ecdsaOk base384 (sha384 []) base384.1
      34972266880942329779582131546016263559897434665637185208773450906062967052450658679737887557114484221015360856310802 = true := by decide +kernel
  have h : lmsShape lmsSig = true := by decide +kernel
  unfold signedFailure
  rw [d]
  simp [signedEmpty, owner, lmsOk, h, e]

/-- An image that passes; one without a segment, one with another digest, one that the fuses hold no keys for. -/
theorem witness_ObjectsLoaded_signature :
    signatureFailure (some owner) (img 0xA050000000000000 2) = none ∧ signatureFailure (some owner) { img 0 2 with segs := [] } = some 1 ∧
    signedFailure (some owner) { signedEmpty with digest := [] } = some 1 ∧ signatureFailure none (img 0xA050000000000000 2) = some 2 := by
  have e : (img 0xA050000000000000 2).segs.all segShape = true := by decide +kernel
  have f : (img 0xA050000000000000 2).segs.isEmpty = false := rfl
  refine ⟨?_, by simp [signatureFailure], by decide +kernel, by decide +kernel⟩
  simp only [signatureFailure, e, f, Bool.not_true, Bool.or_self, Bool.false_eq_true, if_false]
  exact verifies

/-- The firmware of a power-on that verifies, and one that does not. -/
theorem witness_PowerStates_firmware :
    fused State.reset (some owner) = some owner ∧ firmwareOk (some owner) { pair := signedEmpty, proc := signedEmpty, service := signedEmpty } = true ∧
    firmwareOk none { pair := signedEmpty, proc := signedEmpty, service := signedEmpty } = false := by
  refine ⟨rfl, by simp [firmwareOk, verifies], by decide +kernel⟩

theorem witness_ObjectsLoaded :
    (img 0 2).signed.bytes = homeBytes (loadingAt 0x20000) (loadingAt 0x20000).cp.loadpa.toNat (loadingAt 0x20000).cp.loadlen.toNat ∧
    { signedEmpty with bytes := [1] }.bytes ≠ homeBytes (loadingAt 0x20000) (loadingAt 0x20000).cp.loadpa.toNat (loadingAt 0x20000).cp.loadlen.toNat ∧
    homePoison (loadingAt 0x20000) (loadingAt 0x20000).cp.loadpa.toNat (loadingAt 0x20000).cp.loadlen.toNat = false ∧
    homePoison { loadingAt 0x20000 with mem := { (loadingAt 0x20000).mem with poison := [(1, 0)] } } 64 1 = true ∧
    placedImage (img 0xA050000000000000 2) = some (img 0xA050000000000000 2) ∧
    regionValid (loadingAt 0x20000) 1 = true ∧ regionValid { regioned with cp := { regioned.cp with loadrgn := 9 } } 9 = false ∧
    (match effectiveNow (loadingAt 0x20000) 1 with
     | some e =>
       decide (e.eff.ptRoot = 0x1000) && loaderRejects (loadingAt 0x20000) e.eff (img 0x019C000000000000 1) &&
         !loaderRejects (loadingAt 0x20000) e.eff (img 0xA050000000000000 2)
     | none => false) = true ∧
    rangeFree (loadingAt 0x10000) 0x1000 0x10000 (spanOf (sectionsOf (img 0xA050000000000000 2))) = false ∧
    rangeFree (loadingAt 0x20000) 0x1000 0x20000 (spanOf (sectionsOf (img 0xA050000000000000 2))) = true := by decide +kernel

/-- spec/03 R57, R59: a data word gets the address of a segment's header, a launch record's words its word address and the handle. -/
theorem test_relocated :
    let m := relocated 0x20000 0x7 { img 0 2 with ro := List.replicate 4 0xAA, rw := List.replicate 17 0, relocs :=
      [{ writable := false, offset := 1, width := 2, value := .place 0x108 }, { writable := true, offset := 0, width := 8, value := .wordPlace 0x40 },
       { writable := true, offset := 8, width := 8, value := .handle }] }
    m.ro = [0xAA, 0x08, 0x01, 0xAA] ∧ m.rw = [0x08, 0x40, 0, 0, 0, 0, 0, 0, 7, 0, 0, 0, 0, 0, 0, 0, 0] := by decide +kernel

/-- `loadingAt` after a frame is taken. -/
def framed : State := { loadingAt 0x20000 with svc := { (loadingAt 0x20000).svc with free := [(0x101, 15)] } }

/-- Sealing a frame changes no word. -/
theorem homeWord_sealFrame (f : Nat) (b : Bool) (s : State) (a : Nat) : homeWord (sealFrame f b s) a = homeWord s a := by
  unfold sealFrame; split <;> rfl

/-- With the tables of `framed`, a page written twice can be mapped. -/
theorem placed_page (b : Bool) (bs cs : List Byte) (va pte : W64) (hb : bs.length ≤ 4096) (hc : cs.length ≤ 4096) (hv : va.toNat < 2 ^ 21) :
    (mapPage (sealFrame 0x100 b (homeWrite (homeWrite framed 0x100000 bs) 0x100000 cs)) 0x1000 va pte).isSome = true := by
  have wf0 : ByteMap.wf framed.mem.home = true := by decide +kernel
  have k (a : Nat) (ha : a + 8 ≤ 0x100000) :
      homeWord (sealFrame 0x100 b (homeWrite (homeWrite framed 0x100000 bs) 0x100000 cs)) a = homeWord framed a := by
    rw [homeWord_sealFrame, Laws.homeWord_homeWrite_other _ _ a (by omega) (by omega) (.inl ha) (Laws.homeWf_homeWrite _ _ wf0),
      Laws.homeWord_homeWrite_other _ _ a (by omega) (by omega) (.inl ha) wf0]
  exact mapped_of _ _ _ hv ((k 0x1000 (by omega)).trans (by decide +kernel)) ((k 0x2000 (by omega)).trans (by decide +kernel))
    ((k 0x3000 (by omega)).trans (by decide +kernel)) ((k 0x4000 (by omega)).trans (by decide +kernel))

/-- A section of one page can be placed there. -/
theorem placed_section (x : Section) (hv : (0x20000 + BitVec.ofNat 64 (x.offset + 4096 * 0) : W64).toNat < 2 ^ 21) :
    (loadPages 0x1000 0x20000 x [0] (loadingAt 0x20000)).isSome = true := by
  have htake : takeFrame (loadingAt 0x20000) = some (0x100, framed) := by decide +kernel
  have h := placed_page (x.leaf.testBit 4) (List.replicate 4096 0) ((x.bytes.drop (4096 * 0)).take 4096) (0x20000 + BitVec.ofNat 64 (x.offset + 4096 * 0))
    (BitVec.ofNat 64 (0x100000 + x.leaf)) (Nat.le_of_eq List.length_replicate) (by rw [List.length_take]; omega) hv
  simp only [loadPages, htake, clearFrame, Nat.reduceMul]
  cases hm : mapPage (sealFrame 0x100 (x.leaf.testBit 4)
      (homeWrite (homeWrite framed 0x100000 (List.replicate 4096 0)) 0x100000 ((x.bytes.drop (4096 * 0)).take 4096))) 0x1000
    (0x20000 + BitVec.ofNat 64 (x.offset + 4096 * 0)) (BitVec.ofNat 64 (0x100000 + x.leaf)) with
  | none => rw [hm] at h; cases h
  | some y => simp

/-- The image's only page can be placed. -/
theorem witness_ObjectsLoaded_placed :
    (sectionsOf (img 0xA050000000000000 2)).map (fun x => (x.offset, pagesOf x.bytes.length)) = [(0, 1), (0x10000, 0), (0x10000, 0)] ∧
    (∀ x ∈ (sectionsOf (img 0xA050000000000000 2)).head?, (loadPages 0x1000 0x20000 x [0] (loadingAt 0x20000)).isSome = true) := by
  refine ⟨by decide +kernel, fun x hx => placed_section x ?_⟩
  simp only [sectionsOf, List.head?_cons, Option.mem_some_iff] at hx
  subst hx
  show (0x20000 + BitVec.ofNat 64 0 : W64).toNat < 2 ^ 21
  decide

theorem witness_ObjectsUnloaded :
    (∀ o ∈ regioned.cp.objects, o.handle ≠ regioned.cp.unloadh) ∧
    (let s := { regioned with cp := { regioned.cp with unloadh := 5 } }
     (s.cp.objects.find? fun x => x.handle == s.cp.unloadh).map (fun o => (o.handle, handleInUse s o.handle)) = some (5, false)) ∧
    -- a page that is mapped, and one that is not
    (ByteMap.wf regioned.mem.home = true ∧ leafAddr regioned 5 0x1000 ((0x11000 : W64).toNat % 2 ^ 57) = some 0x5088 ∧ 0x5088 + 8 ≤ memTop ∧
      leafAddr regioned 5 0x1000 ((0x999000 : W64).toNat % 2 ^ 57) = none) ∧
    handleInUse (queued { kind := 0, word := 0, value := 0, holds := false } 1) 5 = true := by decide +kernel

/-! ### Witnesses: encodings, the step, early reads -/

theorem witness_SpecWords : ∀ x ∈ [(0, 0x0E), (0, 0xFF)], slice (BitVec.ofNat 64 (x.1 * 2 ^ 61 + x.2 * 2 ^ 50)) 61 3 = BitVec.ofNat 3 x.1 ∧
    (slice (BitVec.ofNat 64 (x.1 * 2 ^ 61 + x.2 * 2 ^ 50)) 50 8).toNat = x.2 := by decide

/-- A word of each class with its vacant opcode; a class H word. -/
theorem witness_VacantWords : (∀ x ∈ [(3, 0x0D), (4, 0x07), (5, 0x08), (6, 0x0B), (7, 0)], slice (BitVec.ofNat 64 (x.1 * 2 ^ 61 + x.2 * 2 ^ 52)) 61 3 = BitVec.ofNat 3 x.1 ∧
    (slice (BitVec.ofNat 64 (x.1 * 2 ^ 61 + x.2 * 2 ^ 52)) 52 6).toNat = x.2) ∧
    (slice (BitVec.ofNat 64 (2 * 2 ^ 61 + 16 * 2 ^ 50)) 61 3 = 2 ∧ 16 ≤ (slice (BitVec.ofNat 64 (2 * 2 ^ 61 + 16 * 2 ^ 50)) 50 8).toNat) := by decide

theorem witness_Encodings : (let i := Instr.fadd { a3 with ty := .f32, d := 4, a := 0, b := 1 }
    WellFormed i ∧ encode i = some 0x0101020002000000 ∧ decode 0x0101020002000000 = .ok i) := ⟨by decide, by decide, rfl⟩

/-- The placed warp is the one that its pair chose for this clock. -/
theorem witness_StepRunsTheWord_chosen : chosenNow here here.warp = true ∧
    (let s := State.reset.withFetchWord 64 0x0038000000000000; chosenNow s s.warp = true) := by decide +kernel

/-- A step with a move on the agenda, with an instruction, with a word that is none, with a page that is not there, with one that can come. -/
theorem witness_StepRunsTheWord :
    (let s := { here with agenda := [.energyRefill] }
     s.mgmt.powered = true ∧ s.agenda = [.energyRefill]) ∧
    (here.mgmt.powered = true ∧ here.agenda = [] ∧ issueReady here = true ∧ (ctxOf here).inSeg = true ∧
      fetchWord here (ctxOf here).npc = .word 0xA050000000000000) ∧
    (let s := State.reset.withFetchWord 64 0x0038000000000000
     issueReady s = true ∧ fetchWord s (ctxOf s).npc = .word 0x0038000000000000) ∧
    (let s := modCtx here fun c => { c with npc := 0x3000 }
     issueReady s = true ∧ (match fetchWord s (ctxOf s).npc with | .bad _ => true | .word _ | .wait _ | .hole _ => false) = true) ∧
    (let s := modCtx { here with svc := { here.svc with allocs := [{ root := 0x1000, page := 0x18, pages := 1, leaf := 7, peer := 0, peerBase := 0, mode := 0, space := 0x1000, table := 0x12000, slot := 0, exclusive := [] }] } }
        fun c => { c with npc := 0x3000 }
     issueReady s = true ∧ (match fetchWord s (ctxOf s).npc with | .wait _ => true | .word _ | .bad _ | .hole _ => false) = true) := by decide +kernel

theorem witness_StepRunsTheWord_words :
    decode 0xA050000000000000 = .ok (.exit xw) ∧ parse 0xA050000000000000 = .ok (.exit xw) ∧ parse 0x0038000000000000 = .error .illegalOpcode := ⟨rfl, rfl, rfl⟩

theorem witness_MemoryStaysCanonical : ByteMap.wf here.mem.home = true ∧ (match step here with | .next _ => true | .fault _ | .refused _ => false) = true := by decide +kernel

/-- A result that is open: of a word, and of an operation in flight. -/
theorem witness_EarlyReads : hazAt (ctxOf here) (.g 4) 31 = none ∧
    (∀ op ∈ [none, some 3],
      (let s := modCtx here fun c => { c with haz := [{ reg := .g 4, lanes := allLanes, old := lanesOf fun _ => 0, oldLive := 0, left := 2, op := op }] }
       (hazAt (ctxOf s) (.g 4) 31).map (·.op) = some op)) := by decide +kernel

/-- Words whose sources are in the register file; one of them out of it; a result without room; lanes that differ for a k register. -/
theorem witness_OperandHazards :
    (∀ f ∈ [ops3 .s32, ops3 .ui64], Ready (.iadd f) here ∧ Ready (.imul f) here ∧ Present here [useA f (tyWidth f.ty), useB f (tyWidth f.ty)] ∧ isG f.d = true) ∧
    (Ready (.fadd (ops3 .f64)) here ∧ Ready (.fadd (ops3 .f32)) here) := by decide +kernel

theorem witness_OperandHazards_missing :
    (let s := modCtx here fun c => setGReg c 2 { val := lanesOf fun _ => 0, live := 1, resident := false }
     Ready (.iadd (ops3 .s32)) s ∧ missing s [useA (ops3 .s32) 32, useB (ops3 .s32) 32] = some 2 ∧ lineRoom s 1 = true) := by decide +kernel

/-- A budget of no line; and one of a line that a register holds which is no operand. -/
theorem witness_OperandHazards_budget :
    (let s := { here with cp := { here.cp with budgets := [{ region := 0, parent := none, lines := 0, ctx := 4, spad := 64, deckle := 16, energy := 100, counts := List.replicate 16 0, restart := false }] } }
     Ready (.iadd (ops3 .s32)) s ∧ Present s [useA (ops3 .s32) 32, useB (ops3 .s32) 32] ∧ isG (ops3 .s32).d = true ∧
       ¬RoomFor s [useA (ops3 .s32) 32, useB (ops3 .s32) 32] (dstLines 4 32) ∧
       victimLine (ctxOf s) ([useA (ops3 .s32) 32, useB (ops3 .s32) 32].flatMap useRegs) = none ∧ s.warp.trap = none) ∧
    (let b : Budget := { region := 0, parent := none, lines := 1, ctx := 4, spad := 64, deckle := 16, energy := 100, counts := List.replicate 16 0, restart := false }
     let s := withG 9 1 { data with cp := { data.cp with budgets := [b] } }
     Ready (.iadd (ops3 .s32)) s ∧ Present s [useA (ops3 .s32) 32, useB (ops3 .s32) 32] ∧
       ¬RoomFor s [useA (ops3 .s32) 32, useB (ops3 .s32) 32] (dstLines 4 32) ∧
       victimLine (ctxOf s) ([useA (ops3 .s32) 32, useB (ops3 .s32) 32].flatMap useRegs) = some 9 ∧ firstUnmapped s [gVa (ctxOf s) 9] = none) := by
  simp only [RoomFor]; decide +kernel

theorem witness_OperandHazards_uniform :
    (let s := modCtx here fun c => setGReg c 2 { val := lanesOf fun l => if l = 31 then 1 else 0, live := allLanes, resident := true }
     let f := { ops3 .s32 with d := 119 }
     Ready (.iadd f) s ∧ Readable s (reads [useA f 32, useB f 32] s) ∧ isK f.d = true ∧ (∃ l ∈ runners s, srcA f s l ≠ srcA f s (lowLane (runMask (ctxOf s))))) := by decide +kernel

/-- Paired words at the bank rule's edge: both slots writing bank 0; bank 0 read three times. -/
theorem witness_BankRule :
    (let ap : Ap := { dist := 0, own := { d := 4, s := 1, lr := false, ty := 0, z := 0 }, onX := true, other := some { op := .iadd, args := { d := 8, s := 2, lr := false, ty := 0, z := 0 } } }
     (chkAp .iadd ap).enc = false ∧ (chkAp .iadd ap).bad = false ∧ staticCause (apInstr .iadd ap) = some .illegalPairing) ∧
    (let ap : Ap := { dist := 0, own := { d := 4, s := 0, lr := false, ty := 0, z := 0 }, onX := true, other := some { op := .iadd, args := { d := 1, s := 8, lr := false, ty := 0, z := 0 } } }
     (chkAp .iadd ap).enc = false ∧ (chkAp .iadd ap).bad = false ∧ staticCause (apInstr .iadd ap) = some .illegalPairing) := by decide

/-! ### One step of the spec's worked examples -/

/-- What a g register's lane holds after a word. -/
def gAfter (o : Outcome State Fault Refusal) (n l : Nat) : Option Nat :=
  match o with
  | .next t => some (gValue t n l)
  | .fault _ | .refused _ => none

/-- spec/06, the IMAD example: 2^30 x 4 - 1 clamped. -/
theorem test_imad_sat : gAfter (exec (.imad { a3 with ty := .s32, d := 6, a := 2, b := 3, c := 4, sat := true }) (withG 2 0x40000000 (withG 3 4 (withG 4 0xFFFFFFFF here)))) 6 0 =
    some 0x7FFFFFFF := by decide +kernel

/-- spec/07, the FFMA example: 1.0 - 3.0 x 2^-25, to nearest, toward zero and upward. -/
theorem test_ffma_rounds : ∀ x ∈ [((0 : BitVec 2), 0x3F7FFFFE), (1, 0x3F7FFFFE), (3, 0x3F7FFFFF)],
    gAfter (exec (.ffma { a3 with ty := .f32, d := 8, a := 2, b := 3, c := 4, rnd := x.1, nb := true }) (withG 2 0x40400000 (withG 3 0x33000000 (withG 4 0x3F800000 here)))) 8 31 =
      some x.2 := by decide +kernel

/-- spec/07, the REDUX and SCAN example: lanes 0 to 3 hold 1.0, 2^24, 1.0, -2^24. -/
def treeLanes : State :=
  modCtx here fun c => setGReg { c with active := 0xF } 1
    { val := lanesOf fun l => ([0x3F800000, 0x4B800000, 0x3F800000, 0xCB800000] : List W32).getD l 0, live := 0xF, resident := true }

theorem test_redux_tree : (List.range 4).map (gAfter (exec (.redux { a3 with ty := .f32, d := 2, a := 1 }) treeLanes) 2) =
    [some 0x3F800000, some 0x3F800000, some 0x3F800000, some 0x3F800000] := by decide +kernel

theorem test_scan_tree : (List.range 4).map (gAfter (exec (.scan { a3 with ty := .f32, d := 3, a := 1 }) treeLanes) 3) =
    [some 0x3F800000, some 0x4B800000, some 0x4B800000, some 0x3F800000] := by decide +kernel

/-- spec/07, the QNT examples: 10.3 over 0.5 is code 21, -300 over 1.0 is code -127. -/
theorem test_qnt : ∀ x ∈ [((0x4124CCCD : W32), (0x3F000000 : W32), (21 : Int)), (0xC3960000, 0x3F800000, -127)],
    (gAfter (exec (.qnt { a3 with ty := .f32, d := 4, a := 2, b := 3 }) (withG 2 x.1 (withG 3 x.2.1 here))) 4 0).map (sext 32) = some x.2.2 := by decide +kernel

end Sys2Proof.Tests
end

section
/-! O51, the numbers of the engines: timeline counters (spec/01 R16), the combining tree of XRED (spec/20 R323), the checksums of a span
(spec/17 R286, R287) and the drain of exact dot products (spec/17 R281 to R284). -/

namespace Sys2Proof.EngineNumbers

open Sys2Proof.Machine

/-! ### Timeline counters (spec/01 R16) -/

/-- What a timeline counter keeps of the numbers `p` that have completed: each number up to its value is among them, and of the
numbers above its value its list holds exactly those that are. -/
structure Tracks (p : List Nat) (t : Timeline) : Prop where
  below : ∀ k, 1 ≤ k → k ≤ t.value → k ∈ p
  above : ∀ k, t.value < k → (k ∈ t.done ↔ k ∈ p)

theorem tracks_zero : Tracks [] Timeline.zero where
  below _ h1 h0 := absurd (Nat.le_trans h1 h0) (Nat.not_succ_le_zero 0)
  above _ _ := Iff.rfl

/-- A counter past which the next number has completed moves onto that number. -/
theorem Tracks.next {p : List Nat} {t : Timeline} (h : Tracks p t) (hmem : t.value + 1 ∈ t.done) :
    Tracks p { t with value := t.value + 1, done := t.done.filter (· ≠ t.value + 1) } where
  below k h1 hk := by
    obtain hk | rfl : k ≤ t.value ∨ k = t.value + 1 := Nat.le_succ_iff.mp hk
    · exact h.below k h1 hk
    · exact (h.above _ (Nat.lt_succ_self _)).mp hmem
  above k hk := by
    have hne : k ≠ t.value + 1 := Nat.ne_of_gt hk
    simpa [hne] using h.above k (Nat.lt_of_succ_lt hk)

/-- Settling keeps what a counter tracks, and with fuel for the whole list it stops before a number that has not completed. -/
theorem settleTc_tracks {p : List Nat} (fuel : Nat) (t : Timeline) (h : Tracks p t) (hfuel : t.done.length ≤ fuel) :
    Tracks p (settleTc fuel t) ∧ (settleTc fuel t).value + 1 ∉ p := by
  induction fuel generalizing t with
  | zero =>
    have hnil : t.done = [] := List.length_eq_zero_iff.mp (Nat.le_zero.mp hfuel)
    exact ⟨h, fun hp => by simpa [hnil] using (h.above _ (Nat.lt_succ_self _)).mpr hp⟩
  | succ fuel ih =>
    by_cases hmem : t.value + 1 ∈ t.done
    · have hlt : (t.done.filter (· ≠ t.value + 1)).length < t.done.length :=
        List.length_filter_lt_length_iff_exists.mpr ⟨_, hmem, by simp⟩
      simpa [settleTc, hmem] using ih _ (h.next hmem) (Nat.le_of_lt_succ (Nat.lt_of_lt_of_le hlt hfuel))
    · simpa [settleTc, hmem] using ⟨h, fun hp => hmem ((h.above _ (Nat.lt_succ_self _)).mpr hp)⟩

theorem finishNumber_tracks {p : List Nat} {t : Timeline} (n : Nat) (h : Tracks p t) :
    Tracks (p ++ [n]) (finishNumber n t) ∧ (finishNumber n t).value + 1 ∉ p ++ [n] := by
  refine settleTc_tracks _ _ ⟨fun k h1 hk => List.mem_append_left _ (h.below k h1 hk), fun k hk => ?_⟩ (Nat.le_refl _)
  simp [h.above k hk]

/-- Further completions keep a counter tracking them and before a number that has not completed. -/
theorem foldl_finishNumber_tracks (done : List Nat) {p : List Nat} {t : Timeline} (h : Tracks p t) (hnext : t.value + 1 ∉ p) :
    Tracks (p ++ done) (done.foldl (fun t k => finishNumber k t) t) ∧
      (done.foldl (fun t k => finishNumber k t) t).value + 1 ∉ p ++ done := by
  induction done generalizing p t with
  | nil => rw [List.append_nil]; exact ⟨h, hnext⟩
  | cons n done ih =>
    obtain ⟨htracks, hnext⟩ := finishNumber_tracks n h
    rw [List.append_cons]
    exact ih htracks hnext

/-- The value is at least n once 1 to n are done: otherwise the number after it were among them. -/
theorem timelineOrder : Claims.TimelineOrder := by
  intro n done _ _ t
  obtain ⟨htracks, hnext⟩ := foldl_finishNumber_tracks done tracks_zero List.not_mem_nil
  exact ⟨htracks.below, hnext, fun hall => Nat.le_of_not_lt fun hlt => hnext (hall _ (Nat.succ_pos _) hlt)⟩

/-! ### The combining tree (spec/20 R323) -/

/-- A member's elements with their values modulo 2^32. -/
def reduced (c : List (Nat × Bool)) : List (Nat × Bool) := c.map fun x => (x.1 % 2 ^ 32, x.2)

/-- The element-wise sums of members of `n` elements modulo 2^32, with whether an element of one of them was marked. -/
def total (n : Nat) (cs : List (List (Nat × Bool))) : List (Nat × Bool) :=
  (List.range n).map fun j => ((cs.map fun c => (c.getD j (0, false)).1).sum % 2 ^ 32, cs.any fun c => (c.getD j (0, false)).2)

theorem total_singleton (c : List (Nat × Bool)) : total c.length [c] = reduced c := by
  refine List.ext_getElem (by simp [total, reduced]) fun j _ h2 => ?_
  have hj : j < c.length := by simpa [reduced] using h2
  simp [total, reduced, hj]

/-- Two blocks of members that S32 ADD combines make the sums of the members of both. -/
theorem zipWith_combineTwo_total (n : Nat) (xs ys : List (List (Nat × Bool))) :
    List.zipWith (combineTwo 0 1) (total n xs) (total n ys) = total n (xs ++ ys) := by
  simp [total, List.zipWith_map, List.zipWith_self, combineTwo, reduceVal]

theorem reduced_zipWith_combineTwo (a b : List (Nat × Bool)) :
    reduced (List.zipWith (combineTwo 0 1) a b) = List.zipWith (combineTwo 0 1) (reduced a) (reduced b) := by
  simp [reduced, List.map_zipWith, List.zipWith_map, combineTwo, reduceVal]

/-- Below stride `st`, the place of each multiple of `st` holds the sums of the block of `st` members that begins there. -/
structure Combined (n : Nat) (cs : List (List (Nat × Bool))) (st : Nat) (v : List (List (Nat × Bool))) : Prop where
  length_eq : v.length = cs.length
  block : ∀ i < cs.length, st ∣ i → reduced (v.getD i []) = total n ((cs.drop i).take st)

theorem combined_start {n : Nat} {cs : List (List (Nat × Bool))} (hlen : ∀ c ∈ cs, c.length = n) : Combined n cs 1 cs where
  length_eq := rfl
  block i hi _ := by
    have hblock : (cs.drop i).take 1 = [cs[i]] := by rw [List.drop_eq_getElem_cons hi]; rfl
    rw [hblock, List.getD_eq_getElem?_getD, List.getElem?_eq_getElem hi, Option.getD_some, ← total_singleton,
      hlen _ (List.getElem_mem hi)]

theorem combineLevel_getD (op ty size st i : Nat) (v : List (List (Nat × Bool))) (hi : i < v.length) :
    (combineLevel op ty size st v).getD i [] =
      if i % (2 * st) = 0 ∧ i + st < size then List.zipWith (combineTwo op ty) (v.getD i []) (v.getD (i + st) [])
      else v.getD i [] := by
  simp [combineLevel, hi]

/-- One level of the tree doubles the blocks: a block whose right half lies past the last member is its left half. -/
theorem Combined.level {n : Nat} {cs v : List (List (Nat × Bool))} {st : Nat} (h : Combined n cs st v) :
    Combined n cs (2 * st) (combineLevel 0 1 cs.length st v) where
  length_eq := by simp [combineLevel, h.length_eq]
  block i hi hdvd := by
    have hleft : st ∣ i := Nat.dvd_trans (Nat.dvd_mul_left st 2) hdvd
    have hhalves : (cs.drop i).take (2 * st) = (cs.drop i).take st ++ (cs.drop (i + st)).take st := by
      rw [Nat.two_mul, List.take_add, List.drop_drop]
    rw [combineLevel_getD _ _ _ _ _ _ (h.length_eq ▸ hi), hhalves]
    by_cases hright : i + st < cs.length
    · rw [if_pos ⟨Nat.mod_eq_zero_of_dvd hdvd, hright⟩, reduced_zipWith_combineTwo, h.block i hi hleft,
        h.block _ hright (Nat.dvd_add hleft (Nat.dvd_refl st)), zipWith_combineTwo_total]
    · rw [if_neg fun hc => hright hc.2, h.block i hi hleft, List.drop_eq_nil_of_le (Nat.le_of_not_lt hright)]
      simp

/-- A block as long as the group holds the sums of all members. -/
theorem Combined.whole {n : Nat} {cs v : List (List (Nat × Bool))} {st : Nat} (h : Combined n cs st v) (hne : 0 < cs.length)
    (hst : cs.length ≤ st) : reduced (v.headD []) = total n cs := by
  have hhead : v.headD [] = v.getD 0 [] := by rw [List.headD_eq_head?_getD, List.head?_eq_getElem?, List.getD_eq_getElem?_getD]
  rw [hhead, h.block 0 hne (Nat.dvd_zero _), List.drop_zero, List.take_of_length_le hst]

/-- With levels enough, the tree's first place ends with the sums of all members. -/
theorem Combined.tree {n : Nat} {cs : List (List (Nat × Bool))} (hne : 0 < cs.length) (fuel : Nat) {st : Nat}
    {v : List (List (Nat × Bool))} (h : Combined n cs st v) (hfuel : cs.length ≤ 2 ^ fuel * st) :
    reduced ((combineTree 0 1 cs.length fuel st v).headD []) = total n cs := by
  induction fuel generalizing st v with
  | zero => exact h.whole hne (by simpa using hfuel)
  | succ fuel ih =>
    by_cases hst : st < cs.length
    · have hfuel' : cs.length ≤ 2 ^ fuel * (2 * st) := by rwa [← Nat.mul_assoc, ← Nat.pow_succ]
      simpa only [combineTree, if_pos hst] using ih h.level hfuel'
    · simpa only [combineTree, if_neg hst] using h.whole hne (Nat.le_of_not_lt hst)

theorem combiningTree : Claims.CombiningTree := fun _ _ hne hsize hlen =>
  (combined_start hlen).tree hne 17 (by omega)

/-! ### Sums of products (spec/17 R281, R286) -/

theorem dotInt_comm (xs ys : List Int) : dotInt xs ys = dotInt ys xs := by
  rw [dotInt, dotInt, List.zipWith_comm_of_comm (comm := fun x y => Int.mul_comm x y)]

/-- A sum of products is additive in its first list. -/
theorem dotInt_zipWith_add (xs ys zs : List Int) (h : xs.length = ys.length) :
    dotInt (List.zipWith (· + ·) xs ys) zs = dotInt xs zs + dotInt ys zs := by
  induction xs generalizing ys zs with
  | nil => simp_all [dotInt, List.length_eq_zero_iff.mp h.symm]
  | cons x xs ih =>
    cases ys with
    | nil => simp at h
    | cons y ys =>
      cases zs with
      | nil => simp [dotInt]
      | cons z zs =>
        have htail := ih ys zs (by simpa using h)
        simp only [dotInt, List.zipWith_cons_cons, List.sum_cons] at htail ⊢
        rw [htail, Int.add_mul]; omega

theorem dotInt_replicate_zero (n : Nat) (ys : List Int) : dotInt (List.replicate n 0) ys = 0 := by
  induction ys generalizing n with
  | nil => simp [dotInt]
  | cons y ys ih =>
    cases n with
    | zero => simp [dotInt]
    | succ n => simpa [dotInt, List.replicate_succ] using ih n

theorem addLists_nil (n : Nat) : addLists [] n = List.replicate n 0 := by
  simp only [addLists, List.map_nil, List.sum_nil, List.map_const', List.length_range]

theorem addLists_cons {xs : List Int} {n : Nat} (xss : List (List Int)) (h : xs.length = n) :
    addLists (xs :: xss) n = List.zipWith (· + ·) xs (addLists xss n) := by
  subst h
  refine List.ext_getElem (by simp [addLists]) fun i _ h2 => ?_
  have hi : i < xs.length := by simpa [addLists] using h2
  simp [addLists, hi]

/-- A sum of products with lists added place by place is the sum of those with each list. -/
theorem dotInt_addLists (xss : List (List Int)) (ys : List Int) {n : Nat} (h : ∀ xs ∈ xss, xs.length = n) :
    dotInt (addLists xss n) ys = (xss.map fun xs => dotInt xs ys).sum := by
  induction xss with
  | nil => simp [addLists_nil, dotInt_replicate_zero]
  | cons xs xss ih =>
    rw [List.forall_mem_cons] at h
    have hlen : (addLists xss n).length = n := by simp [addLists]
    rw [addLists_cons xss h.1, dotInt_zipWith_add _ _ _ (h.1.trans hlen.symm), ih h.2, List.map_cons, List.sum_cons]

/-! ### The comparisons of a drain (spec/17 R286, R287) -/

/-- The comparisons of a drain agree when every column's sum is its weight checksum and every row's its activation checksum. -/
theorem checksAgree_iff (accs : List (List Int)) (cw ca : List Int) :
    checksAgree accs cw ca = true ↔
      (∀ m x, cw[m]? = some x → (accs.map fun r => r.getD m 0).sum % 2 ^ 40 = x) ∧
        ∀ n x, ca[n]? = some x → (accs.getD n []).sum % 2 ^ 40 = x := by
  simp only [checksAgree, Bool.and_eq_true, List.all_eq_true, Prod.forall, List.mem_zipIdx_iff_getElem?, beq_iff_eq]
  exact and_congr forall_comm forall_comm

theorem accumulators_getElem? (errs : List ArrayError) (sums : List (List Int)) (n : Nat) :
    (accumulators errs sums)[n]? =
      sums[n]?.map fun r => r.zipIdx.map fun x => (x.1 + elementError errs n x.2) % 2 ^ 40 := by
  simp [accumulators, List.getElem?_map, List.getElem?_zipIdx, Function.comp_def]

theorem weightChecks_getElem? (errs : List ArrayError) (ws as : List (List Int)) (len m : Nat) :
    (weightChecks errs ws as len)[m]? =
      as[m]?.map fun a => (dotInt (weightColumn ws len) a + columnError errs m) % 2 ^ 40 := by
  simp [weightChecks, Function.comp_def]

theorem actChecks_getElem? (errs : List ArrayError) (ws as : List (List Int)) (len n : Nat) :
    (actChecks errs ws as len)[n]? =
      ws[n]?.map fun w => (dotInt w (actColumn as len) + rowError errs n) % 2 ^ 40 := by
  simp [actChecks, Function.comp_def]

/-- A sum of remainders leaves the remainder of the sum. -/
theorem sum_map_emod {α : Type} (f : α → Int) (d : Int) (l : List α) : (l.map fun x => f x % d).sum % d = (l.map f).sum % d := by
  induction l with
  | nil => rfl
  | cons x l ih => rw [List.map_cons, List.sum_cons, Int.add_emod, Int.emod_emod, ih, ← Int.add_emod, List.map_cons, List.sum_cons]

theorem sum_map_zero {α : Type} (l : List α) : (l.map fun _ => (0 : Int)).sum = 0 := by
  rw [List.map_const', List.sum_replicate_int, Int.mul_zero]

theorem sum_map_add {α : Type} (f g : α → Int) (l : List α) : (l.map fun x => f x + g x).sum = (l.map f).sum + (l.map g).sum := by
  induction l with
  | nil => rfl
  | cons x l ih => simp only [List.map_cons, List.sum_cons, ih]; omega

/-- A sum over the numbers below a bound that is nonzero at one of them only. -/
theorem sum_range_single (n : Nat) (d : Int) (rows : Nat) :
    ((List.range rows).map fun i => if i = n then d else 0).sum = if n < rows then d else 0 := by
  induction rows with
  | zero => rfl
  | succ rows ih =>
    rw [List.range_succ, List.map_append, List.sum_append_int, ih, List.map_singleton, List.sum_cons, List.sum_nil]
    split <;> split <;> split <;> omega

/-- What hangs on the elements alone of a numbered list. -/
theorem map_zipIdx_fst {α β : Type} (f : α → β) (l : List α) : (l.zipIdx.map fun x => f x.1) = l.map f :=
  calc (l.zipIdx.map fun x => f x.1) = (l.zipIdx.map Prod.fst).map f := List.map_map.symm
    _ = l.map f := by rw [List.zipIdx_map_fst]

/-- What hangs on the numbers alone of a numbered list. -/
theorem map_zipIdx_snd {α β : Type} (g : Nat → β) (l : List α) : (l.zipIdx.map fun x => g x.2) = (List.range l.length).map g :=
  calc (l.zipIdx.map fun x => g x.2) = (l.zipIdx.map Prod.snd).map g := List.map_map.symm
    _ = (List.range l.length).map g := by rw [List.zipIdx_map_snd, List.range_eq_range']

/-- Over a numbered list, what hangs on the elements and what hangs on their numbers sum apart. -/
theorem sum_map_zipIdx_add {α : Type} (f : α → Int) (g : Nat → Int) (l : List α) :
    (l.zipIdx.map fun x => f x.1 + g x.2).sum = (l.map f).sum + ((List.range l.length).map g).sum := by
  rw [sum_map_add, map_zipIdx_fst, map_zipIdx_snd]

/-- The accumulators of a column sum to its exact sums and what the soft errors added to them. -/
theorem accumulators_column_sum (errs : List ArrayError) {ws as : List (List Int)} {a : List Int} {m : Nat} (ha : as[m]? = some a) :
    ((accumulators errs (spanSums ws as)).map fun r => r.getD m 0).sum % 2 ^ 40 =
      ((ws.map fun w => dotInt w a).sum + ((List.range ws.length).map fun n => elementError errs n m).sum) % 2 ^ 40 := by
  have hcol : (accumulators errs (spanSums ws as)).map (fun r => r.getD m 0) =
      ws.zipIdx.map fun w => (dotInt w.1 a + elementError errs w.2 m) % 2 ^ 40 := by
    simp [accumulators, spanSums, List.zipIdx_map, Function.comp_def, ha]
  rw [hcol, sum_map_emod, sum_map_zipIdx_add (dotInt · a) (elementError errs · m)]

/-- The accumulators of a row sum to its exact sums and what the soft errors added to them. -/
theorem accumulators_row_sum (errs : List ArrayError) {ws as : List (List Int)} {w : List Int} {n : Nat} (hw : ws[n]? = some w) :
    ((accumulators errs (spanSums ws as)).getD n []).sum % 2 ^ 40 =
      ((as.map fun a => dotInt w a).sum + ((List.range as.length).map fun m => elementError errs n m).sum) % 2 ^ 40 := by
  have hrow : (accumulators errs (spanSums ws as)).getD n [] =
      as.zipIdx.map fun a => (dotInt w a.1 + elementError errs n a.2) % 2 ^ 40 := by
    simp [List.getD_eq_getElem?_getD, accumulators_getElem?, spanSums, List.zipIdx_map, Function.comp_def, hw]
  rw [hrow, sum_map_emod, sum_map_zipIdx_add (dotInt w ·) (elementError errs n ·)]

/-- With no soft error every comparison is equal. -/
theorem checksAgree_of_no_error {ws as : List (List Int)} {len : Nat} (hws : ∀ r ∈ ws, r.length = len)
    (has : ∀ c ∈ as, c.length = len) :
    checksAgree (accumulators [] (spanSums ws as)) (weightChecks [] ws as len) (actChecks [] ws as len) = true := by
  refine (checksAgree_iff _ _ _).mpr ⟨fun m x hx => ?_, fun n x hx => ?_⟩
  · obtain ⟨a, ha, rfl⟩ := Option.map_eq_some_iff.mp (weightChecks_getElem? .. ▸ hx)
    rw [accumulators_column_sum [] ha, weightColumn, dotInt_addLists _ _ hws]
    simp only [elementError, columnError, List.map_nil, List.sum_nil, sum_map_zero]
  · obtain ⟨w, hw, rfl⟩ := Option.map_eq_some_iff.mp (actChecks_getElem? .. ▸ hx)
    rw [accumulators_row_sum [] hw, actColumn, dotInt_comm, dotInt_addLists _ _ has]
    simp only [elementError, rowError, List.map_nil, List.sum_nil, sum_map_zero, dotInt_comm w]

/-- One wrong element adds its error once to the sums of its column. -/
theorem sum_elementError_column {n rows : Nat} (m : Nat) (d : Int) (hn : n < rows) :
    ((List.range rows).map fun i => elementError [.element n m d] i m).sum = d := by
  have hone : (fun i => elementError [.element n m d] i m) = fun i => if i = n then d else 0 := by
    funext i; simp [elementError, eq_comm]
  rw [hone, sum_range_single, if_pos hn]

/-- One wrong element of the accumulators is found by the comparison of its column. -/
theorem checksAgree_of_wrong_element {ws as : List (List Int)} {len n m : Nat} {d : Int} (hws : ∀ r ∈ ws, r.length = len)
    (hn : n < ws.length) (hm : m < as.length) (hd : d % 2 ^ 40 ≠ 0) :
    (let errs := [ArrayError.element n m d]
     checksAgree (accumulators errs (spanSums ws as)) (weightChecks errs ws as len) (actChecks errs ws as len) = false) := by
  refine Bool.eq_false_iff.mpr fun hagree => hd ?_
  have ha : as[m]? = some as[m] := List.getElem?_eq_getElem hm
  have hcol := ((checksAgree_iff _ _ _).mp hagree).1 m _ (by rw [weightChecks_getElem?, ha, Option.map_some])
  rw [accumulators_column_sum _ ha, sum_elementError_column m d hn, weightColumn, dotInt_addLists _ _ hws] at hcol
  have hclean : columnError [.element n m d] m = 0 := by simp [columnError]
  omega

theorem spanChecksums : Claims.SpanChecksums := by
  refine ⟨fun ws as len hws has => ⟨checksAgree_of_no_error hws has, fun n m d hn hm hd => checksAgree_of_wrong_element hws hn hm hd⟩,
    fun e o s => ⟨fun hok => ?drained, fun hok hagain => ?streamedAgain, fun hok hagain => ?raised⟩⟩
  case drained => exact if_pos hok
  case streamedAgain => rw [sumSpan, if_neg (Bool.eq_false_iff.mp hok), hagain]; rfl
  case raised => rw [sumSpan, if_neg (Bool.eq_false_iff.mp hok), hagain]; rfl

/-! ### Rounding to F32 without loss (spec/07 R134) -/

theorem fmt32_exp : fmt32.exp = 8 := rfl
theorem fmt32_frac : fmt32.frac = 23 := rfl
theorem biasOf_fmt32 : biasOf fmt32 = 127 := rfl
theorem expMax_fmt32 : expMax fmt32 = 255 := rfl
theorem minExp_fmt32 : minExp fmt32 = -126 := rfl
theorem infBits_fmt32 : infBits fmt32 = 255 * 2 ^ 23 := rfl
theorem signBit_fmt32 : signBit fmt32 = 2 ^ 31 := rfl

/-- A multiple of 2^-j keeps its value when it is rounded to one, over whatever power of two it is written. -/
theorem roundAt_exact (rnd : Nat) (neg : Bool) (m k j : Nat) :
    roundAt rnd neg (m * 2 ^ k) (-(k : Int)) (-(j : Int)) = (m * 2 ^ j, false) := by
  obtain hjk | hkj := Nat.lt_or_ge j k
  · have hexp : (-(j : Int) - -(k : Int)).toNat = k - j := by omega
    have hsplit : m * 2 ^ k = m * 2 ^ j * 2 ^ (k - j) := by rw [Nat.mul_assoc, ← Nat.pow_add, Nat.add_sub_cancel' (Nat.le_of_lt hjk)]
    have hpos : 0 < 2 ^ (k - j) := Nat.two_pow_pos _
    rw [roundAt, if_neg (by omega), hexp, hsplit]
    simp only [Nat.mul_div_cancel _ hpos, Nat.mul_mod_left, Nat.mul_zero]
    rcases rnd with _ | _ | _ | rnd <;> simp [Nat.ne_of_lt hpos]
  · have hexp : (-(k : Int) - -(j : Int)).toNat = j - k := by omega
    rw [roundAt, if_pos (by omega), hexp, Nat.mul_assoc, ← Nat.pow_add, Nat.add_sub_cancel' hkj]

/-- The F32 pattern of a magnitude below 2^24: a significand of 24 bits, whose leading bit counts into the exponent field. -/
def magBits (m : Nat) : Nat := (m.log2 + 126) * 2 ^ 23 + m * 2 ^ (23 - m.log2)

/-- The significand of a magnitude below 2^24 has exactly 24 bits. -/
theorem significand_bounds {m : Nat} (h0 : m ≠ 0) (hm : m < 2 ^ 24) :
    m.log2 ≤ 23 ∧ 2 ^ 23 ≤ m * 2 ^ (23 - m.log2) ∧ m * 2 ^ (23 - m.log2) < 2 ^ 24 := by
  have hlog : m.log2 ≤ 23 := Nat.le_of_lt_succ ((Nat.log2_lt h0).mpr hm)
  refine ⟨hlog, ?_, ?_⟩
  · calc 2 ^ 23 = 2 ^ m.log2 * 2 ^ (23 - m.log2) := by rw [← Nat.pow_add, Nat.add_sub_cancel' hlog]
      _ ≤ m * 2 ^ (23 - m.log2) := Nat.mul_le_mul_right _ (Nat.log2_self_le h0)
  · calc m * 2 ^ (23 - m.log2) < 2 ^ (m.log2 + 1) * 2 ^ (23 - m.log2) :=
        Nat.mul_lt_mul_of_pos_right Nat.lt_log2_self (Nat.two_pow_pos _)
      _ = 2 ^ 24 := by rw [← Nat.pow_add]; congr 1; omega

theorem leadExp_scaled {m : Nat} (h0 : m ≠ 0) (k : Nat) : leadExp (m * 2 ^ k) (-(k : Int)) = m.log2 := by
  have hlog : (m * 2 ^ k).log2 = m.log2 + k := by
    refine (Nat.log2_eq_iff (Nat.mul_ne_zero h0 (Nat.ne_of_gt (Nat.two_pow_pos k)))).mpr ⟨?_, ?_⟩
    · rw [Nat.pow_add]; exact Nat.mul_le_mul_right _ (Nat.log2_self_le h0)
    · rw [Nat.add_right_comm, Nat.pow_add]; exact Nat.mul_lt_mul_of_pos_right Nat.lt_log2_self (Nat.two_pow_pos k)
  rw [leadExp, hlog]; omega

/-- A magnitude below 2^24, over whatever power of two it is written, packs into F32 exactly. -/
theorem roundFin_fmt32_exact (neg : Bool) {m : Nat} (h0 : m ≠ 0) (hm : m < 2 ^ 24) (k : Nat) :
    roundFin fmt32 0 neg (m * 2 ^ k) (-(k : Int)) = (withSign fmt32 neg (magBits m), 0) := by
  obtain ⟨hlog, -, hhigh⟩ := significand_bounds h0 hm
  have hq : max (m.log2 : Int) (minExp fmt32) - fmt32.frac = -((23 - m.log2 : Nat) : Int) := by
    rw [minExp_fmt32, fmt32_frac]; omega
  have hmag : (-((23 - m.log2 : Nat) : Int) + fmt32.frac + biasOf fmt32 - 1).toNat = m.log2 + 126 := by
    rw [fmt32_frac, biasOf_fmt32]; omega
  have hfinite : ¬infBits fmt32 ≤ magBits m := by
    rw [infBits_fmt32, magBits]; omega
  rw [roundFin, leadExp_scaled h0, hq, roundAt_exact, hmag]
  refine (if_neg hfinite).trans ?_
  simp [magBits, flagIf, fmt32_frac]

theorem testBit_withSign (neg : Bool) {mag : Nat} (h : mag < 2 ^ 31) : (withSign fmt32 neg mag).testBit 31 = neg := by
  cases neg with
  | false => exact Nat.testBit_lt_two_pow h
  | true =>
    rw [withSign, if_pos rfl, signBit_fmt32, Nat.add_comm, Nat.testBit_two_pow_add_eq, Nat.testBit_lt_two_pow h]; rfl

/-- A pattern of F32 with a 24-bit significand `s`, whose leading bit counts into the exponent field above `e`, read as a value. -/
theorem unpackFp_withSign (neg : Bool) {e s : Nat} (he : e < 254) (hs : 2 ^ 23 ≤ s) (hs' : s < 2 ^ 24) :
    unpackFp fmt32 (withSign fmt32 neg (e * 2 ^ 23 + s)) = .fin neg s ((e : Int) - 149) := by
  have hsign : (withSign fmt32 neg (e * 2 ^ 23 + s)).testBit (fmt32.exp + fmt32.frac) = neg :=
    testBit_withSign neg (by omega)
  have hbits : withSign fmt32 neg (e * 2 ^ 23 + s) = e * 2 ^ 23 + s + if neg then 2 ^ 31 else 0 := rfl
  have hexp : withSign fmt32 neg (e * 2 ^ 23 + s) / 2 ^ fmt32.frac % 2 ^ fmt32.exp = e + 1 := by
    rw [hbits, fmt32_frac, fmt32_exp]; split <;> omega
  have hfrac : withSign fmt32 neg (e * 2 ^ 23 + s) % 2 ^ fmt32.frac = s - 2 ^ 23 := by
    rw [hbits, fmt32_frac]; split <;> omega
  have hmax : e + 1 ≠ expMax fmt32 := by rw [expMax_fmt32]; omega
  have hscale : ((e + 1 : Nat) : Int) - (127 : Nat) - (23 : Nat) = (e : Int) - 149 := by omega
  simp only [unpackFp, hsign, hexp, hfrac, if_neg hmax, if_neg (Nat.succ_ne_zero e)]
  rw [biasOf_fmt32, fmt32_frac, Nat.sub_add_cancel hs, hscale]

theorem unpackFp_magBits (neg : Bool) {m : Nat} (h0 : m ≠ 0) (hm : m < 2 ^ 24) :
    unpackFp fmt32 (withSign fmt32 neg (magBits m)) = .fin neg (m * 2 ^ (23 - m.log2)) (-((23 - m.log2 : Nat) : Int)) := by
  obtain ⟨hlog, hlow, hhigh⟩ := significand_bounds h0 hm
  have hexp : ((m.log2 + 126 : Nat) : Int) - 149 = -((23 - m.log2 : Nat) : Int) := by omega
  rw [magBits, unpackFp_withSign neg (by omega) hlow hhigh, hexp]

/-! ### The integers below 2^24 as F32 values -/

/-- A value that is the integer `x`: its magnitude times a power of two, over that power. -/
def IsInt (x : Int) (v : Fp) : Prop := ∃ k : Nat, v = .fin (decide (x < 0)) (x.natAbs * 2 ^ k) (-(k : Int))

/-- The F32 pattern of an integer. -/
def intBits (x : Int) : Nat := (ofIntFp fmt32 0 x).1

/-- `packFp` on a nonzero magnitude below 2^24, over whatever power of two it is written. -/
theorem packFp_scaled (neg : Bool) {m : Nat} (h0 : m ≠ 0) (hm : m < 2 ^ 24) (k : Nat) :
    packFp fmt32 0 (.fin neg (m * 2 ^ k) (-(k : Int))) = (withSign fmt32 neg (magBits m), 0) := by
  rw [packFp, if_neg (Nat.mul_ne_zero h0 (Nat.ne_of_gt (Nat.two_pow_pos k))), roundFin_fmt32_exact neg h0 hm]

theorem intBits_of_ne_zero {x : Int} (h0 : x.natAbs ≠ 0) (hx : x.natAbs < 2 ^ 24) :
    intBits x = withSign fmt32 (decide (x < 0)) (magBits x.natAbs) := by
  simpa [intBits, ofIntFp] using congrArg Prod.fst (packFp_scaled (decide (x < 0)) h0 hx 0)

section
variable {x : Int} {v : Fp}

/-- A value that is an integer packs into the pattern of that integer. -/
theorem IsInt.packFp (hv : IsInt x v) (hx : x.natAbs < 2 ^ 24) : (packFp fmt32 0 v).1 = intBits x := by
  obtain ⟨k, rfl⟩ := hv
  obtain h0 | h0 := Decidable.em (x.natAbs = 0)
  · rw [Int.natAbs_eq_zero.mp h0]; simp [Machine.packFp, intBits, ofIntFp]
  · rw [packFp_scaled _ h0 hx, intBits_of_ne_zero h0 hx]

/-- The pattern of an integer, read as a value, is that integer. -/
theorem isInt_unpackFp (hx : x.natAbs < 2 ^ 24) : IsInt x (unpackFp fmt32 (intBits x)) := by
  obtain h0 | h0 := Decidable.em (x.natAbs = 0)
  · exact ⟨149, by rw [Int.natAbs_eq_zero.mp h0]; decide⟩
  · exact ⟨_, by rw [intBits_of_ne_zero h0 hx, unpackFp_magBits _ h0 hx]⟩

theorem IsInt.isNan (hv : IsInt x v) : isNan v = false := by
  obtain ⟨k, rfl⟩ := hv; rfl

/-! ### Steps of the drain on integers (spec/17 R283) -/

/-- The value 1.0, as its F32 pattern reads. -/
def oneFp : Fp := .fin false (2 ^ 23) (-23)

/-- The value -0, as its F32 pattern reads. -/
def negZeroFp : Fp := .fin true 0 (-149)

theorem unpackFp_scaleOne : unpackFp fmt32 (scaleBits 0x7F0) = oneFp := by decide

theorem unpackFp_negZero : unpackFp fmt32 (signBit fmt32) = negZeroFp := by decide

/-- The product of an integer and 1.0 is that integer. -/
theorem IsInt.prodFp_one (hv : IsInt x v) : ∃ p, prodFp v oneFp = some p ∧ IsInt x p := by
  obtain ⟨k, rfl⟩ := hv
  refine ⟨_, rfl, k + 23, ?_⟩
  rw [Bool.bne_false, Nat.mul_assoc, ← Nat.pow_add, Int.natCast_add, Int.neg_add]; rfl

/-- A signed integer at an exponent not above that of its value. -/
theorem toScale_scaled (x : Int) {k j : Nat} (h : k ≤ j) :
    toScale (decide (x < 0)) (x.natAbs * 2 ^ k) (-(k : Int)) (-(j : Int)) = x * 2 ^ j := by
  have hexp : (-(k : Int) - -(j : Int)).toNat = j - k := by omega
  have hsign : (if decide (x < 0) = true then (-1 : Int) else 1) * x.natAbs = x := by
    simp only [decide_eq_true_eq]; split <;> omega
  rw [toScale, hexp, Nat.mul_assoc, ← Nat.pow_add, Nat.add_sub_cancel' h, Int.natCast_mul, ← Int.mul_assoc, hsign, Int.natCast_pow]
  rfl

theorem sumFp_fin_fin (f : Fmt) (rnd : Nat) (a b : Bool) (m n : Nat) (e g : Int) :
    sumFp f rnd [.fin a m e, .fin b n g] =
      (let total := toScale a m e (min e g) + toScale b n g (min e g)
       if total = 0 then (withSign f (zeroSign rnd [a, b]) 0, 0)
       else roundFin f rnd (decide (total < 0)) total.natAbs (min e g)) := by
  simp [sumFp]

theorem zeroSign_swap (rnd : Nat) (a b : Bool) : zeroSign rnd [a, b] = zeroSign rnd [b, a] := by
  cases a <;> cases b <;> rfl

theorem sumFp_fin_swap (f : Fmt) (rnd : Nat) (a b : Bool) (m n : Nat) (e g : Int) :
    sumFp f rnd [.fin a m e, .fin b n g] = sumFp f rnd [.fin b n g, .fin a m e] := by
  rw [sumFp_fin_fin, sumFp_fin_fin, Int.min_comm, Int.add_comm, zeroSign_swap]

/-- The sum of an integer and -0 is that integer, +0 where it is zero. -/
theorem IsInt.sumFp_negZero (hv : IsInt x v) (hx : x.natAbs < 2 ^ 24) : (sumFp fmt32 0 [v, negZeroFp]).1 = intBits x := by
  obtain ⟨k, rfl⟩ := hv
  have hmin : min (-(k : Int)) (-149) = -((max k 149 : Nat) : Int) := by omega
  have hzero : toScale true 0 (-149) (-((max k 149 : Nat) : Int)) = 0 := by simp [toScale]
  rw [negZeroFp, sumFp_fin_fin, hmin, toScale_scaled x (Nat.le_max_left k 149), hzero, Int.add_zero]
  have hpow : (0 : Int) < 2 ^ max k 149 := Int.pow_pos (by decide)
  obtain rfl | h0 := Decidable.em (x = 0)
  · simp [zeroSign, intBits, ofIntFp, Machine.packFp]
  · have habs : (x * 2 ^ max k 149).natAbs = x.natAbs * 2 ^ max k 149 := by simp [Int.natAbs_mul, Int.natAbs_pow]
    have hneg : x * 2 ^ max k 149 < 0 ↔ x < 0 :=
      ⟨fun h => Int.neg_of_mul_neg_left h hpow, fun h => Int.mul_neg_of_neg_of_pos h hpow⟩
    have h0' := Int.natAbs_ne_zero.mpr h0
    simp only [Int.mul_eq_zero, h0, Int.ne_of_gt hpow, or_self, if_false, habs, hneg]
    rw [roundFin_fmt32_exact _ h0' hx, intBits_of_ne_zero h0' hx]

theorem IsInt.negZero_sumFp (hv : IsInt x v) (hx : x.natAbs < 2 ^ 24) : (sumFp fmt32 0 [negZeroFp, v]).1 = intBits x := by
  rw [← hv.sumFp_negZero hx]
  obtain ⟨k, rfl⟩ := hv
  exact congrArg Prod.fst (sumFp_fin_swap ..)

theorem noteOver_intBits (hx : x.natAbs < 2 ^ 24) (above : Bool) (xs : List Nat) :
    noteOver (intBits x) above xs = (intBits x, above) := by
  obtain ⟨k, hk⟩ := isInt_unpackFp hx
  simp [noteOver, inf32, hk]

theorem drainMul_one (hx : x.natAbs < 2 ^ 24) (above : Bool) :
    drainMul (intBits x, above) (scaleBits 0x7F0) = (intBits x, above) := by
  have hv := isInt_unpackFp hx
  obtain ⟨p, hp, hpx⟩ := hv.prodFp_one
  have hmul : (mulFp fmt32 0 (unpackFp fmt32 (intBits x)) oneFp).1 = intBits x := by
    rw [mulFp, hv.isNan, hp]; exact hpx.packFp hx
  rw [drainMul, unpackFp_scaleOne, hmul, noteOver_intBits hx]

theorem drainAdd_negZero (hx : x.natAbs < 2 ^ 24) :
    drainAdd (signBit fmt32, false) (intBits x, false) = (intBits x, false) := by
  have hv := isInt_unpackFp hx
  have hadd : (addFp fmt32 0 negZeroFp (unpackFp fmt32 (intBits x))).1 = intBits x := by
    rw [addFp, hv.isNan]; exact hv.negZero_sumFp hx
  rw [drainAdd, unpackFp_negZero, hadd, noteOver_intBits hx]; rfl

theorem drainFma_one_negZero (hx : x.natAbs < 2 ^ 24) :
    drainFma (intBits x) (scaleBits 0x7F0, false) (signBit fmt32, false) = (intBits x, false) := by
  have hv := isInt_unpackFp hx
  obtain ⟨p, hp, hpx⟩ := hv.prodFp_one
  have hfma : (fmaFp fmt32 0 (unpackFp fmt32 (intBits x)) oneFp negZeroFp).1 = intBits x := by
    rw [fmaFp, hv.isNan, hp]; exact hpx.sumFp_negZero hx
  rw [drainFma, unpackFp_scaleOne, unpackFp_negZero, hfma, noteOver_intBits hx]; rfl

theorem spanOver_of_small (hx : x.natAbs < 2 ^ 24) : spanOver x = false := by
  rw [spanOver, Bool.or_eq_false_iff, decide_eq_false_iff_not, decide_eq_false_iff_not]; omega

/-- Under either version of the drain an integer scaled by 1.0 and added to -0 is itself. -/
theorem drain_exact (nbv : BitVec 2) (hx : x.natAbs < 2 ^ 24) :
    drain nbv x (scaleBits 0x7F0) (scaleBits 0x7F0) (signBit fmt32, false) = (intBits x, false) := by
  have hvalue : spanValue x = x := by rw [spanValue, spanOver_of_small hx, if_neg Bool.false_ne_true]
  have hscales : drainMul (scaleBits 0x7F0, false) (scaleBits 0x7F0) = (scaleBits 0x7F0, false) := by decide
  rw [drain, hvalue, ← intBits]
  by_cases hnative : nbv = 1
  · rw [if_pos hnative, drainMul_one hx, drainMul_one hx, drainAdd_negZero hx]
  · rw [if_neg hnative, hscales, drainFma_one_negZero hx]

/-- Such an element is written to C as it is, whatever becomes of infinite values (spec/17 R284). -/
theorem outElement_exact (osat : Nat) (hx : x.natAbs < 2 ^ 24) : outElement fmt32 osat (intBits x) = (intBits x, false) := by
  obtain ⟨k, hk⟩ := isInt_unpackFp hx
  have hcvt : (cvtFp fmt32 fmt32 0 (intBits x)).1 = intBits x := by
    rw [cvtFp, hk]; exact IsInt.packFp ⟨k, rfl⟩ hx
  rw [outElement, hcvt]
  simp [hk]

/-- The value drained of a span sum below 2^24 and its clean accumulator is the sum. -/
theorem drainValue_exact (hx : x.natAbs < 2 ^ 24) : drainValue x (x % 2 ^ 40) = x := by
  rw [drainValue, spanOver_of_small hx, if_neg Bool.false_ne_true, signed40]
  split <;> omega
end

/-! ### The elements of a span -/

theorem accumulators_of_no_error (sums : List (List Int)) : accumulators [] sums = sums.map fun r => r.map (· % 2 ^ 40) := by
  simp only [accumulators, elementError, List.map_nil, List.sum_nil, Int.add_zero]
  rw [map_zipIdx_fst (fun r : List Int => r.zipIdx.map fun x => x.1 % 2 ^ 40)]
  simp only [map_zipIdx_fst (fun x : Int => x % 2 ^ 40)]

/-- Of a span whose sums are small and whose accumulators are clean, the sums are drained. -/
theorem drainValues_exact {sums : List (List Int)} (hsmall : ∀ r ∈ sums, ∀ x ∈ r, x.natAbs < 2 ^ 24) :
    List.zipWith (fun xs ys => List.zipWith drainValue xs ys) sums (accumulators [] sums) = sums := by
  have hrow (r) (hr : r ∈ sums) : List.zipWith drainValue r (r.map (· % 2 ^ 40)) = r := by
    rw [List.zipWith_map_right, List.zipWith_self]
    exact (List.map_congr_left fun x hx => drainValue_exact (hsmall r hr x hx)).trans (List.map_id' _)
  rw [accumulators_of_no_error, List.zipWith_map_right, List.zipWith_self]
  exact (List.map_congr_left hrow).trans (List.map_id' _)

/-- The values of a span to drain, each with the scale codes of its row and of its column. -/
def scaledValues (i : SpanIn) (vals : List (List Int)) : List (Int × Nat × Nat) :=
  vals.zipIdx.flatMap fun r => r.1.zipIdx.map fun x => (x.1, i.sws.getD r.2 0, i.sas.getD x.2 0)

theorem drainSpan_eq (o : MatrixOp) (i : SpanIn) (sums accs : List (List Int)) (out : List Drained) :
    drainSpan o i sums accs out =
      List.zipWith (fun v x => drain o.nbv v.1 (scaleBits v.2.1) (scaleBits v.2.2) x)
        (scaledValues i (List.zipWith (fun xs ys => List.zipWith drainValue xs ys) sums accs)) out := rfl

theorem scaledValues_map_fst (i : SpanIn) (vals : List (List Int)) : (scaledValues i vals).map (·.1) = vals.flatMap id := by
  simp only [scaledValues, List.map_flatMap, List.map_map, Function.comp_def, List.zipIdx_map_fst]
  rw [List.flatMap_def, List.zipIdx_map_fst, List.flatMap_id]

/-- With every scale 1.0, each value is scaled by 1.0 twice. -/
theorem scaledValues_one {i : SpanIn} {sums : List (List Int)} (hrows : sums.length = i.ws.length)
    (hcols : ∀ r ∈ sums, r.length = i.as.length) (hsws : i.sws = List.replicate i.ws.length 0x7F0)
    (hsas : i.sas = List.replicate i.as.length 0x7F0) : ∀ v ∈ scaledValues i sums, v.2 = (0x7F0, 0x7F0) := by
  intro v hv
  obtain ⟨r, hr, hv⟩ := List.mem_flatMap.mp hv
  obtain ⟨x, hx, rfl⟩ := List.mem_map.mp hv
  have hrow : r.2 < i.ws.length := by simpa [hrows] using List.snd_lt_of_mem_zipIdx hr
  have hcol : x.2 < i.as.length := by
    simpa [hcols _ (List.fst_mem_of_mem_zipIdx hr)] using List.snd_lt_of_mem_zipIdx hx
  simp [hsws, hsas, hrow, hcol]

theorem length_of_mem_spanSums {ws as : List (List Int)} : ∀ r ∈ spanSums ws as, r.length = as.length := by
  simp [spanSums]

theorem length_scaledValues_spanSums (i : SpanIn) :
    (scaledValues i (spanSums i.ws i.as)).length = i.ws.length * i.as.length := by
  rw [← List.length_map (·.1), scaledValues_map_fst]
  simp only [spanSums, List.length_flatMap, List.map_map, Function.comp_def, id_eq, List.length_map, List.map_const',
    List.sum_replicate_nat]

theorem exactDotProduct : Claims.ExactDotProduct := by
  intro o i osat _ hsws hsas sums hsmall
  have hone := scaledValues_one (List.length_map _) length_of_mem_spanSums hsws hsas
  have hmem (v) (hv : v ∈ scaledValues i sums) : v.1.natAbs < 2 ^ 24 := by
    have hflat : v.1 ∈ sums.flatMap id := scaledValues_map_fst i sums ▸ List.mem_map_of_mem hv
    obtain ⟨r, hr, hx⟩ := List.mem_flatMap.mp hflat
    exact hsmall r hr _ hx
  rw [drainSpan_eq, drainValues_exact hsmall, ← length_scaledValues_spanSums, ← List.map_const', List.zipWith_map_right,
    List.zipWith_self, List.map_map, ← scaledValues_map_fst i sums, List.map_map]
  refine List.map_congr_left fun v hv => ?_
  simp only [Function.comp_apply, hone v hv, drain_exact o.nbv (hmem v hv), outElement_exact osat (hmem v hv)]
  rfl

/-- Settles O51: the counter by its invariant over the completions, the tree by its blocks, the checksums by exchanging two sums, and
the dot products by the exactness of F32 below 2^24. -/
theorem engineNumbers : Obligations.EngineNumbers := ⟨timelineOrder, combiningTree, spanChecksums, exactDotProduct⟩

end Sys2Proof.EngineNumbers
end

section
/-! O59, objects: how OBJECT_LOAD verifies and places an image (spec/22 R352, R354, spec/04 R87), and how OBJECT_UNLOAD unmaps an
object's pages and gives its frames back (spec/22 R353). -/

namespace Sys2Proof.Objects

open Sys2Proof.Machine
open Sys2Proof.Laws

/-! ### Home writes leave the command processor alone -/

theorem modLaunch_cp (s : State) (seq : Nat) (f : Launch → Launch) : (modLaunch s seq f).cp = s.cp := by
  unfold modLaunch; split <;> rfl

theorem takeAny_cp {s t : State} {n : Nat} (h : takeAny s = some (n, t)) : t.cp = s.cp := by
  unfold takeAny at h
  split at h
  · cases h
  · cases h; rfl

theorem snapLaunch_cp (copy : ByteMap) (p : Nat) (s : State) (seq : Nat) : (snapLaunch copy p s seq).cp = s.cp := by
  unfold snapLaunch
  split
  · next h => rw [modLaunch_cp, takeAny_cp h]
  · exact modLaunch_cp _ _ _

theorem foldl_cp {α : Type} (f : State → α → State) (hf : ∀ s x, (f s x).cp = s.cp) (xs : List α) (s : State) :
    (xs.foldl f s).cp = s.cp :=
  List.foldlRecOn (motive := fun t => t.cp = s.cp) xs f rfl fun t ht x _ => (hf t x).trans ht

theorem touchPage_cp (s : State) (p : Nat) : (touchPage s p).cp = s.cp := by
  unfold touchPage
  dsimp only
  split
  · rfl
  · exact foldl_cp _ (snapLaunch_cp _ p) _ s

theorem homeWrite1_cp (s : State) (k : Nat) (b : Byte) : (homeWrite1 s k b).cp = s.cp := by
  have hput (u : State) : (putHomeByte u k b).cp = u.cp := by unfold putHomeByte; split <;> rfl
  exact (hput _).trans (touchPage_cp s _)

theorem homeWrite_cp (s : State) (k : Nat) (bs : List Byte) : (homeWrite s k bs).cp = s.cp := by
  induction bs generalizing s k with
  | nil => rfl
  | cons b bs ih => exact (ih _ _).trans (homeWrite1_cp s k b)

/-! ### Bytes of this device's memory read back after a home write -/

theorem memTop_le : memTop ≤ 2 ^ 66 := by decide

theorem homeByte_of_lt_memTop (s : State) {k : Nat} (hk : k < memTop) : homeByte s k = ByteMap.read s.mem.home k := by
  have hc : isCached k = false := by simpa [isCached] using Nat.lt_of_lt_of_le hk memTop_le
  simp [homeByte, hc, areaOf, hk]

theorem homeByte_homeWrite1_same {s : State} {k : Nat} (b : Byte) (hk : k < memTop) (h : HomeWf s) :
    homeByte (homeWrite1 s k b) k = b := by
  rw [homeByte_of_lt_memTop _ hk, (homeWrite1_keeps s k b (Nat.lt_of_lt_of_le hk memTop_le)).1, read_write k b k h, if_pos rfl]

theorem homeByte_homeWrite_within {s : State} {k : Nat} {bs : List Byte} (hk : k + bs.length ≤ memTop) (h : HomeWf s) (i : Nat)
    (hi : i < bs.length) : homeByte (homeWrite s k bs) (k + i) = bs[i] := by
  induction bs generalizing s k i with
  | nil => exact absurd hi (Nat.not_lt_zero i)
  | cons b bs ih =>
    rw [List.length_cons] at hk hi
    have htop := memTop_le
    have hwf := homeWf_homeWrite1 k b h
    cases i with
    | zero =>
      exact (homeByte_homeWrite_other (k + 1) bs k (by omega) (by omega) (.inl (Nat.lt_succ_self k)) hwf).trans
        (homeByte_homeWrite1_same b (by omega) h)
    | succ i =>
      rw [← Nat.add_assoc, Nat.add_right_comm]
      exact ih (by omega) hwf i (by omega)

theorem homeBytes_homeWrite {s : State} {k : Nat} {bs : List Byte} (hk : k + bs.length ≤ memTop) (h : HomeWf s) :
    homeBytes (homeWrite s k bs) k bs.length = bs := by
  refine List.ext_getElem (by simp [homeBytes]) fun i _ hi => ?_
  simpa [homeBytes] using homeByte_homeWrite_within hk h i hi

/-! ### Pages unmapped (spec/22 R353) -/

theorem unmapPage_of_leaf {root : Nat} {va : W64} {s : State} {a : Nat} (h : leafAddr s 5 root (va.toNat % 2 ^ 57) = some a) :
    unmapPage root va s = homeWrite s a (List.replicate 8 0) := by
  simp only [unmapPage, h]
  rfl

theorem unmapPage_of_no_leaf {root : Nat} {va : W64} {s : State} (h : leafAddr s 5 root (va.toNat % 2 ^ 57) = none) :
    unmapPage root va s = s := by
  simp only [unmapPage, h]

theorem unmapPage_cp (root : Nat) (va : W64) (s : State) : (unmapPage root va s).cp = s.cp := by
  cases h : leafAddr s 5 root (va.toNat % 2 ^ 57) with
  | none => rw [unmapPage_of_no_leaf h]
  | some a => rw [unmapPage_of_leaf h, homeWrite_cp]

theorem unmapPage_clears_leaf {root : Nat} {va : W64} {s : State} {a : Nat} (hwf : HomeWf s)
    (hleaf : leafAddr s 5 root (va.toNat % 2 ^ 57) = some a) (ha : a + 8 ≤ memTop) :
    homeBytes (unmapPage root va s) a 8 = List.replicate 8 0 ∧
      ∀ k, k < memTop → k < a ∨ a + 8 ≤ k → homeByte (unmapPage root va s) k = homeByte s k := by
  have htop := memTop_le
  rw [unmapPage_of_leaf hleaf]
  exact ⟨homeBytes_homeWrite ha hwf, fun k hk hout =>
    homeByte_homeWrite_other a _ k (Nat.lt_of_lt_of_le hk htop) (Nat.le_trans ha htop) hout hwf⟩

/-! ### An object unloaded (spec/22 R353) -/

/-- A state after the pages of an object are unmapped. -/
def pagesUnmapped (o : Object) (s : State) : State := (pageVas o.base o.pages).foldl (fun t va => unmapPage o.root va t) s

theorem pagesUnmapped_cp (o : Object) (s : State) : (pagesUnmapped o s).cp = s.cp := foldl_cp _ (fun t va => unmapPage_cp o.root va t) _ s

/-- Whether a kept translation is of a page of an object. -/
def coversPage (o : Object) (e : TlbEntry) : Bool := decide (e.root = o.root) && (pageVas o.base o.pages).any (tlbCovers e)

theorem foldl_giveFrame (fs : List Nat) (s : State) :
    fs.foldl (fun t f => giveFrame f t) s = { s with svc := { s.svc with free := s.svc.free ++ fs.map (·, 1) } } := by
  induction fs generalizing s with
  | nil => simp
  | cons f fs ih => rw [List.foldl_cons, ih]; simp [giveFrame]

theorem unmapObject_eq (o : Object) (s : State) :
    unmapObject o s = { pagesUnmapped o s with
      mem := { (pagesUnmapped o s).mem with
        sealed := (pagesUnmapped o s).mem.sealed.filter fun f => !o.frames.contains f,
        tlb := (pagesUnmapped o s).mem.tlb.filter fun e => !coversPage o e },
      svc := { (pagesUnmapped o s).svc with free := (pagesUnmapped o s).svc.free ++ o.frames.map (·, 1) } } :=
  foldl_giveFrame o.frames _

/-- UNLOADGO answered: LOADRES written; UNLOADGO reads 0 again. -/
def unloadDone (v : W64) (s : State) : State := { s with cp := { s.cp with loadres := v, unloadgo := false } }

theorem exec_objectUnload_of_no_object {s : State} (h : ∀ o ∈ s.cp.objects, o.handle ≠ s.cp.unloadh) :
    exec .objectUnload s = .next (unloadDone (loadFailure 6) s) := by
  have hnone : s.cp.objects.find? (fun o => o.handle == s.cp.unloadh) = none := by simpa using h
  show execObjectUnload s = _
  simp only [execObjectUnload, hnone, unloadDone]

/-- UNLOADH names the object `o`. -/
def Unloads (s : State) (o : Object) : Prop := s.cp.objects.find? (fun x => x.handle == s.cp.unloadh) = some o

theorem exec_objectUnload_of_in_use {s : State} {o : Object} (h : Unloads s o) (huse : handleInUse s o.handle = true) :
    exec .objectUnload s = .next (unloadDone (loadFailure 5) s) := by
  unfold Unloads at h
  show execObjectUnload s = _
  simp only [execObjectUnload, h, huse, if_true, unloadDone]

theorem exec_objectUnload_of_unused {s : State} {o : Object} (h : Unloads s o) (huse : handleInUse s o.handle = false) :
    exec .objectUnload s = .next (unloadDone 0 { unmapObject o s with
      cp := { s.cp with objects := s.cp.objects.filter fun x => x.handle != o.handle } }) := by
  unfold Unloads at h
  have hcp : (unmapObject o s).cp = s.cp := by rw [unmapObject_eq]; exact pagesUnmapped_cp o s
  show execObjectUnload s = _
  simp only [execObjectUnload, h, huse, Bool.false_eq_true, if_false, unloadDone, hcp]

theorem mem_tlb_unmapObject (o : Object) (s : State) (e : TlbEntry) :
    e ∈ (unmapObject o s).mem.tlb ↔
      e ∈ (pagesUnmapped o s).mem.tlb ∧ ¬(e.root = o.root ∧ (pageVas o.base o.pages).any (tlbCovers e) = true) := by
  rw [unmapObject_eq, List.mem_filter, Bool.not_eq_true', ← Bool.not_eq_true, coversPage, Bool.and_eq_true, decide_eq_true_iff]

theorem objectsUnloaded : Claims.ObjectsUnloaded := by
  intro s
  refine ⟨fun hnone => ⟨_, exec_objectUnload_of_no_object hnone, rfl, rfl, rfl⟩,
    fun o ho => ⟨fun huse => ⟨_, exec_objectUnload_of_in_use ho huse, rfl, rfl, rfl⟩,
      fun huse => ⟨_, exec_objectUnload_of_unused ho huse, rfl, rfl, rfl, ?_, ?_, mem_tlb_unmapObject o s, ?_⟩⟩,
    fun root va a hwf hleaf ha => unmapPage_clears_leaf hwf hleaf ha, fun root va => unmapPage_of_no_leaf⟩
  all_goals simp only [unloadDone, unmapObject_eq, pagesUnmapped]

/-! ### An image that verifies (spec/22 R352, steps 1 to 3) -/

theorem signedFailure_eq_none {keys : Option OwnerKeys} {m : Signed} :
    signedFailure keys m = none ↔ m.digest = sha384 (signedBytes m) ∧ ∃ k, keys = some k ∧
      ecdsaOk k.ecdsa (sha384 (signedBytes m)) m.sigR m.sigS = true ∧ lmsOk k.lmsId k.lmsRoot m.lms (sha384 (signedBytes m)) = true := by
  unfold signedFailure
  dsimp only
  split
  · next hdigest => simp [hdigest]
  · next hdigest =>
    replace hdigest := Decidable.of_not_not hdigest
    cases keys with
    | none => simp
    | some k =>
      simp only [hdigest, true_and, Option.some.injEq, exists_eq_left']
      cases ecdsaOk k.ecdsa (sha384 (signedBytes m)) m.sigR m.sigS with
      | false => simp
      | true => simp

theorem signatureFailure_eq_none {keys : Option OwnerKeys} {m : Image} :
    signatureFailure keys m = none ↔
      m.segs ≠ [] ∧ (∀ g ∈ m.segs, segShape g = true) ∧ signedFailure keys m.signed = none := by
  have hshape : (m.segs.isEmpty || !m.segs.all segShape) = false ↔ m.segs ≠ [] ∧ ∀ g ∈ m.segs, segShape g = true := by simp
  rw [← and_assoc, ← hshape, signatureFailure]
  split
  · next hbad => simp [hbad]
  · next hgood => simp [hgood]

/-! ### The steps of a load (spec/22 R352) -/

/-- The image an OBJECT_LOAD carries holds the bytes at LOADPA, and none of them is poisoned. -/
structure Reads (m : Image) (s : State) : Prop where
  bytes : m.signed.bytes = homeBytes s s.cp.loadpa.toNat s.cp.loadlen.toNat
  clean : homePoison s s.cp.loadpa.toNat s.cp.loadlen.toNat = false

/-- It verifies as well, and is placed as `x`. -/
structure Verifies (m x : Image) (s : State) : Prop extends Reads m s where
  signed : signatureFailure s.mgmt.owner m = none
  placed : placedImage m = some x

section

variable {m x : Image} {s : State}

theorem exec_objectLoad_of_other_bytes (h : m.signed.bytes ≠ homeBytes s s.cp.loadpa.toNat s.cp.loadlen.toNat) :
    exec (.objectLoad m) s = .next s := if_pos h

theorem exec_objectLoad_of_poison (h : m.signed.bytes = homeBytes s s.cp.loadpa.toNat s.cp.loadlen.toNat)
    (hpoison : homePoison s s.cp.loadpa.toNat s.cp.loadlen.toNat = true) :
    exec (.objectLoad m) s = .next (loadDone (loadFailure 1) s) :=
  (if_neg (not_not_intro h)).trans (if_pos hpoison)

theorem exec_objectLoad_of_signature {n : Nat} (h : Reads m s) (hn : signatureFailure s.mgmt.owner m = some n) :
    exec (.objectLoad m) s = .next (loadDone (loadFailure n) s) := by
  show execObjectLoad m s = _
  simp [execObjectLoad, h.bytes, h.clean, hn]

theorem exec_objectLoad_of_no_region (h : Verifies m x s) (hregion : regionValid s s.cp.loadrgn.toNat = false) :
    exec (.objectLoad m) s = .next (loadDone (loadFailure 7) s) := by
  show execObjectLoad m s = _
  simp [execObjectLoad, h.bytes, h.clean, h.signed, h.placed, hregion]

theorem exec_objectLoad_of_region {e : Effective} (h : Verifies m x s) (hregion : regionValid s s.cp.loadrgn.toNat = true)
    (he : effectiveNow s s.cp.loadrgn.toNat = some e) : exec (.objectLoad m) s = .next (placeObject x e.eff s) := by
  show execObjectLoad m s = _
  simp [execObjectLoad, h.bytes, h.clean, h.signed, h.placed, hregion, he]

variable {e : Eff}

theorem placeObject_of_rejected (h : loaderRejects s e x = true) : placeObject x e s = loadDone (loadFailure 4) s := if_pos h

theorem placeObject_of_no_range (h : loaderRejects s e x = false)
    (hrange : rangeFree s e.ptRoot s.cp.loadva (spanOf (sectionsOf x)) = false) : placeObject x e s = loadDone (loadFailure 7) s := by
  simp [placeObject, h, hrange]

theorem placeObject_of_loaded {fs : List Nat} {v : State} (h : loaderRejects s e x = false)
    (hrange : rangeFree s e.ptRoot s.cp.loadva (spanOf (sectionsOf x)) = true)
    (hload : loadSections e.ptRoot s.cp.loadva (sectionsOf (relocated s.cp.loadva (freshHandle s) x)) s = some (fs, v)) :
    placeObject x e s = loadDone (freshHandle s) { v with
      freeCtr := v.freeCtr + 1,
      cp := { v.cp with
        objects := v.cp.objects ++ [objectFrom x (freshHandle s) e.ptRoot s.cp.loadva fs], nextHandle := v.cp.nextHandle + 1 } } := by
  simp [placeObject, h, hrange, hload]

end

theorem objectsLoaded : Claims.ObjectsLoaded := by
  intro s m
  refine ⟨exec_objectLoad_of_other_bytes, fun hbytes => ⟨exec_objectLoad_of_poison hbytes, fun hclean => ?_⟩,
    fun keys => signatureFailure_eq_none.trans (by rw [signedFailure_eq_none])⟩
  have hreads : Reads m s := ⟨hbytes, hclean⟩
  refine ⟨fun n => exec_objectLoad_of_signature hreads, fun x hsigned hplaced => exec_objectLoad_of_no_region ⟨hreads, hsigned, hplaced⟩,
    fun x e hsigned hplaced hregion he => ?_⟩
  rw [exec_objectLoad_of_region ⟨hreads, hsigned, hplaced⟩ hregion he]
  refine ⟨fun hrejects => ?rejected, fun hloader hrange => ?noRange, fun fs v hloader hrange hload => ?placed⟩
  case rejected => rw [placeObject_of_rejected hrejects]
  case noRange => rw [placeObject_of_no_range hloader hrange]
  case placed => rw [placeObject_of_loaded hloader hrange hload]; exact ⟨_, rfl, rfl, rfl, rfl, rfl, rfl⟩

/-- Settles O59: each check of a load in its order leads to one answer, and an unload writes zeros over each leaf of the object. -/
theorem objects : Obligations.Objects := ⟨objectsLoaded, objectsUnloaded⟩

end Sys2Proof.Objects
end

section
/-! O33, the choice of a pair's group scheduler (spec/05 R103, R104, spec/06 R122): the rivals it chooses among, and the three ways in
which a warp of them comes to be chosen. -/

namespace Sys2Proof.SchedulerChoice

open Sys2Proof.Machine

/-! ### The warp of least rank -/

theorem leastBy_eq_none {rank : Warp → Nat} {ws : List Warp} (h : leastBy rank ws = none) : ws = [] := by
  cases ws with
  | nil => rfl
  | cons y ws =>
    unfold leastBy at h
    split at h
    · cases h
    · split at h <;> cases h

theorem leastBy_eq_some {rank : Warp → Nat} {ws : List Warp} {w : Warp} (h : leastBy rank ws = some w) :
    w ∈ ws ∧ ∀ x ∈ ws, rank w ≤ rank x := by
  induction ws generalizing w with
  | nil => cases h
  | cons y ws ih =>
    unfold leastBy at h
    split at h
    case h_1 hnone => cases h; simp [leastBy_eq_none hnone]
    case h_2 v hv =>
      obtain ⟨hmem, hleast⟩ := ih hv
      split at h
      next hle =>
        cases h
        exact ⟨List.mem_cons_self, List.forall_mem_cons.mpr ⟨Nat.le_refl _, fun x hx => Nat.le_trans hle (hleast x hx)⟩⟩
      next hgt =>
        cases h
        exact ⟨List.mem_cons_of_mem _ hmem, List.forall_mem_cons.mpr ⟨Nat.le_of_not_le hgt, hleast⟩⟩

/-! ### The rivals of a pair -/

section Rivals

variable {s : State} {core pair : Nat} {x : Warp}

theorem mem_rivals : x ∈ (rivals s core pair).1 ↔ x ∈ readyWarps s core pair ∧ warpPrio s x = (rivals s core pair).2 := by
  simp [rivals]

theorem rivals_prio (h : readyWarps s core pair ≠ []) :
    (rivals s core pair).2 = max 0 (((readyWarps s core pair).map (warpPrio s)).max (mt List.map_eq_nil_iff.mp h)) :=
  List.foldl_max_eq_max _

theorem warpPrio_le_rivals (h : x ∈ readyWarps s core pair) : warpPrio s x ≤ (rivals s core pair).2 := by
  rw [rivals_prio (List.ne_nil_of_mem h)]
  exact Nat.le_trans (List.le_max_of_mem (List.mem_map_of_mem h)) (Nat.le_max_right _ _)

/-- A ready warp whose priority is the maximum is a rival. -/
theorem readyWarps_eq_nil (h : (rivals s core pair).1 = []) : readyWarps s core pair = [] := by
  refine Decidable.byContradiction fun hne => ?_
  have hprios : (readyWarps s core pair).map (warpPrio s) ≠ [] := mt List.map_eq_nil_iff.mp hne
  obtain ⟨y, hy, hmax⟩ := List.mem_map.mp (List.max_mem hprios)
  have hrival : y ∈ (rivals s core pair).1 := mem_rivals.mpr ⟨hy, by rw [rivals_prio hne, hmax, Nat.zero_max]⟩
  exact List.ne_nil_of_mem hrival h

end Rivals

/-! ### How a warp comes to be chosen -/

/-- Whether a warp may stay the chosen one (spec/05 R104): chosen last, inside its segment, and not having run YIELD. -/
def stays (s : State) (core pair : Nat) (w : Warp) : Bool := choseLast s core pair w && w.ctx.inSeg && !w.yielded

/-- The distance of a warp's activation slot from the one after the slot chosen last at a priority, round the 64 slots. -/
def turn (s : State) (core pair p : Nat) (w : Warp) : Nat :=
  (w.actSlot + 64 - ((AList.find (coreAt s core).lastAt (16 * pair + p)).elim 0 (· + 1)) % 64) % 64

/-- The three ways to be chosen among warps of one priority: passed over 64 times, staying, or in turn. -/
inductive Chosen (s : State) (core pair : Nat) (r : List Warp) (p : Nat) (w : Warp) : Prop
  | passedOver (skipped : 64 ≤ w.skip)
  | staying (noneSkipped : ∀ x ∈ r, x.skip < 64) (staysOn : stays s core pair w = true)
  | inTurn (noneSkipped : ∀ x ∈ r, x.skip < 64) (noneStays : ∀ x ∈ r, stays s core pair x = false)
      (first : ∀ x ∈ r, x.yielded = false → w.yielded = false ∧ turn s core pair p w ≤ turn s core pair p x)

section Choice

variable {s : State} {core pair p : Nat} {r : List Warp} {w : Warp}

/-- The warps that take turns: those that have not run YIELD, or all when each has. -/
def turnTakers (r : List Warp) : List Warp :=
  if (r.filter fun w => !w.yielded).isEmpty then r else r.filter fun w => !w.yielded

theorem turnTakers_subset : turnTakers r ⊆ r := by
  unfold turnTakers
  split
  · exact List.Subset.refl r
  · exact fun _ h => (List.mem_filter.mp h).1

theorem turnTakers_eq_nil (h : turnTakers r = []) : r = [] := by
  unfold turnTakers at h
  split at h
  · exact h
  · next hne => exact absurd (List.isEmpty_iff.mpr h) hne

theorem turnTakers_of_fresh {x : Warp} (hx : x ∈ r) (hfresh : x.yielded = false) : turnTakers r = r.filter fun w => !w.yielded :=
  if_neg fun h => List.ne_nil_of_mem (List.mem_filter.mpr ⟨hx, by simp [hfresh]⟩) (List.isEmpty_iff.mp h)

/-- The branches of the scheduler's choice: a warp passed over often, one that stays, or the first in turn. -/
theorem chooseWarp_eq : chooseWarp s core pair r p =
    if (r.filter fun w => decide (64 ≤ w.skip)) = [] then
      (r.find? (stays s core pair)).or (leastBy (turn s core pair p) (turnTakers r))
    else leastBy (fun w => (2 ^ 32 - w.skip) * 64 + w.actSlot) (r.filter fun w => decide (64 ≤ w.skip)) := by
  have hturn : turn s core pair p = fun w => (w.actSlot + 64 -
      (match AList.find (coreAt s core).lastAt (16 * pair + p) with | some x => x + 1 | none => 0) % 64) % 64 := by
    unfold turn; cases AList.find (coreAt s core).lastAt (16 * pair + p) <;> rfl
  rw [hturn]
  unfold chooseWarp
  dsimp only
  split
  · next hsticky hlate => rw [if_pos hlate]; exact congrArg (Option.or · _) hsticky.symm
  · next hlate => rw [if_neg (by simp [hlate]), hlate]
  · next hsticky hlate => rw [if_pos hlate]; exact congrArg (Option.or · _) hsticky.symm

theorem chooseWarp_eq_none (h : chooseWarp s core pair r p = none) : r = [] := by
  rw [chooseWarp_eq] at h
  split at h
  · exact turnTakers_eq_nil (leastBy_eq_none (Option.or_eq_none_iff.mp h).2)
  · next hlate => exact absurd (leastBy_eq_none h) hlate

/-- The first in turn: when some warp has not run YIELD it is one of those that have not, and the nearest of them. -/
theorem leastBy_turnTakers (h : leastBy (turn s core pair p) (turnTakers r) = some w) {x : Warp} (hx : x ∈ r)
    (hfresh : x.yielded = false) : w.yielded = false ∧ turn s core pair p w ≤ turn s core pair p x := by
  rw [turnTakers_of_fresh hx hfresh] at h
  obtain ⟨hmem, hleast⟩ := leastBy_eq_some h
  exact ⟨by simpa using (List.mem_filter.mp hmem).2, hleast x (List.mem_filter.mpr ⟨hx, by simp [hfresh]⟩)⟩

theorem chooseWarp_eq_some (h : chooseWarp s core pair r p = some w) : w ∈ r ∧ Chosen s core pair r p w := by
  rw [chooseWarp_eq] at h
  split at h
  next hlate =>
    have hskip : ∀ x ∈ r, x.skip < 64 := by simpa using hlate
    obtain hfound | ⟨hnone, hturn⟩ := Option.or_eq_some_iff.mp h
    · exact ⟨List.mem_of_find?_eq_some hfound, .staying hskip (List.find?_some hfound)⟩
    · have hstays : ∀ x ∈ r, stays s core pair x = false := by simpa using hnone
      exact ⟨turnTakers_subset (leastBy_eq_some hturn).1, .inTurn hskip hstays fun _ => leastBy_turnTakers hturn⟩
  next =>
    obtain ⟨hmem, hskipped⟩ := List.mem_filter.mp (leastBy_eq_some h).1
    exact ⟨hmem, .passedOver (of_decide_eq_true hskipped)⟩

end Choice

/-! ### What each way to be chosen says of the other rivals -/

namespace Chosen

variable {s : State} {core pair p : Nat} {r : List Warp} {w x : Warp}

theorem skipped_of_skipped (h : Chosen s core pair r p w) (hx : x ∈ r) (hskip : 64 ≤ x.skip) : 64 ≤ w.skip := by
  cases h with
  | passedOver skipped => exact skipped
  | staying noneSkipped => exact absurd hskip (Nat.not_le_of_lt (noneSkipped x hx))
  | inTurn noneSkipped => exact absurd hskip (Nat.not_le_of_lt (noneSkipped x hx))

/-- A warp that stays has not run YIELD, and one that has takes its turn only after all that have not. -/
theorem yielded_of_yielded (h : Chosen s core pair r p w) (hx : x ∈ r) (hw : w.yielded = true) (hskip : w.skip < 64) :
    x.yielded = true := by
  cases h with
  | passedOver skipped => exact absurd skipped (Nat.not_le_of_lt hskip)
  | staying _ staysOn => simp [stays, hw] at staysOn
  | inTurn _ _ first =>
    refine Decidable.byContradiction fun hused => ?_
    obtain ⟨hfresh, -⟩ := first x hx (Bool.eq_false_iff.mpr hused)
    exact Bool.false_ne_true (hfresh.symm.trans hw)

theorem stays_of_stays (h : Chosen s core pair r p w) (hw : w.skip < 64) (hx : x ∈ r) (hstays : stays s core pair x = true) :
    stays s core pair w = true := by
  cases h with
  | passedOver skipped => exact absurd skipped (Nat.not_le_of_lt hw)
  | staying _ staysOn => exact staysOn
  | inTurn _ noneStays => simp [noneStays x hx] at hstays

theorem turn_le (h : Chosen s core pair r p w) (hmem : w ∈ r) (hw : w.skip < 64) (hnone : ∀ y ∈ r, stays s core pair y = false)
    (hx : x ∈ r) (hfresh : x.yielded = false) : w.yielded = false ∧ turn s core pair p w ≤ turn s core pair p x := by
  cases h with
  | passedOver skipped => exact absurd skipped (Nat.not_le_of_lt hw)
  | staying _ staysOn => simp [hnone w hmem] at staysOn
  | inTurn _ _ first => exact first x hx hfresh

end Chosen

/-- Settles O33: the chosen warp is a rival, chosen in one of three ways, and each way answers for the warps it goes before. -/
theorem schedulerChoice : Obligations.SchedulerChoice := by
  intro s core pair
  refine ⟨fun w hw => ?chosen, fun hnone => readyWarps_eq_nil (chooseWarp_eq_none hnone), fun w hw hskip => ?order⟩
  case chosen =>
    obtain ⟨hmem, hway⟩ := chooseWarp_eq_some hw
    obtain ⟨hready, hprio⟩ := mem_rivals.mp hmem
    refine ⟨hready, fun x hx => ⟨hprio ▸ warpPrio_le_rivals hx, fun heq => ?_, fun heq => ?_⟩⟩
    · exact hway.skipped_of_skipped (mem_rivals.mpr ⟨hx, heq.trans hprio⟩)
    · exact hway.yielded_of_yielded (mem_rivals.mpr ⟨hx, heq.trans hprio⟩)
  case order =>
    obtain ⟨hmem, hway⟩ := chooseWarp_eq_some hw
    exact ⟨fun ⟨_, hx, hstays⟩ => hway.stays_of_stays (hskip w hmem) hx hstays,
      fun hnone _ hx hfresh => hway.turn_le hmem (hskip w hmem) hnone hx hfresh⟩

end Sys2Proof.SchedulerChoice
end

section
/-! O5, the floating-point words of class A3 (spec/07 R136 to R145): one mould reads the sources, raises the flags and writes the
result, and each word is that mould with its own operation. -/

namespace Sys2Proof.FloatWords

open Sys2Proof.Machine Sys2Proof.Safety Sys2Proof.Laws

/-! ### Sources -/

theorem tyWidth_eq (t : Ty) : tyWidth t = 32 ∨ tyWidth t = 64 := by
  unfold tyWidth; split <;> simp

/-- After a word's distance a source whose results are written still reads what its register holds. -/
theorem readNat_tick {s : State} {us : List Use} (hset : Settled s (us.flatMap useNames)) (dist : BitVec 3) {u : Use} (hu : u ∈ us)
    (hw : u.width = 32 ∨ u.width = 64) : readNat (tick dist s) u.width u.reg = source s u.width u.reg := by
  have hnames : Settled s (useNames u) := fun z hz hmem => hset z hz (List.mem_flatMap.mpr ⟨u, hu, hmem⟩)
  funext l
  rw [readNat_settled hw (settled_tick hnames dist), source_tick]

theorem readA_tick {f : A3} {w : Nat} {s : State} {us : List Use} (hset : Settled s (us.flatMap useNames)) (dist : BitVec 3)
    (hu : useA f w ∈ us) (hw : w = 32 ∨ w = 64) : readNat (tick dist s) w f.a = source s w f.a :=
  readNat_tick hset dist hu hw

theorem readB_tick {f : A3} {w : Nat} {s : State} {us : List Use} (hset : Settled s (us.flatMap useNames)) (dist : BitVec 3)
    (hu : useB f w ∈ us) (hw : w = 32 ∨ w = 64) : readNat (tick dist s) w f.b = source s w f.b :=
  readNat_tick hset dist hu hw

theorem readC_tick {f : A3} {w : Nat} {s : State} {us : List Use} (hset : Settled s (us.flatMap useNames)) (dist : BitVec 3)
    (hu : useC f w ∈ us) (hw : w = 32 ∨ w = 64) : readNat (tick dist s) w f.c = source s w f.c :=
  readNat_tick hset dist hu hw

/-! ### The mould of a word with a floating-point result -/

theorem raiseFp_g (run : Mask) (fl : Nat → FpFlags) (c : Ctx) : (raiseFp run fl c).g = c.g := by simp only [raiseFp]

/-- Raising flags takes no line: there is room as before. -/
theorem lineRoom_raiseFp (s : State) (run : Mask) (fl : Nat → FpFlags) (n : Nat) :
    lineRoom (modCtx s (raiseFp run fl)) n = lineRoom s n :=
  lineRoom_same (t := modCtx s (raiseFp run fl)) (modCtx_warps _ _) (modCtx_launch _ _) (modCtx_launches _ _) (modCtx_cp _ _)
    rfl (raiseFp_g run fl (ctxOf s)) n

variable {i : Instr} {dist : BitVec 3} {body : Mask → State → Res} {us : List Use} {d : BitVec 7} {is64 signed : Bool} {sep : Nat}
  {g v : State → Nat → FpRes}

/-- A word that is `fpWord` on its sources writes the result and raises the flags of its operation, and nothing else. -/
theorem floats_of_fpWord (hx : ∀ s, exec i s = runWord i dist body s)
    (hbody : ∀ run s, body run s = fpWord run us d is64 signed sep g s)
    (hv : ∀ s, Settled s (us.flatMap useNames) → g (tick dist s) = v s) :
    Floats i dist us d (if is64 then 64 else 32) signed v := by
  refine computes_of (ps := fun s => [_]) sep hx (fun s => by cases is64 <;> simp) fun s ⟨hset, hpresent⟩ hroom huni => ?_
  have hset : Settled s (us.flatMap useNames) := by simpa using hset
  have hpresent : Present (tick dist s) us := hpresent
  have hlines : dstLines d (if is64 then 64 else 32) = linesOf [⟨d, if is64 then 64 else 32, signed, fun l => (v s l).1⟩] := by
    simp [linesOf]
  rw [hbody, fpWord, reading_done hpresent, hv s hset, putReg_done]
  · rw [afterReads_eq _ (settled_tick hset dist) []]
    rfl
  · rw [lineRoom_raiseFp, roomFor_tick dist hset, hlines]
    exact hroom
  · exact huni _ (List.mem_singleton.mpr rfl)

/-! ### Its sources: one, two or three registers of class A3 -/

section Sources
variable {f : A3} {wa wb wc : Nat}

theorem floats_of_one (hx : ∀ s, exec i s = runWord i dist body s)
    (hbody : ∀ run s, body run s = fpWord run [useA f wa] d is64 signed sep g s) (hwa : wa = 32 ∨ wa = 64)
    (hv : ∀ s, readNat (tick dist s) wa f.a = source s wa f.a → g (tick dist s) = v s) :
    Floats i dist [useA f wa] d (if is64 then 64 else 32) signed v :=
  floats_of_fpWord hx hbody fun s hset => hv s (readA_tick hset dist (by simp) hwa)

theorem floats_of_two (hx : ∀ s, exec i s = runWord i dist body s)
    (hbody : ∀ run s, body run s = fpWord run [useA f wa, useB f wb] d is64 signed sep g s)
    (hwa : wa = 32 ∨ wa = 64) (hwb : wb = 32 ∨ wb = 64)
    (hv : ∀ s, readNat (tick dist s) wa f.a = source s wa f.a → readNat (tick dist s) wb f.b = source s wb f.b →
      g (tick dist s) = v s) :
    Floats i dist [useA f wa, useB f wb] d (if is64 then 64 else 32) signed v :=
  floats_of_fpWord hx hbody fun s hset => hv s (readA_tick hset dist (by simp) hwa)
    (readB_tick hset dist (by simp) hwb)

theorem floats_of_three (hx : ∀ s, exec i s = runWord i dist body s)
    (hbody : ∀ run s, body run s = fpWord run [useA f wa, useB f wb, useC f wc] d is64 signed sep g s)
    (hwa : wa = 32 ∨ wa = 64) (hwb : wb = 32 ∨ wb = 64) (hwc : wc = 32 ∨ wc = 64)
    (hv : ∀ s, readNat (tick dist s) wa f.a = source s wa f.a → readNat (tick dist s) wb f.b = source s wb f.b →
      readNat (tick dist s) wc f.c = source s wc f.c → g (tick dist s) = v s) :
    Floats i dist [useA f wa, useB f wb, useC f wc] d (if is64 then 64 else 32) signed v :=
  floats_of_fpWord hx hbody fun s hset => hv s (readA_tick hset dist (by simp) hwa)
    (readB_tick hset dist (by simp) hwb) (readC_tick hset dist (by simp) hwc)

end Sources

/-- A two-operand word of spec/07 R138 is its operation on the elements of its sources. -/
theorem floatBinary_of_fpBin {f : A3} {op : Nat → Nat → FpRes} (hx : ∀ s, exec i s = runWord i f.dist (fpBin f op) s) :
    FloatBinary i f op :=
  floats_of_two hx (fun _ _ => rfl) (tyWidth_eq f.ty) (tyWidth_eq f.ty) fun s ha hb => by
    funext l; simp only [fpResult2, srcA, srcB, ha, hb]

/-- FCMP writes its predicate and raises its flags. -/
theorem fcmp_computes (f : A3) :
    Computes (.fcmp f) f.dist (reads [useA f (tyWidth f.ty), useB f (tyWidth f.ty)]) (fun _ => [])
      (fun s => [(f.d.toNat % 8, fun l =>
        let x := unpackFp (tyFmt f.ty) (fpElem f.ty f.na (srcA f s l) 0)
        let y := unpackFp (tyFmt f.ty) (fpElem f.ty f.nb (srcB f s l) 0)
        floatCond (f.d.toNat / 8) (isNan x || isNan y) (ltFp x y) (eqFp x y))])
      (fun s l => fcmpFlags (f.d.toNat / 8) (unpackFp (tyFmt f.ty) (fpElem f.ty f.na (srcA f s l) 0))
        (unpackFp (tyFmt f.ty) (fpElem f.ty f.nb (srcB f s l) 0))) := by
  refine computes_of (fpSep (tyIs64 f.ty)) (fun s => show execFcmp f s = _ from rfl) (fun s p hp => absurd hp List.not_mem_nil)
    fun s ⟨hset, hpresent⟩ _ _ => ?_
  have hset : Settled s ([useA f (tyWidth f.ty), useB f (tyWidth f.ty)].flatMap useNames) := by simpa using hset
  have hpresent : Present (tick f.dist s) [useA f (tyWidth f.ty), useB f (tyWidth f.ty)] := hpresent
  have ha := readA_tick (f := f) hset f.dist (by simp) (tyWidth_eq f.ty)
  have hb := readB_tick (f := f) hset f.dist (by simp) (tyWidth_eq f.ty)
  simp only [reading_done hpresent, ha, hb, afterReads_eq _ (settled_tick hset f.dist) []]
  rfl

theorem fcvt_floats_packed {f : A3} (h : f.ty = .f16x2 ∨ f.ty = .bf16x2) :
    Floats (.fcvt f) f.dist [useA f 32, useB f 32] f.d 32 false (fun s l =>
      fpPack f.ty fun e =>
        cvtFp fmt32 (tyFmt f.ty) f.rnd.toNat (if e = 0 then source s 32 f.a l else source s 32 f.b l)) :=
  floats_of_two (is64 := false) (fun s => show execFcvt f s = _ from rfl) (fun _ _ => if_pos h) (.inl rfl) (.inl rfl) fun s ha hb => by
    funext l; simp only [ha, hb]

/-- Settles O5: each word is the mould of `fpWord` with its own operation; FCLASS raises no flag, and FCMP writes a predicate. -/
theorem floatWords : Obligations.FloatWords := by
  intro f
  have hw := tyWidth_eq f.ty
  have haux := tyWidth_eq (auxTy f)
  have h32 : (32 : Nat) = 32 ∨ (32 : Nat) = 64 := .inl rfl
  refine ⟨floatBinary_of_fpBin fun _ => rfl, floatBinary_of_fpBin fun _ => rfl, floatBinary_of_fpBin fun _ => rfl, ?ffma,
    floatBinary_of_fpBin fun _ => rfl, floatBinary_of_fpBin fun _ => rfl, ?fdot2, ?frnd, fcvt_floats_packed, ?fcvt, ?f2i, ?i2f,
    ?fclass, ?fscale, fcmp_computes f, ?qnt, ?dqnt⟩
  case ffma =>
    exact floats_of_three (fun s => show execFfma f s = _ from rfl) (fun _ _ => rfl) hw hw hw fun s ha hb hc => by
      funext l; simp only [srcA, srcB, srcC, ha, hb, hc]
  case fdot2 =>
    exact floats_of_three (is64 := false) (fun s => show execFdot2 f s = _ from rfl) (fun _ _ => rfl) h32 h32 h32 fun s ha hb hc => by
      funext l; simp only [ha, hb, hc]
  case frnd =>
    exact floats_of_one (fun s => show execFrnd f s = _ from rfl) (fun _ _ => rfl) hw fun s ha => by
      funext l; simp only [srcA, ha]
  case fcvt =>
    exact fun h => floats_of_one (fun s => show execFcvt f s = _ from rfl) (fun _ _ => if_neg h) haux fun s ha => by
      funext l; simp only [ha]
  case f2i =>
    exact floats_of_one (fun s => show execF2i f s = _ from rfl) (fun _ _ => rfl) haux fun s ha => by
      funext l; simp only [ha]
  case i2f =>
    exact floats_of_one (fun s => show execI2f f s = _ from rfl) (fun _ _ => rfl) haux fun s ha => by
      funext l; simp only [ha]
  case fclass =>
    exact dataWord_computes (is64 := false) (fun s => show execFclass f s = _ from rfl) fun s hset => by
      funext l; simp only [srcA, readA_tick (f := f) hset f.dist (by simp) hw]
  case fscale =>
    exact floats_of_two (fun s => show execFscale f s = _ from rfl) (fun _ _ => rfl) hw h32 fun s ha hb => by
      funext l; simp only [srcA, ha, hb]
  case qnt =>
    exact floats_of_two (is64 := false) (fun s => show execQnt f s = _ from rfl) (fun _ _ => rfl) h32 h32 fun s ha hb => by
      funext l; simp only [ha, hb, tick_launch]
  case dqnt =>
    exact floats_of_two (is64 := false) (fun s => show execDqnt f s = _ from rfl) (fun _ _ => rfl) h32 h32 fun s ha hb => by
      funext l; simp only [ha, hb, tick_launch]

end Sys2Proof.FloatWords
end

section
/-! O7, the SFU words (spec/07 R146, R147): their results are fixed at issue and travel with the operation they start. -/

namespace Sys2Proof.SfuWords

open Sys2Proof.Machine Sys2Proof.Safety Sys2Proof.Laws Sys2Proof.FloatWords

/-- With room for its lines and below the limit of its counter, a later result issues. -/
theorem issueLater_done {s0 s : State} {i : Instr} {run : Mask} {counter : Nat} {d : BitVec 7} {width : Nat} {kind : OpKind}
    (hroom : lineRoom s (dstLines d width) = true) (hcounter : counterOf (ctxOf s0) counter < 65535) :
    issueLater s0 s i run counter d width kind = .done (issueFrom (ctxOf s0) s i run counter (laterDst d width run) kind) := by
  rw [issueLater, if_pos hroom, counted, if_neg (Nat.not_le_of_lt hcounter)]

variable {i : Instr} {f : A3} {us : List Use} {g v : State → Nat → FpRes}

/-- A word that is `sfuWord` on its sources starts the operation that lands the results of its function. -/
theorem sfu_of_sfuWord (hx : ∀ s, exec i s = runWord i f.dist (sfuWord i f us g) s)
    (hv : ∀ s, Settled s (us.flatMap useNames) → g (tick f.dist s) = v s) : Sfu i f us v := by
  intro s hready ⟨hset, hpresent⟩ hroom hcounter _
  have hset : Settled s (us.flatMap useNames) := by simpa [reads] using hset
  have hpresent : Present (tick f.dist s) us := hpresent
  have hreads := afterReads_eq (s := tick f.dist s) (runMask (ctxOf s)) (settled_tick hset f.dist) []
  refine ⟨_, ?issues, launched_of (ctxOf (tick f.dist s)) s (afterReads (tick f.dist s) (runMask (ctxOf s)) us) f.dist us i 0 _ _
    hset rfl ?rest, ?tags⟩
  case issues =>
    rw [hx, runWord_ready hready, sfuWord, reading_done hpresent, hv s hset, issueLater_done, roomed_done]
    · rfl
    · rwa [roomFor_tick f.dist hset]
    · exact hcounter
  case rest => rw [hreads]; exact ⟨_, _, _, _, _, _, rfl⟩
  case tags => rw [hreads]; rfl

/-- A one-source SFU word is its function on its source. -/
theorem sfuUnary_of_sfuUn {fn : Nat → FpRes} (hx : ∀ s, exec i s = runWord i f.dist (sfuUn i f fn) s) : SfuUnary i f fn :=
  sfu_of_sfuWord hx fun s hset => by
    funext l; simp only [srcA, readA_tick (f := f) hset f.dist (by simp) (tyWidth_eq f.ty)]

theorem fdiv_sfu (f : A3) : Sfu (.fdiv f) f [useA f (tyWidth f.ty), useB f (tyWidth f.ty)] (fun s l =>
    divFp (tyFmt f.ty) f.rnd.toNat (unpackFp (tyFmt f.ty) (srcA f s l)) (unpackFp (tyFmt f.ty) (srcB f s l))) :=
  sfu_of_sfuWord (fun s => show execFdiv f s = _ from rfl) fun s hset => by
    funext l
    simp only [srcA, srcB, readA_tick (f := f) hset f.dist (by simp) (tyWidth_eq f.ty),
      readB_tick (f := f) hset f.dist (by simp) (tyWidth_eq f.ty)]

/-- Settles O7: the one-source words by their mould, and FDIV with its two sources. -/
theorem sfuWords : Obligations.SfuWords := fun f =>
  ⟨sfuUnary_of_sfuUn fun _ => rfl, sfuUnary_of_sfuUn fun _ => rfl, sfuUnary_of_sfuUn fun _ => rfl, sfuUnary_of_sfuUn fun _ => rfl,
    sfuUnary_of_sfuUn fun _ => rfl, sfuUnary_of_sfuUn fun _ => rfl, sfuUnary_of_sfuUn fun _ => rfl, sfuUnary_of_sfuUn fun _ => rfl,
    fdiv_sfu f⟩

end Sys2Proof.SfuWords
end

section
/-! O6, the corners of floating-point arithmetic (spec/07 R133 to R136): invalid operations, the four rounding modes, and the values a
format holds. -/

namespace Sys2Proof.FloatCorners

open Sys2Proof.Machine

/-! ### Invalid operations (spec/07 R133, R135) -/

section Invalid
variable (f : Fmt) (rnd : Nat) (s : Bool) (x : Fp)

theorem addFp_nan_left : addFp f rnd (.nan s) x = (nanBits f, if s || isSnan x then flNV else 0) := by
  simp [addFp, isNan, nanOf, isSnan, flagIf]

theorem addFp_nan_right : addFp f rnd x (.nan s) = (nanBits f, if s || isSnan x then flNV else 0) := by
  simp [addFp, isNan, nanOf, isSnan, flagIf, or_comm]

theorem mulFp_nan_left : mulFp f rnd (.nan s) x = (nanBits f, if s || isSnan x then flNV else 0) := by
  simp [mulFp, isNan, nanOf, isSnan, flagIf]

theorem mulFp_nan_right : mulFp f rnd x (.nan s) = (nanBits f, if s || isSnan x then flNV else 0) := by
  simp [mulFp, isNan, nanOf, isSnan, flagIf, or_comm]

/-- Infinities of both signs have no sum. -/
theorem addFp_inf_inf (n : Bool) : addFp f rnd (.inf n) (.inf (!n)) = (nanBits f, flNV) := by
  cases n <;> rfl

theorem subFp_inf_inf (n : Bool) : subFp f rnd (.inf n) (.inf n) = (nanBits f, flNV) := addFp_inf_inf f rnd n

end Invalid

theorem floatInvalid : Claims.FloatInvalid := fun f rnd =>
  ⟨fun s x => ⟨addFp_nan_left f rnd s x, addFp_nan_right f rnd s x, mulFp_nan_left f rnd s x, mulFp_nan_right f rnd s x⟩,
    fun n => ⟨addFp_inf_inf f rnd n, subFp_inf_inf f rnd n⟩, fun _ _ _ => ⟨rfl, rfl, rfl⟩⟩

/-! ### Rounding modes (spec/07 R134) -/

/-- A quotient raised by one when there is a remainder is the least number of steps of p that reaches m. -/
theorem raised_quotient_bounds (m : Nat) {p : Nat} (hp : 0 < p) :
    m ≤ (m / p + if m % p ≠ 0 then 1 else 0) * p ∧ (m / p + if m % p ≠ 0 then 1 else 0) * p < m + p := by
  have hm := Nat.div_add_mod' m p
  have hrem := Nat.mod_lt m hp
  split <;> simp only [Nat.add_mul, Nat.one_mul, Nat.add_zero] <;> omega

/-- Steps of p that are the quotient, raised by one only where there is a remainder, make m exactly when there is none. -/
theorem remainder_iff (m : Nat) {p : Nat} (hp : 0 < p) {up : Prop} [Decidable up] (hup : up → m % p ≠ 0) :
    m % p ≠ 0 ↔ (m / p + if up then 1 else 0) * p ≠ m := by
  have hm := Nat.div_add_mod' m p
  have hrem := Nat.mod_lt m hp
  by_cases h : up
  · have hne := hup h
    simp only [if_pos h, Nat.add_mul, Nat.one_mul]; omega
  · simp only [if_neg h, Nat.add_zero]; omega

theorem toNat_place_sub (k : Nat) (e : Int) : (e + k - e).toNat = k := by omega

section Modes
variable {k : Nat} (hk : 0 < k) (rnd : Nat) (neg : Bool) (m : Nat) (e : Int)
include hk

theorem not_place_le : ¬e + (k : Int) ≤ e := by omega

theorem roundAt_snd : (roundAt rnd neg m e (e + k)).2 = decide (m % 2 ^ k ≠ 0) := by
  simp only [roundAt, if_neg (not_place_le hk e), toNat_place_sub]

theorem roundAt_nearest : (roundAt 0 neg m e (e + k)).1 =
    m / 2 ^ k + if 2 ^ k < 2 * (m % 2 ^ k) ∨ 2 * (m % 2 ^ k) = 2 ^ k ∧ m / 2 ^ k % 2 = 1 then 1 else 0 := by
  simp only [roundAt, if_neg (not_place_le hk e), toNat_place_sub, Bool.or_eq_true, Bool.and_eq_true, decide_eq_true_eq]

theorem roundAt_towardZero : (roundAt 1 neg m e (e + k)).1 = m / 2 ^ k := by
  simp only [roundAt, if_neg (not_place_le hk e), toNat_place_sub, if_neg Bool.false_ne_true, Nat.add_zero]

theorem roundAt_down : (roundAt 2 neg m e (e + k)).1 = m / 2 ^ k + if neg = true ∧ m % 2 ^ k ≠ 0 then 1 else 0 := by
  simp only [roundAt, if_neg (not_place_le hk e), toNat_place_sub, Bool.and_eq_true, decide_eq_true_eq]

theorem roundAt_up : (roundAt 3 neg m e (e + k)).1 = m / 2 ^ k + if neg = false ∧ m % 2 ^ k ≠ 0 then 1 else 0 := by
  simp only [roundAt, if_neg (not_place_le hk e), toNat_place_sub, Bool.and_eq_true, Bool.not_eq_true', decide_eq_true_eq]

/-- To nearest: at most half a step away, and on an even number when exactly half a step away. -/
theorem roundAt_nearest_bounds :
    (let r := roundAt 0 neg m e (e + k)
     2 * m ≤ 2 * r.1 * 2 ^ k + 2 ^ k ∧ 2 * r.1 * 2 ^ k ≤ 2 * m + 2 ^ k ∧
       ((2 * m = 2 * r.1 * 2 ^ k + 2 ^ k ∨ 2 * r.1 * 2 ^ k = 2 * m + 2 ^ k) → r.1 % 2 = 0)) := by
  have hm := Nat.div_add_mod' m (2 ^ k)
  have hrem := Nat.mod_lt m (Nat.two_pow_pos k)
  simp only [roundAt_nearest hk, Nat.mul_assoc]
  generalize m / 2 ^ k = lo at *
  generalize m % 2 ^ k = rem at *
  split <;> simp only [Nat.add_mul, Nat.one_mul, Nat.add_zero] <;> omega

theorem roundAt_towardZero_bounds :
    (roundAt 1 neg m e (e + k)).1 * 2 ^ k ≤ m ∧ m < ((roundAt 1 neg m e (e + k)).1 + 1) * 2 ^ k := by
  rw [roundAt_towardZero hk]
  exact ⟨Nat.div_mul_le_self m _, Nat.lt_mul_of_div_lt (Nat.lt_succ_self _) (Nat.two_pow_pos k)⟩

/-- A mode directed away from zero takes the least multiple that reaches, one directed towards it the greatest that does not pass. -/
theorem roundAt_directed_bounds :
    (neg = false → (roundAt 2 neg m e (e + k)).1 = (roundAt 1 neg m e (e + k)).1 ∧ m ≤ (roundAt 3 neg m e (e + k)).1 * 2 ^ k ∧
      (roundAt 3 neg m e (e + k)).1 * 2 ^ k < m + 2 ^ k) ∧
    (neg = true → (roundAt 3 neg m e (e + k)).1 = (roundAt 1 neg m e (e + k)).1 ∧ m ≤ (roundAt 2 neg m e (e + k)).1 * 2 ^ k ∧
      (roundAt 2 neg m e (e + k)).1 * 2 ^ k < m + 2 ^ k) := by
  rw [roundAt_towardZero hk, roundAt_down hk, roundAt_up hk]
  have hraised := raised_quotient_bounds m (Nat.two_pow_pos k)
  cases neg <;> simpa using hraised

/-- Every mode is inexact exactly when bits are lost. -/
theorem roundAt_inexact_iff (hrnd : rnd < 4) :
    (roundAt rnd neg m e (e + k)).2 = true ↔ (roundAt rnd neg m e (e + k)).1 * 2 ^ k ≠ m := by
  have hp := Nat.two_pow_pos k
  rw [roundAt_snd hk, decide_eq_true_eq]
  obtain rfl | rfl | rfl | rfl : rnd = 0 ∨ rnd = 1 ∨ rnd = 2 ∨ rnd = 3 := by omega
  · rw [roundAt_nearest hk]; exact remainder_iff m hp (by omega)
  · rw [roundAt_towardZero hk]; exact remainder_iff m hp (up := False) False.elim
  · rw [roundAt_down hk]; exact remainder_iff m hp And.right
  · rw [roundAt_up hk]; exact remainder_iff m hp And.right

end Modes

theorem roundingModes : Claims.RoundingModes := by
  intro neg m k e hk
  obtain ⟨hbelow, habove⟩ := roundAt_towardZero_bounds hk neg m e
  obtain ⟨hpos, hneg⟩ := roundAt_directed_bounds hk neg m e
  exact ⟨roundAt_nearest_bounds hk neg m e, hbelow, habove, hpos, hneg, fun rnd hrnd => roundAt_inexact_iff hk rnd neg m e hrnd⟩

/-! ### Values a format holds (spec/07 R132, R134) -/

section Representable
variable {f : Fmt} (rnd : Nat) (neg : Bool)

/-- A multiple of the place it is rounded at stays as it is. -/
theorem roundAt_self (m : Nat) (e : Int) : roundAt rnd neg m e e = (m, false) := by
  simp [roundAt]

/-- A significand that fits the format, at the place of the exponent field `j + 1` where it has its leading bit and of the least one
where it has not, rounds to its own pattern. -/
theorem roundFin_exact {s j : Nat} (h0 : s ≠ 0) (hs : s < 2 ^ (f.frac + 1)) (hlead : 2 ^ f.frac ≤ s ∨ j = 0)
    (hfin : j * 2 ^ f.frac + s < infBits f) :
    roundFin f rnd neg s (minExp f - f.frac + j) = (withSign f neg (j * 2 ^ f.frac + s), 0) := by
  have hlog : s.log2 ≤ f.frac := Nat.le_of_lt_succ ((Nat.log2_lt h0).mpr hs)
  have hlog' : 2 ^ f.frac ≤ s → f.frac ≤ s.log2 := (Nat.le_log2 h0).mpr
  have hplace : max (leadExp s (minExp f - f.frac + j)) (minExp f) - f.frac = minExp f - f.frac + j := by
    rw [leadExp]; omega
  have hfield : (minExp f - f.frac + j + f.frac + biasOf f - 1).toNat = j := by rw [minExp]; omega
  simp only [roundFin, hplace, hfield, roundAt_self, if_neg (Nat.not_le_of_lt hfin)]
  simp [flagIf]

/-- A pattern is its sign and its magnitude. -/
theorem withSign_self {bits : Nat} (hbits : bits < 2 ^ fmtBits f) :
    withSign f (bits.testBit (f.exp + f.frac)) (bits / 2 ^ f.frac % 2 ^ f.exp * 2 ^ f.frac + bits % 2 ^ f.frac) = bits := by
  have hmag : bits / 2 ^ f.frac % 2 ^ f.exp * 2 ^ f.frac + bits % 2 ^ f.frac = bits % 2 ^ (f.exp + f.frac) := by
    rw [Nat.add_comm f.exp, Nat.pow_add, Nat.mod_mul, Nat.mul_comm, Nat.add_comm]
  have hsplit := Nat.div_add_mod' bits (2 ^ (f.exp + f.frac))
  have hhigh : bits / 2 ^ (f.exp + f.frac) < 2 := by
    rw [Nat.div_lt_iff_lt_mul (Nat.two_pow_pos _), ← Nat.pow_succ']
    exact Nat.lt_of_lt_of_eq hbits (congrArg _ (by rw [fmtBits]; omega))
  rw [hmag, withSign, signBit, Nat.testBit_eq_decide_div_mod_eq]
  generalize 2 ^ (f.exp + f.frac) = p at *
  obtain h | h := Nat.le_one_iff_eq_zero_or_eq_one.mp (Nat.le_of_lt_succ hhigh)
  all_goals
    rw [h] at hsplit ⊢
    simpa [Nat.add_comm] using hsplit

/-- A pattern that is no NaN packs back into itself. -/
theorem packFp_unpackFp {bits : Nat} (hbits : bits < 2 ^ fmtBits f) (hnan : isNan (unpackFp f bits) = false) :
    packFp f rnd (unpackFp f bits) = (bits, 0) := by
  have hself := withSign_self hbits
  have hfrac : bits % 2 ^ f.frac < 2 ^ f.frac := Nat.mod_lt _ (Nat.two_pow_pos _)
  have hexp : bits / 2 ^ f.frac % 2 ^ f.exp ≤ expMax f := Nat.le_pred_of_lt (Nat.mod_lt _ (Nat.two_pow_pos _))
  unfold unpackFp at hnan ⊢
  generalize bits.testBit (f.exp + f.frac) = neg at *
  generalize bits / 2 ^ f.frac % 2 ^ f.exp = field at *
  generalize bits % 2 ^ f.frac = frac at *
  obtain rfl | hfield : field = expMax f ∨ field < expMax f := Nat.eq_or_lt_of_le hexp
  · obtain rfl | hne := Nat.eq_zero_or_pos frac
    · simpa [packFp, infBits] using hself
    · simp [Nat.ne_of_gt hne, isNan] at hnan
  have hfin (j s : Nat) (hmag : j * 2 ^ f.frac + s = field * 2 ^ f.frac + frac) : j * 2 ^ f.frac + s < infBits f :=
    calc j * 2 ^ f.frac + s < (field + 1) * 2 ^ f.frac := by rw [Nat.succ_mul]; omega
      _ ≤ infBits f := Nat.mul_le_mul_right _ hfield
  simp only [Nat.ne_of_lt hfield, if_false]
  obtain rfl | hnormal := Nat.eq_zero_or_pos field
  · obtain rfl | hne := Nat.eq_zero_or_pos frac
    · simpa [packFp] using hself
    · have hround := roundFin_exact (f := f) rnd neg (s := frac) (j := 0) (Nat.ne_of_gt hne) (by rw [Nat.pow_succ]; omega)
        (.inr rfl) (hfin _ _ rfl)
      rw [hself] at hround
      simpa [packFp, Nat.ne_of_gt hne] using hround
  · obtain ⟨j, rfl⟩ : ∃ j, field = j + 1 := ⟨field - 1, by omega⟩
    have hmag : j * 2 ^ f.frac + (frac + 2 ^ f.frac) = (j + 1) * 2 ^ f.frac + frac := by rw [Nat.succ_mul]; omega
    have hround := roundFin_exact (f := f) rnd neg (s := frac + 2 ^ f.frac) (j := j) (by omega) (by rw [Nat.pow_succ]; omega)
      (.inl (Nat.le_add_left _ _)) (hfin _ _ hmag)
    have hplace : ((j + 1 : Nat) : Int) - biasOf f - f.frac = minExp f - f.frac + j := by rw [minExp]; omega
    rw [if_neg (Nat.succ_ne_zero j), packFp, if_neg (by omega), hplace, hround, hmag, hself]

end Representable

theorem representableIsExact : Claims.RepresentableIsExact :=
  fun _ _ _ hbits hnan rnd _ => packFp_unpackFp rnd hbits hnan

/-- Settles O6: invalid operations case by case, the modes by the quotient and the remainder they round with, and values that a
format holds by rounding at their own place. -/
theorem floatCorners : Obligations.FloatCorners := ⟨floatInvalid, roundingModes, representableIsExact⟩

end Sys2Proof.FloatCorners
end

section
/-! O9, REDUX.ADD of an integer type (spec/07 R151): at stride st of its tree each lane holds the sum of the running lanes of the
block of st lanes that it stands in. -/

namespace Sys2Proof.ReduxSums

open Sys2Proof.Machine Sys2Proof.Safety Sys2Proof.Laws

/-! ### Partial sums -/

/-- The sum of values modulo 2 to a width; none of no values. -/
def partialSum (w : Nat) (vs : List Nat) : Option Nat := if vs = [] then none else some (vs.sum % 2 ^ w)

theorem partialSum_nil (w : Nat) : partialSum w [] = none := rfl

theorem partialSum_of_ne_nil {vs : List Nat} (w : Nat) (h : vs ≠ []) : partialSum w vs = some (vs.sum % 2 ^ w) := if_neg h

theorem partialSum_eq_none {w : Nat} {vs : List Nat} (h : partialSum w vs = none) : vs = [] := by
  by_cases hnil : vs = []
  · exact hnil
  · simp [partialSum_of_ne_nil w hnil] at h

theorem partialSum_eq_some {w x : Nat} {vs : List Nat} (h : partialSum w vs = some x) : vs ≠ [] ∧ vs.sum % 2 ^ w = x := by
  by_cases hnil : vs = []
  · simp [hnil, partialSum_nil] at h
  · exact ⟨hnil, by simpa [partialSum_of_ne_nil w hnil] using h⟩

section Combine
variable {f : A3} (hadd : f.aux.toNat % 8 = 0) (hint : f.ty ∈ scalarTypes)
include hadd hint

/-- REDUX.ADD combines two integers by adding them modulo the width. -/
theorem combine_add (x y : Nat) : combine f x y = ((x + y) % 2 ^ tyWidth f.ty, 0) := by
  have hnot : (f.ty == .f32) = false := by
    rw [beq_eq_false_iff_ne]
    intro hf32
    rw [hf32] at hint
    exact absurd hint (by decide)
  simp [combine, hadd, hnot]

/-- Two partial sums combine into that of the values of both. -/
theorem combPartial_add {x y : Option Nat} {xs ys : List Nat} (fl : FpFlags)
    (hx : x.map (· % 2 ^ tyWidth f.ty) = partialSum (tyWidth f.ty) xs)
    (hy : y.map (· % 2 ^ tyWidth f.ty) = partialSum (tyWidth f.ty) ys) :
    (combPartial f x y fl).1.map (· % 2 ^ tyWidth f.ty) = partialSum (tyWidth f.ty) (xs ++ ys) := by
  cases x with
  | none =>
    rw [partialSum_eq_none hx.symm]
    simpa [combPartial] using hy
  | some a =>
    obtain ⟨hxs, hxsum⟩ := partialSum_eq_some hx.symm
    cases y with
    | none =>
      rw [partialSum_eq_none hy.symm]
      simpa [combPartial] using hx
    | some b =>
      obtain ⟨-, hysum⟩ := partialSum_eq_some hy.symm
      rw [partialSum_of_ne_nil _ (by simp [hxs]), List.sum_append, Nat.add_mod, hxsum, hysum]
      simp [combPartial, combine_add hadd hint]

end Combine

/-! ### The lanes that a step of the tree combines -/

/-- The left one of the two lanes that meet at lane l at distance st. -/
def leftLane (st l : Nat) : Nat := if l / st % 2 = 0 then l else l - st

theorem lane_reduxStep (f : A3) (v : Lanes Partial) (st : Nat) {l : Nat} (hl : l < 32) :
    lane (reduxStep f v st) l = combPartial f (lane v (leftLane st l)).1 (lane v (leftLane st l + st)).1 (lane v l).2 :=
  lane_lanesOf _ hl

theorem leftLane_div (st l : Nat) : leftLane st l / st = l / (2 * st) * 2 := by
  rw [Nat.mul_comm 2, ← Nat.div_div_eq_div_mul, leftLane]
  split
  · omega
  · have hprev : (l - st) / st = l / st - 1 := by simpa using Nat.sub_mul_div l st 1
    omega

/-- The left lane stands in the left half of the block of 2 st lanes around l. -/
theorem leftLane_block (st l : Nat) : leftLane st l / st * st = l / (2 * st) * (2 * st) := by
  rw [leftLane_div, Nat.mul_assoc]

/-- The lane st further on stands in its right half. -/
theorem rightLane_block {st : Nat} (hst : 0 < st) (l : Nat) : (leftLane st l + st) / st * st = l / (2 * st) * (2 * st) + st := by
  rw [Nat.add_div_right _ hst, Nat.succ_mul, leftLane_block]

/-- Both lanes are lanes of the warp. -/
theorem rightLane_lt {st l : Nat} (hst : 0 < st) (hdvd : 2 * st ∣ 32) (hl : l < 32) : leftLane st l + st < 32 := by
  obtain ⟨c, hc⟩ := hdvd
  have hblock : l / (2 * st) < c := Nat.div_lt_of_lt_mul (hc ▸ hl)
  have hleft := Nat.lt_div_mul_add (a := leftLane st l) hst
  rw [leftLane_block] at hleft
  calc leftLane st l + st < (l / (2 * st) + 1) * (2 * st) := by rw [Nat.succ_mul]; omega
    _ ≤ 32 := by rw [hc, Nat.mul_comm (2 * st)]; exact Nat.mul_le_mul_right _ hblock

/-! ### The tree -/

/-- The values of the running lanes among some lanes. -/
def running (f : A3) (s : State) (ls : List Nat) : List Nat := (ls.filter (bitAt (runMask (ctxOf s)))).map (srcA f s)

/-- At stride st each lane holds the sum of the running lanes of the block of st lanes that it stands in. -/
def Summed (f : A3) (s : State) (st : Nat) (v : Lanes Partial) : Prop :=
  ∀ l < 32, (lane v l).1.map (· % 2 ^ tyWidth f.ty) = partialSum (tyWidth f.ty) (running f s (List.range' (l / st * st) st))

theorem summed_start (f : A3) (s : State) : Summed f s 1 (treeStart f s) := by
  intro l hl
  rw [treeStart, lane_lanesOf _ hl, Nat.div_one, Nat.mul_one, List.range'_one, running]
  by_cases hrun : bitAt (runMask (ctxOf s)) l = true <;> simp [hrun, partialSum]

section Tree
variable {f : A3} {s : State} (hadd : f.aux.toNat % 8 = 0) (hint : f.ty ∈ scalarTypes)
include hadd hint

/-- A step of the tree doubles the blocks. -/
theorem Summed.step {st : Nat} {v : Lanes Partial} (h : Summed f s st v) (hst : 0 < st) (hdvd : 2 * st ∣ 32) :
    Summed f s (2 * st) (reduxStep f v st) := by
  intro l hl
  have hright := rightLane_lt hst hdvd hl
  have hblocks : running f s (List.range' (l / (2 * st) * (2 * st)) (2 * st)) =
      running f s (List.range' (leftLane st l / st * st) st) ++ running f s (List.range' ((leftLane st l + st) / st * st) st) := by
    rw [leftLane_block, rightLane_block hst, Nat.two_mul st, ← List.range'_append_1, running, List.filter_append, List.map_append]
    rfl
  rw [lane_reduxStep f v st hl, hblocks]
  exact combPartial_add hadd hint _ (h (leftLane st l) (by omega)) (h _ hright)

/-- The five steps of the tree make one block of all lanes. -/
theorem summed_tree : Summed f s 32 ([1, 2, 4, 8, 16].foldl (reduxStep f) (treeStart f s)) :=
  have h1 := (summed_start f s).step hadd hint (by decide) (by decide)
  have h2 := h1.step hadd hint (by decide) (by decide)
  have h4 := h2.step hadd hint (by decide) (by decide)
  have h8 := h4.step hadd hint (by decide) (by decide)
  h8.step hadd hint (by decide) (by decide)

end Tree

theorem runners_ne_nil {s : State} (hrun : runMask (ctxOf s) ≠ 0) : runners s ≠ [] := by
  intro hnil
  refine hrun (BitVec.eq_of_getLsbD_eq fun l hl => ?_)
  have hoff := List.filter_eq_nil_iff.mp hnil l (List.mem_range.mpr hl)
  simpa using hoff

/-- Settles O9: the invariant of the tree at its last stride, where the one block holds every running lane. -/
theorem reduxAddSums : Obligations.ReduxAddSums := by
  intro f s l hadd hint hrun hl
  have hblock : running f s (List.range' (l / 32 * 32) 32) = (runners s).map fun m => srcA f s m := by
    rw [Nat.div_eq_of_lt hl, Nat.zero_mul, ← List.range_eq_range']
    rfl
  rw [summed_tree hadd hint l hl, hblock, partialSum_of_ne_nil _ (by simpa using runners_ne_nil hrun)]

end Sys2Proof.ReduxSums
end
